-- ==== Sys2Proof/Word.lean ====
section
/-! DEFINITION. The word types of the RS16 core: the byte of its memories and the 32-bit register word
(10_state.md R31). -/

namespace Sys2Proof

/-- A byte of slot, work, staging or data-buffer memory. -/
abbrev Byte := BitVec 8

/-- A register of the window, and a command word (10_state.md R31, 30_encoding.md R120). -/
abbrev Word := BitVec 32

/-- The widest host access, 8 bytes (20_memory.md R89). -/
abbrev DWord := BitVec 64

end Sys2Proof
end

