-- ==== Sys2Proof/Syntax.lean ====
section
/-! DEFINITION. The instructions of the RS16 core: one constructor per row of spec/opcode_table.json
(30_encoding.md R124). An instruction holds no operand: every operand comes from ARG0 to ARG7 and the
configuration registers when the command runs (30_encoding.md R125). -/

namespace Sys2Proof

/-- The two fields, GF(2^8) and GF(2^16) (41_field_tables.md R150). -/
inductive GF where
  | gf8
  | gf16
deriving DecidableEq, Repr

/-- The 36 commands (30_encoding.md R124). A field-dependent opcode has two rows: W = 0 is the form over
GF(2^8), W = 1 the form over GF(2^16) (30_encoding.md R122). -/
inductive Instr where
  | config
  | gfLog8 | gfLog16
  | gfExp8 | gfExp16
  | gfMul8 | gfMul16
  | gfMulLog8 | gfMulLog16
  | skewRead8 | skewRead16
  | xorSlice
  | mul8 | mul16
  | mulAdd8 | mulAdd16
  | fftDit2x8 | fftDit2x16
  | ifftDit2x8 | ifftDit2x16
  | fftDit4x8 | fftDit4x16
  | ifftDit4x8 | ifftDit4x16
  | encode
  | verify
  | reconstruct
  | reconstructData
  | split
  | join
  | streamEncode
  | streamVerify
  | streamReconstruct
  | streamReconstructData
  | streamSplit
  | streamJoin
deriving DecidableEq, Repr

/-- The fields of a command word (30_encoding.md R120). -/
structure CommandWord where
  /-- OPC, bits 7 to 0. -/
  opc : BitVec 8
  /-- W, bit 8. -/
  w : Bool
  /-- RSV, bits 31 to 9. -/
  rsv : BitVec 23
deriving DecidableEq, Repr

/-- Why a word is no legal command (30_encoding.md R131, R132). The core answers each of them with
IllegalCommand, which is the next state of an accepted and completed command: safe. -/
inductive DecodeError where
  /-- RSV is not 0 (30_encoding.md R123). -/
  | reservedBits
  /-- OPC is not in the opcode map (30_encoding.md R124). -/
  | reservedOpcode
  /-- W = 1 on an opcode that takes no W (30_encoding.md R122). -/
  | widthNotTaken
  /-- The bytes given to the decoder are not one 32-bit word (30_encoding.md R120). -/
  | notOneWord
deriving DecidableEq, Repr

end Sys2Proof
end

