-- ==== Sys2Proof/Decode.lean ====
section
/-! DEFINITION. Decoding and encoding command words (30_encoding.md R120 to R132). A word has one length and one
format, CMD32; the decoder is total and names what it rejects. -/

namespace Sys2Proof

/-- The fields of a word: OPC = bits 7 to 0, W = bit 8, RSV = bits 31 to 9 (30_encoding.md R120). -/
def CommandWord.ofWord (v : Word) : CommandWord where
  opc := v.extractLsb' 0 8
  w := v.getLsbD 8
  rsv := v.extractLsb' 9 23

/-- The word of the fields. -/
def CommandWord.toWord (c : CommandWord) : Word :=
  c.rsv ++ BitVec.ofBool c.w ++ c.opc

/-- A row of the opcode map: the command with W = 0 and, on a field-dependent opcode, the command with
W = 1 (30_encoding.md R122, R124). -/
def opcodeRow (opc : BitVec 8) : Option (Instr × Option Instr) :=
  match opc.toNat with
  | 0x01 => some (.config, none)
  | 0x10 => some (.gfLog8, some .gfLog16)
  | 0x11 => some (.gfExp8, some .gfExp16)
  | 0x12 => some (.gfMul8, some .gfMul16)
  | 0x13 => some (.gfMulLog8, some .gfMulLog16)
  | 0x14 => some (.skewRead8, some .skewRead16)
  | 0x20 => some (.xorSlice, none)
  | 0x21 => some (.mul8, some .mul16)
  | 0x22 => some (.mulAdd8, some .mulAdd16)
  | 0x30 => some (.fftDit2x8, some .fftDit2x16)
  | 0x31 => some (.ifftDit2x8, some .ifftDit2x16)
  | 0x32 => some (.fftDit4x8, some .fftDit4x16)
  | 0x33 => some (.ifftDit4x8, some .ifftDit4x16)
  | 0x40 => some (.encode, none)
  | 0x41 => some (.verify, none)
  | 0x42 => some (.reconstruct, none)
  | 0x43 => some (.reconstructData, none)
  | 0x44 => some (.split, none)
  | 0x45 => some (.join, none)
  | 0x50 => some (.streamEncode, none)
  | 0x51 => some (.streamVerify, none)
  | 0x52 => some (.streamReconstruct, none)
  | 0x53 => some (.streamReconstructData, none)
  | 0x54 => some (.streamSplit, none)
  | 0x55 => some (.streamJoin, none)
  | _ => none

/-- Decoding the fields of a word, in the order of 30_encoding.md R132. -/
def CommandWord.decode (c : CommandWord) : Except DecodeError Instr :=
  if c.rsv ≠ 0 then .error .reservedBits
  else
    match opcodeRow c.opc with
    | none => .error .reservedOpcode
    | some (narrow, wide) =>
      if c.w then
        match wide with
        | none => .error .widthNotTaken
        | some i => .ok i
      else .ok narrow

/-- `decode(word)` (30_encoding.md R132). -/
def decode (v : Word) : Except DecodeError Instr :=
  (CommandWord.ofWord v).decode

/-- The 32-bit word that bytes stand for, the first byte lowest (20_memory.md R82). -/
def wordOfBytes : List Byte → Option Word
  | [b0, b1, b2, b3] => some (b3 ++ b2 ++ b1 ++ b0)
  | _ => none

/-- The bytes of a word, the lowest first (20_memory.md R82). -/
def bytesOfWord (v : Word) : List Byte :=
  [v.extractLsb' 0 8, v.extractLsb' 8 8, v.extractLsb' 16 8, v.extractLsb' 24 8]

/-- Decoding any bytes: a command is one 32-bit word and nothing else (30_encoding.md R120). -/
def decodeBytes (bs : List Byte) : Except DecodeError Instr :=
  match wordOfBytes bs with
  | none => .error .notOneWord
  | some v => decode v

/-- OPC of a command (30_encoding.md R124). -/
def Instr.opc : Instr → BitVec 8
  | .config => 0x01
  | .gfLog8 | .gfLog16 => 0x10
  | .gfExp8 | .gfExp16 => 0x11
  | .gfMul8 | .gfMul16 => 0x12
  | .gfMulLog8 | .gfMulLog16 => 0x13
  | .skewRead8 | .skewRead16 => 0x14
  | .xorSlice => 0x20
  | .mul8 | .mul16 => 0x21
  | .mulAdd8 | .mulAdd16 => 0x22
  | .fftDit2x8 | .fftDit2x16 => 0x30
  | .ifftDit2x8 | .ifftDit2x16 => 0x31
  | .fftDit4x8 | .fftDit4x16 => 0x32
  | .ifftDit4x8 | .ifftDit4x16 => 0x33
  | .encode => 0x40
  | .verify => 0x41
  | .reconstruct => 0x42
  | .reconstructData => 0x43
  | .split => 0x44
  | .join => 0x45
  | .streamEncode => 0x50
  | .streamVerify => 0x51
  | .streamReconstruct => 0x52
  | .streamReconstructData => 0x53
  | .streamSplit => 0x54
  | .streamJoin => 0x55

/-- W of a command: 1 on the GF(2^16) forms (30_encoding.md R122). -/
def Instr.wbit : Instr → Bool
  | .gfLog16 | .gfExp16 | .gfMul16 | .gfMulLog16 | .skewRead16 | .mul16 | .mulAdd16 | .fftDit2x16
  | .ifftDit2x16 | .fftDit4x16 | .ifftDit4x16 => true
  | .config | .gfLog8 | .gfExp8 | .gfMul8 | .gfMulLog8 | .skewRead8 | .xorSlice | .mul8 | .mulAdd8
  | .fftDit2x8 | .ifftDit2x8 | .fftDit4x8 | .ifftDit4x8 | .encode | .verify | .reconstruct
  | .reconstructData | .split | .join | .streamEncode | .streamVerify | .streamReconstruct
  | .streamReconstructData | .streamSplit | .streamJoin => false

/-- The fields of a command's word; RSV is 0 (30_encoding.md R120, R123). -/
def Instr.fields (i : Instr) : CommandWord where
  opc := i.opc
  w := i.wbit
  rsv := 0

/-- The word of a command, OPC | (W << 8) (30_encoding.md R124). -/
def encode (i : Instr) : Word :=
  i.fields.toWord

/-- The instruction the decoder reads from a word of the opcode table: the bits above `nbits` are 0, and the
word's bytes go to the decoder lowest first (20_memory.md R82). -/
def decodeTableWord (nbits w : Nat) : Option Instr :=
  match decodeBytes (bytesOfWord (BitVec.ofNat 32 (w % 2 ^ nbits))) with
  | .ok i => some i
  | .error _ => none

end Sys2Proof
end

