-- ==== Sys2Proof/Config.lean ====
section
/-! DEFINITION. What an implementation of the RS16 core fixes (00_scope.md R7, 92_eei_decisions.md §2), the
constants that every implementation shares, and the free values. The OPEN parameters are one structure,
held unchanged in the state: the spec takes each of them as an argument of the model. -/

namespace Sys2Proof

/-- How a GF(2^16) element lies in shard bytes (20_memory.md R84, R85). -/
inductive Elem16Layout where
  | split64
  | le16
deriving DecidableEq, Repr

/-- The native vector width VEC_W: 0, 16, 32 or 64 bytes (00_scope.md R7, 42_kernels.md R196). -/
inductive VecWidth where
  | scalar
  | bytes16
  | bytes32
  | bytes64
deriving DecidableEq, Repr

/-- The OPEN parameters (00_scope.md R7, 92_eei_decisions.md §2). No step changes them. -/
structure Params where
  /-- SLOT_CAP: bytes per shard slot and per work buffer. -/
  slotCap : Nat
  /-- WORK_BUFS: number of work buffers. -/
  workBufs : Nat
  /-- DBUF_CAP: bytes of the data buffer. -/
  dbufCap : Nat
  /-- STG_CAP: bytes per staging buffer. -/
  stgCap : Nat
  /-- VEC_W, reported in CAPS only. -/
  vecW : VecWidth
  /-- ELEM16_LAYOUT. -/
  layout : Elem16Layout
  /-- MMIO_BASE, the host address of the register window. -/
  mmioBase : Nat
  /-- SLEN_BASE, the host address of the slot-length table. -/
  slenBase : Nat
  /-- SLOT_BASE, the host address of the slot data region. -/
  slotBase : Nat
  /-- DBUF_BASE, the host address of the data buffer. -/
  dbufBase : Nat
  /-- IRQ_LINE, the host's interrupt line; nothing in the core reads it (60_exceptions.md R361). -/
  irqLine : Nat
deriving DecidableEq, Repr

namespace Config

/-- NSLOT (00_scope.md R7). -/
abbrev nslot : Nat := 65536

/-- NPORT (00_scope.md R7). -/
abbrev nport : Nat := 65536

/-- N_MAX, the largest total shard count (00_scope.md R7). -/
abbrev nMax : Nat := 65536

/-- A, the shard alignment in bytes (00_scope.md R7, 10_state.md R47). -/
abbrev align : Nat := 64

/-- Bytes of the register window (10_state.md R31). -/
abbrev windowBytes : Nat := 4096

/-- The ID register's constant (10_state.md R33). -/
abbrev idWord : Word := 0x52533136

/-- B_DEFAULT, the reset value of CFG_BLOCK (00_scope.md R7, 10_state.md R45). -/
abbrev blockDefault : Word := 0x00400000

/-- FREE VALUE: the byte that an address nothing has written stands for, in draw `gen`
(70_reset_and_hazards.md R380, 10_state.md R56, R57). Nothing constrains it. -/
opaque freeByte (gen addr : Nat) : Byte

/-- FREE VALUE: the choice that the spec leaves open in draw `n` (45_stream.md R296). Nothing constrains
it. -/
opaque freeChoice (n : Nat) : Nat

/-- DESIGN CHOICE (log entry 2): the parameters of `State.reset`. WORK_BUFS and ELEM16_LAYOUT are the
spec's defaults; for the others the spec gives none. -/
def defaultParams : Params where
  slotCap := 0x400000
  workBufs := 65536
  dbufCap := 0x400000
  stgCap := 0x400000
  vecW := .scalar
  layout := .split64
  mmioBase := 0
  slenBase := 0x100000
  slotBase := 0x4000000000
  dbufBase := 0x200000
  irqLine := 0

end Config

end Sys2Proof
end

