-- ==== Sys2Proof/Machine/State.lean ====
section
/-! DEFINITION. The state of the RS16 core (10_state.md), with the port environment (R59) and what the host and
the environment do next. State is plain data. -/

namespace Sys2Proof.Machine

/-- The sequencer states (10_state.md R48). -/
inductive Seq where
  | idle
  | borrowWork
  | setupTables
  | runFfts
  | writeResults
  | releaseWork
  | streamIo
deriving DecidableEq, Repr

/-- CTRL (10_state.md R35). -/
structure Ctrl where
  /-- CTRL[0], enables the completion interrupt. -/
  irqEn : Bool
  /-- CTRL[1], the concurrent I/O mode of the stream commands. -/
  parIo : Bool
deriving DecidableEq, Repr

/-- The stored fields of STATUS (10_state.md R36). BUSY is not stored: it is seq ≠ IDLE (R37). -/
structure Status where
  /-- STATUS[1] (R38). -/
  done : Bool
  /-- STATUS[2] (R39). -/
  err : Bool
  /-- STATUS[3] (R40). -/
  verifyOk : Bool
  /-- STATUS[4] (R41). -/
  configured : Bool
  /-- STATUS[5] (R41). -/
  field16 : Bool
  /-- STATUS[6] (R42). -/
  ovr : Bool
  /-- STATUS[15:8] (R39). -/
  errCode : BitVec 8
deriving DecidableEq, Repr

/-- The configuration registers that the host writes (10_state.md R43 to R45). -/
structure Cfg where
  /-- CFG_K (R44). -/
  k : Word
  /-- CFG_M (R44). -/
  m : Word
  /-- CFG_CONC (R43). -/
  conc : Word
  /-- CFG_BLOCK (R45). -/
  block : Word
deriving DecidableEq, Repr

/-- The GEO registers (10_state.md R46). -/
structure Geo where
  /-- GEO_K. -/
  k : Word
  /-- GEO_M. -/
  m : Word
  /-- GEO_N. -/
  n : Word
  /-- GEO_MPOW. -/
  mpow : Word
deriving DecidableEq, Repr

/-- One memory: the bytes written since the last draw, by rising address, and which draw every other byte
stands for. An address below the bound of an entry of `spoiled` (the first such entry) was drawn afresh in
that entry's draw, any other one in draw `base` (70_reset_and_hazards.md R380, R394). -/
structure Memory where
  cells : List Host.Cell
  base : Nat
  spoiled : List (Nat × Nat)
deriving DecidableEq, Repr

/-- How a reader's data ends (10_state.md R59). -/
inductive Term where
  | eof
  | err (c : Word)
deriving DecidableEq, Repr

/-- An input port, IN[i] (10_state.md R59). -/
structure InPort where
  conn : Bool
  data : List Byte
  pos : Nat
  term : Term
deriving DecidableEq, Repr

/-- An output port, OUT[j] (10_state.md R59). -/
structure OutPort where
  conn : Bool
  written : List Byte
deriving DecidableEq, Repr

/-- The block commands of the stream adaptor (45_stream.md R310 to R313). -/
inductive BlockKind where
  | encode
  | verify
  | reconstruct (dataOnly : Bool)
deriving DecidableEq, Repr

/-- The command that waits on a port, and where it stands (45_stream.md R297). The port operation that is
outstanding is the first of the job's list, or the one its constructor names. -/
inductive Job where
  /-- READ_BLOCK (45_stream.md R293): `todo` are the readers still to be read, in order, `lens` the lengths
  read so far by reader, `fails` the failed readers with their error words. -/
  | readBlock (kind : BlockKind) (blocks : Nat) (todo : List Nat) (lens : List (Nat × Nat))
      (fails : List (Nat × Word))
  /-- The writes of one block still to be made, in order (45_stream.md R310, R312). -/
  | writeBlock (kind : BlockKind) (blocks : Nat) (todo : List (Nat × List Byte))
      (fails : List (Nat × Word))
  /-- STREAM_SPLIT's one read of `size` bytes (45_stream.md R314). -/
  | splitRead (size : Nat)
  /-- STREAM_SPLIT's writes still to be made, in order (45_stream.md R314). -/
  | splitWrite (perShard : Nat) (todo : List (Nat × List Byte)) (fails : List (Nat × Word))
  /-- JOIN's write from slot `j` with `rem` bytes left of `outSize` (45_stream.md R301). -/
  | joinWrite (j rem outSize : Nat)
  /-- STREAM_JOIN's read from reader `j` (45_stream.md R315). -/
  | streamJoinRead (j rem total : Nat)
  /-- STREAM_JOIN's write of the bytes that reader `j` gave (45_stream.md R315). -/
  | streamJoinWrite (j rem total : Nat) (bytes : List Byte)
deriving DecidableEq, Repr

/-- The port environment's answer to the outstanding port operation (45_stream.md R290, R291, R299). -/
inductive Reply where
  /-- A read is answered from the port's contents, a write with OK. -/
  | served
  /-- FAIL(c). `n` is the environment's choice too: of a write, how many bytes were taken before the failure,
  of a cancelled read, how many bytes the reader's position moves by. -/
  | failed (c : Word) (n : Nat)
deriving DecidableEq, Repr

/-- A host access to the core's regions, of `width` bytes at host address `addr` (20_memory.md R81). -/
inductive Access where
  | read (addr width : Nat)
  | write (addr width : Nat) (value : DWord)
deriving DecidableEq, Repr

/-- What the host and the port environment do next (70_reset_and_hazards.md R395). -/
inductive Input where
  | access (a : Access)
  | reply (r : Reply)
  /-- The reset input is asserted (70_reset_and_hazards.md R380). -/
  | reset
  /-- The host sets IN[i] (70_reset_and_hazards.md R395). -/
  | setIn (i : Nat) (p : InPort)
  /-- The host sets OUT[j] (70_reset_and_hazards.md R395). -/
  | setOut (j : Nat) (p : OutPort)
deriving DecidableEq, Repr

/-- The machine. Fields are the spec's but for `params`, `draws`, `inputs` and `readValue`, which are the
model's own (INVENTORY.md, State). -/
structure State where
  /-- The OPEN parameters (00_scope.md R7); no step changes them. -/
  params : Params
  /-- CTRL (10_state.md R35). -/
  ctrl : Ctrl
  /-- STATUS (10_state.md R36). -/
  status : Status
  /-- The sequencer state (10_state.md R48). -/
  seq : Seq
  /-- CTRL.PAR_IO as latched at acceptance (60_exceptions.md R343). -/
  parIoLatch : Bool
  /-- ERRSTREAM[15:0] (10_state.md R51). -/
  errStream : BitVec 16
  /-- ERRINNER (10_state.md R51). -/
  errInner : Word
  /-- RESULT (10_state.md R55). -/
  result : Word
  /-- CFG_K, CFG_M, CFG_CONC, CFG_BLOCK (10_state.md R43 to R45). -/
  cfg : Cfg
  /-- GEO_K, GEO_M, GEO_N, GEO_MPOW (10_state.md R46). -/
  geo : Geo
  /-- DLEN (10_state.md R54). -/
  dlen : Word
  /-- ARG0 to ARG7 (10_state.md R50). -/
  args : Vector Word 8
  /-- SLEN: the slots of nonzero length, by rising index (10_state.md R52). -/
  slen : List (Nat × Word)
  /-- Slot data: byte j of SLOT[i] at i × SLOT_CAP + j (10_state.md R52, 20_memory.md R81). -/
  slots : Memory
  /-- The data buffer (10_state.md R54). -/
  dbuf : Memory
  /-- Work buffers: byte j of WORK[i] at i × SLOT_CAP + j (10_state.md R56). -/
  work : Memory
  /-- Staging buffers: byte j of STG[i] at i × STG_CAP + j (10_state.md R57). -/
  stg : Memory
  /-- The input ports that are not disconnected and empty, by rising index (10_state.md R59). -/
  inPorts : List (Nat × InPort)
  /-- The output ports that are not disconnected and empty, by rising index (10_state.md R59). -/
  outPorts : List (Nat × OutPort)
  /-- The command that waits on a port (45_stream.md R297). -/
  job : Option Job
  /-- How many free values have been drawn. -/
  draws : Nat
  /-- What the host and the port environment do next, oldest first. -/
  inputs : List Input
  /-- The value the last host read was given. -/
  readValue : DWord
deriving DecidableEq, Repr

/-- Why the machine stops with a fault. -/
inductive Fault where
  /-- Raised by a host access to an address outside the core's four regions (20_memory.md R81). Safe: the
  access does not belong to the core. -/
  | unmapped (addr : Nat)
  /-- Raised by `Input.setIn` and `Input.setOut` with an index that is no port (10_state.md R59). Safe. -/
  | noSuchPort (i : Nat)
deriving DecidableEq, Repr

/-- Why the model gives a step no meaning. -/
inductive Refusal where
  /-- Raised by `exec` for an instruction that has no meaning yet. Safe. -/
  | notModelled (mnemonic : String)
  /-- Raised by a host access whose width or alignment the spec refuses (20_memory.md R87, R89). Safe: the
  host must not issue it. -/
  | badAccess (addr width : Nat)
  /-- Raised by a port change while a command runs (10_state.md R59, 93_implementation_defined.md U10). Safe:
  the host must not make it. -/
  | portChangeWhileBusy
  /-- Raised by a port answer when no port operation is outstanding (45_stream.md R297). Safe: there is
  nothing to answer. -/
  | noPortOperation
deriving DecidableEq, Repr

/-- A memory of which nothing has been written, in draw `gen`. -/
def Memory.drawn (gen : Nat) : Memory where
  cells := []
  base := gen
  spoiled := []

/-- The machine right after reset with the parameters `p`: every register at the value of
70_reset_and_hazards.md R380, every byte of memory a free value, every port disconnected and empty (DESIGN
CHOICE, log entry 5: ports are not core state), no input yet. -/
def State.resetWith (p : Params) : State where
  params := p
  ctrl := { irqEn := false, parIo := false }
  status :=
    { done := false, err := false, verifyOk := false, configured := false, field16 := false,
      ovr := false, errCode := 0 }
  seq := .idle
  parIoLatch := false
  errStream := 0
  errInner := 0
  result := 0
  cfg := { k := 0, m := 0, conc := 1, block := Config.blockDefault }
  geo := { k := 0, m := 0, n := 0, mpow := 0 }
  dlen := 0
  args := Vector.replicate 8 0
  slen := []
  slots := Memory.drawn 0
  dbuf := Memory.drawn 1
  work := Memory.drawn 2
  stg := Memory.drawn 3
  inPorts := []
  outPorts := []
  job := none
  draws := 4
  inputs := []
  readValue := 0

/-- The machine right after reset (70_reset_and_hazards.md R380), with the parameters of log entry 2. -/
def State.reset : State :=
  State.resetWith Config.defaultParams

end Sys2Proof.Machine
end

