-- ==== Sys2Proof/Machine/Flags.lean ====
section
/-! DEFINITION. The error codes (60_exceptions.md R340), the STATUS and CAPS words (10_state.md R34, R36) and the
interrupt (60_exceptions.md R360). -/

namespace Sys2Proof.Machine

/-- The errors a command can end with (60_exceptions.md R340). The two I/O errors hold the port index and the
environment's error word (10_state.md R51). -/
inductive Err where
  | invalidShardNum
  | maxShardNum
  | tooFewShards
  | shardNoData
  | shardSize
  | emptyShards
  | invalidShards
  | shortData
  | reconstructMismatch
  | nilWriter
  | size
  | streamReadError (port : Nat) (c : Word)
  | streamWriteError (port : Nat) (c : Word)
  | illegalCommand
  | illegalOperand
  | notConfigured
  | capacity
deriving DecidableEq, Repr

/-- The value of ERRCODE for an error (60_exceptions.md R340). -/
def Err.code : Err → BitVec 8
  | .invalidShardNum => 1
  | .maxShardNum => 2
  | .tooFewShards => 3
  | .shardNoData => 4
  | .shardSize => 5
  | .emptyShards => 6
  | .invalidShards => 7
  | .shortData => 8
  | .reconstructMismatch => 9
  | .nilWriter => 10
  | .size => 11
  | .streamReadError _ _ => 12
  | .streamWriteError _ _ => 13
  | .illegalCommand => 32
  | .illegalOperand => 33
  | .notConfigured => 34
  | .capacity => 35

/-- The port that an I/O error names, and the environment's word (60_exceptions.md R341). -/
def Err.ioInfo : Err → Option (Nat × Word)
  | .streamReadError i c | .streamWriteError i c => some (i, c)
  | _ => none

/-- STATUS.BUSY = (seq ≠ IDLE) (10_state.md R37). -/
def State.busy (s : State) : Bool :=
  s.seq ≠ .idle

/-- The STATUS word (10_state.md R36): bit 7 and bits 31 to 16 read 0. -/
def State.statusWord (s : State) : Word :=
  (0 : BitVec 16) ++ s.status.errCode ++ (0 : BitVec 1) ++ BitVec.ofBool s.status.ovr
    ++ BitVec.ofBool s.status.field16 ++ BitVec.ofBool s.status.configured
    ++ BitVec.ofBool s.status.verifyOk ++ BitVec.ofBool s.status.err ++ BitVec.ofBool s.status.done
    ++ BitVec.ofBool s.busy

/-- What a host write to STATUS leaves: a 1 in bit 1 clears DONE, a 1 in bit 6 clears OVR, every other bit is
ignored (10_state.md R36). -/
def Status.writeOneToClear (st : Status) (v : Word) : Status :=
  { st with done := st.done && !v.getLsbD 1, ovr := st.ovr && !v.getLsbD 6 }

/-- The CTRL word (10_state.md R35): bits 31 to 2 read 0. -/
def Ctrl.toWord (c : Ctrl) : Word :=
  (0 : BitVec 30) ++ BitVec.ofBool c.parIo ++ BitVec.ofBool c.irqEn

/-- What a host write to CTRL stores (10_state.md R35): bits 31 to 2 are ignored. -/
def Ctrl.ofWord (v : Word) : Ctrl where
  irqEn := v.getLsbD 0
  parIo := v.getLsbD 1

/-- CAPS.VECW16 = VEC_W / 16 (10_state.md R34). -/
def vecw16 : VecWidth → BitVec 8
  | .scalar => 0
  | .bytes16 => 1
  | .bytes32 => 2
  | .bytes64 => 4

/-- The CAPS word (10_state.md R34): LOG2_A = 6, VECW16, both engines, ELEM16. -/
def capsWord (p : Params) : Word :=
  (0 : BitVec 13) ++ BitVec.ofBool (p.layout == .le16) ++ (1 : BitVec 1) ++ (1 : BitVec 1)
    ++ vecw16 p.vecW ++ (6 : BitVec 8)

/-- The interrupt output, IRQ = DONE ∧ IRQ_EN (60_exceptions.md R360). -/
def State.irq (s : State) : Bool :=
  s.status.done && s.ctrl.irqEn

/-- What a host write of `v` to CFG_CONC stores: 1 when v is not positive as a signed word (10_state.md
R43). -/
def concOfWrite (v : Word) : Word :=
  if v.toInt ≤ 0 then 1 else v

end Sys2Proof.Machine
end

