-- ==== Sys2Proof/Machine/Ops.lean ====
section
/-! DEFINITION. The named operations on memories, tables, ports and registers, and the two operations that
every command begins and ends with: acceptance (60_exceptions.md R343) and completion (R344), which is also
how an error is taken. -/

namespace Sys2Proof.Machine

/-- The byte that `cells` lists at address `a`. -/
def findCell (a : Nat) : List Host.Cell → Option Byte
  | [] => none
  | c :: cs => if c.1 = a then some c.2 else findCell a cs

/-- The cells of consecutive bytes from address `a` on. -/
def cellsFrom (a : Nat) : List Byte → List Host.Cell
  | [] => []
  | b :: bs => (a, b) :: cellsFrom (a + 1) bs

/-- The draw in which the address `a` was last drawn. -/
def Memory.genAt (m : Memory) (a : Nat) : Nat :=
  match m.spoiled.find? fun e => a < e.1 with
  | some e => e.2
  | none => m.base

/-- One byte: the byte last written, or the free value that an unwritten address stands for
(70_reset_and_hazards.md R380; log entry 3). -/
def Memory.read (m : Memory) (a : Nat) : Byte :=
  (findCell a m.cells).getD (Config.freeByte (m.genAt a) a)

/-- `MemRead`: `n` bytes from address `a` (00_scope.md R11). -/
def Memory.readBytes (m : Memory) (a n : Nat) : List Byte :=
  let tail := m.cells.dropWhile fun c => c.1 < a
  (List.range n).map fun i => (findCell (a + i) tail).getD (Config.freeByte (m.genAt (a + i)) (a + i))

/-- `MemWrite`: the bytes `bs` at address `a` and up (00_scope.md R11). -/
def Memory.writeBytes (m : Memory) (a : Nat) (bs : List Byte) : Memory :=
  { m with
    cells := m.cells.filter (fun c => c.1 < a) ++ cellsFrom a bs
      ++ m.cells.filter fun c => a + bs.length ≤ c.1 }

/-- Every byte below address `bound` becomes UNSPECIFIED: it is drawn afresh, in draw `gen` (10_state.md
R56). -/
def Memory.spoil (m : Memory) (bound gen : Nat) : Memory where
  cells := m.cells.filter fun c => bound ≤ c.1
  base := m.base
  spoiled := (bound, gen) :: m.spoiled.filter fun e => bound < e.1

/-- The keys of a list of pairs rise strictly. -/
def risingKeys {α : Type} : List (Nat × α) → Bool
  | [] => true
  | [_] => true
  | x :: y :: rest => x.1 < y.1 && risingKeys (y :: rest)

/-- The one form of a memory: addresses strictly rising. An unlisted address reads as a free value, which is
no byte of the model's, so no entry can repeat it (log entry 3). -/
def Memory.wf (m : Memory) : Bool :=
  risingKeys m.cells && risingKeys m.spoiled

/-- The entry of a table at index `i`; an unlisted index holds `dflt`. -/
def tableGet {α : Type} (dflt : α) (i : Nat) : List (Nat × α) → α
  | [] => dflt
  | e :: es => if e.1 = i then e.2 else tableGet dflt i es

/-- A table with the entry at index `i` replaced; the value `dflt` is not listed. -/
def tableSet {α : Type} [DecidableEq α] (dflt : α) (i : Nat) (v : α) (t : List (Nat × α)) :
    List (Nat × α) :=
  t.filter (fun e => e.1 < i) ++ (if v = dflt then [] else [(i, v)]) ++ t.filter fun e => i < e.1

/-- The one form of a table: indices strictly rising, and no entry equal to what an unlisted index holds. -/
def tableWf {α : Type} [DecidableEq α] (dflt : α) (t : List (Nat × α)) : Bool :=
  risingKeys t && t.all fun e => e.2 ≠ dflt

/-- A port that is disconnected and empty. -/
def InPort.empty : InPort where
  conn := false
  data := []
  pos := 0
  term := .eof

/-- A port that is disconnected and to which nothing was written. -/
def OutPort.empty : OutPort where
  conn := false
  written := []

/-- ARGi (10_state.md R50). -/
def State.arg (s : State) (i : Fin 8) : Word :=
  s.args[i]

/-- ARGi as an unsigned number (30_encoding.md R125). -/
def State.argNat (s : State) (i : Fin 8) : Nat :=
  (s.arg i).toNat

/-- SLEN[i] (10_state.md R52). -/
def State.slenWord (s : State) (i : Nat) : Word :=
  tableGet 0 i s.slen

/-- SLEN[i] as a number (10_state.md R52). -/
def State.slenAt (s : State) (i : Nat) : Nat :=
  (s.slenWord i).toNat

/-- SLEN[i] <- v (10_state.md R53). -/
def State.setSlen (s : State) (i : Nat) (v : Word) : State :=
  { s with slen := tableSet 0 i v s.slen }

/-- The address of byte 0 of SLOT[i] in `slots`, and of WORK[i] in `work` (20_memory.md R81). -/
def State.slotAddr (s : State) (i : Nat) : Nat :=
  i * s.params.slotCap

/-- The address of byte 0 of STG[i] in `stg` (10_state.md R57). -/
def State.stgAddr (s : State) (i : Nat) : Nat :=
  i * s.params.stgCap

/-- MemRead(SLOT[i], 0, n). -/
def State.slotBytes (s : State) (i n : Nat) : List Byte :=
  s.slots.readBytes (s.slotAddr i) n

/-- MemWrite(SLOT[i], 0, |bs|, bs). -/
def State.setSlotBytes (s : State) (i : Nat) (bs : List Byte) : State :=
  { s with slots := s.slots.writeBytes (s.slotAddr i) bs }

/-- MemWrite(WORK[i], 0, |bs|, bs). -/
def State.setWorkBytes (s : State) (i : Nat) (bs : List Byte) : State :=
  { s with work := s.work.writeBytes (s.slotAddr i) bs }

/-- MemRead(STG[i], 0, n). -/
def State.stgBytes (s : State) (i n : Nat) : List Byte :=
  s.stg.readBytes (s.stgAddr i) n

/-- MemWrite(STG[i], 0, |bs|, bs). -/
def State.setStgBytes (s : State) (i : Nat) (bs : List Byte) : State :=
  { s with stg := s.stg.writeBytes (s.stgAddr i) bs }

/-- IN[i] (10_state.md R59). -/
def State.inPort (s : State) (i : Nat) : InPort :=
  tableGet InPort.empty i s.inPorts

/-- IN[i] replaced. -/
def State.setInPort (s : State) (i : Nat) (p : InPort) : State :=
  { s with inPorts := tableSet InPort.empty i p s.inPorts }

/-- OUT[j] (10_state.md R59). -/
def State.outPort (s : State) (j : Nat) : OutPort :=
  tableGet OutPort.empty j s.outPorts

/-- OUT[j] replaced. -/
def State.setOutPort (s : State) (j : Nat) (p : OutPort) : State :=
  { s with outPorts := tableSet OutPort.empty j p s.outPorts }

/-- RESULT <- v, a number below 2^32 or its low 32 bits (10_state.md R55). -/
def State.setResult (s : State) (v : Nat) : State :=
  { s with result := BitVec.ofNat 32 v }

/-- seq <- q (10_state.md R48). -/
def State.setSeq (s : State) (q : Seq) : State :=
  { s with seq := q }

/-- VERIFY_OK <- ok and RESULT <- ok (44_codec.md R251, 45_stream.md R311). -/
def State.setVerify (s : State) (ok : Bool) : State :=
  { s with
    status := { s.status with verifyOk := ok }
    result := if ok then 1 else 0 }

/-- STATUS.OVR <- 1: a host access was dropped (10_state.md R42). -/
def State.setOvr (s : State) : State :=
  { s with status := { s.status with ovr := true } }

/-- The command stops on a port operation: seq <- STREAM_IO (45_stream.md R297). -/
def State.waitOn (s : State) (j : Job) : State :=
  { s with seq := .streamIo, job := some j }

/-- WORK[0 .. need−1] become UNSPECIFIED (10_state.md R56, 70_reset_and_hazards.md R394). -/
def State.spoilWork (s : State) (need : Nat) : State :=
  { s with
    work := s.work.spoil (s.slotAddr need) s.draws
    draws := s.draws + 1 }

/-- The staging buffers become UNSPECIFIED (10_state.md R57). -/
def State.spoilStg (s : State) : State :=
  { s with
    stg := Memory.drawn s.draws
    draws := s.draws + 1 }

/-- Acceptance of a command (60_exceptions.md R343). -/
def State.accept (s : State) : State :=
  { s with
    status := { s.status with done := false, err := false, errCode := 0, verifyOk := false }
    result := 0
    errStream := 0
    errInner := 0
    parIoLatch := s.ctrl.parIo
    seq := .borrowWork
    job := none }

/-- What an error records before the command ends (60_exceptions.md R341, R344). -/
def State.recordErr (s : State) (e : Err) : State :=
  let s :=
    { s with
      status := { s.status with err := true, errCode := e.code, verifyOk := false }
      result := 0 }
  match e.ioInfo with
  | some (i, c) => { s with errStream := BitVec.ofNat 16 i, errInner := c }
  | none => s

/-- Completion of a command (60_exceptions.md R344): an error is recorded, then seq <- IDLE, BUSY <- 0 and
DONE <- 1. -/
def State.complete (s : State) (e : Option Err) : State :=
  let s :=
    match e with
    | some e => s.recordErr e
    | none => s
  { s with
    status := { s.status with done := true }
    seq := .idle
    job := none }

/-- How far a command has come when its rule has run: it is at its end, it waits on a port, or it raised an
error. -/
inductive Flow where
  | done (s : State)
  | wait (s : State)
  | fail (e : Err) (s : State)
deriving DecidableEq, Repr

/-- `raise` and the end of a rule mean completion (60_exceptions.md R343). -/
def Flow.settle : Flow → State
  | .done s => s.complete none
  | .wait s => s
  | .fail e s => s.complete (some e)

/-- A command that makes no port operation: accepted, its rule run on the accepted state, completed. An error
leaves the accepted state as it was (44_codec.md R254, 60_exceptions.md R342). -/
def State.command (s : State) (rule : State → Except Err State) : State :=
  let s := s.accept
  match rule s with
  | .ok t => t.complete none
  | .error e => s.complete (some e)

/-- `require CONFIGURED` and the other checks of a rule: the error when the check fails. -/
def check (ok : Bool) (e : Err) : Except Err Unit :=
  if ok then .ok () else .error e

/-- The reset input is asserted (70_reset_and_hazards.md R380): every piece of core state takes its reset
value, every byte is drawn afresh, the ports and the parameters stay. -/
def State.assertReset (s : State) : State :=
  { State.resetWith s.params with
    slots := Memory.drawn s.draws
    dbuf := Memory.drawn (s.draws + 1)
    work := Memory.drawn (s.draws + 2)
    stg := Memory.drawn (s.draws + 3)
    inPorts := s.inPorts
    outPorts := s.outPorts
    draws := s.draws + 4
    inputs := s.inputs
    readValue := s.readValue }

end Sys2Proof.Machine
end

