-- ==== Sys2Proof/Machine/Field.lean ====
section
/-! DEFINITION. The field tables of C1 (41_field_tables.md R150 to R162), read-only memories that nothing can
change (10_state.md R58), given as functions of an index. Elements and log values are natural numbers below
2^w; every rule computes on unsigned w-bit values and truncates nothing. -/

namespace Sys2Proof

/-- `force n k = k n`. It only makes the value of `n` known before `k` is entered, so that a long loop
evaluated by the kernel keeps small terms (`force_eq`). -/
def force {α : Type} (n : Nat) (k : Nat → α) : α :=
  match n with
  | 0 => k 0
  | m + 1 => k (m + 1)

/-- w (41_field_tables.md R150). -/
def GF.width : GF → Nat
  | .gf8 => 8
  | .gf16 => 16

/-- ORDER, Q = 2^w (41_field_tables.md R150). -/
def GF.order : GF → Nat
  | .gf8 => 256
  | .gf16 => 65536

/-- MODULUS, MOD = 2^w − 1: the log of the zero element, and the butterfly sentinel (41_field_tables.md
R150). -/
def GF.mod : GF → Nat
  | .gf8 => 255
  | .gf16 => 65535

/-- P_w (41_field_tables.md R151). -/
def GF.poly : GF → Nat
  | .gf8 => 0x11D
  | .gf16 => 0x1002D

/-- CB_w, the Cantor basis (41_field_tables.md R152). -/
def GF.cantorBasis : GF → List Nat
  | .gf8 => [0x01, 0xD6, 0x98, 0x92, 0x56, 0xC8, 0x58, 0xE6]
  | .gf16 =>
    [0x0001, 0xACCA, 0x3C0E, 0x163E, 0xC582, 0xED2E, 0x914C, 0x4012,
     0x6C98, 0x10D8, 0x6A72, 0xB900, 0xFDB8, 0xFB34, 0xFF38, 0x991E]

/-- DEDUCED (log entry 7): the elements whose Cantor map is x^0, …, x^(w−1); they are EXP_w[0 .. w−1].
`cant_uncant` says that they invert the Cantor map. -/
def GF.powerBasis : GF → List Nat
  | .gf8 => [0x01, 0x68, 0x5C, 0x64, 0x72, 0xF0, 0x56, 0x12]
  | .gf16 =>
    [0x0001, 0x4690, 0x65D8, 0x62D0, 0x5734, 0x45F0, 0x53B8, 0x1E38,
     0x7CAE, 0x4E38, 0x6708, 0xC25C, 0x7A64, 0x9EAC, 0x1124, 0x523A]

/-- The XOR of the basis entries that the set bits of `v` select. -/
def xorSelect : List Nat → Nat → Nat
  | [], _ => 0
  | b :: bs, v => (if v % 2 = 1 then b else 0) ^^^ xorSelect bs (v / 2)

/-- `cant(v)`: the polynomial-basis element that the Cantor coordinates `v` stand for
(41_field_tables.md R153, the table `cant` of R155). -/
def GF.cant (f : GF) (v : Nat) : Nat :=
  xorSelect f.cantorBasis v

/-- The inverse of `cant`: the Cantor coordinates of a polynomial-basis element. -/
def GF.uncant (f : GF) (p : Nat) : Nat :=
  xorSelect f.powerBasis p

/-- One turn of the shift register: multiplication by x modulo P_w (41_field_tables.md R154). -/
def GF.lfsrNext (f : GF) (state : Nat) : Nat :=
  if 2 * state ≥ f.order then (2 * state) ^^^ f.poly else 2 * state

/-- The shift register after `n` turns from `state`. -/
def GF.lfsrRun (f : GF) : Nat → Nat → Nat
  | 0, state => state
  | n + 1, state => force (f.lfsrNext state) (GF.lfsrRun f n)

/-- The index of the turn at which the shift register, `left` turns before its MOD turns are over, shows
`target`: what the loop of 41_field_tables.md R154 stores at `lfsr[target]`. -/
def GF.lfsrFind (f : GF) (target : Nat) : Nat → Nat → Nat
  | 0, _ => f.mod
  | left + 1, state =>
    if state = target then f.mod - (left + 1)
    else force (f.lfsrNext state) (GF.lfsrFind f target left)

/-- The scratch table `lfsr`: the discrete log of a polynomial-basis element to base x, and MOD at 0
(41_field_tables.md R154). -/
def GF.lfsr (f : GF) (p : Nat) : Nat :=
  if p = 0 then f.mod else f.lfsrFind p f.mod 1

/-- LOG_w[v] (41_field_tables.md R155). -/
def GF.log (f : GF) (v : Nat) : Nat :=
  force (f.cant v) f.lfsr

/-- EXP_w[i]: the element whose LOG is i, and EXP_w[MOD] = EXP_w[0] (41_field_tables.md R155). -/
def GF.exp (f : GF) (i : Nat) : Nat :=
  force (f.lfsrRun (if i = f.mod then 0 else i) 1) f.uncant

/-- addmod_w, addition in log space modulo MOD with a result in [0, MOD] (41_field_tables.md R157). -/
def GF.addmod (f : GF) (a b : Nat) : Nat :=
  if a + b ≤ f.mod then a + b else a + b - f.mod

/-- submod_w, subtraction in log space modulo MOD with a result in [0, MOD] (41_field_tables.md R157). -/
def GF.submod (f : GF) (a b : Nat) : Nat :=
  if a ≥ b then a - b else a + f.mod - b

/-- mul_w(a, b), field multiplication (41_field_tables.md R156). -/
def GF.mul (f : GF) (a b : Nat) : Nat :=
  if a = 0 ∨ b = 0 then 0 else f.exp (f.addmod (f.log a) (f.log b))

/-- mulLog_w(a, l), multiplication by the element whose log is l (41_field_tables.md R156). -/
def GF.mulLog (f : GF) (a l : Nat) : Nat :=
  if a = 0 then 0 else f.exp (f.addmod (f.log a) l)

/-- `temp` of 41_field_tables.md R159 while the stage `m` runs: `tempAt f m` is the list temp[0 .. w−2] as it
stands before the update of stage `m`. An entry below `m` is a log value, an entry from `m` on an element. -/
def GF.tempAt (f : GF) : Nat → List Nat
  | 0 => (List.range (f.width - 1)).map fun i => 2 ^ (i + 1)
  | m + 1 =>
    let temp := GF.tempAt f m
    let tm := temp.getD m 0
    let lm := f.mod - f.log (f.mulLog tm (f.log (tm ^^^ 1)))
    temp.mapIdx fun i t =>
      if i < m then t
      else if i = m then lm
      else f.mulLog t (f.addmod (f.log (t ^^^ 1)) lm)

/-- The element that stage `m` of 41_field_tables.md R159 leaves at `skew[k]`: the entry 2^m − 1 is 0, and an
entry j + 2^(i+1) with j < 2^(i+1) is skew[j] XOR temp[i]. `fuel` bounds the number of terms. -/
def GF.skewStage (temp : List Nat) (m : Nat) : Nat → Nat → Nat
  | 0, _ => 0
  | fuel + 1, k =>
    if k < 2 ^ (m + 1) then 0
    else GF.skewStage temp m fuel (k - 2 ^ k.log2) ^^^ temp.getD (k.log2 - 1) 0

/-- The number of trailing zero bits of `n`, at most `fuel`: the position of its lowest set bit. -/
def trailingZeros : Nat → Nat → Nat
  | 0, _ => 0
  | fuel + 1, n => if n % 2 = 1 then 0 else trailingZeros fuel (n / 2) + 1

/-- The scratch array entry `skew[j]` (41_field_tables.md R159). Every entry is written by one stage only, the
`m` with j + 1 = 2^m · odd; an entry that no stage writes is 0. -/
def GF.skewElem (f : GF) (j : Nat) : Nat :=
  let m := trailingZeros f.width (j + 1)
  if m + 1 < f.width then GF.skewStage (f.tempAt m) m f.width j else 0

/-- SKEW_w[j] (41_field_tables.md R160). -/
def GF.skew (f : GF) (j : Nat) : Nat :=
  f.log (f.skewElem j)

/-- (addmod(a, b), submod(a, b)), the two-point Walsh–Hadamard step (41_field_tables.md R162). -/
def GF.fwht2 (f : GF) (a b : Nat) : Nat × Nat :=
  (f.addmod a b, f.submod a b)

/-- One radix-4 step of the Walsh–Hadamard transform at index `i` (41_field_tables.md R162). -/
def GF.fwht4At (f : GF) (dist i : Nat) (data : Array Nat) : Array Nat :=
  let (t0, t1) := f.fwht2 (data.getD i 0) (data.getD (i + dist) 0)
  let (t2, t3) := f.fwht2 (data.getD (i + 2 * dist) 0) (data.getD (i + 3 * dist) 0)
  let (u0, u2) := f.fwht2 t0 t2
  let (u1, u3) := f.fwht2 t1 t3
  (((data.setIfInBounds i u0).setIfInBounds (i + dist) u1).setIfInBounds
    (i + 2 * dist) u2).setIfInBounds (i + 3 * dist) u3

/-- ⌈a / b⌉ (00_scope.md R9). -/
def ceilDiv (a b : Nat) : Nat :=
  (a + b - 1) / b

/-- `a` rounded up to a multiple of `b` (00_scope.md R9). -/
def roundUp (a b : Nat) : Nat :=
  ceilDiv a b * b

/-- One radix-4 level of the Walsh–Hadamard transform: groups r = 0, 4·dist, … below `mtrunc`
(41_field_tables.md R162). -/
def GF.fwhtLevel (f : GF) (mtrunc dist : Nat) (data : Array Nat) : Array Nat :=
  (List.range (ceilDiv mtrunc (4 * dist))).foldl (init := data) fun data g =>
    (List.range dist).foldl (init := data) fun data i => f.fwht4At dist (g * (4 * dist) + i) data

/-- The radix-4 levels from `dist` upward, and the distance they end at (41_field_tables.md R162). -/
def GF.fwhtLevels (f : GF) (m mtrunc : Nat) : Nat → Nat → Array Nat → Nat × Array Nat
  | 0, dist, data => (dist, data)
  | fuel + 1, dist, data =>
    if 4 * dist ≤ m then GF.fwhtLevels f m mtrunc fuel (4 * dist) (f.fwhtLevel mtrunc dist data)
    else (dist, data)

/-- FWHT_w(data, m, mtrunc) (41_field_tables.md R162). -/
def GF.fwht (f : GF) (data : Array Nat) (m mtrunc : Nat) : Array Nat :=
  let (dist, data) := f.fwhtLevels m mtrunc f.width 1 data
  if dist < m then
    (List.range dist).foldl (init := data) fun data i =>
      let (a, b) := f.fwht2 (data.getD i 0) (data.getD (i + dist) 0)
      (data.setIfInBounds i a).setIfInBounds (i + dist) b
  else data

/-- The LOG table with entry 0 replaced by 0, whose transform is LOGWALSH (41_field_tables.md R162). -/
def GF.logTable (f : GF) : Array Nat :=
  ((List.range f.order).map fun v => if v = 0 then 0 else f.log v).toArray

/-- LOGWALSH_8 (41_field_tables.md R162). -/
def logWalsh8 : Array Nat :=
  GF.gf8.fwht GF.gf8.logTable 256 256

/-- LOGWALSH_16 (41_field_tables.md R162). -/
def logWalsh16 : Array Nat :=
  GF.gf16.fwht GF.gf16.logTable 65536 65536

/-- LOGWALSH_w[i] (41_field_tables.md R162). -/
def GF.logWalsh (f : GF) (i : Nat) : Nat :=
  match f with
  | .gf8 => logWalsh8.getD i 0
  | .gf16 => logWalsh16.getD i 0

end Sys2Proof
end

