-- ==== Sys2Proof/Machine/Transform.lean ====
section
/-! DEFINITION. The procedures of C2, C4 and C5 on rows of field elements: multiply and multiply-add rows
(42_kernels.md R193, R194), butterflies (43_butterflies.md R217), the truncated transforms (44_codec.md
R264, R265), the encoder (R260), the error locator (R266), the derivative (R268) and the decoder (R267).
Every procedure is element-wise, so it is written on rows, and a row is the list of a buffer's elements
(20_memory.md R86, R99). -/

namespace Sys2Proof

/-- The elements of one buffer over the length a command works on (20_memory.md R83 to R85). -/
abbrev Row := List Nat

/-- MULV(b, l): element j is mulLog(b[j], l) (42_kernels.md R193, 44_codec.md R267). -/
def GF.mulRow (f : GF) (l : Nat) (b : Row) : Row :=
  b.map fun e => f.mulLog e l

/-- x[j] XOR mulLog(y[j], l) (42_kernels.md R194). -/
def GF.mulAddRow (f : GF) (l : Nat) (x y : Row) : Row :=
  List.zipWith (fun a b => a ^^^ f.mulLog b l) x y

/-- Field addition of two rows, a bitwise XOR (41_field_tables.md R150). -/
def xorRow (x y : Row) : Row :=
  List.zipWith (fun a b => a ^^^ b) x y

/-- FFT2(lo, hi, t) as the pair (lo, hi); t = MOD skips the multiply-add (43_butterflies.md R211, R217). -/
def GF.fft2 (f : GF) (lo hi : Row) (t : Nat) : Row × Row :=
  let lo := if t = f.mod then lo else f.mulAddRow t lo hi
  (lo, xorRow hi lo)

/-- IFFT2(lo, hi, t) as the pair (lo, hi) (43_butterflies.md R211, R217). -/
def GF.ifft2 (f : GF) (lo hi : Row) (t : Nat) : Row × Row :=
  let hi := xorRow hi lo
  (if t = f.mod then lo else f.mulAddRow t lo hi, hi)

/-- FFT4(B0, B1, B2, B3, t01, t23, t02) (43_butterflies.md R217). -/
def GF.fft4 (f : GF) (b0 b1 b2 b3 : Row) (t01 t23 t02 : Nat) : Row × Row × Row × Row :=
  let (b0, b2) := f.fft2 b0 b2 t02
  let (b1, b3) := f.fft2 b1 b3 t02
  let (b0, b1) := f.fft2 b0 b1 t01
  let (b2, b3) := f.fft2 b2 b3 t23
  (b0, b1, b2, b3)

/-- IFFT4(B0, B1, B2, B3, t01, t23, t02) (43_butterflies.md R217). -/
def GF.ifft4 (f : GF) (b0 b1 b2 b3 : Row) (t01 t23 t02 : Nat) : Row × Row × Row × Row :=
  let (b0, b1) := f.ifft2 b0 b1 t01
  let (b2, b3) := f.ifft2 b2 b3 t23
  let (b0, b2) := f.ifft2 b0 b2 t02
  let (b1, b3) := f.ifft2 b1 b3 t02
  (b0, b1, b2, b3)

/-- The least power of two that is at least `x` (00_scope.md R9). -/
def ceilPow2 (x : Nat) : Nat :=
  if x ≤ 1 then 1 else 2 ^ ((x - 1).log2 + 1)

/-- A vector of rows: the work buffers that a codec command uses (10_state.md R56). -/
abbrev Rows := Array Row

/-- A radix-2 step on the rows i and i + dist. -/
def Rows.at2 (V : Rows) (i dist : Nat) (op : Row → Row → Row × Row) : Rows :=
  let (b0, b1) := op (V.getD i []) (V.getD (i + dist) [])
  (V.setIfInBounds i b0).setIfInBounds (i + dist) b1

/-- A radix-4 step on the rows i, i + dist, i + 2·dist and i + 3·dist. -/
def Rows.at4 (V : Rows) (i dist : Nat) (op : Row → Row → Row → Row → Row × Row × Row × Row) : Rows :=
  let (b0, b1, b2, b3) :=
    op (V.getD i []) (V.getD (i + dist) []) (V.getD (i + 2 * dist) []) (V.getD (i + 3 * dist) [])
  (((V.setIfInBounds i b0).setIfInBounds (i + dist) b1).setIfInBounds
    (i + 2 * dist) b2).setIfInBounds (i + 3 * dist) b3

/-- The body of one radix-4 level of IFFT or FFT: the groups r = 0, 4·dist, … below `mtrunc`, with the
twiddles SKEW[off + p − 1] (44_codec.md R264, R265). `op` is IFFT4 or FFT4. -/
def GF.level4 (f : GF) (op : Row → Row → Row → Row → Nat → Nat → Nat → Row × Row × Row × Row)
    (mtrunc off dist : Nat) (V : Rows) : Rows :=
  (List.range (ceilDiv mtrunc (4 * dist))).foldl (init := V) fun V g =>
    let r := g * (4 * dist)
    let iend := r + dist
    let t01 := f.skew (off + iend - 1)
    let t02 := f.skew (off + iend + dist - 1)
    let t23 := f.skew (off + iend + 2 * dist - 1)
    (List.range dist).foldl (init := V) fun V i =>
      Rows.at4 V (r + i) dist fun b0 b1 b2 b3 => op b0 b1 b2 b3 t01 t23 t02

/-- The radix-4 levels of IFFT from `dist` upward, and the distance they end at (44_codec.md R264). -/
def GF.ifftLevels (f : GF) (mtrunc size off : Nat) : Nat → Nat → Rows → Nat × Rows
  | 0, dist, V => (dist, V)
  | fuel + 1, dist, V =>
    if 4 * dist ≤ size then
      GF.ifftLevels f mtrunc size off fuel (4 * dist) (f.level4 f.ifft4 mtrunc off dist V)
    else (dist, V)

/-- IFFT(V, mtrunc, size, off), the truncated inverse transform (44_codec.md R264). -/
def GF.ifft (f : GF) (V : Rows) (mtrunc size off : Nat) : Rows :=
  let (dist, V) := f.ifftLevels mtrunc size off f.width 1 V
  if dist < size then
    let t := f.skew (off + dist - 1)
    (List.range dist).foldl (init := V) fun V i => Rows.at2 V i dist fun a b => f.ifft2 a b t
  else V

/-- The radix-4 levels of FFT from `dist4` downward, and the `dist4` they end at (44_codec.md R265). -/
def GF.fftLevels (f : GF) (mtrunc off : Nat) : Nat → Nat → Rows → Nat × Rows
  | 0, dist4, V => (dist4, V)
  | fuel + 1, dist4, V =>
    if dist4 / 4 ≠ 0 then
      GF.fftLevels f mtrunc off fuel (dist4 / 4) (f.level4 f.fft4 mtrunc off (dist4 / 4) V)
    else (dist4, V)

/-- FFT(V, mtrunc, size, off), the truncated forward transform (44_codec.md R265). -/
def GF.fft (f : GF) (V : Rows) (mtrunc size off : Nat) : Rows :=
  let (dist4, V) := f.fftLevels mtrunc off f.width size V
  if dist4 = 2 then
    (List.range (ceilDiv mtrunc 2)).foldl (init := V) fun V g =>
      Rows.at2 V (2 * g) 1 fun a b => f.fft2 a b (f.skew (off + 2 * g))
  else V

/-- A row of `n` zero elements. -/
def zeroRow (n : Nat) : Row :=
  List.replicate n 0

/-- Chunk `j` of the encoder after its inverse transform: the data rows j·M, j·M + 1, … below k, then zero
rows, transformed at skew offset M·(j + 1) (44_codec.md R260). -/
def GF.encChunk (f : GF) (k M n : Nat) (data : Nat → Row) (j : Nat) : Rows :=
  let cnt := min M (k - j * M)
  let D := ((List.range M).map fun i => if i < cnt then data (j * M + i) else zeroRow n).toArray
  f.ifft D cnt M (M * (j + 1))

/-- ENC_PARITY: the rows WORK[0 .. M−1], of which the first m are the parity of the k data rows. A row has
`n` elements (44_codec.md R260). -/
def GF.encParity (f : GF) (k m M n : Nat) (data : Nat → Row) : Rows :=
  let sum := (List.range (ceilDiv k M - 1)).foldl (init := f.encChunk k M n data 0) fun W j =>
    Array.zipWith xorRow W (f.encChunk k M n data (j + 1))
  f.fft sum m M 0

/-- The erasure marks of ERR_LOC: absent parity, the structural zeros [m, M), absent data at M + d
(44_codec.md R266). `absent` is indexed by shard. -/
def errMark (k m M : Nat) (absent : Nat → Bool) (i : Nat) : Nat :=
  if i < m then (if absent (k + i) then 1 else 0)
  else if i < M then 1
  else if i < M + k then (if absent (i - M) then 1 else 0)
  else 0

/-- ERR_LOC: the error-locator values E[0 .. Q−1] (44_codec.md R266). -/
def GF.errLoc (f : GF) (k m M : Nat) (absent : Nat → Bool) : Array Nat :=
  let marks := ((List.range f.order).map (errMark k m M absent)).toArray
  let walsh := f.fwht marks f.order (M + k)
  f.fwht (walsh.mapIdx fun i e => e * f.logWalsh i % f.mod) f.order f.order

/-- The lowest set bit of i, for i ≥ 1 (00_scope.md R9). -/
def lowBit (i : Nat) : Nat :=
  2 ^ trailingZeros i i

/-- DERIV, the formal derivative in the transformed domain (44_codec.md R268). -/
def derivRows (V : Rows) (nd : Nat) : Rows :=
  (List.range (nd - 1)).foldl (init := V) fun V i' =>
    let i := i' + 1
    let width := lowBit i
    (List.range width).foldl (init := V) fun V j =>
      V.setIfInBounds (i - width + j) (xorRow (V.getD (i - width + j) []) (V.getD (i + j) []))

/-- The rows V at which DECODE starts its inverse transform: each present shard scaled by its locator value,
every other position zero (44_codec.md R242, R267). `shard` and `absent` are indexed by shard. -/
def GF.decodeStart (f : GF) (k m M nd n : Nat) (absent : Nat → Bool) (shard : Nat → Row)
    (E : Array Nat) : Rows :=
  ((List.range nd).map fun p =>
    if p < m then (if absent (k + p) then zeroRow n else f.mulRow (E.getD p 0) (shard (k + p)))
    else if p < M then zeroRow n
    else if p < M + k then (if absent (p - M) then zeroRow n else f.mulRow (E.getD p 0) (shard (p - M)))
    else zeroRow n).toArray

/-- Nd = ceilPow2(M + k), the positions that the decoder transforms (44_codec.md R267). -/
def decodeSize (k M : Nat) : Nat :=
  ceilPow2 (M + k)

/-- The codeword position of shard i: parity p at p, data d at M + d (44_codec.md R242). -/
def shardPos (k M i : Nat) : Nat :=
  if i < k then M + i else i - k

/-- DECODE up to its last scaling: the locator values E and the rows V after the forward transform
(44_codec.md R267). -/
def GF.decode (f : GF) (k m M n : Nat) (absent : Nat → Bool) (shard : Nat → Row) : Array Nat × Rows :=
  let nd := decodeSize k M
  let E := f.errLoc k m M absent
  let V := f.ifft (f.decodeStart k m M nd n absent shard E) (M + k) nd 0
  (E, f.fft (derivRows V nd) (M + k) nd 0)

/-- The recovered shard i: its row scaled by MOD − E (44_codec.md R267). -/
def GF.recovered (f : GF) (k M : Nat) (dec : Array Nat × Rows) (i : Nat) : Row :=
  f.mulRow (f.mod - dec.1.getD (shardPos k M i) 0) (dec.2.getD (shardPos k M i) [])

end Sys2Proof
end

