-- ==== Sys2Proof/Machine/Operands.lean ====
section
/-! DEFINITION. Every operand form: buffer ids and butterfly operands (30_encoding.md R126, R127), log and
element operands (R128), 64-bit operands (R129), the field of a command (R122, 44_codec.md R240), and the
layout of field elements in bytes (20_memory.md R83 to R85). -/

namespace Sys2Proof.Machine

/-- A buffer that an id names (30_encoding.md R126). -/
inductive Buf where
  | slot (i : Nat)
  | work (i : Nat)
deriving DecidableEq, Repr

/-- The buffer of a space at an index, when the index is below the space's size (30_encoding.md R126,
R127). -/
def State.bufAt (s : State) (isWork : Bool) (index : Nat) : Option Buf :=
  if isWork then (if index < s.params.workBufs then some (.work index) else none)
  else if index < Config.nslot then some (.slot index)
  else none

/-- `Buf(id)`: SPACE is bit 31, bits 30 to 16 must be 0, INDEX is bits 15 to 0 (30_encoding.md R126). -/
def State.buf (s : State) (id : Word) : Option Buf :=
  if id.extractLsb' 16 15 ≠ 0 then none
  else s.bufAt (id.getLsbD 31) (id.extractLsb' 0 16).toNat

/-- The r butterfly operands INDEX(base) + j·dist, j = 0 .. r−1, of the base id's space (30_encoding.md
R127). -/
def State.bufs (s : State) (base : Word) (dist r : Nat) : Option (List Buf) :=
  if base.extractLsb' 16 15 ≠ 0 ∨ dist = 0 then none
  else
    (List.range r).mapM fun j =>
      s.bufAt (base.getLsbD 31) ((base.extractLsb' 0 16).toNat + j * dist)

/-- `Len(b)`: SLEN of a slot, SLOT_CAP of a work buffer (10_state.md R52, R56). -/
def State.bufLen (s : State) : Buf → Nat
  | .slot i => s.slenAt i
  | .work _ => s.params.slotCap

/-- MemRead(b, 0, n). -/
def State.bufBytes (s : State) (b : Buf) (n : Nat) : List Byte :=
  match b with
  | .slot i => s.slots.readBytes (s.slotAddr i) n
  | .work i => s.work.readBytes (s.slotAddr i) n

/-- MemWrite(b, 0, |bs|, bs). -/
def State.setBufBytes (s : State) (b : Buf) (bs : List Byte) : State :=
  match b with
  | .slot i => s.setSlotBytes i bs
  | .work i => s.setWorkBytes i bs

/-- The elements of `chunks` 64-byte chunks: 32 low bytes, then their 32 high bytes (20_memory.md R84). -/
def split64Elems : Nat → List Byte → Row
  | 0, _ => []
  | chunks + 1, bs =>
    List.zipWith (fun lo hi => lo.toNat ||| hi.toNat <<< 8) (bs.take 32) ((bs.drop 32).take 32)
      ++ split64Elems chunks (bs.drop 64)

/-- The bytes of `chunks` chunks of 32 elements (20_memory.md R84). -/
def split64Bytes : Nat → Row → List Byte
  | 0, _ => []
  | chunks + 1, es =>
    (es.take 32).map (BitVec.ofNat 8) ++ (es.take 32).map (fun e => BitVec.ofNat 8 (e >>> 8))
      ++ split64Bytes chunks (es.drop 32)

/-- The elements of `n` little-endian 16-bit words (20_memory.md R85). -/
def le16Elems : Nat → List Byte → Row
  | 0, _ => []
  | n + 1, bs => ((bs.getD 0 0).toNat ||| (bs.getD 1 0).toNat <<< 8) :: le16Elems n (bs.drop 2)

/-- The bytes of 16-bit words, little-endian (20_memory.md R85). -/
def le16Bytes (es : Row) : List Byte :=
  es.flatMap fun e => [BitVec.ofNat 8 e, BitVec.ofNat 8 (e >>> 8)]

/-- The elements that a buffer's bytes hold (20_memory.md R83 to R85). -/
def elemsOfBytes (f : GF) (layout : Elem16Layout) (bs : List Byte) : Row :=
  match f, layout with
  | .gf8, _ => bs.map (·.toNat)
  | .gf16, .split64 => split64Elems (bs.length / 64) bs
  | .gf16, .le16 => le16Elems (bs.length / 2) bs

/-- The bytes that hold the elements (20_memory.md R83 to R85). -/
def bytesOfElems (f : GF) (layout : Elem16Layout) (es : Row) : List Byte :=
  match f, layout with
  | .gf8, _ => es.map (BitVec.ofNat 8)
  | .gf16, .split64 => split64Bytes (es.length / 32) es
  | .gf16, .le16 => le16Bytes es

/-- N, the number of elements in `len` bytes (42_kernels.md R191). -/
def elemCount (f : GF) (len : Nat) : Nat :=
  match f with
  | .gf8 => len
  | .gf16 => len / 2

/-- The length alignment of GF(2^16) commands on buffers (42_kernels.md R190, step 4). -/
def lenAligned (f : GF) (layout : Elem16Layout) (len : Nat) : Bool :=
  match f, layout with
  | .gf8, _ => true
  | .gf16, .split64 => len % 64 = 0
  | .gf16, .le16 => len % 2 = 0

/-- The elements of the first `len` bytes of a buffer. -/
def State.bufRow (s : State) (f : GF) (b : Buf) (len : Nat) : Row :=
  elemsOfBytes f s.params.layout (s.bufBytes b len)

/-- The elements of a row stored at the start of a buffer. -/
def State.setBufRow (s : State) (f : GF) (b : Buf) (es : Row) : State :=
  s.setBufBytes b (bytesOfElems f s.params.layout es)

/-- A log-form operand lies in [0, MOD] (30_encoding.md R128). -/
def logOk (f : GF) (l : Nat) : Bool :=
  l ≤ f.mod

/-- An element operand lies in [0, 2^w − 1] (30_encoding.md R128). -/
def elemOk (f : GF) (x : Nat) : Bool :=
  x < f.order

/-- The 64-bit operand of ARG1 (low) and ARG2 (high) (30_encoding.md R129). -/
def State.size64 (s : State) : Nat :=
  s.argNat 1 + s.argNat 2 * 2 ^ 32

/-- Bit 63 of a 64-bit operand: the value stands for a negative size (30_encoding.md R129). -/
def sizeNegative (v : Nat) : Bool :=
  2 ^ 63 ≤ v

/-- The configured field, STATUS.FIELD16 (44_codec.md R240). -/
def State.field (s : State) : GF :=
  if s.status.field16 then .gf16 else .gf8

/-- k, the configured data shard count (10_state.md R46). -/
def State.k (s : State) : Nat :=
  s.geo.k.toNat

/-- m, the configured parity shard count (10_state.md R46). -/
def State.m (s : State) : Nat :=
  s.geo.m.toNat

/-- n = k + m as GEO_N holds it (10_state.md R46). -/
def State.n (s : State) : Nat :=
  s.geo.n.toNat

/-- M, the configured transform size (10_state.md R46). -/
def State.mpow (s : State) : Nat :=
  s.geo.mpow.toNat

/-- The work buffers that encoding needs: M if k ≤ M, else 2M (44_codec.md R262). -/
def State.encodeNeed (s : State) : Nat :=
  if s.k ≤ s.mpow then s.mpow else 2 * s.mpow

/-- The work buffers that decoding needs: Nd = ceilPow2(M + k); none on an unconfigured core, which has no
M and no k (44_codec.md R262). -/
def State.decodeNeed (s : State) : Nat :=
  if s.status.configured then decodeSize s.k s.mpow else 0

end Sys2Proof.Machine
end

