-- ==== Sys2Proof/Machine/Butterflies.lean ====
section
/-! DEFINITION. The butterfly commands FFT_DIT2, IFFT_DIT2, FFT_DIT4 and IFFT_DIT4 (43_butterflies.md R210 to
R216). -/

namespace Sys2Proof.Machine

/-- The checks of 43_butterflies.md R210 on base = ARG0, dist = ARG1, LEN = ARG2 and the twiddles, in its
order; the operands B_0 .. B_(r−1). -/
def State.butterflyBufs (s : State) (f : GF) (r : Nat) (twiddles : List Nat) : Except Err (List Buf) :=
  match s.bufs (s.arg 0) (s.argNat 1) r with
  | none => .error .illegalOperand
  | some bs => do
    check (twiddles.all (logOk f)) .illegalOperand
    check (bs.all fun b => s.argNat 2 ≤ s.bufLen b) .shardSize
    check (lenAligned f s.params.layout (s.argNat 2)) .shardSize
    return bs

/-- A radix-2 command on lo = B0 and hi = B1, with t = ARG3. -/
def State.radix2 (f : GF) (op : Row → Row → Nat → Row × Row) (s : State) : Except Err State := do
  let t := s.argNat 3
  let len := s.argNat 2
  match ← s.butterflyBufs f 2 [t] with
  | [b0, b1] =>
    let (lo, hi) := op (s.bufRow f b0 len) (s.bufRow f b1 len) t
    return (s.setBufRow f b0 lo).setBufRow f b1 hi
  | _ => .error .illegalOperand

/-- A radix-4 command on B0 to B3, with t01 = ARG3, t23 = ARG4, t02 = ARG5 (30_encoding.md R125). -/
def State.radix4 (f : GF) (op : Row → Row → Row → Row → Nat → Nat → Nat → Row × Row × Row × Row)
    (s : State) : Except Err State := do
  let t01 := s.argNat 3
  let t23 := s.argNat 4
  let t02 := s.argNat 5
  let len := s.argNat 2
  match ← s.butterflyBufs f 4 [t01, t23, t02] with
  | [b0, b1, b2, b3] =>
    let (r0, r1, r2, r3) :=
      op (s.bufRow f b0 len) (s.bufRow f b1 len) (s.bufRow f b2 len) (s.bufRow f b3 len) t01 t23 t02
    return (((s.setBufRow f b0 r0).setBufRow f b1 r1).setBufRow f b2 r2).setBufRow f b3 r3
  | _ => .error .illegalOperand

/-- FFT_DIT2.8 (43_butterflies.md R213). -/
def execFftDit2x8 (s : State) : Host.Outcome State Fault Refusal :=
  .next (s.command (State.radix2 .gf8 GF.gf8.fft2))

/-- FFT_DIT2.16 (43_butterflies.md R213). -/
def execFftDit2x16 (s : State) : Host.Outcome State Fault Refusal :=
  .next (s.command (State.radix2 .gf16 GF.gf16.fft2))

/-- IFFT_DIT2.8 (43_butterflies.md R214). -/
def execIfftDit2x8 (s : State) : Host.Outcome State Fault Refusal :=
  .next (s.command (State.radix2 .gf8 GF.gf8.ifft2))

/-- IFFT_DIT2.16 (43_butterflies.md R214). -/
def execIfftDit2x16 (s : State) : Host.Outcome State Fault Refusal :=
  .next (s.command (State.radix2 .gf16 GF.gf16.ifft2))

/-- FFT_DIT4.8 (43_butterflies.md R215). -/
def execFftDit4x8 (s : State) : Host.Outcome State Fault Refusal :=
  .next (s.command (State.radix4 .gf8 GF.gf8.fft4))

/-- FFT_DIT4.16 (43_butterflies.md R215). -/
def execFftDit4x16 (s : State) : Host.Outcome State Fault Refusal :=
  .next (s.command (State.radix4 .gf16 GF.gf16.fft4))

/-- IFFT_DIT4.8 (43_butterflies.md R216). -/
def execIfftDit4x8 (s : State) : Host.Outcome State Fault Refusal :=
  .next (s.command (State.radix4 .gf8 GF.gf8.ifft4))

/-- IFFT_DIT4.16 (43_butterflies.md R216). -/
def execIfftDit4x16 (s : State) : Host.Outcome State Fault Refusal :=
  .next (s.command (State.radix4 .gf16 GF.gf16.ifft4))

end Sys2Proof.Machine
end

