-- ==== Sys2Proof/Machine/Kernels.lean ====
section
/-! DEFINITION. The slice kernels XOR_SLICE, MUL and MUL_ADD (42_kernels.md R190 to R198). -/

namespace Sys2Proof.Machine

/-- The checks of 42_kernels.md R190 on the two buffer ids ARG0 and ARG1, on the log operand and on LEN =
ARG2, in its order. `logIn` says that the log operand is in range, `aligned` that LEN is aligned. -/
def State.kernelBufs (s : State) (logIn aligned : Bool) : Except Err (Buf × Buf) :=
  match s.buf (s.arg 0), s.buf (s.arg 1) with
  | some b0, some b1 => do
    check logIn .illegalOperand
    check (s.argNat 2 ≤ s.bufLen b0 && s.argNat 2 ≤ s.bufLen b1) .shardSize
    check aligned .shardSize
    return (b0, b1)
  | _, _ => .error .illegalOperand

/-- XOR_SLICE x, y, LEN (42_kernels.md R192): x ^= y bytewise; the length alignment does not apply. -/
def State.xorSlice (s : State) : Except Err State := do
  let (bx, bY) ← s.kernelBufs true true
  let len := s.argNat 2
  return s.setBufBytes bx (List.zipWith (· ^^^ ·) (s.bufBytes bx len) (s.bufBytes bY len))

/-- MUL.w dst, src, LEN, l (42_kernels.md R193): dst := c_l · src over N elements. -/
def State.mul (f : GF) (s : State) : Except Err State := do
  let len := s.argNat 2
  let l := s.argNat 3
  let (bd, bs) ← s.kernelBufs (logOk f l) (lenAligned f s.params.layout len)
  return s.setBufRow f bd (f.mulRow l (s.bufRow f bs len))

/-- MUL_ADD.w x, y, LEN, l (42_kernels.md R194): x ^= c_l · y over N elements. -/
def State.mulAdd (f : GF) (s : State) : Except Err State := do
  let len := s.argNat 2
  let l := s.argNat 3
  let (bx, bY) ← s.kernelBufs (logOk f l) (lenAligned f s.params.layout len)
  return s.setBufRow f bx (f.mulAddRow l (s.bufRow f bx len) (s.bufRow f bY len))

/-- XOR_SLICE (42_kernels.md R192). -/
def execXorSlice (s : State) : Host.Outcome State Fault Refusal :=
  .next (s.command State.xorSlice)

/-- MUL.8 (42_kernels.md R193). -/
def execMul8 (s : State) : Host.Outcome State Fault Refusal :=
  .next (s.command (State.mul .gf8))

/-- MUL.16 (42_kernels.md R193). -/
def execMul16 (s : State) : Host.Outcome State Fault Refusal :=
  .next (s.command (State.mul .gf16))

/-- MUL_ADD.8 (42_kernels.md R194). -/
def execMulAdd8 (s : State) : Host.Outcome State Fault Refusal :=
  .next (s.command (State.mulAdd .gf8))

/-- MUL_ADD.16 (42_kernels.md R194). -/
def execMulAdd16 (s : State) : Host.Outcome State Fault Refusal :=
  .next (s.command (State.mulAdd .gf16))

end Sys2Proof.Machine
end

