-- ==== Sys2Proof/Machine/Queries.lean ====
section
/-! DEFINITION. The table queries GF_LOG, GF_EXP, GF_MUL, GF_MULLOG and SKEW_READ in both fields
(41_field_tables.md R170 to R174). -/

namespace Sys2Proof.Machine

/-- The template of the table queries (41_field_tables.md §4): an operand out of range is IllegalOperand,
otherwise RESULT takes the value. -/
def State.query (s : State) (inRange : Bool) (value : Nat) : Host.Outcome State Fault Refusal :=
  .next (s.command fun s => do
    check inRange .illegalOperand
    return s.setResult value)

/-- `GF_LOG.w x` (41_field_tables.md R170). -/
def State.gfLog (s : State) (f : GF) : Host.Outcome State Fault Refusal :=
  s.query (elemOk f (s.argNat 0)) (f.log (s.argNat 0))

/-- `GF_EXP.w i` (41_field_tables.md R171). -/
def State.gfExp (s : State) (f : GF) : Host.Outcome State Fault Refusal :=
  s.query (logOk f (s.argNat 0)) (f.exp (s.argNat 0))

/-- `GF_MUL.w a, b` (41_field_tables.md R172). -/
def State.gfMul (s : State) (f : GF) : Host.Outcome State Fault Refusal :=
  s.query (elemOk f (s.argNat 0) && elemOk f (s.argNat 1)) (f.mul (s.argNat 0) (s.argNat 1))

/-- `GF_MULLOG.w a, l` (41_field_tables.md R173). -/
def State.gfMulLog (s : State) (f : GF) : Host.Outcome State Fault Refusal :=
  s.query (elemOk f (s.argNat 0) && logOk f (s.argNat 1)) (f.mulLog (s.argNat 0) (s.argNat 1))

/-- `SKEW_READ.w j` (41_field_tables.md R174): j < MOD. -/
def State.skewRead (s : State) (f : GF) : Host.Outcome State Fault Refusal :=
  s.query (s.argNat 0 < f.mod) (f.skew (s.argNat 0))

/-- GF_LOG.8 (41_field_tables.md R170). -/
def execGfLog8 (s : State) : Host.Outcome State Fault Refusal :=
  s.gfLog .gf8

/-- GF_LOG.16 (41_field_tables.md R170). -/
def execGfLog16 (s : State) : Host.Outcome State Fault Refusal :=
  s.gfLog .gf16

/-- GF_EXP.8 (41_field_tables.md R171). -/
def execGfExp8 (s : State) : Host.Outcome State Fault Refusal :=
  s.gfExp .gf8

/-- GF_EXP.16 (41_field_tables.md R171). -/
def execGfExp16 (s : State) : Host.Outcome State Fault Refusal :=
  s.gfExp .gf16

/-- GF_MUL.8 (41_field_tables.md R172). -/
def execGfMul8 (s : State) : Host.Outcome State Fault Refusal :=
  s.gfMul .gf8

/-- GF_MUL.16 (41_field_tables.md R172). -/
def execGfMul16 (s : State) : Host.Outcome State Fault Refusal :=
  s.gfMul .gf16

/-- GF_MULLOG.8 (41_field_tables.md R173). -/
def execGfMulLog8 (s : State) : Host.Outcome State Fault Refusal :=
  s.gfMulLog .gf8

/-- GF_MULLOG.16 (41_field_tables.md R173). -/
def execGfMulLog16 (s : State) : Host.Outcome State Fault Refusal :=
  s.gfMulLog .gf16

/-- SKEW_READ.8 (41_field_tables.md R174). -/
def execSkewRead8 (s : State) : Host.Outcome State Fault Refusal :=
  s.skewRead .gf8

/-- SKEW_READ.16 (41_field_tables.md R174). -/
def execSkewRead16 (s : State) : Host.Outcome State Fault Refusal :=
  s.skewRead .gf16

end Sys2Proof.Machine
end

