-- ==== Sys2Proof/Machine/Codec.lean ====
section
/-! DEFINITION. CONFIG (44_codec.md R230, R231) and the in-memory codec commands ENCODE, VERIFY, RECONSTRUCT and
RECONSTRUCT_DATA (44_codec.md R240 to R255). -/

namespace Sys2Proof.Machine

/-- SELECT(k, m, M) (44_codec.md R231). -/
def selectField (k m M : Nat) : Option GF :=
  if k + m ≤ 256 ∧ M + k ≤ 256 then some .gf8
  else if M + k ≤ 65536 then some .gf16
  else none

/-- What CONFIG makes of CFG_K and CFG_M, read as signed words: the GEO values and the field, or its error
(44_codec.md R230, 30_encoding.md R130). -/
def configOf (cfg : Cfg) : Except Err (Geo × GF) := do
  check (0 < cfg.k.toInt && 0 < cfg.m.toInt) .invalidShardNum
  let k := cfg.k.toNat
  let m := cfg.m.toNat
  check (k + m ≤ Config.nMax) .maxShardNum
  let M := ceilPow2 m
  match selectField k m M with
  | none => .error .maxShardNum
  | some f =>
    return ({ k := cfg.k, m := cfg.m, n := BitVec.ofNat 32 (k + m), mpow := BitVec.ofNat 32 M }, f)

/-- GEO, CONFIGURED and FIELD16 after a successful CONFIG (44_codec.md R230). -/
def State.setConfig (s : State) (geo : Geo) (f : GF) : State :=
  { s with
    geo := geo
    status := { s.status with configured := true, field16 := f == .gf16 } }

/-- GEO, CONFIGURED and FIELD16 after a failed CONFIG (44_codec.md R230, 10_state.md R41, R46). -/
def State.clearConfig (s : State) : State :=
  { s with
    geo := { k := 0, m := 0, n := 0, mpow := 0 }
    status := { s.status with configured := false, field16 := false } }

/-- CONFIG (44_codec.md R230). -/
def execConfig (s : State) : Host.Outcome State Fault Refusal :=
  match configOf s.cfg with
  | .ok (geo, f) => .next (((s.accept.setConfig geo f).setResult f.width).complete none)
  | .error e => .next ((s.accept.clearConfig).complete (some e))

/-- `absent(i)`: SLEN[i] = 0 (44_codec.md R240). -/
def State.absent (s : State) (i : Nat) : Bool :=
  s.slenAt i = 0

/-- Some shard, every shard, of the shards lo, lo + 1, …, lo + count − 1 meets `p`. -/
def anyShard (lo count : Nat) (p : Nat → Bool) : Bool :=
  (List.range count).any fun i => p (lo + i)

/-- Every shard of lo, lo + 1, …, lo + count − 1 meets `p`. -/
def allShards (lo count : Nat) (p : Nat → Bool) : Bool :=
  (List.range count).all fun i => p (lo + i)

/-- The elements of the first S bytes of SLOT[i] (44_codec.md R240). -/
def State.slotRow (s : State) (S i : Nat) : Row :=
  elemsOfBytes s.field s.params.layout (s.slotBytes i S)

/-- ENC_PARITY(S) over the slots (44_codec.md R260). -/
def State.slotParity (s : State) (S : Nat) : Rows :=
  s.field.encParity s.k s.m s.mpow (elemCount s.field S) (s.slotRow S)

/-- The bytes of parity shard p out of ENC_PARITY's rows, WORK[p][0..S) (44_codec.md R260). -/
def State.parityBytes (s : State) (rows : Rows) (p : Nat) : List Byte :=
  bytesOfElems s.field s.params.layout (rows.getD p [])

/-- SLOT[i][0..|bs|) <- bs and SLEN[i] <- S. -/
def State.putShard (s : State) (S i : Nat) (bs : List Byte) : State :=
  (s.setSlotBytes i bs).setSlen i (BitVec.ofNat 32 S)

/-- A codec command: its rule run as a command, after which the work buffers below `need` are UNSPECIFIED,
whether it succeeds or fails (10_state.md R56, 70_reset_and_hazards.md R394, 60_exceptions.md R344). -/
def State.codec (s : State) (need : Nat) (rule : State → Except Err State) :
    Host.Outcome State Fault Refusal :=
  .next ((s.command rule).spoilWork need)

/-- The checks of ENCODE, in order; S (44_codec.md R250). -/
def State.encodeChecks (s : State) : Except Err Nat := do
  check s.status.configured .notConfigured
  check (s.argNat 0 = s.n) .invalidShards
  check (!allShards 0 s.k s.absent) .shardNoData
  check (!anyShard 0 s.k s.absent) .emptyShards
  let S := s.slenAt 0
  check (allShards 0 s.k fun d => s.slenAt d = S) .shardSize
  check (allShards s.k s.m fun i => s.absent i || s.slenAt i = S) .shardSize
  check (S % Config.align = 0) .shardSize
  check (s.encodeNeed ≤ s.params.workBufs) .capacity
  return S

/-- The writes of ENCODE: SLOT[k+p][0..S) <- WORK[p][0..S) and SLEN[k+p] <- S for every p < m (44_codec.md
R250). -/
def State.putParity (s : State) (S : Nat) (rows : Rows) : State :=
  (List.range s.m).foldl (init := s) fun t p => t.putShard S (s.k + p) (s.parityBytes rows p)

/-- ENCODE's rule (44_codec.md R250). -/
def State.encodeRule (s : State) : Except Err State := do
  let S ← s.encodeChecks
  return (s.setSeq .writeResults).putParity S (s.slotParity S)

/-- ENCODE (44_codec.md R250). -/
def execEncode (s : State) : Host.Outcome State Fault Refusal :=
  s.codec s.encodeNeed State.encodeRule

/-- The checks of VERIFY, in order; S (44_codec.md R251). -/
def State.verifyChecks (s : State) : Except Err Nat := do
  check s.status.configured .notConfigured
  check (s.argNat 0 = s.n) .invalidShards
  check (!allShards 0 s.n s.absent) .shardNoData
  check (!anyShard 0 s.n s.absent) .emptyShards
  let S := s.slenAt 0
  check (allShards 0 s.n fun i => s.slenAt i = S) .shardSize
  check (S % Config.align = 0) .shardSize
  check (s.encodeNeed ≤ s.params.workBufs) .capacity
  return S

/-- WORK[p][0..S) = SLOT[k+p][0..S) for every p < m (44_codec.md R251). -/
def State.parityEqual (s : State) (S : Nat) : Bool :=
  let rows := s.slotParity S
  allShards 0 s.m fun p => s.parityBytes rows p = s.slotBytes (s.k + p) S

/-- VERIFY's rule (44_codec.md R251). -/
def State.verifyRule (s : State) : Except Err State := do
  let S ← s.verifyChecks
  return (s.setSeq .runFfts).setVerify (s.parityEqual S)

/-- VERIFY (44_codec.md R251). -/
def execVerify (s : State) : Host.Outcome State Fault Refusal :=
  s.codec s.encodeNeed State.verifyRule

/-- S of a reconstruction: SLEN of the lowest present shard (44_codec.md R252). -/
def State.presentLen (s : State) : Nat :=
  match (List.range s.n).find? fun i => !s.absent i with
  | some i => s.slenAt i
  | none => 0

/-- e, the number of absent shards (44_codec.md R252). -/
def State.absentCount (s : State) : Nat :=
  ((List.range s.n).filter s.absent).length

/-- The checks of RECONSTRUCT and RECONSTRUCT_DATA, in order: S, or nothing when there is no work to do. With
`dataOnly`, there is none when no data shard is absent, and that test comes before `e > m` (44_codec.md R252,
R253). -/
def State.reconstructChecks (s : State) (dataOnly : Bool) : Except Err (Option Nat) := do
  check s.status.configured .notConfigured
  check (s.argNat 0 = s.n) .invalidShards
  check (!allShards 0 s.n s.absent) .shardNoData
  let S := s.presentLen
  check (allShards 0 s.n fun i => s.absent i || s.slenAt i = S) .shardSize
  check (S % Config.align = 0) .shardSize
  if s.absentCount = 0 then return none
  if dataOnly && !anyShard 0 s.k s.absent then return none
  check (s.absentCount ≤ s.m) .tooFewShards
  check (s.decodeNeed ≤ s.params.workBufs) .capacity
  return some S

/-- DECODE(S, data_only): every absent data slot takes its codeword value and the length S, and without
`dataOnly` every absent parity slot too; present slots are not written (44_codec.md R252, R267). -/
def State.putRecovered (s : State) (S : Nat) (dataOnly : Bool) : State :=
  let dec := s.field.decode s.k s.m s.mpow (elemCount s.field S) s.absent (s.slotRow S)
  (List.range (if dataOnly then s.k else s.k + s.m)).foldl (init := s) fun t i =>
    if s.absent i then
      t.putShard S i (bytesOfElems s.field s.params.layout (s.field.recovered s.k s.mpow dec i))
    else t

/-- The rule of RECONSTRUCT and RECONSTRUCT_DATA (44_codec.md R252, R253). -/
def State.reconstructRule (dataOnly : Bool) (s : State) : Except Err State := do
  match ← s.reconstructChecks dataOnly with
  | none => return s
  | some S => return (s.setSeq .writeResults).putRecovered S dataOnly

/-- RECONSTRUCT (44_codec.md R252). -/
def execReconstruct (s : State) : Host.Outcome State Fault Refusal :=
  s.codec s.decodeNeed (State.reconstructRule false)

/-- RECONSTRUCT_DATA (44_codec.md R253). -/
def execReconstructData (s : State) : Host.Outcome State Fault Refusal :=
  s.codec s.decodeNeed (State.reconstructRule true)

end Sys2Proof.Machine
end

