-- ==== Sys2Proof/Machine/Ports.lean ====
section
/-! DEFINITION. The port protocol: ReadFull and WritePort with the environment's answer (45_stream.md R290, R291,
R299), the order and the choices of the concurrent I/O mode (R296), and the writes and failures of one
block. -/

namespace Sys2Proof.Machine

/-- `avail`, the bytes that a reader has left (45_stream.md R290). -/
def InPort.avail (p : InPort) : Nat :=
  p.data.length - p.pos

/-- ReadFull(want) on a port: the answer and the port after it (45_stream.md R290). -/
def InPort.readFull (p : InPort) (want : Nat) : Except Word (List Byte) × InPort :=
  if want ≤ p.avail then (.ok ((p.data.drop p.pos).take want), { p with pos := p.pos + want })
  else
    match p.term with
    | .eof => (.ok (p.data.drop p.pos), { p with pos := p.data.length })
    | .err c => (.error c, { p with pos := p.data.length })

/-- The outstanding ReadFull(i, want), answered: from the port's contents, or by a cancellation FAIL(c) that
moves the position by some bytes (45_stream.md R290, R299). -/
def State.portRead (s : State) (r : Reply) (i want : Nat) : Except Word (List Byte) × State :=
  let p := s.inPort i
  match r with
  | .served =>
    let (answer, p) := p.readFull want
    (answer, s.setInPort i p)
  | .failed c n => (.error c, s.setInPort i { p with pos := max p.pos (min (p.pos + n) p.data.length) })

/-- The outstanding WritePort(j, bytes), answered: OK appends the bytes, FAIL(c) a prefix of them
(45_stream.md R291). -/
def State.portWrite (s : State) (r : Reply) (j : Nat) (bytes : List Byte) : Except Word Unit × State :=
  let p := s.outPort j
  match r with
  | .served => (.ok (), s.setOutPort j { p with written := p.written ++ bytes })
  | .failed c n => (.error c, s.setOutPort j { p with written := p.written ++ bytes.take n })

/-- An order of a list, chosen by the free values of the draws `c`, `c` + 1, … (45_stream.md R296). -/
def permute {α : Type} : Nat → Nat → List α → List α
  | 0, _, l => l
  | fuel + 1, c, l =>
    match l[Config.freeChoice c % l.length]? with
    | none => l
    | some x => x :: permute fuel (c + 1) (l.eraseIdx (Config.freeChoice c % l.length))

/-- The port operations of one block in the order they are made: as listed, or with PAR_IO = 1 in an order
that is a draw (45_stream.md R296). -/
def State.ordered {α : Type} (s : State) (l : List α) : List α × State :=
  if s.parIoLatch then (permute l.length s.draws l, { s with draws := s.draws + l.length })
  else (l, s)

/-- One entry of a list, chosen by a draw (45_stream.md R296). -/
def State.pick {α : Type} (s : State) (dflt : α) (l : List α) : α × State :=
  (l.getD (Config.freeChoice s.draws % l.length) dflt, { s with draws := s.draws + 1 })

/-- A port operation on port `i` failed with the word `c`: with PAR_IO = 0 the command ends, with PAR_IO = 1
the failure is kept until every operation of the block is made (45_stream.md R296). -/
def State.noteFail (s : State) (raise : Nat → Word → Err) (i : Nat) (c : Word)
    (fails : List (Nat × Word)) : Except Err (List (Nat × Word)) :=
  if s.parIoLatch then .ok (fails ++ [(i, c)]) else .error (raise i c)

/-- All operations of the block are made: if some failed, the error of one of them, chosen by a draw, ends
the command, otherwise it goes on (45_stream.md R296). -/
def State.afterBatch (s : State) (raise : Nat → Word → Err) (fails : List (Nat × Word))
    (next : State → Flow) : Flow :=
  match fails with
  | [] => next s
  | f :: _ =>
    let (chosen, s) := s.pick f fails
    .fail (raise chosen.1 chosen.2) s

/-- The answer to the first of a block's writes: the command waits on the next one, goes on by `next` when
all are made, or fails (45_stream.md R296). -/
def State.writeStep (s : State) (r : Reply) (todo : List (Nat × List Byte)) (fails : List (Nat × Word))
    (again : List (Nat × List Byte) → List (Nat × Word) → Job) (next : State → Flow) : Flow :=
  match todo with
  | [] => s.afterBatch .streamWriteError fails next
  | (j, bytes) :: rest =>
    let (answer, s) := s.portWrite r j bytes
    let noted : Except Err (List (Nat × Word)) :=
      match answer with
      | .ok () => .ok fails
      | .error c => s.noteFail .streamWriteError j c fails
    match noted with
    | .error e => .fail e s
    | .ok fails =>
      if rest.isEmpty then s.afterBatch .streamWriteError fails next
      else .wait (s.waitOn (again rest fails))

/-- A command that makes port operations, accepted and run up to its first one (60_exceptions.md R343,
45_stream.md R297). `cleanup` is what its completion leaves UNSPECIFIED. -/
def Flow.settleWith (cleanup : State → State) : Flow → State
  | .done s => cleanup (s.complete none)
  | .wait s => s
  | .fail e s => cleanup (s.complete (some e))

/-- A rule whose entry checks may raise an error: the error ends the command in the state `s`. -/
def Flow.ofChecks (s : State) : Except Err Flow → Flow
  | .ok f => f
  | .error e => .fail e s

end Sys2Proof.Machine
end

