-- ==== Sys2Proof/Machine/Shards.lean ====
section
/-! DEFINITION. The in-memory split and join, SPLIT and JOIN (45_stream.md R300, R301). -/

namespace Sys2Proof.Machine

/-- perShard = roundup(⌈size / k⌉, 64) (45_stream.md R300). -/
def perShard (size k : Nat) : Nat :=
  roundUp (ceilDiv size k) Config.align

/-- The bytes of shard j of a payload of `size` bytes, zero-extended to perShard; `byte` is the payload
(45_stream.md R300). -/
def shardOf (byte : Nat → Byte) (size per j : Nat) : List Byte :=
  (List.range per).map fun b => if j * per + b < size then byte (j * per + b) else 0

/-- The writes of SPLIT: SLOT[j] and SLEN[j] for every j < k, then SLEN[k+p] <- 0 for every p < m
(45_stream.md R300). -/
def State.putSplit (s : State) (size per : Nat) : State :=
  let data := s.dbuf.readBytes 0 size
  let t := (List.range s.k).foldl (init := s) fun t j =>
    t.putShard per j (shardOf (fun b => data.getD b 0) size per j)
  (List.range s.m).foldl (init := t) fun t p => t.setSlen (s.k + p) 0

/-- SPLIT's rule (45_stream.md R300). -/
def State.splitRule (s : State) : Except Err State := do
  check s.status.configured .notConfigured
  let size := s.dlen.toNat
  check (size ≠ 0) .shortData
  let per := perShard size s.k
  check (per ≤ s.params.slotCap) .capacity
  return ((s.setSeq .writeResults).putSplit size per).setResult per

/-- SPLIT (45_stream.md R300). -/
def execSplit (s : State) : Host.Outcome State Fault Refusal :=
  .next (s.command State.splitRule)

/-- The bytes that the data slots hold up to the first absent one (45_stream.md R301). -/
def State.joinAvail (s : State) : Nat :=
  (((List.range s.k).takeWhile fun j => !s.absent j).map s.slenAt).sum

/-- JOIN's loop at slot `j`: the next write, or the end (45_stream.md R301). -/
def State.joinNext (s : State) (j rem outSize : Nat) : Flow :=
  if rem = 0 ∨ s.k ≤ j then .done (s.setResult outSize)
  else .wait (s.waitOn (.joinWrite j rem outSize))

/-- The entry checks of JOIN, in order, and its first write (45_stream.md R301). -/
def State.joinRule (s : State) : Except Err Flow := do
  check s.status.configured .notConfigured
  let outSize := s.size64
  check (!sizeNegative outSize) .size
  check (s.k ≤ s.argNat 0) .tooFewShards
  check (s.argNat 0 ≤ s.n) .invalidShards
  check (s.outPort 0).conn .nilWriter
  check (outSize ≤ s.joinAvail) .shortData
  return s.joinNext 0 outSize outSize

/-- JOIN (45_stream.md R301). -/
def execJoin (s : State) : Host.Outcome State Fault Refusal :=
  .next ((Flow.ofChecks s.accept s.accept.joinRule).settle)

/-- The bytes of JOIN's write from slot `j`: SLOT[j][0..min(SLEN[j], rem)) (45_stream.md R301). -/
def State.joinBytes (s : State) (j rem : Nat) : List Byte :=
  s.slotBytes j (min (s.slenAt j) rem)

/-- The answer to JOIN's write (45_stream.md R301). -/
def State.joinReply (s : State) (r : Reply) (j rem outSize : Nat) : Flow :=
  let (answer, t) := s.portWrite r 0 (s.joinBytes j rem)
  match answer with
  | .ok () => t.joinNext (j + 1) (rem - min (s.slenAt j) rem) outSize
  | .error c => .fail (.streamWriteError 0 c) t

end Sys2Proof.Machine
end

