-- ==== Sys2Proof/Machine/Streams.lean ====
section
/-! DEFINITION. The stream commands (45_stream.md R293 to R298, R310 to R318). A command runs up to its first
port operation; every answer of the port environment then takes it to the next one or to its end. -/

namespace Sys2Proof.Machine

/-- B, the block size, CFG_BLOCK (45_stream.md R294). -/
def State.blockSize (s : State) : Nat :=
  s.cfg.block.toNat

/-- CFG_BLOCK is legal: not 0, a multiple of 64, at most STG_CAP (45_stream.md R294). -/
def State.blockOk (s : State) : Bool :=
  s.blockSize ≠ 0 && s.blockSize % Config.align = 0 && s.blockSize ≤ s.params.stgCap

/-- The checks that every stream command makes first (45_stream.md §4). -/
def State.streamChecks (s : State) : Except Err Unit := do
  check s.status.configured .notConfigured
  check s.blockOk .size

/-- IN[i].conn (10_state.md R59). -/
def State.inConn (s : State) (i : Nat) : Bool :=
  (s.inPort i).conn

/-- OUT[j].conn (10_state.md R59). -/
def State.outConn (s : State) (j : Nat) : Bool :=
  (s.outPort j).conn

/-- P, the readers that a block command reads in each block, by ascending index: the absent shards of a
reconstruction are left out (45_stream.md R310 to R313). -/
def State.readers (s : State) : BlockKind → List Nat
  | .encode => List.range s.k
  | .verify => List.range s.n
  | .reconstruct _ => (List.range s.n).filter s.inConn

/-- The work buffers that a block command needs (44_codec.md R262). -/
def State.blockNeed (s : State) : BlockKind → Nat
  | .encode | .verify => s.encodeNeed
  | .reconstruct _ => s.decodeNeed

/-- What the completion of a block command leaves UNSPECIFIED (10_state.md R56, R57). -/
def State.endBlockCommand (need : Nat) (s : State) : State :=
  (s.spoilWork need).spoilStg

/-- A block with s = 0: ShardNoData on the first block, otherwise the end of the command
(45_stream.md R295, R310 to R312). -/
def State.endOfStream (s : State) (kind : BlockKind) (blocks : Nat) : Flow :=
  if blocks = 0 then .fail .shardNoData s
  else
    match kind with
    | .verify => .done (s.setVerify true)
    | .encode | .reconstruct _ => .done (s.setResult blocks)

/-- The start of a block: the first of its reads (45_stream.md R293, R296). A block with no reader at all
reads nothing. -/
def State.startBlock (s : State) (kind : BlockKind) (blocks : Nat) : Flow :=
  let (todo, s) := s.ordered (s.readers kind)
  if todo.isEmpty then s.endOfStream kind blocks
  else .wait (s.waitOn (.readBlock kind blocks todo [] []))

/-- The length that the lowest-indexed reader returned (45_stream.md R293). -/
def lowestLen : List (Nat × Nat) → Nat
  | [] => 0
  | e :: es => (es.foldl (fun best e => if e.1 < best.1 then e else best) e).2

/-- s, the block size that the reads settle: the lowest-indexed reader's length, or with PAR_IO = 1 the
length of a reader chosen by a draw (45_stream.md R293, R296). -/
def State.settleSize (s : State) (lens : List (Nat × Nat)) : Nat × State :=
  if s.parIoLatch then
    let (e, s) := s.pick (0, 0) lens
    (e.2, s)
  else (lowestLen lens, s)

/-- PAD_BLOCK on one row of `len` bytes: the bytes from min(len, s) of a data row, from min(len, s_padded) of
a parity row, up to s_padded become 0 (45_stream.md R318). -/
def State.padRow (size : Nat) (s : State) (row : Nat × Nat) : State :=
  let sp := roundUp size Config.align
  let keep := min row.2 (if row.1 < s.k then size else sp)
  { s with stg := s.stg.writeBytes (s.stgAddr row.1 + keep) (List.replicate (sp - keep) 0) }

/-- PAD_BLOCK(s) on every row that was read (45_stream.md R318). -/
def State.padBlock (s : State) (size : Nat) (lens : List (Nat × Nat)) : State :=
  lens.foldl (State.padRow size) s

/-- The elements of the first S bytes of STG[i] (45_stream.md §4). -/
def State.stgRow (s : State) (S i : Nat) : Row :=
  elemsOfBytes s.field s.params.layout (s.stgBytes i S)

/-- ENC_PARITY_STG(S) (45_stream.md §4, 44_codec.md R260). DESIGN CHOICE (log entry 26), unsafe: a row may be
longer than SLOT_CAP, the length of a work buffer (10_state.md R56), when STG_CAP > SLOT_CAP; the spec gives no check
and no effect for that, and the rows are computed in full. -/
def State.stgParity (s : State) (S : Nat) : Rows :=
  s.field.encParity s.k s.m s.mpow (elemCount s.field S) (s.stgRow S)

/-- The first of a block's writes, or the next block when it has none (45_stream.md R310, R312). -/
def State.startWrites (s : State) (kind : BlockKind) (blocks : Nat) (writes : List (Nat × List Byte)) :
    Flow :=
  let (todo, s) := s.ordered writes
  if todo.isEmpty then s.startBlock kind (blocks + 1)
  else .wait (s.waitOn (.writeBlock kind blocks todo []))

/-- The writes of STREAM_ENCODE for one block: WORK[p][0..sp) to OUT[k+p] (45_stream.md R310), also where sp exceeds
SLOT_CAP (log entry 26). -/
def State.encodeWrites (s : State) (sp : Nat) : List (Nat × List Byte) :=
  let rows := s.stgParity sp
  (List.range s.m).map fun p => (s.k + p, s.parityBytes rows p)

/-- WORK[p][0..sp) = STG[k+p][0..sp) for every p < m (45_stream.md R311), also where sp exceeds SLOT_CAP (log entry
26). -/
def State.stgParityEqual (s : State) (sp : Nat) : Bool :=
  let rows := s.stgParity sp
  allShards 0 s.m fun p => s.parityBytes rows p = s.stgBytes (s.k + p) sp

/-- The writes of a stream reconstruction for one block: the recovered shard of every absent, connected i, s
bytes of a data shard and s_padded of a parity shard; with `dataOnly` only i < k (45_stream.md R312,
R313). DESIGN CHOICE (log entry 26), unsafe: s_padded may exceed SLOT_CAP when STG_CAP > SLOT_CAP, and the rows are
recovered in full. -/
def State.reconstructWrites (s : State) (dataOnly : Bool) (size : Nat) : List (Nat × List Byte) :=
  let sp := roundUp size Config.align
  let dec :=
    s.field.decode s.k s.m s.mpow (elemCount s.field sp) (fun i => !s.inConn i) (s.stgRow sp)
  ((List.range (if dataOnly then s.k else s.n)).filter fun i => !s.inConn i && s.outConn i).map fun i =>
    (i, (bytesOfElems s.field s.params.layout (s.field.recovered s.k s.mpow dec i)).take
      (if i < s.k then size else sp))

/-- One block after PAD_BLOCK, up to its first write, the next block's first read or the command's end
(45_stream.md R310 to R313). -/
def State.runBlock (s : State) (kind : BlockKind) (blocks size : Nat) : Flow :=
  let sp := roundUp size Config.align
  match kind with
  | .encode => s.startWrites kind blocks (s.encodeWrites sp)
  | .verify =>
    if s.stgParityEqual sp then s.startBlock kind (blocks + 1) else .done (s.setVerify false)
  | .reconstruct dataOnly => s.startWrites kind blocks (s.reconstructWrites dataOnly size)

/-- All reads of a block are made and none failed: the block size is settled, and a block of size 0 ends the
stream (45_stream.md R293, R295). -/
def State.settleBlock (kind : BlockKind) (blocks : Nat) (lens : List (Nat × Nat)) (s : State) : Flow :=
  let (size, s) := s.settleSize lens
  if size = 0 then s.endOfStream kind blocks
  else (s.padBlock size lens).runBlock kind blocks size

/-- The answer to the first of a block's reads: the row goes to staging, and the command waits on the next
read, settles the block, or fails (45_stream.md R293, R296). -/
def State.readStep (s : State) (r : Reply) (kind : BlockKind) (blocks : Nat) (todo : List Nat)
    (lens : List (Nat × Nat)) (fails : List (Nat × Word)) : Flow :=
  match todo with
  | [] => s.afterBatch .streamReadError fails (State.settleBlock kind blocks lens)
  | i :: rest =>
    let (answer, s) := s.portRead r i s.blockSize
    let (s, lens, noted) : State × List (Nat × Nat) × Except Err (List (Nat × Word)) :=
      match answer with
      | .ok bytes => (s.setStgBytes i bytes, lens ++ [(i, bytes.length)], .ok fails)
      | .error c => (s, lens, s.noteFail .streamReadError i c fails)
    match noted with
    | .error e => .fail e s
    | .ok fails =>
      if rest.isEmpty then s.afterBatch .streamReadError fails (State.settleBlock kind blocks lens)
      else .wait (s.waitOn (.readBlock kind blocks rest lens fails))

/-- The answer to a port operation of a block command. -/
def State.blockReply (s : State) (kind : BlockKind) (f : Flow) : State :=
  f.settleWith (State.endBlockCommand (s.blockNeed kind))

/-- A stream command accepted and run up to its first port operation (45_stream.md §4). -/
def State.streamCommand (s : State) (cleanup : State → State) (rule : State → Except Err Flow) :
    Host.Outcome State Fault Refusal :=
  .next ((Flow.ofChecks s.accept (rule s.accept)).settleWith cleanup)

/-- STREAM_ENCODE's entry checks, in order, and its first read (45_stream.md R310). -/
def State.streamEncodeRule (s : State) : Except Err Flow := do
  s.streamChecks
  check (s.argNat 0 = s.k && s.argNat 1 = s.m) .invalidShards
  check (allShards 0 s.k s.inConn) .emptyShards
  check (allShards s.k s.m s.outConn) .nilWriter
  check (s.encodeNeed ≤ s.params.workBufs) .capacity
  return s.startBlock .encode 0

/-- STREAM_ENCODE (45_stream.md R310). -/
def execStreamEncode (s : State) : Host.Outcome State Fault Refusal :=
  s.streamCommand (State.endBlockCommand s.encodeNeed) State.streamEncodeRule

/-- STREAM_VERIFY's entry checks, in order, and its first read (45_stream.md R311). -/
def State.streamVerifyRule (s : State) : Except Err Flow := do
  s.streamChecks
  check (s.argNat 0 = s.n) .invalidShards
  check (allShards 0 s.n s.inConn) .emptyShards
  check (s.encodeNeed ≤ s.params.workBufs) .capacity
  return s.startBlock .verify 0

/-- STREAM_VERIFY (45_stream.md R311). -/
def execStreamVerify (s : State) : Host.Outcome State Fault Refusal :=
  s.streamCommand (State.endBlockCommand s.encodeNeed) State.streamVerifyRule

/-- |A|, the number of shards whose reader is disconnected (45_stream.md R312). -/
def State.disconnectedCount (s : State) : Nat :=
  ((List.range s.n).filter fun i => !s.inConn i).length

/-- The entry checks of the two stream reconstructions, in order, and the first read. With `dataOnly` there is
no work when every data reader is connected, and that test comes before `e > m` (45_stream.md R312, R313,
R316). -/
def State.streamReconstructRule (dataOnly : Bool) (s : State) : Except Err Flow := do
  s.streamChecks
  check (s.argNat 0 = s.n && s.argNat 1 = s.n) .invalidShards
  check (!anyShard 0 s.n fun i => s.inConn i && s.outConn i) .reconstructMismatch
  if s.disconnectedCount = 0 then return .done (s.setResult 0)
  if dataOnly && allShards 0 s.k s.inConn then return .done (s.setResult 0)
  check (s.disconnectedCount ≤ s.m) .tooFewShards
  check (s.decodeNeed ≤ s.params.workBufs) .capacity
  return s.startBlock (.reconstruct dataOnly) 0

/-- STREAM_RECONSTRUCT (45_stream.md R312). -/
def execStreamReconstruct (s : State) : Host.Outcome State Fault Refusal :=
  s.streamCommand (State.endBlockCommand s.decodeNeed) (State.streamReconstructRule false)

/-- STREAM_RECONSTRUCT_DATA (45_stream.md R313). -/
def execStreamReconstructData (s : State) : Host.Outcome State Fault Refusal :=
  s.streamCommand (State.endBlockCommand s.decodeNeed) (State.streamReconstructRule true)

/-- STREAM_SPLIT's entry checks, in order, and its one read (45_stream.md R314). -/
def State.streamSplitRule (s : State) : Except Err Flow := do
  s.streamChecks
  let size := s.size64
  check (!sizeNegative size) .size
  check (s.argNat 0 = s.k) .invalidShards
  check (allShards 0 s.k s.outConn) .nilWriter
  check (size ≠ 0) .shortData
  check (perShard size s.k ≤ s.params.stgCap) .capacity
  check (s.inConn 0) .shortData
  return .wait (s.waitOn (.splitRead size))

/-- STREAM_SPLIT (45_stream.md R314). -/
def execStreamSplit (s : State) : Host.Outcome State Fault Refusal :=
  s.streamCommand State.spoilStg State.streamSplitRule

/-- The end of STREAM_SPLIT (45_stream.md R314). -/
def State.splitEnd (per : Nat) (s : State) : Flow :=
  .done (s.setResult per)

/-- STREAM_SPLIT has its payload: the k staging rows are filled and the first write is made (45_stream.md
R314). -/
def State.splitRows (s : State) (size : Nat) (bytes : List Byte) : Flow :=
  let per := perShard size s.k
  let s := (List.range s.k).foldl (init := s) fun t j =>
    t.setStgBytes j (shardOf (fun b => bytes.getD b 0) size per j)
  let (todo, s) := s.ordered ((List.range s.k).map fun j => (j, s.stgBytes j per))
  if todo.isEmpty then s.splitEnd per else .wait (s.waitOn (.splitWrite per todo []))

/-- The answer to STREAM_SPLIT's read (45_stream.md R314). -/
def State.splitReadReply (s : State) (r : Reply) (size : Nat) : Flow :=
  let (answer, s) := s.portRead r 0 size
  match answer with
  | .error c => .fail (.streamReadError 0 c) s
  | .ok bytes => if bytes.length < size then .fail .shortData s else s.splitRows size bytes

/-- STREAM_JOIN's loop at reader `j` with `rem` bytes to go: the next read, or the end (45_stream.md R315). -/
def State.streamJoinNext (s : State) (j rem total : Nat) : Flow :=
  if rem = 0 then .done (s.setResult total)
  else if j < s.k ∧ s.inConn j then .wait (s.waitOn (.streamJoinRead j rem total))
  else .fail .shortData s

/-- STREAM_JOIN's entry checks, in order, and its first read (45_stream.md R315). -/
def State.streamJoinRule (s : State) : Except Err Flow := do
  s.streamChecks
  let outSize := s.size64
  check (!sizeNegative outSize) .size
  check (s.k ≤ s.argNat 0) .tooFewShards
  check (s.argNat 0 ≤ s.n) .invalidShards
  check (s.outConn 0) .nilWriter
  return s.streamJoinNext 0 outSize 0

/-- STREAM_JOIN (45_stream.md R315). -/
def execStreamJoin (s : State) : Host.Outcome State Fault Refusal :=
  s.streamCommand State.spoilStg State.streamJoinRule

/-- STREAM_JOIN after reader `j` gave `got` bytes that are written: the next reader when it gave fewer than
were wanted (45_stream.md R315). -/
def State.streamJoinAdvance (s : State) (j rem total got : Nat) : Flow :=
  s.streamJoinNext (if got < min s.blockSize rem then j + 1 else j) (rem - got) (total + got)

/-- The answer to STREAM_JOIN's read (45_stream.md R315). -/
def State.streamJoinReadReply (s : State) (r : Reply) (j rem total : Nat) : Flow :=
  let (answer, t) := s.portRead r j (min s.blockSize rem)
  match answer with
  | .error c => .fail (.streamReadError j c) t
  | .ok bytes =>
    if bytes.isEmpty then t.streamJoinAdvance j rem total 0
    else .wait (t.waitOn (.streamJoinWrite j rem total bytes))

/-- The answer to STREAM_JOIN's write (45_stream.md R315). -/
def State.streamJoinWriteReply (s : State) (r : Reply) (j rem total : Nat) (bytes : List Byte) : Flow :=
  let (answer, t) := s.portWrite r 0 bytes
  match answer with
  | .error c => .fail (.streamWriteError 0 c) t
  | .ok () => t.streamJoinAdvance j rem total bytes.length

/-- The port environment answers the outstanding port operation: the command goes on to its next one or to
its end, one port operation a step (45_stream.md R297). -/
def State.answer (s : State) (r : Reply) : Host.Outcome State Fault Refusal :=
  match s.job with
  | none => .refused .noPortOperation
  | some (.readBlock kind blocks todo lens fails) =>
    .next (s.blockReply kind (s.readStep r kind blocks todo lens fails))
  | some (.writeBlock kind blocks todo fails) =>
    .next (s.blockReply kind
      (s.writeStep r todo fails (.writeBlock kind blocks) fun t => t.startBlock kind (blocks + 1)))
  | some (.splitRead size) => .next ((s.splitReadReply r size).settleWith State.spoilStg)
  | some (.splitWrite per todo fails) =>
    .next ((s.writeStep r todo fails (.splitWrite per) (State.splitEnd per)).settleWith State.spoilStg)
  | some (.joinWrite j rem outSize) => .next (s.joinReply r j rem outSize).settle
  | some (.streamJoinRead j rem total) =>
    .next ((s.streamJoinReadReply r j rem total).settleWith State.spoilStg)
  | some (.streamJoinWrite j rem total bytes) =>
    .next ((s.streamJoinWriteReply r j rem total bytes).settleWith State.spoilStg)

end Sys2Proof.Machine
end

