-- ==== Sys2Proof/Machine/Dispatch.lean ====
section
/-! DEFINITION. One arm per command (30_encoding.md R124). -/

namespace Sys2Proof.Machine

/-- The meaning of a command issued in the state `s`: acceptance, its rule, and its completion or its first
wait on a port (60_exceptions.md R343). -/
def exec (i : Instr) (s : State) : Host.Outcome State Fault Refusal :=
  match i with
  | .config => Sys2Proof.Machine.execConfig s
  | .gfLog8 => Sys2Proof.Machine.execGfLog8 s
  | .gfLog16 => Sys2Proof.Machine.execGfLog16 s
  | .gfExp8 => Sys2Proof.Machine.execGfExp8 s
  | .gfExp16 => Sys2Proof.Machine.execGfExp16 s
  | .gfMul8 => Sys2Proof.Machine.execGfMul8 s
  | .gfMul16 => Sys2Proof.Machine.execGfMul16 s
  | .gfMulLog8 => Sys2Proof.Machine.execGfMulLog8 s
  | .gfMulLog16 => Sys2Proof.Machine.execGfMulLog16 s
  | .skewRead8 => Sys2Proof.Machine.execSkewRead8 s
  | .skewRead16 => Sys2Proof.Machine.execSkewRead16 s
  | .xorSlice => Sys2Proof.Machine.execXorSlice s
  | .mul8 => Sys2Proof.Machine.execMul8 s
  | .mul16 => Sys2Proof.Machine.execMul16 s
  | .mulAdd8 => Sys2Proof.Machine.execMulAdd8 s
  | .mulAdd16 => Sys2Proof.Machine.execMulAdd16 s
  | .fftDit2x8 => Sys2Proof.Machine.execFftDit2x8 s
  | .fftDit2x16 => Sys2Proof.Machine.execFftDit2x16 s
  | .ifftDit2x8 => Sys2Proof.Machine.execIfftDit2x8 s
  | .ifftDit2x16 => Sys2Proof.Machine.execIfftDit2x16 s
  | .fftDit4x8 => Sys2Proof.Machine.execFftDit4x8 s
  | .fftDit4x16 => Sys2Proof.Machine.execFftDit4x16 s
  | .ifftDit4x8 => Sys2Proof.Machine.execIfftDit4x8 s
  | .ifftDit4x16 => Sys2Proof.Machine.execIfftDit4x16 s
  | .encode => Sys2Proof.Machine.execEncode s
  | .verify => Sys2Proof.Machine.execVerify s
  | .reconstruct => Sys2Proof.Machine.execReconstruct s
  | .reconstructData => Sys2Proof.Machine.execReconstructData s
  | .split => Sys2Proof.Machine.execSplit s
  | .join => Sys2Proof.Machine.execJoin s
  | .streamEncode => Sys2Proof.Machine.execStreamEncode s
  | .streamVerify => Sys2Proof.Machine.execStreamVerify s
  | .streamReconstruct => Sys2Proof.Machine.execStreamReconstruct s
  | .streamReconstructData => Sys2Proof.Machine.execStreamReconstructData s
  | .streamSplit => Sys2Proof.Machine.execStreamSplit s
  | .streamJoin => Sys2Proof.Machine.execStreamJoin s

end Sys2Proof.Machine
end

