-- ==== Sys2Proof/Machine/Bus.lean ====
section
/-! DEFINITION. Host accesses to the register window, the SLEN table, slot data and the data buffer
(10_state.md R32 to R63, 20_memory.md R81 to R94), and issuing a command by a write to CMD. -/

namespace Sys2Proof.Machine

/-- Where a host address lies, and the offset there (20_memory.md R81). -/
inductive Place where
  | window (off : Nat)
  | slen (off : Nat)
  | slots (off : Nat)
  | dbuf (off : Nat)
deriving DecidableEq, Repr

/-- The region of a host address (20_memory.md R81); none for an address that is not the core's. -/
def placeOf (p : Params) (addr : Nat) : Option Place :=
  if p.mmioBase ≤ addr ∧ addr < p.mmioBase + Config.windowBytes then some (.window (addr - p.mmioBase))
  else if p.slenBase ≤ addr ∧ addr < p.slenBase + 4 * Config.nslot then some (.slen (addr - p.slenBase))
  else if p.slotBase ≤ addr ∧ addr < p.slotBase + Config.nslot * p.slotCap then
    some (.slots (addr - p.slotBase))
  else if p.dbufBase ≤ addr ∧ addr < p.dbufBase + p.dbufCap then some (.dbuf (addr - p.dbufBase))
  else none

/-- A permitted access to the window or the SLEN table: 32 bits wide and 4-byte aligned (20_memory.md
R87). -/
def wordAccessOk (addr off width : Nat) : Bool :=
  width = 4 && addr % 4 = 0 && off % 4 = 0

/-- A permitted access to slot data or the data buffer: 1, 2, 4 or 8 bytes wide and naturally aligned
(20_memory.md R89). -/
def dataAccessOk (addr width : Nat) : Bool :=
  (width = 1 || width = 2 || width = 4 || width = 8) && addr % width = 0

/-- The little-endian value of bytes (20_memory.md R82). -/
def leValue : List Byte → Nat
  | [] => 0
  | b :: bs => b.toNat + 256 * leValue bs

/-- The `n` little-endian bytes of a value (20_memory.md R82). -/
def leBytes : Nat → Nat → List Byte
  | 0, _ => []
  | n + 1, v => BitVec.ofNat 8 v :: leBytes n (v / 256)

/-- The value a read of the register at a window offset gives (10_state.md R32). CMD and the reserved offsets
read 0. -/
def State.readReg (s : State) (off : Nat) : Word :=
  match off with
  | 0x000 => Config.idWord
  | 0x004 => capsWord s.params
  | 0x008 => s.ctrl.toWord
  | 0x00C => s.statusWord
  | 0x010 => s.errStream.setWidth 32
  | 0x014 => s.errInner
  | 0x018 => 0
  | 0x01C => s.result
  | 0x020 => s.cfg.k
  | 0x024 => s.cfg.m
  | 0x028 => s.cfg.conc
  | 0x02C => s.cfg.block
  | 0x030 => s.geo.k
  | 0x034 => s.geo.m
  | 0x038 => s.geo.n
  | 0x03C => s.geo.mpow
  | 0x040 => 64
  | 0x044 => s.dlen
  | 0x048 => s.arg 0
  | 0x04C => s.arg 1
  | 0x050 => s.arg 2
  | 0x054 => s.arg 3
  | 0x058 => s.arg 4
  | 0x05C => s.arg 5
  | 0x060 => s.arg 6
  | 0x064 => s.arg 7
  | _ => 0

/-- A write that is dropped while the core is busy: `t` is what it leaves otherwise, and a drop sets OVR
(10_state.md R42, R63). -/
def State.unlessBusy (s t : State) : State :=
  if s.busy then s.setOvr else t

/-- ARGi <- v (10_state.md R50). -/
def State.setArg (s : State) (i : Fin 8) (v : Word) : State :=
  { s with args := s.args.set i v }

/-- A command word is issued on an idle core: a legal word runs its command, any other one is accepted and
completes with IllegalCommand (30_encoding.md R131, 60_exceptions.md R343). -/
def State.issue (s : State) (v : Word) : Host.Outcome State Fault Refusal :=
  match decode v with
  | .ok i => exec i s
  | .error _ => .next (s.command fun _ => .error .illegalCommand)

/-- A write of `v` to the register at a window offset (10_state.md R32, R62, R63). A write to STATUS is always
performed; writes to read-only registers and reserved offsets are ignored. -/
def State.writeReg (s : State) (off : Nat) (v : Word) : Host.Outcome State Fault Refusal :=
  match off with
  | 0x008 => .next (s.unlessBusy { s with ctrl := Ctrl.ofWord v })
  | 0x00C => .next { s with status := s.status.writeOneToClear v }
  | 0x018 => if s.busy then .next s.setOvr else s.issue v
  | 0x020 => .next (s.unlessBusy { s with cfg := { s.cfg with k := v } })
  | 0x024 => .next (s.unlessBusy { s with cfg := { s.cfg with m := v } })
  | 0x028 => .next (s.unlessBusy { s with cfg := { s.cfg with conc := concOfWrite v } })
  | 0x02C => .next (s.unlessBusy { s with cfg := { s.cfg with block := v } })
  | 0x044 => .next (s.unlessBusy (if v.toNat ≤ s.params.dbufCap then { s with dlen := v } else s))
  | 0x048 => .next (s.unlessBusy (s.setArg 0 v))
  | 0x04C => .next (s.unlessBusy (s.setArg 1 v))
  | 0x050 => .next (s.unlessBusy (s.setArg 2 v))
  | 0x054 => .next (s.unlessBusy (s.setArg 3 v))
  | 0x058 => .next (s.unlessBusy (s.setArg 4 v))
  | 0x05C => .next (s.unlessBusy (s.setArg 5 v))
  | 0x060 => .next (s.unlessBusy (s.setArg 6 v))
  | 0x064 => .next (s.unlessBusy (s.setArg 7 v))
  | _ => .next s

/-- A read is answered with a value. -/
def State.setRead (s : State) (v : Nat) : State :=
  { s with readValue := BitVec.ofNat 64 v }

/-- A read of shard storage: dropped while the core is busy, when it gives 0 and sets OVR (20_memory.md
R92). -/
def State.storageRead (s : State) (v : Nat) : State :=
  if s.busy then s.setOvr.setRead 0 else s.setRead v

/-- A write of v to SLEN[i]: ignored above SLOT_CAP (10_state.md R53). -/
def State.writeSlen (s : State) (i : Nat) (v : Word) : State :=
  s.unlessBusy (if v.toNat ≤ s.params.slotCap then s.setSlen i v else s)

/-- A host read (20_memory.md R87 to R92). -/
def State.hostRead (s : State) (addr width : Nat) : Host.Outcome State Fault Refusal :=
  match placeOf s.params addr with
  | none => .fault (.unmapped addr)
  | some (.window off) =>
    if wordAccessOk addr off width then .next (s.setRead (s.readReg off).toNat)
    else .refused (.badAccess addr width)
  | some (.slen off) =>
    if wordAccessOk addr off width then .next (s.storageRead (s.slenAt (off / 4)))
    else .refused (.badAccess addr width)
  | some (.slots off) =>
    if !dataAccessOk addr width then .refused (.badAccess addr width)
    else if Config.nslot * s.params.slotCap < off + width then .fault (.unmapped addr)
    else .next (s.storageRead (leValue (s.slots.readBytes off width)))
  | some (.dbuf off) =>
    if !dataAccessOk addr width then .refused (.badAccess addr width)
    else if s.params.dbufCap < off + width then .fault (.unmapped addr)
    else .next (s.storageRead (leValue (s.dbuf.readBytes off width)))

/-- A host write (20_memory.md R87 to R92). -/
def State.hostWrite (s : State) (addr width : Nat) (v : DWord) : Host.Outcome State Fault Refusal :=
  match placeOf s.params addr with
  | none => .fault (.unmapped addr)
  | some (.window off) =>
    if wordAccessOk addr off width then s.writeReg off (v.setWidth 32)
    else .refused (.badAccess addr width)
  | some (.slen off) =>
    if wordAccessOk addr off width then .next (s.writeSlen (off / 4) (v.setWidth 32))
    else .refused (.badAccess addr width)
  | some (.slots off) =>
    if !dataAccessOk addr width then .refused (.badAccess addr width)
    else if Config.nslot * s.params.slotCap < off + width then .fault (.unmapped addr)
    else .next (s.unlessBusy { s with slots := s.slots.writeBytes off (leBytes width v.toNat) })
  | some (.dbuf off) =>
    if !dataAccessOk addr width then .refused (.badAccess addr width)
    else if s.params.dbufCap < off + width then .fault (.unmapped addr)
    else .next (s.unlessBusy { s with dbuf := s.dbuf.writeBytes off (leBytes width v.toNat) })

/-- A host access takes effect (20_memory.md R93). -/
def State.serve (s : State) : Access → Host.Outcome State Fault Refusal
  | .read addr width => s.hostRead addr width
  | .write addr width v => s.hostWrite addr width v

/-- The host changes a port: it must not while a command runs (10_state.md R59, 70_reset_and_hazards.md
R395). -/
def State.changePort (s : State) (i : Nat) (t : State) : Host.Outcome State Fault Refusal :=
  if Config.nport ≤ i then .fault (.noSuchPort i)
  else if s.busy then .refused .portChangeWhileBusy
  else .next t

/-- One thing that the host or the port environment does (70_reset_and_hazards.md R395). -/
def State.handle (s : State) : Input → Host.Outcome State Fault Refusal
  | .access a => s.serve a
  | .reply r => s.answer r
  | .reset => .next s.assertReset
  | .setIn i p => s.changePort i (s.setInPort i p)
  | .setOut j p => s.changePort j (s.setOutPort j p)

/-- The next input is taken off the list and handled. While there is none, every agent waits and nothing
changes (70_reset_and_hazards.md R381, R392). -/
def State.advance (s : State) : Host.Outcome State Fault Refusal :=
  match s.inputs with
  | [] => .next s
  | x :: rest => State.handle { s with inputs := rest } x

/-- The host write that issues the command word `w` (10_state.md R66). -/
def State.cmdWrite (s : State) (w : Word) : Input :=
  .access (.write (s.params.mmioBase + 0x018) 4 (w.setWidth 64))

end Sys2Proof.Machine
end

