-- ==== Sys2Proof/Machine/Step.lean ====
section
/-! DEFINITION. One step of the machine. -/

namespace Sys2Proof.Machine

/-- One step: the oldest input takes effect (10_state.md R30, 20_memory.md R93). A write to CMD on an idle core
runs a command up to its completion or its first port operation, and an answer of the port environment takes
it on to the next one. -/
def step (s : State) : Host.Outcome State Fault Refusal :=
  s.advance

/-- The state `s` with the command word `w % 2^nbits` about to be issued: the host's next access writes it to
CMD (10_state.md R49, R66), and no command runs, so that the write is accepted. -/
def State.withFetchWord (s : State) (nbits w : Nat) : State :=
  { s with
    seq := .idle
    job := none
    inputs := s.cmdWrite (BitVec.ofNat 32 (w % 2 ^ nbits)) :: s.inputs }

end Sys2Proof.Machine
end

