-- ==== Sys2Proof/Machine/Run.lean ====
section
/-! DEFINITION. The end of a run of a host program and what is observed there (70_reset_and_hazards.md R396). -/

namespace Sys2Proof.Machine

/-- The input is a host write to CMD that the bus accepts as an access (10_state.md R66, 20_memory.md R87). -/
def Input.writesCmd (p : Params) : Input → Bool
  | .access (.write addr width _) =>
    placeOf p addr = some (.window 0x018) && wordAccessOk addr 0x018 width
  | _ => false

/-- The input is a host read of STATUS that the bus accepts as an access (10_state.md R36, 20_memory.md R87). -/
def Input.readsStatus (p : Params) : Input → Bool
  | .access (.read addr width) =>
    placeOf p addr = some (.window 0x00C) && wordAccessOk addr 0x00C width
  | _ => false

/-- The step from `s` ends a run (70_reset_and_hazards.md R396): it serves a read of STATUS that shows BUSY = 0
and DONE = 1, and the host writes CMD no more, so the command that set DONE is its last. DEDUCED (log entry 25):
acceptance clears DONE, so on an idle core a DONE that stands was set by the command that was issued last. -/
def State.endsRun (s : State) : Bool :=
  match s.inputs with
  | [] => false
  | x :: rest =>
    x.readsStatus s.params && !s.busy && s.status.done && rest.all fun y => !y.writesCmd s.params

/-- The state at the first point where the run from `s` ends, if `n` steps reach one (70_reset_and_hazards.md
R396). -/
def State.runEnd : Nat → State → Option State
  | 0, _ => none
  | n + 1, s =>
    match step s with
    | .next t => if s.endsRun then some t else State.runEnd n t
    | .fault _ => none
    | .refused _ => none

/-- What is observed at the end of a run (70_reset_and_hazards.md R396). -/
structure Observation where
  /-- The register window, a word per 4-byte offset. -/
  window : List Word
  /-- SLEN[i] and the bytes [0, SLEN[i]) of slot i, for every i. -/
  shards : List (Word × List Byte)
  /-- DBUF[0 .. DLEN). -/
  dbuf : List Byte
  /-- OUT[j].written and IN[j].pos, for every j. -/
  ports : List (List Byte × Nat)
deriving DecidableEq, Repr

/-- One entry of the observation of the shards (70_reset_and_hazards.md R396). -/
def State.observeShard (s : State) (i : Nat) : Word × List Byte :=
  (s.slenWord i, s.slotBytes i (s.slenAt i))

/-- One entry of the observation of the ports (70_reset_and_hazards.md R396). -/
def State.observePort (s : State) (j : Nat) : List Byte × Nat :=
  ((s.outPort j).written, (s.inPort j).pos)

/-- The observation of a state (70_reset_and_hazards.md R396). It reads no work or staging buffer, and no slot
byte at or beyond SLEN. -/
def State.observe (s : State) : Observation where
  window := (List.range (Config.windowBytes / 4)).map fun i => s.readReg (4 * i)
  shards := (List.range Config.nslot).map s.observeShard
  dbuf := s.dbuf.readBytes 0 s.dlen.toNat
  ports := (List.range Config.nport).map s.observePort

/-- The observation of the run from `s`, if `n` steps reach its end (70_reset_and_hazards.md R396). -/
def State.observeRun (n : Nat) (s : State) : Option Observation :=
  (State.runEnd n s).map State.observe

end Sys2Proof.Machine
end

