-- ==== Sys2Proof/Safety.lean ====
section
/-! DEFINITION. What a safe run is, the invariants that every step keeps, and the terms in which the statements
about the machine are written. -/

namespace Sys2Proof.Machine

/-- No host access was dropped since OVR was last cleared: the premise of a claim about a host program
(70_reset_and_hazards.md R391). -/
def State.NothingDropped (s : State) : Prop :=
  s.status.ovr = false

/-- The storage is in its one form: memories and tables have rising keys, no shard length exceeds SLOT_CAP
(10_state.md R53) and DLEN does not exceed DBUF_CAP (10_state.md R54). -/
structure State.StorageInv (s : State) : Prop where
  slots : s.slots.wf = true
  dbuf : s.dbuf.wf = true
  work : s.work.wf = true
  stg : s.stg.wf = true
  slen : tableWf 0 s.slen = true
  inPorts : tableWf InPort.empty s.inPorts = true
  outPorts : tableWf OutPort.empty s.outPorts = true
  slenBound : ∀ i, s.slenAt i ≤ s.params.slotCap
  dlenBound : s.dlen.toNat ≤ s.params.dbufCap

/-- The codes of 60_exceptions.md R340; 14 to 31 and 36 to 255 are reserved, and no command produces them. -/
def codeDefined (c : BitVec 8) : Bool :=
  c.toNat ≤ 13 || (32 ≤ c.toNat && c.toNat ≤ 35)

/-- The sequencer and the status agree: between steps the core is idle or waits on a port
(45_stream.md R297), an error has a code (60_exceptions.md R340, R341), and a running command shows
RESULT = ERRSTREAM = ERRINNER = 0 and DONE = 0 (70_reset_and_hazards.md R390). -/
structure State.ControlInv (s : State) : Prop where
  seq : s.seq = .idle ∨ s.seq = .streamIo
  job : s.job.isSome = s.busy
  code : codeDefined s.status.errCode = true
  err : s.status.err = true ↔ s.status.errCode ≠ 0
  errResult : s.status.err = true → s.result = 0 ∧ s.status.verifyOk = false
  running : s.busy = true →
    s.result = 0 ∧ s.errStream = 0 ∧ s.errInner = 0 ∧ s.status.done = false ∧ s.status.err = false
      ∧ s.status.verifyOk = false
  conc : 0 < s.cfg.conc.toInt

/-- GEO, CONFIGURED and FIELD16 are what some CONFIG left: cleared, or a (k, m) that CONFIG admits
(44_codec.md R230, R231, 10_state.md R41, R46). -/
structure State.ConfigInv (s : State) : Prop where
  cleared : s.status.configured = false →
    s.geo = { k := 0, m := 0, n := 0, mpow := 0 } ∧ s.status.field16 = false
  positive : s.status.configured = true → 0 < s.k ∧ 0 < s.m
  total : s.status.configured = true → s.n = s.k + s.m ∧ s.n ≤ 65536
  power : s.status.configured = true → s.mpow = ceilPow2 s.m
  fits : s.status.configured = true → selectField s.k s.m s.mpow = some s.field

/-- The state after a command that succeeded with RESULT = `r` and wrote nothing else (60_exceptions.md R343,
R344). -/
def State.succeeded (s : State) (r : Word) : State :=
  { s with
    status := { s.status with done := true, err := false, errCode := 0, verifyOk := false }
    seq := .idle
    parIoLatch := s.ctrl.parIo
    errStream := 0
    errInner := 0
    result := r
    job := none }

/-- The state after a command that failed with an error which names no port, and wrote nothing else
(60_exceptions.md R341, R343, R344). -/
def State.failed (s : State) (e : Err) : State :=
  { s with
    status := { s.status with done := true, err := true, errCode := e.code, verifyOk := false }
    seq := .idle
    parIoLatch := s.ctrl.parIo
    errStream := 0
    errInner := 0
    result := 0
    job := none }

/-- The state after a command was accepted and stopped on its first port operation, having written nothing
else (60_exceptions.md R343, 45_stream.md R297). -/
def State.waiting (s : State) (j : Job) : State :=
  { s with
    status := { s.status with done := false, err := false, errCode := 0, verifyOk := false }
    seq := .streamIo
    parIoLatch := s.ctrl.parIo
    errStream := 0
    errInner := 0
    result := 0
    job := some j }

/-- The state after a waiting command ended without error and with RESULT = `r` (60_exceptions.md R344). -/
def State.ended (s : State) (r : Word) : State :=
  { s with
    status := { s.status with done := true }
    seq := .idle
    result := r
    job := none }

/-- The state after a waiting command ended with the error word `c` of port `i` (60_exceptions.md R341, R344,
10_state.md R51). -/
def State.portFailed (s : State) (code : BitVec 8) (i : Nat) (c : Word) : State :=
  { s with
    status := { s.status with done := true, err := true, errCode := code, verifyOk := false }
    seq := .idle
    errStream := BitVec.ofNat 16 i
    errInner := c
    result := 0
    job := none }

/-- The state after a waiting command ended with an error that names no port: ERRSTREAM and ERRINNER stay 0, as
they were when it was accepted (60_exceptions.md R341, R344). -/
def State.aborted (s : State) (e : Err) : State :=
  { s with
    status := { s.status with done := true, err := true, errCode := e.code, verifyOk := false }
    seq := .idle
    result := 0
    job := none }

/-- The instruction of a field-dependent operation: its GF(2^8) row or its GF(2^16) row
(30_encoding.md R122). -/
def byField (f : GF) (i8 i16 : Instr) : Instr :=
  match f with
  | .gf8 => i8
  | .gf16 => i16

/-- The byte at an address of slot memory, or of work memory when `inWork` holds. -/
def State.memByte (s : State) (inWork : Bool) (a : Nat) : Byte :=
  if inWork then s.work.read a else s.slots.read a

/-- A buffer lies in work memory. -/
def Buf.inWork : Buf → Bool
  | .slot _ => false
  | .work _ => true

/-- The index of a buffer in its space. -/
def Buf.index : Buf → Nat
  | .slot i => i
  | .work i => i

/-- Byte j of a buffer (20_memory.md R81, 10_state.md R56). -/
def State.bufByte (s : State) (b : Buf) (j : Nat) : Byte :=
  s.memByte b.inWork (s.slotAddr b.index + j)

/-- The address `a` of the memory `inWork` is one of the first `len` bytes of a buffer. -/
def State.InBuf (s : State) (b : Buf) (len : Nat) (inWork : Bool) (a : Nat) : Prop :=
  inWork = b.inWork ∧ s.slotAddr b.index ≤ a ∧ a < s.slotAddr b.index + len

/-- Every byte of slot and work memory outside the first `len` bytes of the buffers `bs` is as before. -/
def State.KeepsBytesBut (s t : State) (bs : List Buf) (len : Nat) : Prop :=
  ∀ inWork a, (∀ b ∈ bs, ¬ s.InBuf b len inWork a) → t.memByte inWork a = s.memByte inWork a

/-- `t` is `u` but for what slot and work memory hold. -/
def State.SameButMemory (t u : State) : Prop :=
  { t with slots := u.slots, work := u.work } = u

/-- `t` is `u` but for slot memory, the shard lengths, work memory and how many free values were drawn. -/
def State.SameButShards (t u : State) : Prop :=
  { t with slots := u.slots, slen := u.slen, work := u.work, draws := u.draws } = u

/-- `t` is `u` but for work memory, staging memory and how many free values were drawn: what a stream command
leaves UNSPECIFIED when it ends (10_state.md R56, R57). -/
def State.SameButScratch (t u : State) : Prop :=
  { t with work := u.work, stg := u.stg, draws := u.draws } = u

/-- The work buffers from WORK[need] on keep their bytes (10_state.md R56, 70_reset_and_hazards.md R394). -/
def State.KeepsWorkFrom (s t : State) (need : Nat) : Prop :=
  ∀ a, s.slotAddr need ≤ a → t.work.read a = s.work.read a

/-- `t` is `u` but for work memory and how many free values were drawn: what an in-memory codec command that
writes no shard leaves UNSPECIFIED (10_state.md R56). -/
def State.SameButWork (t u : State) : Prop :=
  { t with work := u.work, draws := u.draws } = u

/-- The checks of ENCODE, in the order of 44_codec.md R250: the error of the first that fails. -/
def State.encodeVerdict (s : State) : Option Err :=
  if s.status.configured = false then some .notConfigured
  else if s.argNat 0 ≠ s.n then some .invalidShards
  else if ∀ d < s.k, s.slenAt d = 0 then some .shardNoData
  else if ∃ d < s.k, s.slenAt d = 0 then some .emptyShards
  else if ∃ d < s.k, s.slenAt d ≠ s.slenAt 0 then some .shardSize
  else if ∃ p < s.m, s.slenAt (s.k + p) ≠ 0 ∧ s.slenAt (s.k + p) ≠ s.slenAt 0 then some .shardSize
  else if s.slenAt 0 % 64 ≠ 0 then some .shardSize
  else if s.params.workBufs < (if s.k ≤ s.mpow then s.mpow else 2 * s.mpow) then some .capacity
  else none

/-- The checks of VERIFY, in the order of 44_codec.md R251: the error of the first that fails. -/
def State.verifyVerdict (s : State) : Option Err :=
  if s.status.configured = false then some .notConfigured
  else if s.argNat 0 ≠ s.n then some .invalidShards
  else if ∀ i < s.n, s.slenAt i = 0 then some .shardNoData
  else if ∃ i < s.n, s.slenAt i = 0 then some .emptyShards
  else if ∃ i < s.n, s.slenAt i ≠ s.slenAt 0 then some .shardSize
  else if s.slenAt 0 % 64 ≠ 0 then some .shardSize
  else if s.params.workBufs < (if s.k ≤ s.mpow then s.mpow else 2 * s.mpow) then some .capacity
  else none

/-- What a reconstruction of the slots comes to. -/
inductive Plan where
  /-- It fails at entry. -/
  | fails (e : Err)
  /-- There is no shard to recover. -/
  | noWork
  /-- It recovers shards of the common length `S`. -/
  | recover (S : Nat)
deriving DecidableEq, Repr

/-- The checks of RECONSTRUCT and RECONSTRUCT_DATA, in the order of 44_codec.md R252 and R253, on the common
length `S`, the length of the lowest present shard. -/
def State.reconstructPlan (s : State) (dataOnly : Bool) (S : Nat) : Plan :=
  if s.status.configured = false then .fails .notConfigured
  else if s.argNat 0 ≠ s.n then .fails .invalidShards
  else if ∀ i < s.n, s.slenAt i = 0 then .fails .shardNoData
  else if ∃ i < s.n, s.slenAt i ≠ 0 ∧ s.slenAt i ≠ S then .fails .shardSize
  else if S % 64 ≠ 0 then .fails .shardSize
  else if ∀ i < s.n, s.slenAt i ≠ 0 then .noWork
  else if dataOnly = true ∧ ∀ d < s.k, s.slenAt d ≠ 0 then .noWork
  else if s.m < ((List.range s.n).filter fun i => s.slenAt i = 0).length then .fails .tooFewShards
  else if s.params.workBufs < ceilPow2 (s.mpow + s.k) then .fails .capacity
  else .recover S

/-- The checks of SPLIT, in the order of 45_stream.md R300: the error of the first that fails. -/
def State.splitVerdict (s : State) : Option Err :=
  if s.status.configured = false then some .notConfigured
  else if s.dlen = 0 then some .shortData
  else if s.params.slotCap < perShard s.dlen.toNat s.k then some .capacity
  else none

/-- The checks of JOIN, in the order of 45_stream.md R301: the error of the first that fails. -/
def State.joinVerdict (s : State) : Option Err :=
  if s.status.configured = false then some .notConfigured
  else if 2 ^ 63 ≤ s.size64 then some .size
  else if s.argNat 0 < s.k then some .tooFewShards
  else if s.n < s.argNat 0 then some .invalidShards
  else if (s.outPort 0).conn = false then some .nilWriter
  else if s.joinAvail < s.size64 then some .shortData
  else none

/-- The checks that every stream command makes first, in the order of 45_stream.md R294 and §4, before its
own: the error of the first that fails. -/
def State.streamVerdict (s : State) (own : Option Err) : Option Err :=
  if s.status.configured = false then some .notConfigured
  else if s.blockSize = 0 ∨ s.blockSize % 64 ≠ 0 ∨ s.params.stgCap < s.blockSize then some .size
  else own

/-- The entry checks of STREAM_ENCODE (45_stream.md R310). -/
def State.streamEncodeVerdict (s : State) : Option Err :=
  s.streamVerdict <|
    if s.argNat 0 ≠ s.k ∨ s.argNat 1 ≠ s.m then some .invalidShards
    else if ∃ i < s.k, (s.inPort i).conn = false then some .emptyShards
    else if ∃ p < s.m, (s.outPort (s.k + p)).conn = false then some .nilWriter
    else if s.params.workBufs < (if s.k ≤ s.mpow then s.mpow else 2 * s.mpow) then some .capacity
    else none

/-- The entry checks of STREAM_VERIFY (45_stream.md R311). -/
def State.streamVerifyVerdict (s : State) : Option Err :=
  s.streamVerdict <|
    if s.argNat 0 ≠ s.n then some .invalidShards
    else if ∃ i < s.n, (s.inPort i).conn = false then some .emptyShards
    else if s.params.workBufs < (if s.k ≤ s.mpow then s.mpow else 2 * s.mpow) then some .capacity
    else none

/-- The absent shards of a stream reconstruction: A, the i < n with IN[i].conn = 0 (45_stream.md R312). -/
def State.absentStreams (s : State) : List Nat :=
  (List.range s.n).filter fun i => (s.inPort i).conn = false

/-- The entry checks of STREAM_RECONSTRUCT and STREAM_RECONSTRUCT_DATA up to those that a command with no
shard to recover skips (45_stream.md R312, R313, R316). -/
def State.streamReconstructVerdict (s : State) : Option Err :=
  s.streamVerdict <|
    if s.argNat 0 ≠ s.n ∨ s.argNat 1 ≠ s.n then some .invalidShards
    else if ∃ i < s.n, (s.inPort i).conn = true ∧ (s.outPort i).conn = true then some .reconstructMismatch
    else none

/-- No shard is to be recovered: none is absent, or with `dataOnly` no data shard is (45_stream.md R312,
R313). -/
def State.NothingToRecover (s : State) (dataOnly : Bool) : Prop :=
  s.absentStreams = [] ∨ dataOnly = true ∧ ∀ d < s.k, (s.inPort d).conn = true

/-- The entry checks that a stream reconstruction with shards to recover makes last (45_stream.md R312). -/
def State.streamDecodeVerdict (s : State) : Option Err :=
  if s.m < s.absentStreams.length then some .tooFewShards
  else if s.params.workBufs < ceilPow2 (s.mpow + s.k) then some .capacity
  else none

/-- The entry checks of STREAM_SPLIT (45_stream.md R314). -/
def State.streamSplitVerdict (s : State) : Option Err :=
  s.streamVerdict <|
    if 2 ^ 63 ≤ s.size64 then some .size
    else if s.argNat 0 ≠ s.k then some .invalidShards
    else if ∃ j < s.k, (s.outPort j).conn = false then some .nilWriter
    else if s.size64 = 0 then some .shortData
    else if s.params.stgCap < perShard s.size64 s.k then some .capacity
    else if (s.inPort 0).conn = false then some .shortData
    else none

/-- The entry checks of STREAM_JOIN (45_stream.md R315). -/
def State.streamJoinVerdict (s : State) : Option Err :=
  s.streamVerdict <|
    if 2 ^ 63 ≤ s.size64 then some .size
    else if s.argNat 0 < s.k then some .tooFewShards
    else if s.n < s.argNat 0 then some .invalidShards
    else if (s.outPort 0).conn = false then some .nilWriter
    else none

/-- The bytes that a reader has left, IN[i].data[pos ..] (45_stream.md R290). -/
def State.left (s : State) (i : Nat) : List Byte :=
  (s.inPort i).data.drop (s.inPort i).pos

/-- IN[i] is a connected reader that ends without an error and has `len` bytes left (10_state.md R59,
45_stream.md R290). -/
def State.Reader (s : State) (i len : Nat) : Prop :=
  (s.inPort i).conn = true ∧ (s.inPort i).term = .eof ∧ (s.left i).length = len

/-- The row of a reader's bytes, zero-extended to `len` bytes (45_stream.md R318). -/
def State.readerRow (s : State) (len i : Nat) : Row :=
  elemsOfBytes s.field s.params.layout (s.left i ++ List.replicate (len - (s.left i).length) 0)

/-- The port OUT[j] of `t` is that of `s` with `bytes` written after what it held (45_stream.md R291). -/
def State.Wrote (s t : State) (j : Nat) (bytes : List Byte) : Prop :=
  t.outPort j = { s.outPort j with written := (s.outPort j).written ++ bytes }

/-- The answer `r` to the outstanding ReadFull(i, want) is FAIL(c): the environment's, or that of a reader which
ends in ERR(c) with fewer than `want` bytes left (45_stream.md R290, R299). -/
def State.ReadFails (s : State) (r : Reply) (i want : Nat) (c : Word) : Prop :=
  (∃ n, r = .failed c n) ∨ r = .served ∧ (s.inPort i).term = .err c ∧ (s.left i).length < want

/-- The outstanding ReadFull(i, want), served, is answered OK(bytes) (45_stream.md R290). -/
def State.ReadGives (s : State) (i want : Nat) (bytes : List Byte) : Prop :=
  bytes = (s.left i).take want ∧ ((s.left i).length < want → (s.inPort i).term = .eof)

/-- No port but IN[i] has changed. -/
def State.MovesIn (s t : State) (i : Nat) : Prop :=
  t.outPorts = s.outPorts ∧ ∀ j, j ≠ i → t.inPort j = s.inPort j

/-- OUT[j] has taken `bytes`, and no other port has changed (45_stream.md R291). -/
def State.MovesOut (s t : State) (j : Nat) (bytes : List Byte) : Prop :=
  t.inPorts = s.inPorts ∧ s.Wrote t j bytes ∧ ∀ j', j' ≠ j → t.outPort j' = s.outPort j'

/-- `t` is `u` but for the ports and what a stream command leaves UNSPECIFIED when it ends. -/
def State.EndsAs (t u : State) : Prop :=
  t.SameButScratch { u with inPorts := t.inPorts, outPorts := t.outPorts }

/-- `t` waits on the port operation `j`, and is `s` but for the ports, staging and the draws. -/
def State.WaitsOn (s t : State) (j : Job) : Prop :=
  t = { s with
    seq := .streamIo, job := some j, inPorts := t.inPorts, outPorts := t.outPorts, stg := t.stg,
    draws := t.draws }

/-- The bytes of row i after PAD_BLOCK(size), when `bytes` were read into it (45_stream.md R318). -/
def State.padded (s : State) (size i : Nat) (bytes : List Byte) : List Byte :=
  let kept := bytes.take (if i < s.k then size else roundUp size 64)
  kept ++ List.replicate (roundUp size 64 - kept.length) 0

/-- What a block whose size settles at 0 leaves: ShardNoData if it is the first, else the end of the command
(45_stream.md R295, R310 to R312). -/
def State.streamEnded (s : State) (kind : BlockKind) (blocks : Nat) : State :=
  if blocks = 0 then s.aborted .shardNoData
  else
    match kind with
    | .verify => ({ s with status := { s.status with verifyOk := true } } : State).ended 1
    | _ => s.ended (BitVec.ofNat 32 blocks)

/-- `t` waits on the first of a block's writes: they are made as listed with PAR_IO = 0, and in some order with
PAR_IO = 1 (45_stream.md R296). -/
def State.StartsWrites (s t : State) (again : List (Nat × List Byte) → List (Nat × Word) → Job)
    (writes : List (Nat × List Byte)) : Prop :=
  ∃ todo, todo.Perm writes ∧ (s.parIoLatch = false → todo = writes) ∧ s.WaitsOn t (again todo [])

/-- `t` waits on the first read of block `blocks` (45_stream.md R293, R295, R296). -/
def State.StartsBlock (s t : State) (kind : BlockKind) (blocks : Nat) : Prop :=
  ∃ todo, todo.Perm (s.readers kind) ∧ (s.parIoLatch = false → todo = s.readers kind)
    ∧ s.WaitsOn t (.readBlock kind blocks todo [] [])

/-- `t` is what a block leaves whose size is `size` and whose reader i gave `data i`: it waits on the block's
first write, or on the next block's first read, or a STREAM_VERIFY that found a difference has ended
(45_stream.md R310 to R313, R318). -/
def State.BlockRun (s t : State) (kind : BlockKind) (blocks size : Nat) (data : Nat → List Byte) : Prop :=
  let sp := roundUp size 64
  let row := fun i => elemsOfBytes s.field s.params.layout (s.padded size i (data i))
  let parity := s.field.encParity s.k s.m s.mpow (elemCount s.field sp) row
  match kind with
  | .encode =>
    s.StartsWrites t (.writeBlock kind blocks)
      ((List.range s.m).map fun p => (s.k + p, s.parityBytes parity p))
  | .verify =>
    if ∀ p < s.m, s.parityBytes parity p = s.padded size (s.k + p) (data (s.k + p)) then
      s.StartsBlock t kind (blocks + 1)
    else t.EndsAs (({ s with status := { s.status with verifyOk := false } } : State).ended 0)
  | .reconstruct dataOnly =>
    let dec := s.field.decode s.k s.m s.mpow (elemCount s.field sp) (fun i => (s.inPort i).conn = false) row
    let writes :=
      ((List.range (if dataOnly then s.k else s.n)).filter fun j =>
          (s.inPort j).conn = false ∧ (s.outPort j).conn = true).map fun j =>
        (j, (bytesOfElems s.field s.params.layout (s.field.recovered s.k s.mpow dec j)).take
          (if j < s.k then size else sp))
    if writes = [] then s.StartsBlock t kind (blocks + 1)
    else s.StartsWrites t (.writeBlock kind blocks) writes

/-- A command has completed without error and with RESULT = `r`: BUSY = 0, DONE = 1, ERR = 0, ERRCODE = 0
(60_exceptions.md R344, 10_state.md R39). -/
def State.Succeeds (t : State) (r : Word) : Prop :=
  t.seq = .idle ∧ t.job = none ∧ t.status.done = true ∧ t.status.err = false ∧ t.status.errCode = 0
    ∧ t.errStream = 0 ∧ t.errInner = 0 ∧ t.result = r

/-- What no stream command and no JOIN changes: the slots and their lengths (10_state.md R57), the data buffer,
the registers that the host writes, the configuration, the parameters, and what the host does next. -/
def State.KeepsShards (s t : State) : Prop :=
  t.slots = s.slots ∧ t.slen = s.slen ∧ t.dbuf = s.dbuf ∧ t.dlen = s.dlen ∧ t.args = s.args
    ∧ t.cfg = s.cfg ∧ t.geo = s.geo ∧ t.ctrl = s.ctrl ∧ t.params = s.params
    ∧ t.status.configured = s.status.configured ∧ t.status.field16 = s.status.field16
    ∧ t.status.ovr = s.status.ovr ∧ t.inputs = s.inputs ∧ t.readValue = s.readValue

/-- The host write of the word `v` to the register at the window offset `off` (10_state.md R31). -/
def State.regWrite (s : State) (off : Nat) (v : Word) : Input :=
  .access (.write (s.params.mmioBase + off) 4 (v.setWidth 64))

/-- The host read of the register at the window offset `off` (10_state.md R31). -/
def State.regRead (s : State) (off : Nat) : Input :=
  .access (.read (s.params.mmioBase + off) 4)

/-- `n` answers of the port environment, each of which serves the outstanding port operation. -/
def State.served : Nat → State → Host.Outcome State Fault Refusal
  | 0, s => .next s
  | n + 1, s =>
    match s.answer .served with
    | .next t => State.served n t
    | .fault f => .fault f
    | .refused r => .refused r

end Sys2Proof.Machine
end

