-- ==== Sys2Proof/WellFormed.lean ====
section
/-! DEFINITION. What well-formed data is: a command word that the encoding admits (30_encoding.md R120 to R124)
and parameters that meet the constraints of 92_eei_decisions.md §2. Operands are not part of an instruction;
their checks are made when the command runs (Machine/Operands.lean) and end in IllegalOperand. -/

namespace Sys2Proof

/-- RSV is 0 (30_encoding.md R123). -/
def CommandWord.rsvOk (c : CommandWord) : Bool :=
  c.rsv == 0

/-- OPC is a row of the opcode map (30_encoding.md R124). -/
def CommandWord.opcOk (c : CommandWord) : Bool :=
  (opcodeRow c.opc).isSome

/-- W is set only on a field-dependent opcode (30_encoding.md R122). -/
def CommandWord.widthOk (c : CommandWord) : Bool :=
  !c.w || ((opcodeRow c.opc).bind fun r => r.2).isSome

/-- A word is well formed when all three checks hold: it is Legal (30_encoding.md R131). -/
def CommandWord.wellFormed (c : CommandWord) : Bool :=
  c.rsvOk && c.opcOk && c.widthOk

/-- An instruction is well formed when its word is. -/
def Instr.wellFormed (i : Instr) : Bool :=
  i.fields.wellFormed

/-- A capacity that is a multiple of 64 and at least 64 (92_eei_decisions.md §2). -/
def capOk (cap : Nat) : Bool :=
  cap % 64 == 0 && 64 ≤ cap

/-- Two address ranges do not overlap (20_memory.md R81). -/
def rangesApart (base₁ size₁ base₂ size₂ : Nat) : Bool :=
  base₁ + size₁ ≤ base₂ || base₂ + size₂ ≤ base₁

/-- The four host regions do not overlap (20_memory.md R81). -/
def Params.regionsApart (p : Params) : Bool :=
  let slots := Config.nslot * p.slotCap
  rangesApart p.mmioBase Config.windowBytes p.slenBase (4 * Config.nslot)
    && rangesApart p.mmioBase Config.windowBytes p.slotBase slots
    && rangesApart p.mmioBase Config.windowBytes p.dbufBase p.dbufCap
    && rangesApart p.slenBase (4 * Config.nslot) p.slotBase slots
    && rangesApart p.slenBase (4 * Config.nslot) p.dbufBase p.dbufCap
    && rangesApart p.slotBase slots p.dbufBase p.dbufCap

/-- The parameters meet their constraints (92_eei_decisions.md §2). -/
def Params.wellFormed (p : Params) : Bool :=
  capOk p.slotCap && capOk p.stgCap && 1 ≤ p.workBufs && p.regionsApart

end Sys2Proof
end

