-- ==== Sys2Proof/Certificates/Slice0/Obligations.lean ====
section
/-! DEFINITION. The statements about the RS16 core, for the provers. Each names the rules of spec/ that it
formalises. -/

open Sys2Proof Sys2Proof.Machine

namespace Sys2Proof

/-- `match = OPC | (W << 8)` of a command's row, copied from the opcode map (30_encoding.md R124). -/
def tableWord : Instr → Word
  | .config => 0x001
  | .gfLog8 => 0x010
  | .gfLog16 => 0x110
  | .gfExp8 => 0x011
  | .gfExp16 => 0x111
  | .gfMul8 => 0x012
  | .gfMul16 => 0x112
  | .gfMulLog8 => 0x013
  | .gfMulLog16 => 0x113
  | .skewRead8 => 0x014
  | .skewRead16 => 0x114
  | .xorSlice => 0x020
  | .mul8 => 0x021
  | .mul16 => 0x121
  | .mulAdd8 => 0x022
  | .mulAdd16 => 0x122
  | .fftDit2x8 => 0x030
  | .fftDit2x16 => 0x130
  | .ifftDit2x8 => 0x031
  | .ifftDit2x16 => 0x131
  | .fftDit4x8 => 0x032
  | .fftDit4x16 => 0x132
  | .ifftDit4x8 => 0x033
  | .ifftDit4x16 => 0x133
  | .encode => 0x040
  | .verify => 0x041
  | .reconstruct => 0x042
  | .reconstructData => 0x043
  | .split => 0x044
  | .join => 0x045
  | .streamEncode => 0x050
  | .streamVerify => 0x051
  | .streamReconstruct => 0x052
  | .streamReconstructData => 0x053
  | .streamSplit => 0x054
  | .streamJoin => 0x055

/-- The reserved OPC values (30_encoding.md R131). -/
def reservedOpc (opc : Nat) : Prop :=
  opc = 0x00 ∨ (0x02 ≤ opc ∧ opc ≤ 0x0F) ∨ (0x15 ≤ opc ∧ opc ≤ 0x1F) ∨ (0x23 ≤ opc ∧ opc ≤ 0x2F)
    ∨ (0x34 ≤ opc ∧ opc ≤ 0x3F) ∨ (0x46 ≤ opc ∧ opc ≤ 0x4F) ∨ (0x56 ≤ opc ∧ opc ≤ 0xFF)

/-- The field-dependent opcodes, on which W selects the field (30_encoding.md R122). -/
def takesWidth (opc : Nat) : Prop :=
  (0x10 ≤ opc ∧ opc ≤ 0x14) ∨ opc = 0x21 ∨ opc = 0x22 ∨ (0x30 ≤ opc ∧ opc ≤ 0x33)

/-- The Illegal command words (30_encoding.md R131). -/
def IllegalWord (w : Word) : Prop :=
  w.extractLsb' 9 23 ≠ 0 ∨ reservedOpc (w.extractLsb' 0 8).toNat
    ∨ (w.getLsbD 8 = true ∧ ¬ takesWidth (w.extractLsb' 0 8).toNat)

end Sys2Proof

/-! Encoding and decoding. -/

/-- A few words, written out from the opcode map, decode to their commands (30_encoding.md R124); 0x121 is the
word of R133's first example and 0x45 that of its second. -/
def Obligations.CommandWordsDecode : Prop :=
  decode 0x00000001 = .ok .config ∧ decode 0x00000110 = .ok .gfLog16 ∧ decode 0x00000020 = .ok .xorSlice
    ∧ decode 0x00000121 = .ok .mul16 ∧ decode 0x00000033 = .ok .ifftDit4x8
    ∧ decode 0x00000043 = .ok .reconstructData ∧ decode 0x00000045 = .ok .join
    ∧ decode 0x00000055 = .ok .streamJoin ∧ decode 0x00000220 = .error .reservedBits
    ∧ decode 0x00000056 = .error .reservedOpcode ∧ decode 0x00000120 = .error .widthNotTaken

/-- R124: a word decodes to a command exactly when the whole word is that command's row. -/
def Obligations.DecodeIsTheOpcodeMap : Prop :=
  ∀ (w : Word) (i : Instr), decode w = .ok i ↔ w = tableWord i

/-- R120, R132: the decoder accepts exactly the four bytes of an encoding, and gives back what was encoded. -/
def Obligations.DecoderAcceptsExactlyEncodings : Prop :=
  ∀ (bs : List Byte) (i : Instr), decodeBytes bs = .ok i ↔ bs = bytesOfWord (encode i)

/-- R131, R123, R122: the Illegal words are those with RSV ≠ 0, a reserved OPC, or W = 1 on an opcode that does
not take it; on an idle core such a word is accepted and completes at once with IllegalCommand and no other
effect. The host's
accesses come from the model's own input list (log entry 1). -/
def Obligations.IllegalCommandsCompleteAtOnce : Prop :=
  (∀ w : Word, IllegalWord w ↔ ∀ i, decode w ≠ .ok i)
    ∧ ∀ (s : State) (w : Word) (rest : List Input), IllegalWord w → s.seq = .idle →
        s.params.mmioBase % 4 = 0 → s.inputs = s.cmdWrite w :: rest →
        step s = .next (({ s with inputs := rest } : State).failed .illegalCommand)

/-! One step. -/

/-- A step runs the decoded command: on an idle core, a write of a legal word to CMD is exec of its command, on
the state with that write taken off the inputs, and nothing else. Every step takes the oldest input, and only it,
off the list (R93), and with no input left nothing changes (the inputs are the model's own form of R93 and R395,
log entry 1). -/
def Obligations.StepRunsTheDecodedCommand : Prop :=
  (∀ (s : State) (w : Word) (i : Instr) (rest : List Input), decode w = .ok i → s.seq = .idle →
      s.params.mmioBase % 4 = 0 → s.inputs = s.cmdWrite w :: rest →
      step s = exec i { s with inputs := rest })
    ∧ (∀ (s t : State) (x : Input) (rest : List Input), s.inputs = x :: rest → step s = .next t →
      t.inputs = rest ∧ State.handle { s with inputs := rest } x = .next t)
    ∧ ∀ s : State, s.inputs = [] → step s = .next s

/-! Reset and the invariants. -/

/-- R380: what asserting reset leaves, at any time. Every register reads its reset value, every shard is
absent, no command runs, no interrupt is pending, and the ports stay as they are. Reset
arrives on the model's own input list (log entry 1). -/
def Obligations.ResetState : Prop :=
  ∀ (s : State) (rest : List Input), s.inputs = .reset :: rest →
    ∃ t, step s = .next t ∧ t.params = s.params
      ∧ t.readReg 0x000 = 0x52533136 ∧ t.readReg 0x004 = capsWord s.params ∧ t.readReg 0x008 = 0
      ∧ t.readReg 0x00C = 0 ∧ t.readReg 0x010 = 0 ∧ t.readReg 0x014 = 0 ∧ t.readReg 0x01C = 0
      ∧ t.readReg 0x020 = 0 ∧ t.readReg 0x024 = 0 ∧ t.readReg 0x028 = 1 ∧ t.readReg 0x02C = 0x00400000
      ∧ t.readReg 0x030 = 0 ∧ t.readReg 0x034 = 0 ∧ t.readReg 0x038 = 0 ∧ t.readReg 0x03C = 0
      ∧ t.readReg 0x040 = 64 ∧ t.readReg 0x044 = 0
      ∧ (∀ i < 8, t.readReg (0x048 + 4 * i) = 0)
      ∧ t.seq = .idle ∧ t.job = none ∧ t.parIoLatch = false ∧ (∀ i, t.slenAt i = 0) ∧ t.irq = false
      ∧ t.inPorts = s.inPorts ∧ t.outPorts = s.outPorts

/-- The three invariants hold at reset, whatever the parameters. -/
def Obligations.InvariantsHoldAtReset : Prop :=
  State.reset.StorageInv ∧ State.reset.ControlInv ∧ State.reset.ConfigInv
    ∧ ∀ p : Params, (State.resetWith p).StorageInv ∧ (State.resetWith p).ControlInv
        ∧ (State.resetWith p).ConfigInv

/-- R53 (a shard length can never exceed SLOT_CAP), R54, and the one form of the memories and the tables, are
kept by every step. The form
is the model's own (log entry 3). -/
def Obligations.StepKeepsStorage : Prop :=
  ∀ s t : State, s.StorageInv → step s = .next t → t.StorageInv

/-- R37, R39, R43, R340, R341, R390: the agreement of the sequencer with the status registers is kept by every step.
That seq is IDLE or STREAM_IO between steps is the model's choice of how finely a command is split (log entry 16;
R297 allows it for stream commands): the other states of R48 stand only inside a step. -/
def Obligations.StepKeepsControl : Prop :=
  ∀ s t : State, s.ControlInv → step s = .next t → t.ControlInv

/-- R41, R46, R230, R231: GEO, CONFIGURED and FIELD16 stay what a CONFIG left, in every step. -/
def Obligations.StepKeepsConfiguration : Prop :=
  ∀ s t : State, s.ConfigInv → step s = .next t → t.ConfigInv

/-! Operands and the field. -/

/-- R126, R127: `Buf(id)`, and the operands of a butterfly. -/
def Obligations.BufferIds : Prop :=
  (∀ (s : State) (id : Word) (b : Buf), s.buf id = some b ↔
      id.extractLsb' 16 15 = 0 ∧
        (id.getLsbD 31 = false ∧ b = .slot (id.extractLsb' 0 16).toNat
          ∨ id.getLsbD 31 = true ∧ b = .work (id.extractLsb' 0 16).toNat
            ∧ (id.extractLsb' 0 16).toNat < s.params.workBufs))
    ∧ ∀ (s : State) (base : Word) (dist r : Nat) (bs : List Buf), s.bufs base dist r = some bs ↔
        base.extractLsb' 16 15 = 0 ∧ dist ≠ 0 ∧ bs.length = r
          ∧ ∀ j < r,
            let index := (base.extractLsb' 0 16).toNat + j * dist
            (base.getLsbD 31 = false ∧ index < 65536 ∧ bs[j]? = some (.slot index))
              ∨ (base.getLsbD 31 = true ∧ index < s.params.workBufs ∧ bs[j]? = some (.work index))

/-- R83, R84, R85: which bytes hold element j, in both fields and both layouts. -/
def Obligations.ElementLayout : Prop :=
  ∀ bs : List Byte,
    (∀ layout, (elemsOfBytes .gf8 layout bs).length = bs.length
      ∧ ∀ j < bs.length, (elemsOfBytes .gf8 layout bs).getD j 0 = (bs.getD j 0).toNat)
    ∧ (bs.length % 64 = 0 → (elemsOfBytes .gf16 .split64 bs).length = bs.length / 2
      ∧ ∀ c i, 64 * c + 64 ≤ bs.length → i < 32 →
          (elemsOfBytes .gf16 .split64 bs).getD (32 * c + i) 0
            = (bs.getD (64 * c + i) 0).toNat + 256 * (bs.getD (64 * c + 32 + i) 0).toNat)
    ∧ (bs.length % 2 = 0 → (elemsOfBytes .gf16 .le16 bs).length = bs.length / 2
      ∧ ∀ j, 2 * j + 2 ≤ bs.length →
          (elemsOfBytes .gf16 .le16 bs).getD j 0
            = (bs.getD (2 * j) 0).toNat + 256 * (bs.getD (2 * j + 1) 0).toNat)

/-- R157: log-space addition and subtraction, bit by bit as the rule writes them, and in closed form. -/
def Obligations.LogArithmetic : Prop :=
  ∀ (f : GF) (a b : Nat), a ≤ f.mod → b ≤ f.mod →
    f.addmod a b = ((a + b) + ((a + b) >>> f.width)) &&& (f.order - 1)
    ∧ f.addmod a b = (if a + b ≤ f.mod then a + b else a + b - f.mod)
    ∧ f.submod a b
        = (let d := (2 ^ 32 + a - b) % 2 ^ 32
           (d + (d >>> f.width)) &&& (f.order - 1))
    ∧ f.submod a b = (if a ≥ b then a - b else a + f.mod - b)
    ∧ f.addmod a b ≤ f.mod ∧ f.submod a b ≤ f.mod
    ∧ f.addmod a b % f.mod = (a + b) % f.mod ∧ (f.submod a b + b) % f.mod = a % f.mod
    ∧ (f.addmod a b = f.mod ↔ a + b = f.mod ∨ a + b = 2 * f.mod)

/-- R155: LOG and EXP are inverse bijections between [1, MOD] and [0, MOD − 1], with their values at the ends,
and the generators. -/
def Obligations.LogExpBijection : Prop :=
  ∀ f : GF, f.log 0 = f.mod ∧ f.log 1 = 0 ∧ f.exp 0 = 1 ∧ f.exp f.mod = 1
    ∧ (∀ v, 1 ≤ v → v ≤ f.mod → f.log v ≤ f.mod - 1 ∧ f.exp (f.log v) = v)
    ∧ (∀ i, i ≤ f.mod - 1 → 1 ≤ f.exp i ∧ f.exp i ≤ f.mod ∧ f.log (f.exp i) = i)
    ∧ f.exp 1 = (match f with | .gf8 => 0x68 | .gf16 => 0x4690)

/-- R156, R158: multiplication and multiplication by a log-form constant, through the tables, where MOD as a log
multiplies by one; the field laws; and the two inverses that R158 gives. -/
def Obligations.FieldLaws : Prop :=
  (∀ (f : GF) (a b l : Nat), a < f.order → b < f.order → l ≤ f.mod →
      f.mul a b = (if a = 0 ∨ b = 0 then 0 else f.exp (f.addmod (f.log a) (f.log b)))
      ∧ f.mulLog a l = (if a = 0 then 0 else f.exp (f.addmod (f.log a) l))
      ∧ f.mulLog a l = f.mul a (f.exp l) ∧ f.mulLog a f.mod = a ∧ f.mulLog a 0 = a)
    ∧ (∀ (f : GF) (a b c : Nat), a < f.order → b < f.order → c < f.order →
      f.mul a b < f.order ∧ f.mul a b = f.mul b a ∧ f.mul (f.mul a b) c = f.mul a (f.mul b c)
      ∧ f.mul a (b ^^^ c) = f.mul a b ^^^ f.mul a c ∧ f.mul 1 a = a ∧ f.mul 0 a = 0
      ∧ (a ≠ 0 → f.mul a (f.exp (f.mod - f.log a)) = 1))
    ∧ GF.gf8.mul 0x1D 0x50 = 1 ∧ GF.gf16.mul 0x1234 0x371E = 1

/-- R161: the sentinel stands in SKEW_w exactly at the positions 2^i − 1, and every other entry is below
MOD. -/
def Obligations.SkewSentinels : Prop :=
  ∀ (f : GF) (j : Nat), j < f.mod →
    (f.skew j = f.mod ↔ ∃ i < f.width, j = 2 ^ i - 1)
    ∧ ((∀ i < f.width, j ≠ 2 ^ i - 1) → f.skew j < f.mod)

/-! Table queries. -/

/-- R170. -/
def Obligations.GfLogReadsLog : Prop :=
  (∀ (s : State) (f : GF),
      (s.argNat 0 < f.order → exec (byField f .gfLog8 .gfLog16) s
        = .next (s.succeeded (BitVec.ofNat 32 (f.log (s.argNat 0)))))
      ∧ (f.order ≤ s.argNat 0 → exec (byField f .gfLog8 .gfLog16) s = .next (s.failed .illegalOperand)))
    ∧ GF.gf8.log 2 = 85 ∧ ∀ f : GF, f.log 0 = f.mod ∧ f.log 1 = 0

/-- R171. -/
def Obligations.GfExpReadsExp : Prop :=
  (∀ (s : State) (f : GF),
      (s.argNat 0 ≤ f.mod → exec (byField f .gfExp8 .gfExp16) s
        = .next (s.succeeded (BitVec.ofNat 32 (f.exp (s.argNat 0)))))
      ∧ (f.mod < s.argNat 0 → exec (byField f .gfExp8 .gfExp16) s = .next (s.failed .illegalOperand)))
    ∧ GF.gf16.exp 1 = 0x4690 ∧ ∀ f : GF, f.exp 0 = 1 ∧ f.exp f.mod = 1

/-- R172. -/
def Obligations.GfMulMultiplies : Prop :=
  (∀ (s : State) (f : GF),
      (s.argNat 0 < f.order → s.argNat 1 < f.order → exec (byField f .gfMul8 .gfMul16) s
        = .next (s.succeeded (BitVec.ofNat 32 (f.mul (s.argNat 0) (s.argNat 1)))))
      ∧ (f.order ≤ s.argNat 0 ∨ f.order ≤ s.argNat 1 →
        exec (byField f .gfMul8 .gfMul16) s = .next (s.failed .illegalOperand)))
    ∧ GF.gf8.mul 0xFF 0xFF = 0x80
    ∧ ∀ (f : GF) (a : Nat), a < f.order → f.mul 0 a = 0 ∧ f.mul a 0 = 0 ∧ f.mul 1 a = a ∧ f.mul a 1 = a

/-- R173. -/
def Obligations.GfMulLogMultipliesByLog : Prop :=
  (∀ (s : State) (f : GF),
      (s.argNat 0 < f.order → s.argNat 1 ≤ f.mod → exec (byField f .gfMulLog8 .gfMulLog16) s
        = .next (s.succeeded (BitVec.ofNat 32 (f.mulLog (s.argNat 0) (s.argNat 1)))))
      ∧ (f.order ≤ s.argNat 0 ∨ f.mod < s.argNat 1 →
        exec (byField f .gfMulLog8 .gfMulLog16) s = .next (s.failed .illegalOperand)))
    ∧ GF.gf8.mulLog 7 1 = 0x30
    ∧ ∀ (f : GF) (a l : Nat), a < f.order → f.mulLog a 0 = a ∧ f.mulLog a f.mod = a ∧ f.mulLog 0 l = 0

/-- R174; the sentinel positions are R161's. -/
def Obligations.SkewReadReadsSkew : Prop :=
  (∀ (s : State) (f : GF),
      (s.argNat 0 < f.mod → exec (byField f .skewRead8 .skewRead16) s
        = .next (s.succeeded (BitVec.ofNat 32 (f.skew (s.argNat 0)))))
      ∧ (f.mod ≤ s.argNat 0 →
        exec (byField f .skewRead8 .skewRead16) s = .next (s.failed .illegalOperand)))
    ∧ GF.gf8.skew 2 = 85 ∧ ∀ (f : GF), ∀ i < f.width, f.skew (2 ^ i - 1) = f.mod

/-! Slice kernels. -/

/-- R192, with the checks of R190 and the frame of R198. -/
def Obligations.XorSliceXorsBytes : Prop :=
  ∀ (s : State) (bx bY : Buf),
    (s.buf (s.arg 0) = some bx → s.buf (s.arg 1) = some bY →
      s.argNat 2 ≤ s.bufLen bx → s.argNat 2 ≤ s.bufLen bY →
      ∃ t, exec .xorSlice s = .next t ∧ t.SameButMemory (s.succeeded 0)
        ∧ s.KeepsBytesBut t [bx] (s.argNat 2)
        ∧ ∀ j < s.argNat 2, t.bufByte bx j = s.bufByte bx j ^^^ s.bufByte bY j)
    ∧ (s.buf (s.arg 0) = none ∨ s.buf (s.arg 1) = none →
      exec .xorSlice s = .next (s.failed .illegalOperand))
    ∧ (s.buf (s.arg 0) = some bx → s.buf (s.arg 1) = some bY →
      (s.bufLen bx < s.argNat 2 ∨ s.bufLen bY < s.argNat 2) →
      exec .xorSlice s = .next (s.failed .shardSize))

/-- R193, with the frame of R198: dst := c_l · src, on every operand that passes the checks of R190. -/
def Obligations.MulMultipliesRow : Prop :=
  ∀ (s : State) (f : GF) (bd bs : Buf),
    s.buf (s.arg 0) = some bd → s.buf (s.arg 1) = some bs → s.argNat 3 ≤ f.mod →
    s.argNat 2 ≤ s.bufLen bd → s.argNat 2 ≤ s.bufLen bs →
    lenAligned f s.params.layout (s.argNat 2) = true →
    ∃ t, exec (byField f .mul8 .mul16) s = .next t ∧ t.SameButMemory (s.succeeded 0)
      ∧ s.KeepsBytesBut t [bd] (s.argNat 2)
      ∧ t.bufRow f bd (s.argNat 2) = (s.bufRow f bs (s.argNat 2)).map fun e => f.mulLog e (s.argNat 3)

/-- R194, with the frame of R198: x ^= c_l · y, on every operand that passes the checks of R190. -/
def Obligations.MulAddAddsMultipliedRow : Prop :=
  ∀ (s : State) (f : GF) (bx bY : Buf),
    s.buf (s.arg 0) = some bx → s.buf (s.arg 1) = some bY → s.argNat 3 ≤ f.mod →
    s.argNat 2 ≤ s.bufLen bx → s.argNat 2 ≤ s.bufLen bY →
    lenAligned f s.params.layout (s.argNat 2) = true →
    ∃ t, exec (byField f .mulAdd8 .mulAdd16) s = .next t ∧ t.SameButMemory (s.succeeded 0)
      ∧ s.KeepsBytesBut t [bx] (s.argNat 2)
      ∧ t.bufRow f bx (s.argNat 2)
        = List.zipWith (fun x y => x ^^^ f.mulLog y (s.argNat 3)) (s.bufRow f bx (s.argNat 2))
            (s.bufRow f bY (s.argNat 2))

/-- R190: the errors of MUL and MUL_ADD, each the first failing check, and the length alignment. -/
def Obligations.KernelErrors : Prop :=
  (∀ (layout : Elem16Layout) (len : Nat), lenAligned .gf8 layout len = true
      ∧ (lenAligned .gf16 .split64 len = true ↔ len % 64 = 0)
      ∧ (lenAligned .gf16 .le16 len = true ↔ len % 2 = 0))
    ∧ ∀ (s : State) (f : GF) (i : Instr),
        i = byField f .mul8 .mul16 ∨ i = byField f .mulAdd8 .mulAdd16 →
        (s.buf (s.arg 0) = none ∨ s.buf (s.arg 1) = none ∨ f.mod < s.argNat 3 →
          exec i s = .next (s.failed .illegalOperand))
        ∧ ∀ b0 b1, s.buf (s.arg 0) = some b0 → s.buf (s.arg 1) = some b1 → s.argNat 3 ≤ f.mod →
            (s.bufLen b0 < s.argNat 2 ∨ s.bufLen b1 < s.argNat 2
              ∨ lenAligned f s.params.layout (s.argNat 2) = false) →
            exec i s = .next (s.failed .shardSize)

/-! Butterflies. -/

/-- R217, R211, R212: the four procedures, element by element. A twiddle of MOD leaves the multiply-add out. -/
def Obligations.ButterflyProcedures : Prop :=
  ∀ f : GF,
    (∀ (lo hi : Row) (t j : Nat), lo.length = hi.length → j < lo.length →
      (f.fft2 lo hi t).1.getD j 0
          = (if t ≠ f.mod then lo.getD j 0 ^^^ f.mulLog (hi.getD j 0) t else lo.getD j 0)
        ∧ (f.fft2 lo hi t).2.getD j 0 = hi.getD j 0 ^^^ (f.fft2 lo hi t).1.getD j 0
        ∧ (f.ifft2 lo hi t).2.getD j 0 = hi.getD j 0 ^^^ lo.getD j 0
        ∧ (f.ifft2 lo hi t).1.getD j 0
          = (if t ≠ f.mod then lo.getD j 0 ^^^ f.mulLog ((f.ifft2 lo hi t).2.getD j 0) t
             else lo.getD j 0))
    ∧ ∀ (b0 b1 b2 b3 : Row) (t01 t23 t02 : Nat),
        (let p := f.fft2 b0 b2 t02
         let q := f.fft2 b1 b3 t02
         let u := f.fft2 p.1 q.1 t01
         let v := f.fft2 p.2 q.2 t23
         f.fft4 b0 b1 b2 b3 t01 t23 t02 = (u.1, u.2, v.1, v.2))
        ∧ (let p := f.ifft2 b0 b1 t01
           let q := f.ifft2 b2 b3 t23
           let u := f.ifft2 p.1 q.1 t02
           let v := f.ifft2 p.2 q.2 t02
           f.ifft4 b0 b1 b2 b3 t01 t23 t02 = (u.1, v.1, u.2, v.2))

/-- R213, R214: the radix-2 commands. The premise on storage says that a slot's length does not reach into the
next slot (R53). -/
def Obligations.RadixTwoCommands : Prop :=
  ∀ (s : State) (f : GF) (b0 b1 : Buf), s.StorageInv →
    s.bufs (s.arg 0) (s.argNat 1) 2 = some [b0, b1] → s.argNat 3 ≤ f.mod →
    s.argNat 2 ≤ s.bufLen b0 → s.argNat 2 ≤ s.bufLen b1 →
    lenAligned f s.params.layout (s.argNat 2) = true →
    let len := s.argNat 2
    let runs := fun (i : Instr) (op : Row → Row → Nat → Row × Row) =>
      ∃ t, exec i s = .next t ∧ t.SameButMemory (s.succeeded 0) ∧ s.KeepsBytesBut t [b0, b1] len
        ∧ (t.bufRow f b0 len, t.bufRow f b1 len)
          = op (s.bufRow f b0 len) (s.bufRow f b1 len) (s.argNat 3)
    runs (byField f .fftDit2x8 .fftDit2x16) f.fft2 ∧ runs (byField f .ifftDit2x8 .ifftDit2x16) f.ifft2

/-- R215, R216: the radix-4 commands; ARG3, ARG4 and ARG5 are t01, t23 and t02 (R125). -/
def Obligations.RadixFourCommands : Prop :=
  ∀ (s : State) (f : GF) (b0 b1 b2 b3 : Buf), s.StorageInv →
    s.bufs (s.arg 0) (s.argNat 1) 4 = some [b0, b1, b2, b3] →
    s.argNat 3 ≤ f.mod → s.argNat 4 ≤ f.mod → s.argNat 5 ≤ f.mod →
    (∀ b ∈ [b0, b1, b2, b3], s.argNat 2 ≤ s.bufLen b) →
    lenAligned f s.params.layout (s.argNat 2) = true →
    let len := s.argNat 2
    let runs := fun (i : Instr)
        (op : Row → Row → Row → Row → Nat → Nat → Nat → Row × Row × Row × Row) =>
      ∃ t, exec i s = .next t ∧ t.SameButMemory (s.succeeded 0)
        ∧ s.KeepsBytesBut t [b0, b1, b2, b3] len
        ∧ (t.bufRow f b0 len, t.bufRow f b1 len, t.bufRow f b2 len, t.bufRow f b3 len)
          = op (s.bufRow f b0 len) (s.bufRow f b1 len) (s.bufRow f b2 len) (s.bufRow f b3 len)
              (s.argNat 3) (s.argNat 4) (s.argNat 5)
    runs (byField f .fftDit4x8 .fftDit4x16) f.fft4 ∧ runs (byField f .ifftDit4x8 .ifftDit4x16) f.ifft4

/-- R210: the operands of a butterfly are pairwise distinct buffers, and its errors, each the first failing
check. -/
def Obligations.ButterflyErrors : Prop :=
  (∀ (s : State) (base : Word) (dist r : Nat) (bs : List Buf), s.bufs base dist r = some bs → bs.Nodup)
    ∧ ∀ (s : State) (f : GF) (i : Instr) (r : Nat) (twiddles : List Nat),
        (i = byField f .fftDit2x8 .fftDit2x16 ∨ i = byField f .ifftDit2x8 .ifftDit2x16)
            ∧ r = 2 ∧ twiddles = [s.argNat 3]
          ∨ (i = byField f .fftDit4x8 .fftDit4x16 ∨ i = byField f .ifftDit4x8 .ifftDit4x16)
            ∧ r = 4 ∧ twiddles = [s.argNat 3, s.argNat 4, s.argNat 5] →
        (s.bufs (s.arg 0) (s.argNat 1) r = none ∨ (∃ t ∈ twiddles, f.mod < t) →
          exec i s = .next (s.failed .illegalOperand))
        ∧ ∀ bs, s.bufs (s.arg 0) (s.argNat 1) r = some bs → (∀ t ∈ twiddles, t ≤ f.mod) →
            ((∃ b ∈ bs, s.bufLen b < s.argNat 2)
              ∨ lenAligned f s.params.layout (s.argNat 2) = false) →
            exec i s = .next (s.failed .shardSize)

/-- R218: the inverse procedures undo the forward ones, and what they are when every twiddle is MOD. -/
def Obligations.ButterflyProceduresInvert : Prop :=
  ∀ (f : GF) (n : Nat) (a b c d : Row),
    a.length = n → b.length = n → c.length = n → d.length = n →
    (∀ t, f.ifft2 (f.fft2 a b t).1 (f.fft2 a b t).2 t = (a, b))
    ∧ (∀ t01 t23 t02,
        (let r := f.fft4 a b c d t01 t23 t02
         f.ifft4 r.1 r.2.1 r.2.2.1 r.2.2.2 t01 t23 t02) = (a, b, c, d))
    ∧ f.fft2 a b f.mod = (a, List.zipWith (· ^^^ ·) b a)
    ∧ f.ifft2 a b f.mod = (a, List.zipWith (· ^^^ ·) b a)
    ∧ (let ab := List.zipWith (· ^^^ ·) a b
       let ac := List.zipWith (· ^^^ ·) a c
       let abcd := List.zipWith (· ^^^ ·) ab (List.zipWith (· ^^^ ·) c d)
       f.fft4 a b c d f.mod f.mod f.mod = (a, ab, ac, abcd)
         ∧ f.ifft4 a b c d f.mod f.mod f.mod = (a, ab, ac, abcd))

/-- R214, R216: IFFT_DIT2 after FFT_DIT2 with the same operands restores every byte, and so does IFFT_DIT4
after FFT_DIT4. -/
def Obligations.ButterflyCommandsInvert : Prop :=
  ∀ (s t : State) (f : GF) (fwd inv : Instr), s.StorageInv →
    (fwd = byField f .fftDit2x8 .fftDit2x16 ∧ inv = byField f .ifftDit2x8 .ifftDit2x16
      ∨ fwd = byField f .fftDit4x8 .fftDit4x16 ∧ inv = byField f .ifftDit4x8 .ifftDit4x16) →
    exec fwd s = .next t → t.status.err = false →
    ∃ u, exec inv t = .next u ∧ u.status.err = false
      ∧ ∀ inWork a, u.memByte inWork a = s.memByte inWork a

/-! The codec. -/

/-- R230, R231: CONFIG. That it leaves the work and staging buffers as they are, where R5 counts it among the codec
commands and R56 leaves those buffers UNSPECIFIED after one, is the model's reading (log entry 13). -/
def Obligations.ConfigConfigures : Prop :=
  ∀ s : State,
    let k := s.cfg.k.toInt
    let m := s.cfg.m.toInt
    let M := ceilPow2 m.toNat
    let cleared : State := { s with
      geo := { k := 0, m := 0, n := 0, mpow := 0 }
      status := { s.status with configured := false, field16 := false } }
    let configured (wide : Bool) : State := { s with
      geo := { k := s.cfg.k, m := s.cfg.m, n := BitVec.ofInt 32 (k + m), mpow := BitVec.ofNat 32 M }
      status := { s.status with configured := true, field16 := wide } }
    exec .config s = .next
      (if k ≤ 0 ∨ m ≤ 0 then cleared.failed .invalidShardNum
       else if k + m > 65536 then cleared.failed .maxShardNum
       else if k + m ≤ 256 ∧ M + k ≤ 256 then (configured false).succeeded 8
       else if M + k ≤ 65536 then (configured true).succeeded 16
       else cleared.failed .maxShardNum)

/-- R9: `ceilPow2`, `roundup` and `lowbit` are what the notation says. -/
def Obligations.RoundingFunctions : Prop :=
  (∀ x, 1 ≤ x → (∃ e, ceilPow2 x = 2 ^ e) ∧ x ≤ ceilPow2 x ∧ ∀ e, x ≤ 2 ^ e → ceilPow2 x ≤ 2 ^ e)
    ∧ (∀ a b, 0 < b → b ∣ roundUp a b ∧ a ≤ roundUp a b ∧ roundUp a b < a + b)
    ∧ ∀ i, 1 ≤ i → ∃ e, lowBit i = 2 ^ e ∧ i.testBit e = true ∧ ∀ j < e, i.testBit j = false

/-- R250, R254, R262: ENCODE. When every check passes, parity shard p takes the bytes of row p of ENC_PARITY and
the length S, and no other slot byte or length changes; when one fails, no slot and no length changes. Only the
first `need` work buffers change (R394). -/
def Obligations.EncodeWritesParity : Prop :=
  ∀ s : State, s.StorageInv → s.ConfigInv →
    let S := s.slenAt 0
    let need := if s.k ≤ s.mpow then s.mpow else 2 * s.mpow
    (s.encodeVerdict = none → ∃ t, exec .encode s = .next t ∧ t.SameButShards (s.succeeded 0)
      ∧ s.KeepsWorkFrom t need
      ∧ (∀ p < s.m, t.slenAt (s.k + p) = S
        ∧ t.slotBytes (s.k + p) S = s.parityBytes (s.slotParity S) p)
      ∧ (∀ i, i < s.k ∨ s.n ≤ i → t.slenAt i = s.slenAt i)
      ∧ ∀ a, (∀ p < s.m, ¬ s.InBuf (.slot (s.k + p)) S false a) → t.slots.read a = s.slots.read a)
    ∧ ∀ e, s.encodeVerdict = some e → ∃ t, exec .encode s = .next t ∧ t.SameButWork (s.failed e)
      ∧ s.KeepsWorkFrom t need

/-- R251, R254, R262: VERIFY. -/
def Obligations.VerifyComparesParity : Prop :=
  ∀ s : State, s.StorageInv → s.ConfigInv →
    let S := s.slenAt 0
    let need := if s.k ≤ s.mpow then s.mpow else 2 * s.mpow
    let ok := decide (∀ p < s.m, s.parityBytes (s.slotParity S) p = s.slotBytes (s.k + p) S)
    (s.verifyVerdict = none → ∃ t, exec .verify s = .next t
      ∧ t.SameButWork { s.succeeded (if ok then 1 else 0) with
          status := { (s.succeeded 0).status with verifyOk := ok } }
      ∧ s.KeepsWorkFrom t need)
    ∧ ∀ e, s.verifyVerdict = some e → ∃ t, exec .verify s = .next t ∧ t.SameButWork (s.failed e)
      ∧ s.KeepsWorkFrom t need

/-- R252, R253, R254, R262: RECONSTRUCT and, with `dataOnly`, RECONSTRUCT_DATA. The written shards are the
absent ones, or the absent data shards; each takes the bytes that DECODE gives and the length S. That a failure on an
unconfigured core has need = 0, so that no work buffer changes, is the model's choice (log entry 12). -/
def Obligations.ReconstructRecovers : Prop :=
  ∀ (s : State) (dataOnly : Bool) (i0 : Nat), s.StorageInv → s.ConfigInv →
    (∀ i < i0, s.slenAt i = 0) → (s.slenAt i0 ≠ 0 ∨ i0 = s.n) →
    let S := s.slenAt i0
    let i := if dataOnly then Instr.reconstructData else .reconstruct
    let need := if s.status.configured then ceilPow2 (s.mpow + s.k) else 0
    let written := fun j => s.slenAt j = 0 ∧ j < (if dataOnly then s.k else s.n)
    let dec := s.field.decode s.k s.m s.mpow (elemCount s.field S) s.absent (s.slotRow S)
    (s.reconstructPlan dataOnly S = .recover S →
      ∃ t, exec i s = .next t ∧ t.SameButShards (s.succeeded 0) ∧ s.KeepsWorkFrom t need
        ∧ (∀ j, written j → t.slenAt j = S
          ∧ t.slotBytes j S
            = bytesOfElems s.field s.params.layout (s.field.recovered s.k s.mpow dec j))
        ∧ (∀ j, ¬ written j → t.slenAt j = s.slenAt j)
        ∧ ∀ a, (∀ j, written j → ¬ s.InBuf (.slot j) S false a) → t.slots.read a = s.slots.read a)
    ∧ (s.reconstructPlan dataOnly S = .noWork →
      ∃ t, exec i s = .next t ∧ t.SameButWork (s.succeeded 0) ∧ s.KeepsWorkFrom t need)
    ∧ ∀ e, s.reconstructPlan dataOnly S = .fails e →
      ∃ t, exec i s = .next t ∧ t.SameButWork (s.failed e) ∧ s.KeepsWorkFrom t need

/-- R251, R269: after a successful ENCODE, VERIFY gives VERIFY_OK = 1. -/
def Obligations.EncodeThenVerify : Prop :=
  ∀ s : State, s.StorageInv → s.ConfigInv → s.encodeVerdict = none →
    ∃ t, exec .encode s = .next t ∧ ∃ u, exec .verify t = .next u ∧ u.status.verifyOk = true
      ∧ u.result = 1 ∧ u.status.err = false ∧ u.status.done = true

/-- R250: with m = 1 the parity shard is the XOR of all data shards, byte by byte. -/
def Obligations.SingleParityIsXor : Prop :=
  ∀ s : State, s.StorageInv → s.ConfigInv → s.encodeVerdict = none → s.m = 1 →
    ∃ t, exec .encode s = .next t
      ∧ ∀ j < s.slenAt 0, t.bufByte (.slot s.k) j
          = ((List.range s.k).map fun d => s.bufByte (.slot d) j).foldl (· ^^^ ·) 0

/-! Split and join. -/

/-- R300: SPLIT. SLEN and RESULT are 32-bit words, so they hold perShard modulo 2^32 (R9). -/
def Obligations.SplitCutsPayload : Prop :=
  ∀ s : State, s.StorageInv → s.ConfigInv →
    let size := s.dlen.toNat
    let per := roundUp (ceilDiv size s.k) 64
    (s.splitVerdict = none → ∃ t, exec .split s = .next t
      ∧ { t with slots := s.slots, slen := s.slen } = s.succeeded (BitVec.ofNat 32 per)
      ∧ (∀ j < s.k, t.slenWord j = BitVec.ofNat 32 per
        ∧ ∀ b < per, t.bufByte (.slot j) b
            = if j * per + b < size then s.dbuf.read (j * per + b) else 0)
      ∧ (∀ p < s.m, t.slenAt (s.k + p) = 0)
      ∧ (∀ i, s.n ≤ i → t.slenAt i = s.slenAt i)
      ∧ ∀ a, (∀ j < s.k, ¬ s.InBuf (.slot j) per false a) → t.slots.read a = s.slots.read a)
    ∧ ∀ e, s.splitVerdict = some e → exec .split s = .next (s.failed e)

/-- R301: JOIN's checks, in their order; a JOIN of no byte completes at once, any other one waits on its first
write. That it waits as a stream command does, with seq = STREAM_IO, is the model's reading (log entry 14;
R297 says it of the stream commands). -/
def Obligations.JoinStarts : Prop :=
  ∀ s : State, s.ConfigInv →
    (∀ e, s.joinVerdict = some e → exec .join s = .next (s.failed e))
    ∧ (s.joinVerdict = none → s.size64 = 0 → exec .join s = .next (s.succeeded 0))
    ∧ (s.joinVerdict = none → s.size64 ≠ 0 →
      exec .join s = .next (s.waiting (.joinWrite 0 s.size64 s.size64)))

/-- R301: when every write is answered OK, JOIN completes, has written exactly the first outSize bytes of the k
data shards one after the other, and RESULT is outSize[31:0]. The
ports' answers come from the model's own input list (log entry 1). -/
def Obligations.JoinEmitsOutSizeBytes : Prop :=
  ∀ s : State, s.ConfigInv → s.joinVerdict = none →
    ∃ t, exec .join s = .next t ∧ ∃ n u, State.served n t = .next u
      ∧ u.Succeeds (BitVec.ofNat 32 s.size64) ∧ s.KeepsShards u ∧ u.inPorts = s.inPorts
      ∧ u.work = s.work ∧ u.stg = s.stg
      ∧ s.Wrote u 0
          (((List.range s.k).flatMap fun j => s.slotBytes j (s.slenAt j)).take s.size64)
      ∧ ∀ j, j ≠ 0 → u.outPort j = s.outPort j

/-! Ports. -/

/-- R290, R291: ReadFull, answered from the port's contents, and WritePort, answered OK, or FAIL(c) after the
prefix of `n` bytes. The
ports' answers come from the model's own input list (log entry 1). -/
def Obligations.PortProtocol : Prop :=
  (∀ (s : State) (i want : Nat),
    let p := s.inPort i
    let avail := p.data.length - p.pos
    let answer := (s.portRead .served i want).1
    let after := (s.portRead .served i want).2
    (want ≤ avail → answer = .ok ((p.data.drop p.pos).take want)
      ∧ after.inPort i = { p with pos := p.pos + want })
    ∧ (avail < want → p.term = .eof → answer = .ok (p.data.drop p.pos)
      ∧ after.inPort i = { p with pos := p.data.length })
    ∧ (∀ c, avail < want → p.term = .err c → answer = .error c
      ∧ after.inPort i = { p with pos := p.data.length })
    ∧ (∀ j, j ≠ i → after.inPort j = s.inPort j) ∧ { after with inPorts := s.inPorts } = s)
  ∧ ∀ (s : State) (j n : Nat) (c : Word) (bytes : List Byte),
    (s.portWrite .served j bytes).1 = .ok () ∧ s.Wrote (s.portWrite .served j bytes).2 j bytes
    ∧ (s.portWrite (.failed c n) j bytes).1 = .error c
    ∧ s.Wrote (s.portWrite (.failed c n) j bytes).2 j (bytes.take n)
    ∧ ∀ r, { (s.portWrite r j bytes).2 with outPorts := s.outPorts } = s
        ∧ ∀ j', j' ≠ j → (s.portWrite r j bytes).2.outPort j' = s.outPort j'

/-- R51, R290, R291, R296, R301, R314, R315, R341: failing port operations. A read fails when the environment says
so or when its reader ends in an error with too few bytes left; a write fails when the environment says so, after a
prefix of its bytes. With PAR_IO = 0 the first failure ends a command with its error, the port and the word; with
PAR_IO = 1 the other operations of the block are made first, and the error reported is that of one of the failed
ports, also when the last operation succeeds. A STREAM_SPLIT or STREAM_JOIN that runs out of bytes ends with
ShortData. That JOIN waits as the stream commands do is the model's reading (log entry 14), that a cancelled read
may move its reader is too (log entry 8), and the ports' answers come from the model's own input list (log
entry 1). -/
def Obligations.PortFailuresEndCommands : Prop :=
  (∀ (s : State) (r : Reply) (kind : BlockKind) (blocks i : Nat) (rest : List Nat) (lens : List (Nat × Nat))
      (fails : List (Nat × Word)), s.job = some (.readBlock kind blocks (i :: rest) lens fails) →
    let ends := fun (e : Nat × Word) => ∃ t, s.answer r = .next t ∧ t.EndsAs (s.portFailed 12 e.1 e.2)
      ∧ s.MovesIn t i ∧ s.KeepsWorkFrom t (s.blockNeed kind)
    (∀ c, s.ReadFails r i s.blockSize c →
      (s.parIoLatch = false → ends (i, c))
      ∧ (s.parIoLatch = true → rest ≠ [] → ∃ t, s.answer r = .next t ∧ s.MovesIn t i
        ∧ s.WaitsOn t (.readBlock kind blocks rest lens (fails ++ [(i, c)])))
      ∧ (s.parIoLatch = true → rest = [] → ∃ e ∈ fails ++ [(i, c)], ends e))
    ∧ ∀ bytes, r = .served → s.ReadGives i s.blockSize bytes → rest = [] → fails ≠ [] → ∃ e ∈ fails, ends e)
  ∧ (∀ (s : State) (r : Reply) (again : List (Nat × List Byte) → List (Nat × Word) → Job) (need j : Nat)
      (bytes : List Byte) (rest : List (Nat × List Byte)) (fails : List (Nat × Word)),
    (∃ kind blocks, again = .writeBlock kind blocks ∧ need = s.blockNeed kind)
      ∨ (∃ per, again = .splitWrite per ∧ need = 0) →
    s.job = some (again ((j, bytes) :: rest) fails) →
    let ends := fun (e : Nat × Word) (taken : List Byte) => ∃ t, s.answer r = .next t
      ∧ t.EndsAs (s.portFailed 13 e.1 e.2) ∧ s.MovesOut t j taken ∧ s.KeepsWorkFrom t need
    (∀ c n, r = .failed c n →
      (s.parIoLatch = false → ends (j, c) (bytes.take n))
      ∧ (s.parIoLatch = true → rest ≠ [] → ∃ t, s.answer r = .next t ∧ s.MovesOut t j (bytes.take n)
        ∧ s.WaitsOn t (again rest (fails ++ [(j, c)])))
      ∧ (s.parIoLatch = true → rest = [] → ∃ e ∈ fails ++ [(j, c)], ends e (bytes.take n)))
    ∧ (r = .served → rest = [] → fails ≠ [] → ∃ e ∈ fails, ends e bytes))
  ∧ (∀ (s : State) (r : Reply) (size : Nat), s.job = some (.splitRead size) →
    (∀ c, s.ReadFails r 0 size c → ∃ t, s.answer r = .next t ∧ t.EndsAs (s.portFailed 12 0 c)
      ∧ s.MovesIn t 0 ∧ t.work = s.work)
    ∧ ∀ bytes, r = .served → s.ReadGives 0 size bytes → bytes.length < size → ∃ t, s.answer r = .next t
      ∧ t.EndsAs (s.aborted .shortData) ∧ s.MovesIn t 0 ∧ t.work = s.work)
  ∧ (∀ (s : State) (j rem outSize n : Nat) (c : Word), s.job = some (.joinWrite j rem outSize) →
    ∃ t, s.answer (.failed c n) = .next t ∧ t = { s.portFailed 13 0 c with outPorts := t.outPorts }
      ∧ s.MovesOut t 0 ((s.joinBytes j rem).take n))
  ∧ (∀ (s : State) (r : Reply) (j rem total : Nat), s.job = some (.streamJoinRead j rem total) →
    (∀ c, s.ReadFails r j (min s.blockSize rem) c → ∃ t, s.answer r = .next t
      ∧ t.EndsAs (s.portFailed 12 j c) ∧ s.MovesIn t j ∧ t.work = s.work)
    ∧ (r = .served → s.left j = [] → (s.inPort j).term = .eof → 0 < min s.blockSize rem →
      ¬ (j + 1 < s.k ∧ (s.inPort (j + 1)).conn = true) → ∃ t, s.answer r = .next t
        ∧ t.EndsAs (s.aborted .shortData) ∧ s.MovesIn t j ∧ t.work = s.work))
  ∧ ∀ (s : State) (j rem total : Nat) (bytes : List Byte),
    s.job = some (.streamJoinWrite j rem total bytes) →
    (∀ c n, ∃ t, s.answer (.failed c n) = .next t ∧ t.EndsAs (s.portFailed 13 0 c)
      ∧ s.MovesOut t 0 (bytes.take n) ∧ t.work = s.work)
    ∧ (bytes.length < min s.blockSize rem → ¬ (j + 1 < s.k ∧ (s.inPort (j + 1)).conn = true) →
      ∃ t, s.answer .served = .next t ∧ t.EndsAs (s.aborted .shortData) ∧ s.MovesOut t 0 bytes
        ∧ t.work = s.work)

/-- R318: PAD_BLOCK. A data row is zero-extended to s and padded to s_padded, a parity row is zero-extended to
s_padded; nothing else in staging changes. -/
def Obligations.PadBlockPads : Prop :=
  ∀ (s : State) (size : Nat) (lens : List (Nat × Nat)),
    let sp := roundUp size 64
    (lens.map fun e => e.1).Nodup → sp ≤ s.params.stgCap →
    (∀ e ∈ lens, ∀ b < sp, (s.padBlock size lens).stg.read (s.stgAddr e.1 + b)
        = if b < min e.2 (if e.1 < s.k then size else sp) then s.stg.read (s.stgAddr e.1 + b) else 0)
    ∧ (∀ a, (∀ e ∈ lens, a < s.stgAddr e.1 ∨ s.stgAddr e.1 + sp ≤ a) →
        (s.padBlock size lens).stg.read a = s.stg.read a)
    ∧ { s.padBlock size lens with stg := s.stg } = s

/-! The stream commands. -/

/-- R294, R296, R310, R311, R312, R313, R316: the entry checks of the four block commands, in their order,
before any port operation; a command that passes them waits on the first read of its first block, of the readers
that its rule names, in ascending order with PAR_IO = 0 and in some order with PAR_IO = 1. -/
def Obligations.BlockCommandsStart : Prop :=
  ∀ s : State, s.ConfigInv →
    let starts := fun (i : Instr) (kind : BlockKind) (readers : List Nat) =>
      ∃ todo d, exec i s = .next { s.waiting (.readBlock kind 0 todo [] []) with draws := d }
        ∧ todo.Perm readers ∧ (s.ctrl.parIo = false → todo = readers)
    let fails := fun (i : Instr) (e : Err) => ∃ t, exec i s = .next t ∧ t.SameButScratch (s.failed e)
    let recon := fun (dataOnly : Bool) =>
      if dataOnly then Instr.streamReconstructData else .streamReconstruct
    (s.streamEncodeVerdict = none → starts .streamEncode .encode (List.range s.k))
    ∧ (∀ e, s.streamEncodeVerdict = some e → fails .streamEncode e)
    ∧ (s.streamVerifyVerdict = none → starts .streamVerify .verify (List.range s.n))
    ∧ (∀ e, s.streamVerifyVerdict = some e → fails .streamVerify e)
    ∧ ∀ dataOnly,
      (∀ e, s.streamReconstructVerdict = some e → fails (recon dataOnly) e)
      ∧ (s.streamReconstructVerdict = none → s.NothingToRecover dataOnly →
        ∃ t, exec (recon dataOnly) s = .next t ∧ t.SameButScratch (s.succeeded 0))
      ∧ (s.streamReconstructVerdict = none → ¬ s.NothingToRecover dataOnly →
        (s.streamDecodeVerdict = none → starts (recon dataOnly) (.reconstruct dataOnly)
          ((List.range s.n).filter fun i => (s.inPort i).conn = true))
        ∧ ∀ e, s.streamDecodeVerdict = some e → fails (recon dataOnly) e)

/-- R294, R314, R315: the entry checks of STREAM_SPLIT and STREAM_JOIN, in their order, before any port
operation, and their first one. A STREAM_JOIN of no byte completes at once, and one whose first reader is
disconnected has no byte to give. -/
def Obligations.SplitAndJoinStreamsStart : Prop :=
  ∀ s : State, s.ConfigInv →
    (∀ e, s.streamSplitVerdict = some e → ∃ t, exec .streamSplit s = .next t
      ∧ t.SameButScratch (s.failed e))
    ∧ (s.streamSplitVerdict = none →
      exec .streamSplit s = .next (s.waiting (.splitRead s.size64)))
    ∧ (∀ e, s.streamJoinVerdict = some e → ∃ t, exec .streamJoin s = .next t
      ∧ t.SameButScratch (s.failed e))
    ∧ (s.streamJoinVerdict = none →
      (s.size64 = 0 → ∃ t, exec .streamJoin s = .next t ∧ t.SameButScratch (s.succeeded 0))
      ∧ (s.size64 ≠ 0 → (s.inPort 0).conn = true →
        exec .streamJoin s = .next (s.waiting (.streamJoinRead 0 s.size64 0)))
      ∧ (s.size64 ≠ 0 → (s.inPort 0).conn = false → ∃ t, exec .streamJoin s = .next t
        ∧ t.SameButScratch (s.failed .shortData)))

/-- R310, R317: STREAM_ENCODE of one block. When every data reader has the same number L of bytes left,
0 < L ≤ B, and every port operation is served, the command completes with RESULT = 1, has read every reader to
its end and has written to OUT[k+p] the s_padded bytes of parity row p of the zero-padded data rows, whether
PAR_IO is 0 or 1. The
ports' answers come from the model's own input list (log entry 1). Parity rows longer than SLOT_CAP are the model's choice
(log entry 26). -/
def Obligations.StreamEncodeOneBlock : Prop :=
  ∀ (s : State) (L : Nat), s.StorageInv → s.ConfigInv → s.streamEncodeVerdict = none →
    0 < L → L ≤ s.blockSize → (∀ i < s.k, s.Reader i L) →
    let sp := roundUp L 64
    let rows := s.field.encParity s.k s.m s.mpow (elemCount s.field sp) (s.readerRow sp)
    ∃ t, exec .streamEncode s = .next t ∧ ∃ n u, State.served n t = .next u
      ∧ u.Succeeds 1 ∧ s.KeepsShards u
      ∧ s.KeepsWorkFrom u (if s.k ≤ s.mpow then s.mpow else 2 * s.mpow)
      ∧ (∀ p < s.m, s.Wrote u (s.k + p) (s.parityBytes rows p))
      ∧ (∀ j, j < s.k ∨ s.n ≤ j → u.outPort j = s.outPort j)
      ∧ (∀ i < s.k, u.left i = []) ∧ ∀ i, s.k ≤ i → u.inPort i = s.inPort i

/-- R311: STREAM_VERIFY of one block. When every data reader has L bytes left and every parity reader the
roundup(L, 64) bytes that STREAM_ENCODE writes, 0 < L ≤ B, and every read is served, the command completes and
VERIFY_OK and RESULT say whether every parity stream equals the parity of the data streams. The
ports' answers come from the model's own input list (log entry 1). Parity rows longer than SLOT_CAP are the model's choice
(log entry 26). -/
def Obligations.StreamVerifyOneBlock : Prop :=
  ∀ (s : State) (L : Nat), s.StorageInv → s.ConfigInv → s.streamVerifyVerdict = none →
    0 < L → L ≤ s.blockSize → (∀ i < s.k, s.Reader i L) →
    (∀ p < s.m, s.Reader (s.k + p) (roundUp L 64)) →
    let sp := roundUp L 64
    let rows := s.field.encParity s.k s.m s.mpow (elemCount s.field sp) (s.readerRow sp)
    let ok := decide (∀ p < s.m, s.parityBytes rows p = s.left (s.k + p))
    ∃ t, exec .streamVerify s = .next t ∧ ∃ n u, State.served n t = .next u
      ∧ u.Succeeds (if ok then 1 else 0) ∧ u.status.verifyOk = ok ∧ s.KeepsShards u
      ∧ s.KeepsWorkFrom u (if s.k ≤ s.mpow then s.mpow else 2 * s.mpow)
      ∧ u.outPorts = s.outPorts
      ∧ (∀ i < s.n, u.left i = []) ∧ ∀ i, s.n ≤ i → u.inPort i = s.inPort i

/-- R312, R313: STREAM_RECONSTRUCT and, with `dataOnly`, STREAM_RECONSTRUCT_DATA of one block. When every connected
data reader has L bytes left and every connected parity reader the roundup(L, 64) bytes that STREAM_ENCODE writes,
0 < L ≤ B, and every port operation is served, the command completes with RESULT = 1 and has written to the port of
every absent shard whose writer is connected (with `dataOnly`, of every such data shard) what DECODE gives for it:
s bytes of a data shard and s_padded bytes of a parity shard, where s is the number of bytes that the lowest reader
(some reader, with PAR_IO = 1) gave. Recovered rows longer than SLOT_CAP are the model's choice (log entry 26), and
the ports' answers come from the model's own input list (log entry 1). -/
def Obligations.StreamReconstructOneBlock : Prop :=
  ∀ (s : State) (dataOnly : Bool) (L : Nat), s.StorageInv → s.ConfigInv →
    s.streamReconstructVerdict = none → ¬ s.NothingToRecover dataOnly → s.streamDecodeVerdict = none →
    0 < L → L ≤ s.blockSize →
    (∀ i < s.k, (s.inPort i).conn = true → s.Reader i L) →
    (∀ i < s.n, s.k ≤ i → (s.inPort i).conn = true → s.Reader i (roundUp L 64)) →
    let i := if dataOnly then Instr.streamReconstructData else .streamReconstruct
    let sp := roundUp L 64
    let dec := s.field.decode s.k s.m s.mpow (elemCount s.field sp) (fun i => (s.inPort i).conn = false)
      (s.readerRow sp)
    let written := fun j => (s.inPort j).conn = false ∧ (s.outPort j).conn = true
      ∧ j < (if dataOnly then s.k else s.n)
    ∃ t, exec i s = .next t ∧ ∃ n u, State.served n t = .next u
      ∧ u.Succeeds 1 ∧ s.KeepsShards u ∧ s.KeepsWorkFrom u (ceilPow2 (s.mpow + s.k))
      ∧ (∃ i0 < s.n, (s.inPort i0).conn = true
        ∧ (s.ctrl.parIo = false → ∀ i < i0, (s.inPort i).conn = false)
        ∧ ∀ j, written j → s.Wrote u j
            ((bytesOfElems s.field s.params.layout (s.field.recovered s.k s.mpow dec j)).take
              (if j < s.k then (s.left i0).length else sp)))
      ∧ (∀ j, ¬ written j → u.outPort j = s.outPort j)
      ∧ (∀ i < s.n, (s.inPort i).conn = true → u.left i = [])
      ∧ ∀ i, s.n ≤ i ∨ (s.inPort i).conn = false → u.inPort i = s.inPort i

/-- R314: STREAM_SPLIT. When IN[0] has at least `size` bytes left and every port operation is served, the
command completes with RESULT = perShard and has written to OUT[j] the perShard bytes of shard j, zero-extended,
whether PAR_IO is 0 or 1. The
ports' answers come from the model's own input list (log entry 1). -/
def Obligations.StreamSplitEmitsShards : Prop :=
  ∀ s : State, s.StorageInv → s.ConfigInv → s.streamSplitVerdict = none →
    s.size64 ≤ (s.left 0).length →
    let per := roundUp (ceilDiv s.size64 s.k) 64
    ∃ t, exec .streamSplit s = .next t ∧ ∃ n u, State.served n t = .next u
      ∧ u.Succeeds (BitVec.ofNat 32 per) ∧ s.KeepsShards u
      ∧ u.work = s.work
      ∧ u.left 0 = (s.left 0).drop s.size64 ∧ (∀ i, i ≠ 0 → u.inPort i = s.inPort i)
      ∧ (∀ j < s.k, s.Wrote u j ((List.range per).map fun b =>
          if j * per + b < s.size64 then (s.left 0).getD (j * per + b) 0 else 0))
      ∧ ∀ j, s.k ≤ j → u.outPort j = s.outPort j

/-- R315: STREAM_JOIN. When the k data readers are connected, end without an error and have together at least
outSize bytes left, and every port operation is served, the command completes with RESULT = outSize[31:0] and
has written to OUT[0] exactly the first outSize bytes of the readers one after the other. The
ports' answers come from the model's own input list (log entry 1). -/
def Obligations.StreamJoinEmitsOutSizeBytes : Prop :=
  ∀ s : State, s.ConfigInv → s.streamJoinVerdict = none →
    (∀ j < s.k, s.Reader j (s.left j).length) →
    s.size64 ≤ ((List.range s.k).flatMap s.left).length →
    ∃ t, exec .streamJoin s = .next t ∧ ∃ n u, State.served n t = .next u
      ∧ u.Succeeds (BitVec.ofNat 32 s.size64) ∧ s.KeepsShards u
      ∧ s.Wrote u 0 (((List.range s.k).flatMap s.left).take s.size64)
      ∧ u.work = s.work ∧ (∀ i, s.k ≤ i → u.inPort i = s.inPort i)
      ∧ ∀ j, j ≠ 0 → u.outPort j = s.outPort j

/-- R293, R295, R296, R318, R310 to R313: the port operations of one block, one by one, on readers of any lengths. A
read that is served stores its row. The last read settles the size: the length of the lowest reader with
PAR_IO = 0, of some reader with PAR_IO = 1. A size of 0 ends the stream; with another one the rows are trimmed or
zero-extended, and the block's first write, the next block's first read, or the end of a STREAM_VERIFY that found a
difference follows. The last write starts the next block. Parity and recovered rows longer than SLOT_CAP are the
model's choice (log entry 26), and the ports' answers come from the model's own input list (log entry 1). -/
def Obligations.BlocksRunInSequence : Prop :=
  (∀ (s : State) (kind : BlockKind) (blocks i : Nat) (rest : List Nat) (lens : List (Nat × Nat))
      (fails : List (Nat × Word)) (bytes : List Byte),
    s.job = some (.readBlock kind blocks (i :: rest) lens fails) → rest ≠ [] →
    s.ReadGives i s.blockSize bytes →
    ∃ t, s.answer .served = .next t ∧ s.MovesIn t i ∧ t.left i = (s.left i).drop s.blockSize
      ∧ s.WaitsOn t (.readBlock kind blocks rest (lens ++ [(i, bytes.length)]) fails)
      ∧ t.stgBytes i bytes.length = bytes
      ∧ ∀ a, (a < s.stgAddr i ∨ s.stgAddr i + bytes.length ≤ a) → t.stg.read a = s.stg.read a)
  ∧ (∀ (s : State) (kind : BlockKind) (blocks i : Nat) (lens : List (Nat × Nat)) (data : Nat → List Byte),
    s.ConfigInv → s.status.configured = true → s.blockOk = true →
    s.job = some (.readBlock kind blocks [i] lens []) →
    (lens.map (fun e => e.1) ++ [i]).Perm (s.readers kind) →
    (∀ e ∈ lens, e.2 = (data e.1).length ∧ e.2 ≤ s.blockSize ∧ s.stgBytes e.1 e.2 = data e.1) →
    s.ReadGives i s.blockSize (data i) →
    let all := lens ++ [(i, (data i).length)]
    ∃ t, s.answer .served = .next t ∧ s.MovesIn t i ∧ t.left i = (s.left i).drop s.blockSize
      ∧ s.KeepsWorkFrom t (s.blockNeed kind)
      ∧ ∃ e ∈ all, (s.parIoLatch = false → ∀ e' ∈ all, e.1 ≤ e'.1)
        ∧ if e.2 = 0 then t.EndsAs (s.streamEnded kind blocks) else s.BlockRun t kind blocks e.2 data)
  ∧ (∀ (s : State) (again : List (Nat × List Byte) → List (Nat × Word) → Job) (j : Nat) (bytes : List Byte)
      (rest : List (Nat × List Byte)) (fails : List (Nat × Word)),
    (∃ kind blocks, again = .writeBlock kind blocks) ∨ (∃ per, again = .splitWrite per) →
    s.job = some (again ((j, bytes) :: rest) fails) → rest ≠ [] →
    ∃ t, s.answer .served = .next t ∧ s.MovesOut t j bytes ∧ s.WaitsOn t (again rest fails))
  ∧ ∀ (s : State) (kind : BlockKind) (blocks j : Nat) (bytes : List Byte),
    s.job = some (.writeBlock kind blocks [(j, bytes)] []) → s.readers kind ≠ [] →
    ∃ t, s.answer .served = .next t ∧ s.MovesOut t j bytes ∧ s.StartsBlock t kind (blocks + 1)

/-! What the commands leave alone, and the host's side. -/

/-- R50, R41, R46, R40, R63, R57, R298: no command, when it is issued or at an answer of the port environment, writes
an operand register, a configuration register that the host writes, CTRL, DLEN, the data buffer, OVR or a parameter,
and none consumes an input or moves a port before it waits on one. Only CONFIG writes the GEO registers, CONFIGURED
and FIELD16, and no command but VERIFY leaves VERIFY_OK set when it is issued. A stream command leaves every SLOT and
SLEN unchanged, when it is issued and at every answer, and so does every answer to JOIN. -/
def Obligations.CommandsLeaveTheRest : Prop :=
  let kept := fun (s t : State) => t.args = s.args ∧ t.cfg = s.cfg ∧ t.ctrl = s.ctrl ∧ t.dlen = s.dlen
    ∧ t.dbuf = s.dbuf ∧ t.params = s.params ∧ t.status.ovr = s.status.ovr ∧ t.inputs = s.inputs
    ∧ t.readValue = s.readValue
  let sameConfig := fun (s t : State) => t.geo = s.geo ∧ t.status.configured = s.status.configured
    ∧ t.status.field16 = s.status.field16
  let sameShards := fun (s t : State) => t.slots = s.slots ∧ t.slen = s.slen
  (∀ (i : Instr) (s t : State), exec i s = .next t →
    kept s t ∧ t.inPorts = s.inPorts ∧ t.outPorts = s.outPorts
    ∧ (i ≠ .config → sameConfig s t)
    ∧ (i ≠ .verify → t.status.verifyOk = false)
    ∧ (i ∈ [.streamEncode, .streamVerify, .streamReconstruct, .streamReconstructData, .streamSplit,
        .streamJoin] → sameShards s t))
  ∧ ∀ (s t : State) (r : Reply), s.answer r = .next t → kept s t ∧ sameConfig s t ∧ sameShards s t

/-- R269, R252, R253, R266, R267, R268: DECODE recovers what ENCODE wrote. After a successful ENCODE, erase at most m
of the n shards (their SLEN becomes 0, and their slots may come to hold anything); then RECONSTRUCT restores every
shard byte for byte with its length, and RECONSTRUCT_DATA restores every data shard. -/
def Obligations.EncodeThenReconstruct : Prop :=
  ∀ s : State, s.StorageInv → s.ConfigInv → s.encodeVerdict = none →
    ceilPow2 (s.mpow + s.k) ≤ s.params.workBufs →
    ∃ t, exec .encode s = .next t ∧
      ∀ (e : State) (dataOnly : Bool) (erased : List Nat), e = { t with slots := e.slots, slen := e.slen } →
        erased.Nodup → (∀ i ∈ erased, i < s.n) → erased.length ≤ s.m →
        (∀ i < s.n, e.slenAt i = if i ∈ erased then 0 else t.slenAt i) →
        (∀ i < s.n, i ∉ erased → e.slotBytes i (s.slenAt 0) = t.slotBytes i (s.slenAt 0)) →
        ∃ u, exec (if dataOnly then .reconstructData else .reconstruct) e = .next u ∧ u.status.err = false
          ∧ ∀ i < (if dataOnly then s.k else s.n), u.slenAt i = s.slenAt 0
            ∧ u.slotBytes i (s.slenAt 0) = t.slotBytes i (s.slenAt 0)

/-- R38, R39, R343, R344, R360: what a command leaves in STATUS and on the interrupt line when it is issued:
either it has completed, and DONE = 1, or it waits, with DONE = ERR = 0 and no interrupt. R396: when it has
completed, a read of STATUS ends the run, if the host writes CMD no more; the read shows the STATUS word; and what is
observed at the end of a run does not depend on work and staging buffers, on slot bytes at or beyond SLEN, on data
buffer bytes at or beyond DLEN, on the latched PAR_IO or on how a command's steps were taken. That the last command
is the one that set DONE is the model's reading (log entry 25), and the host's accesses come from the model's own
input list (log entry 1). -/
def Obligations.CompletionRaisesInterrupt : Prop :=
  (∀ (i : Instr) (s t : State), exec i s = .next t →
    (t.busy = false ∧ t.status.done = true ∧ t.irq = s.ctrl.irqEn
      ∧ (t.status.err = false → t.status.errCode = 0) ∧ (t.status.err = true → t.result = 0)
      ∧ ∀ rest, t.params.mmioBase % 4 = 0 → t.inputs = t.regRead 0x00C :: rest →
        (∀ y ∈ rest, y.writesCmd t.params = false) →
        ∀ n, State.observeRun (n + 1) t = some
          ({ t with inputs := rest, readValue := t.statusWord.setWidth 64 } : State).observe)
    ∨ (t.busy = true ∧ t.status.done = false ∧ t.status.err = false ∧ t.status.errCode = 0
      ∧ t.result = 0 ∧ t.irq = false))
  ∧ ∀ s t : State,
    t = { s with
      work := t.work, stg := t.stg, slots := t.slots, dbuf := t.dbuf, parIoLatch := t.parIoLatch, job := t.job,
      draws := t.draws, inputs := t.inputs, readValue := t.readValue } →
    (∀ i < 65536, ∀ j < s.slenAt i, t.bufByte (.slot i) j = s.bufByte (.slot i) j) →
    (∀ a < s.dlen.toNat, t.dbuf.read a = s.dbuf.read a) → t.observe = s.observe

/-- R36, R37: the STATUS word, bit by bit, and a write to it: a 1 clears DONE or OVR, 0 leaves it, and every other
bit is ignored, busy or not (R63). The host's
accesses come from the model's own input list (log entry 1). -/
def Obligations.StatusRegister : Prop :=
  ∀ s : State,
    (s.statusWord.getLsbD 0 = decide (s.seq ≠ .idle) ∧ s.statusWord.getLsbD 1 = s.status.done
      ∧ s.statusWord.getLsbD 2 = s.status.err ∧ s.statusWord.getLsbD 3 = s.status.verifyOk
      ∧ s.statusWord.getLsbD 4 = s.status.configured ∧ s.statusWord.getLsbD 5 = s.status.field16
      ∧ s.statusWord.getLsbD 6 = s.status.ovr ∧ s.statusWord.getLsbD 7 = false
      ∧ s.statusWord.extractLsb' 8 8 = s.status.errCode ∧ s.statusWord.extractLsb' 16 16 = 0)
    ∧ ∀ (v : Word) (rest : List Input), s.params.mmioBase % 4 = 0 →
        s.inputs = s.regWrite 0x00C v :: rest →
        step s = .next { s with
          inputs := rest
          status := { s.status with
            done := if v.getLsbD 1 then false else s.status.done
            ovr := if v.getLsbD 6 then false else s.status.ovr } }

/-- R31 to R36, R43 to R47, R50, R51, R54, R55, R62, R63, R88: the register window. A host read of any offset gives the
register's current value, busy or not, and changes nothing else; the value of each register is spelled out, CAPS and
CTRL field by field; CMD and the reserved offsets read 0. While the core is idle a read-write register takes what its
rule says; while BUSY = 1 a write to CMD, CTRL, CFG_*, DLEN or an ARG register is dropped and sets OVR; busy or not, a
write to a read-only register or a reserved offset is ignored. The host's accesses come from the model's own input
list (log entry 1). -/
def Obligations.WindowAccess : Prop :=
  ∀ (s : State) (v : Word) (rest : List Input), s.params.mmioBase % 4 = 0 →
    let after : State := { s with inputs := rest }
    (s.seq = .idle →
      (s.inputs = s.regWrite 0x008 v :: rest →
        step s = .next { after with ctrl := { irqEn := v.getLsbD 0, parIo := v.getLsbD 1 } })
      ∧ (s.inputs = s.regWrite 0x020 v :: rest →
        step s = .next { after with cfg := { s.cfg with k := v } })
      ∧ (s.inputs = s.regWrite 0x024 v :: rest →
        step s = .next { after with cfg := { s.cfg with m := v } })
      ∧ (s.inputs = s.regWrite 0x028 v :: rest →
        step s = .next { after with cfg := { s.cfg with conc := if v.toInt ≤ 0 then 1 else v } })
      ∧ (s.inputs = s.regWrite 0x02C v :: rest →
        step s = .next { after with cfg := { s.cfg with block := v } })
      ∧ (s.inputs = s.regWrite 0x044 v :: rest →
        step s = .next { after with dlen := if v.toNat ≤ s.params.dbufCap then v else s.dlen })
      ∧ ∀ i : Fin 8, s.inputs = s.regWrite (0x048 + 4 * i) v :: rest →
          step s = .next { after with args := s.args.set i v })
    ∧ ∀ off, off < 4096 → off % 4 = 0 →
      (s.seq ≠ .idle → s.inputs = s.regWrite off v :: rest →
        off ∈ [0x008, 0x018, 0x020, 0x024, 0x028, 0x02C, 0x044, 0x048, 0x04C, 0x050, 0x054, 0x058, 0x05C,
          0x060, 0x064] →
        step s = .next { after with status := { s.status with ovr := true } })
      ∧ (s.inputs = s.regWrite off v :: rest →
        (off ∈ [0x000, 0x004, 0x010, 0x014, 0x01C, 0x030, 0x034, 0x038, 0x03C, 0x040] ∨ 0x068 ≤ off) →
        step s = .next after)
      ∧ (s.inputs = s.regRead off :: rest →
        step s = .next { after with readValue := (s.readReg off).setWidth 64 }
        ∧ (off = 0x018 ∨ 0x068 ≤ off → s.readReg off = 0))
      ∧ (s.readReg 0x000 = 0x52533136 ∧ s.readReg 0x00C = s.statusWord
        ∧ s.readReg 0x010 = s.errStream.setWidth 32 ∧ s.readReg 0x014 = s.errInner ∧ s.readReg 0x01C = s.result
        ∧ s.readReg 0x020 = s.cfg.k ∧ s.readReg 0x024 = s.cfg.m ∧ s.readReg 0x028 = s.cfg.conc
        ∧ s.readReg 0x02C = s.cfg.block ∧ s.readReg 0x030 = s.geo.k ∧ s.readReg 0x034 = s.geo.m
        ∧ s.readReg 0x038 = s.geo.n ∧ s.readReg 0x03C = s.geo.mpow ∧ s.readReg 0x040 = 64
        ∧ s.readReg 0x044 = s.dlen ∧ ∀ i : Fin 8, s.readReg (0x048 + 4 * i) = s.args[i])
      ∧ (let caps := s.readReg 0x004
         caps.extractLsb' 0 8 = 6
          ∧ caps.extractLsb' 8 8
            = (match s.params.vecW with | .scalar => 0 | .bytes16 => 1 | .bytes32 => 2 | .bytes64 => 4)
          ∧ caps.getLsbD 16 = true ∧ caps.getLsbD 17 = true
          ∧ caps.getLsbD 18 = decide (s.params.layout = .le16) ∧ caps.extractLsb' 19 13 = 0)
      ∧ (s.readReg 0x008).getLsbD 0 = s.ctrl.irqEn ∧ (s.readReg 0x008).getLsbD 1 = s.ctrl.parIo
      ∧ (s.readReg 0x008).extractLsb' 2 30 = 0

/-- R53, R81, R82, R92: SLEN[i] at SLEN_BASE + 4i: a write stores v when v ≤ SLOT_CAP and is ignored otherwise, a
read gives SLEN[i]; while BUSY = 1 both are dropped, the read gives 0, and OVR is set. The host's
accesses come from the model's own input list (log entry 1). -/
def Obligations.SlenAccess : Prop :=
  ∀ (s : State) (i : Nat) (v : Word) (rest : List Input), s.params.wellFormed = true →
    s.params.slenBase % 4 = 0 → i < 65536 →
    let addr := s.params.slenBase + 4 * i
    (s.inputs = .access (.write addr 4 (v.setWidth 64)) :: rest →
      (s.seq = .idle → ∃ t, step s = .next t
        ∧ { t with slen := s.slen } = { s with inputs := rest }
        ∧ t.slenWord i = (if v.toNat ≤ s.params.slotCap then v else s.slenWord i)
        ∧ ∀ j, j ≠ i → t.slenWord j = s.slenWord j)
      ∧ (s.seq ≠ .idle →
        step s = .next { s with inputs := rest, status := { s.status with ovr := true } }))
    ∧ (s.inputs = .access (.read addr 4) :: rest →
      (s.seq = .idle → step s = .next { s with inputs := rest, readValue := (s.slenWord i).setWidth 64 })
      ∧ (s.seq ≠ .idle →
        step s = .next { s with
          inputs := rest, readValue := 0, status := { s.status with ovr := true } }))

/-- R81, R82, R89: byte j of SLOT[i] at SLOT_BASE + i × SLOT_CAP + j, and byte j of DBUF at DBUF_BASE + j. A
permitted write of `width` bytes changes exactly those bytes, little-endian, and a read of them right after it gives
the value back. R92: while BUSY = 1 a write is dropped and a read gives 0, and either sets OVR. The host's
accesses come from the model's own input list (log entry 1). -/
def Obligations.StorageAccess : Prop :=
  ∀ (s : State) (width : Nat) (v : DWord) (rest : List Input), s.params.wellFormed = true →
    width ∈ [1, 2, 4, 8] →
    let both := fun (addr : Nat) =>
      Input.access (.write addr width v) :: Input.access (.read addr width) :: rest
    let value := BitVec.ofNat 64 (v.toNat % 2 ^ (8 * width))
    (∀ i j, i < 65536 → j + width ≤ s.params.slotCap →
      (s.params.slotBase + i * s.params.slotCap + j) % width = 0 → s.seq = .idle →
      s.inputs = both (s.params.slotBase + i * s.params.slotCap + j) →
      ∃ t, step s = .next t ∧ { t with slots := s.slots } = { s with inputs := s.inputs.drop 1 }
        ∧ (∀ a, (a < i * s.params.slotCap + j ∨ i * s.params.slotCap + j + width ≤ a) →
          t.slots.read a = s.slots.read a)
        ∧ (∀ b < width, t.bufByte (.slot i) (j + b) = v.extractLsb' (8 * b) 8)
        ∧ step t = .next { t with inputs := rest, readValue := value })
    ∧ (∀ j, j + width ≤ s.params.dbufCap → (s.params.dbufBase + j) % width = 0 → s.seq = .idle →
      s.inputs = both (s.params.dbufBase + j) →
      ∃ t, step s = .next t ∧ { t with dbuf := s.dbuf } = { s with inputs := s.inputs.drop 1 }
        ∧ (∀ a, (a < j ∨ j + width ≤ a) → t.dbuf.read a = s.dbuf.read a)
        ∧ (∀ b < width, t.dbuf.read (j + b) = v.extractLsb' (8 * b) 8)
        ∧ step t = .next { t with inputs := rest, readValue := value })
    ∧ ∀ addr, addr % width = 0 → s.seq ≠ .idle →
        (s.params.slotBase ≤ addr ∧ addr + width ≤ s.params.slotBase + 65536 * s.params.slotCap
          ∨ s.params.dbufBase ≤ addr ∧ addr + width ≤ s.params.dbufBase + s.params.dbufCap) →
        let dropped : State := { s with inputs := rest, status := { s.status with ovr := true } }
        (s.inputs = .access (.write addr width v) :: rest → step s = .next dropped)
        ∧ (s.inputs = .access (.read addr width) :: rest →
          step s = .next { dropped with readValue := 0 })

/-- R87, R89: an access of another width or alignment is refused, in each region. The host's
accesses come from the model's own input list (log entry 1). -/
def Obligations.RefusedAccesses : Prop :=
  ∀ (s : State) (addr width : Nat) (v : DWord) (rest : List Input) (write : Bool),
    s.params.wellFormed = true →
    s.inputs = .access (if write then .write addr width v else .read addr width) :: rest →
    let inRegion := fun (base size : Nat) => base ≤ addr ∧ addr < base + size
    ((inRegion s.params.mmioBase 4096 ∨ inRegion s.params.slenBase (4 * 65536)) →
      (width ≠ 4 ∨ addr % 4 ≠ 0) → step s = .refused (.badAccess addr width))
    ∧ ((inRegion s.params.slotBase (65536 * s.params.slotCap)
        ∨ inRegion s.params.dbufBase s.params.dbufCap) →
      (¬ width ∈ [1, 2, 4, 8] ∨ addr % width ≠ 0) → step s = .refused (.badAccess addr width))
end

