-- ==== Sys2Proof/Laws/Memory.lean ====
section
/-! SUPPORT. What memory and table operations do: a read after a write, that a write leaves every other place
alone, and that every operation keeps the one form. -/

namespace Sys2Proof.Machine

theorem findCell_append (a : Nat) (l₁ l₂ : List Host.Cell) :
    findCell a (l₁ ++ l₂) = (findCell a l₁).or (findCell a l₂) := by
  induction l₁ with
  | nil => simp [findCell]
  | cons c cs ih => by_cases h : c.1 = a <;> simp [findCell, h, ih]

theorem findCell_filter_pos (a : Nat) (p : Nat → Bool) (h : p a = true) (l : List Host.Cell) :
    findCell a (l.filter fun c => p c.1) = findCell a l := by
  induction l with
  | nil => rfl
  | cons c cs ih =>
    by_cases hc : c.1 = a
    · subst hc; simp [h, findCell]
    · by_cases hp : p c.1 <;> simp [hp, findCell, hc, ih]

theorem findCell_filter_neg (a : Nat) (p : Nat → Bool) (h : p a = false) (l : List Host.Cell) :
    findCell a (l.filter fun c => p c.1) = none := by
  induction l with
  | nil => rfl
  | cons c cs ih =>
    by_cases hp : p c.1
    · have hc : c.1 ≠ a := by rintro rfl; simp [h] at hp
      simp [hp, findCell, hc, ih]
    · simp [hp, ih]

theorem findCell_cellsFrom (x a : Nat) (bs : List Byte) :
    findCell x (cellsFrom a bs) = if a ≤ x then bs[x - a]? else none := by
  induction bs generalizing a with
  | nil => simp [cellsFrom, findCell]
  | cons b bs ih =>
    by_cases h : a = x
    · subst h; simp [cellsFrom, findCell]
    · simp only [cellsFrom, findCell, h, if_false, ih]
      by_cases h' : a ≤ x
      · rw [if_pos h', if_pos (show a + 1 ≤ x by omega),
          show x - a = (x - (a + 1)) + 1 by omega, List.getElem?_cons_succ]
      · rw [if_neg h', if_neg (show ¬ a + 1 ≤ x by omega)]

theorem findCell_dropWhile (a : Nat) (p : Nat → Bool) (h : p a = false) (l : List Host.Cell) :
    findCell a (l.dropWhile fun c => p c.1) = findCell a l := by
  induction l with
  | nil => rfl
  | cons c cs ih =>
    by_cases hp : p c.1
    · have hc : c.1 ≠ a := by rintro rfl; simp [h] at hp
      simp [hp, findCell, hc, ih]
    · simp [hp]

@[simp] theorem Memory.genAt_writeBytes (m : Memory) (a : Nat) (bs : List Byte) (x : Nat) :
    (m.writeBytes a bs).genAt x = m.genAt x := rfl

/-- A byte after a write: the byte written, or what it was. -/
theorem Memory.read_writeBytes (m : Memory) (a : Nat) (bs : List Byte) (x : Nat) :
    (m.writeBytes a bs).read x =
      if a ≤ x ∧ x < a + bs.length then bs.getD (x - a) 0 else m.read x := by
  unfold Memory.read
  rw [Memory.genAt_writeBytes]
  simp only [Memory.writeBytes, findCell_append, findCell_cellsFrom]
  rcases Nat.lt_or_ge x a with h | h
  · rw [findCell_filter_pos x (fun c => decide (c < a)) (by simpa using h),
      findCell_filter_neg x (fun c => decide (a + bs.length ≤ c)) (by simp; omega)]
    simp [show ¬ a ≤ x by omega]
  · rw [findCell_filter_neg x (fun c => decide (c < a)) (by simpa using h)]
    rcases Nat.lt_or_ge x (a + bs.length) with h' | h'
    · have hi : x - a < bs.length := by omega
      simp [h, h', List.getElem?_eq_getElem hi]
    · rw [findCell_filter_pos x (fun c => decide (a + bs.length ≤ c)) (by simpa using h')]
      have hn : bs[x - a]? = none := List.getElem?_eq_none (by omega)
      simp [h, hn, show ¬ x < a + bs.length by omega]

/-- Bytes at an address are the bytes read one by one. -/
theorem Memory.readBytes_eq (m : Memory) (a n : Nat) :
    m.readBytes a n = (List.range n).map fun i => m.read (a + i) := by
  simp only [Memory.readBytes, Memory.read]
  refine List.map_congr_left fun i _ => ?_
  rw [findCell_dropWhile (a + i) (fun c => decide (c < a)) (by simp)]

@[simp] theorem Memory.length_readBytes (m : Memory) (a n : Nat) : (m.readBytes a n).length = n := by
  simp [Memory.readBytes]

theorem Memory.getD_readBytes (m : Memory) (a n i : Nat) (h : i < n) (d : Byte) :
    (m.readBytes a n).getD i d = m.read (a + i) := by
  rw [Memory.readBytes_eq]; simp [List.getD_eq_getElem?_getD, h]

/-- Two memories that agree byte by byte on a range give the same bytes. -/
theorem Memory.readBytes_congr (m m' : Memory) (a n : Nat)
    (h : ∀ i < n, m.read (a + i) = m'.read (a + i)) : m.readBytes a n = m'.readBytes a n := by
  rw [Memory.readBytes_eq, Memory.readBytes_eq]
  exact List.map_congr_left fun i hi => h i (List.mem_range.1 hi)

/-- Reading back what was written. -/
theorem Memory.readBytes_writeBytes_same (m : Memory) (a : Nat) (bs : List Byte) :
    (m.writeBytes a bs).readBytes a bs.length = bs := by
  rw [Memory.readBytes_eq]
  apply List.ext_getElem
  · simp
  · intro i h₁ h₂
    simp [Memory.read_writeBytes, h₂]

/-- A write leaves bytes elsewhere alone. -/
theorem Memory.readBytes_writeBytes_apart (m : Memory) (a : Nat) (bs : List Byte) (b n : Nat)
    (h : b + n ≤ a ∨ a + bs.length ≤ b) : (m.writeBytes a bs).readBytes b n = m.readBytes b n := by
  apply Memory.readBytes_congr
  intro i hi
  rw [Memory.read_writeBytes, if_neg (by omega)]

/-- A byte that is not spoiled keeps its value, and which draw it stands for. -/
theorem Memory.read_spoil (m : Memory) (bound gen x : Nat) (h : bound ≤ x) :
    (m.spoil bound gen).read x = m.read x := by
  have hg : (m.spoil bound gen).genAt x = m.genAt x := by
    have hx : ¬ x < bound := by omega
    simp only [Memory.genAt, Memory.spoil, List.find?_cons, hx, decide_false]
    suffices H : ∀ l : List (Nat × Nat),
        (l.filter fun e => decide (bound < e.1)).find? (fun e => decide (x < e.1))
          = l.find? fun e => decide (x < e.1) by rw [H]
    intro l
    induction l with
    | nil => rfl
    | cons e es ih =>
      by_cases he : x < e.1
      · simp [show bound < e.1 by omega, he]
      · by_cases hb : bound < e.1 <;> simp [hb, he, ih]
  unfold Memory.read
  rw [hg]
  simp only [Memory.spoil]
  rw [findCell_filter_pos x (fun c => decide (bound ≤ c)) (by simpa using h)]

/-! The one form. -/

theorem risingKeys_iff {α : Type} (l : List (Nat × α)) :
    risingKeys l = true ↔ l.Pairwise fun x y => x.1 < y.1 := by
  induction l with
  | nil => simp [risingKeys]
  | cons x l ih =>
    cases l with
    | nil => simp [risingKeys]
    | cons y rest =>
      simp only [risingKeys, Bool.and_eq_true, decide_eq_true_eq, ih]
      constructor
      · rintro ⟨h, hp⟩
        refine List.pairwise_cons.2 ⟨fun z hz => ?_, hp⟩
        rcases List.mem_cons.1 hz with rfl | hz
        · exact h
        · exact h.trans ((List.pairwise_cons.1 hp).1 z hz)
      · intro hp
        exact ⟨(List.pairwise_cons.1 hp).1 y (by simp), (List.pairwise_cons.1 hp).2⟩

theorem risingKeys_filter {α : Type} (p : Nat × α → Bool) (l : List (Nat × α))
    (h : risingKeys l = true) : risingKeys (l.filter p) = true :=
  (risingKeys_iff _).2 (((risingKeys_iff _).1 h).filter p)

theorem mem_cellsFrom (a : Nat) (bs : List Byte) (c : Host.Cell) (h : c ∈ cellsFrom a bs) :
    a ≤ c.1 ∧ c.1 < a + bs.length := by
  induction bs generalizing a with
  | nil => simp [cellsFrom] at h
  | cons b bs ih =>
    rcases List.mem_cons.1 h with rfl | h
    · simp
    · have := ih (a + 1) h
      simp only [List.length_cons]; omega

theorem risingKeys_cellsFrom (a : Nat) (bs : List Byte) : risingKeys (cellsFrom a bs) = true := by
  rw [risingKeys_iff]
  induction bs generalizing a with
  | nil => exact List.Pairwise.nil
  | cons b bs ih =>
    refine List.pairwise_cons.2 ⟨fun c hc => ?_, ih (a + 1)⟩
    have := mem_cellsFrom (a + 1) bs c hc
    simp only; omega

/-- A write keeps the one form of a memory. -/
theorem Memory.wf_writeBytes (m : Memory) (a : Nat) (bs : List Byte) (h : m.wf = true) :
    (m.writeBytes a bs).wf = true := by
  simp only [Memory.wf, Bool.and_eq_true] at h ⊢
  refine ⟨?_, h.2⟩
  simp only [Memory.writeBytes]
  rw [risingKeys_iff, List.pairwise_append, List.pairwise_append]
  have hp := (risingKeys_iff _).1 h.1
  refine ⟨⟨hp.filter _, (risingKeys_iff _).1 (risingKeys_cellsFrom a bs), ?_⟩, hp.filter _, ?_⟩
  · intro x hx y hy
    have := mem_cellsFrom a bs y hy
    have hx' := (List.mem_filter.1 hx).2
    simp only [decide_eq_true_eq] at hx'
    omega
  · intro x hx y hy
    have hy' := (List.mem_filter.1 hy).2
    simp only [decide_eq_true_eq] at hy'
    rcases List.mem_append.1 hx with hx | hx
    · have hx' := (List.mem_filter.1 hx).2
      simp only [decide_eq_true_eq] at hx'
      omega
    · have := mem_cellsFrom a bs x hx
      omega

/-- Drawing bytes afresh keeps the one form of a memory. -/
theorem Memory.wf_spoil (m : Memory) (bound gen : Nat) (h : m.wf = true) :
    (m.spoil bound gen).wf = true := by
  simp only [Memory.wf, Bool.and_eq_true] at h ⊢
  refine ⟨risingKeys_filter _ _ h.1, ?_⟩
  simp only [Memory.spoil]
  rw [risingKeys_iff]
  refine List.pairwise_cons.2 ⟨fun e he => ?_, ((risingKeys_iff _).1 h.2).filter _⟩
  simpa using (List.mem_filter.1 he).2

/-- A memory of which nothing was written has the one form. -/
theorem Memory.wf_drawn (gen : Nat) : (Memory.drawn gen).wf = true := rfl

/-! Tables. -/

theorem tableGet_append {α : Type} (d : α) (i : Nat) (l₁ l₂ : List (Nat × α)) :
    tableGet d i (l₁ ++ l₂) = if (∃ e ∈ l₁, e.1 = i) then tableGet d i l₁ else tableGet d i l₂ := by
  induction l₁ with
  | nil => simp
  | cons e es ih =>
    by_cases h : e.1 = i
    · simp [tableGet, h]
    · have hm : (∃ x ∈ e :: es, x.1 = i) ↔ ∃ x ∈ es, x.1 = i := by
        constructor
        · rintro ⟨x, hx, hxi⟩
          rcases List.mem_cons.1 hx with rfl | hx
          · exact absurd hxi h
          · exact ⟨x, hx, hxi⟩
        · rintro ⟨x, hx, hxi⟩
          exact ⟨x, List.mem_cons_of_mem _ hx, hxi⟩
      simp only [List.cons_append, tableGet, h, if_false, ih, hm]

theorem tableGet_absent {α : Type} (d : α) (i : Nat) (l : List (Nat × α)) (h : ∀ e ∈ l, e.1 ≠ i) :
    tableGet d i l = d := by
  induction l with
  | nil => rfl
  | cons e es ih =>
    have he := h e (by simp)
    simp only [tableGet, he, if_false]
    exact ih fun x hx => h x (by simp [hx])

theorem tableGet_filter {α : Type} (d : α) (i : Nat) (p : Nat → Bool) (h : p i = true)
    (l : List (Nat × α)) : tableGet d i (l.filter fun e => p e.1) = tableGet d i l := by
  induction l with
  | nil => rfl
  | cons e es ih =>
    by_cases he : e.1 = i
    · subst he; simp [h, tableGet]
    · by_cases hp : p e.1 <;> simp [hp, tableGet, he, ih]

/-- An entry after a table write: the value written, or what it was. -/
theorem tableGet_tableSet {α : Type} [DecidableEq α] (d : α) (i : Nat) (v : α) (t : List (Nat × α))
    (j : Nat) : tableGet d j (tableSet d i v t) = if j = i then v else tableGet d j t := by
  unfold tableSet
  rw [tableGet_append, tableGet_append]
  rcases Nat.lt_trichotomy j i with h | h | h
  · have hm : tableGet d j ((if v = d then [] else [(i, v)]) ++ t.filter fun e => decide (i < e.1)) = d := by
      apply tableGet_absent
      intro e he
      rcases List.mem_append.1 he with he | he
      · by_cases hv : v = d <;> simp [hv] at he; subst he; simp; omega
      · have := (List.mem_filter.1 he).2
        simp only [decide_eq_true_eq] at this; omega
    have hm₁ : tableGet d j (if v = d then [] else [(i, v)]) = d := by
      apply tableGet_absent
      intro e he
      by_cases hv : v = d <;> simp [hv] at he; subst he; simp; omega
    have hm₂ : tableGet d j (t.filter fun e => decide (i < e.1)) = d := by
      apply tableGet_absent
      intro e he
      have := (List.mem_filter.1 he).2
      simp only [decide_eq_true_eq] at this; omega
    rw [if_neg (show ¬ j = i by omega)]
    rw [tableGet_filter d j (fun x => decide (x < i)) (by simpa using h), hm₁, hm₂]
    by_cases hex : ∃ e ∈ t.filter (fun e => decide (e.1 < i)), e.1 = j
    · have hex' : ∃ e ∈ t.filter (fun e => decide (e.1 < i)) ++ (if v = d then [] else [(i, v)]), e.1 = j :=
        let ⟨e, he, hj⟩ := hex
        ⟨e, List.mem_append_left _ he, hj⟩
      rw [if_pos hex', if_pos hex]
    · have hd : tableGet d j t = d := by
        rw [← tableGet_filter d j (fun x => decide (x < i)) (by simpa using h)]
        exact tableGet_absent d j _ fun e he hj => hex ⟨e, he, hj⟩
      rw [hd]; split <;> split <;> rfl
  · subst h
    have hlt : ∀ e ∈ t.filter (fun e => decide (e.1 < j)), e.1 ≠ j := by
      intro e he
      have := (List.mem_filter.1 he).2
      simp only [decide_eq_true_eq] at this; omega
    have hgt : ∀ e ∈ t.filter (fun e => decide (j < e.1)), e.1 ≠ j := by
      intro e he
      have := (List.mem_filter.1 he).2
      simp only [decide_eq_true_eq] at this; omega
    have h₁ : ¬ ∃ e ∈ t.filter (fun e => decide (e.1 < j)), e.1 = j := fun ⟨e, he, h⟩ => hlt e he h
    rw [if_neg h₁]
    by_cases hv : v = d
    · subst hv
      rw [if_neg (by simp), tableGet_absent _ _ _ hgt]; simp
    · rw [if_pos ⟨(j, v), by simp [hv], rfl⟩]; simp [hv, tableGet]
  · rw [if_neg (show ¬ j = i by omega)]
    have h₁ : ¬ ∃ e ∈ t.filter (fun e => decide (e.1 < i)) ++ (if v = d then [] else [(i, v)]), e.1 = j := by
      rintro ⟨e, he, hj⟩
      rcases List.mem_append.1 he with he | he
      · have := (List.mem_filter.1 he).2
        simp only [decide_eq_true_eq] at this; omega
      · by_cases hv : v = d <;> simp [hv] at he; subst he; simp at hj; omega
    rw [if_neg h₁, tableGet_filter d j (fun x => decide (i < x)) (by simpa using h)]

/-- A table write keeps the one form of a table. -/
theorem tableWf_tableSet {α : Type} [DecidableEq α] (d : α) (i : Nat) (v : α) (t : List (Nat × α))
    (h : tableWf d t = true) : tableWf d (tableSet d i v t) = true := by
  simp only [tableWf, Bool.and_eq_true, List.all_eq_true] at h ⊢
  have hp := (risingKeys_iff _).1 h.1
  refine ⟨?_, ?_⟩
  · unfold tableSet
    rw [risingKeys_iff, List.pairwise_append, List.pairwise_append]
    refine ⟨⟨hp.filter _, by by_cases hv : v = d <;> simp [hv], ?_⟩, hp.filter _, ?_⟩
    · intro x hx y hy
      have hx' := (List.mem_filter.1 hx).2
      simp only [decide_eq_true_eq] at hx'
      by_cases hv : v = d <;> simp [hv] at hy
      subst hy; exact hx'
    · intro x hx y hy
      have hy' := (List.mem_filter.1 hy).2
      simp only [decide_eq_true_eq] at hy'
      rcases List.mem_append.1 hx with hx | hx
      · have hx' := (List.mem_filter.1 hx).2
        simp only [decide_eq_true_eq] at hx'
        omega
      · by_cases hv : v = d <;> simp [hv] at hx
        subst hx; exact hy'
  · intro e he
    unfold tableSet at he
    rcases List.mem_append.1 he with he | he
    · rcases List.mem_append.1 he with he | he
      · exact h.2 e (List.mem_filter.1 he).1
      · by_cases hv : v = d <;> simp [hv] at he
        subst he; simpa using hv
    · exact h.2 e (List.mem_filter.1 he).1

end Sys2Proof.Machine
end

