-- ==== Sys2Proof/Laws/Field.lean ====
section
/-! SUPPORT. The field tables: the Cantor map and its inverse, the shift register as multiplication by x, the
bijection between elements and logs, and multiplication as polynomial multiplication. -/

namespace Sys2Proof

theorem force_eq {α : Type} (n : Nat) (k : Nat → α) : force n k = k n := by
  cases n <;> rfl

theorem GF.order_eq (f : GF) : f.order = 2 ^ f.width := by cases f <;> rfl

theorem GF.mod_eq (f : GF) : f.mod + 1 = f.order := by cases f <;> rfl

theorem GF.mod_pos (f : GF) : 0 < f.mod := by cases f <;> decide

theorem GF.two_le_order (f : GF) : 2 ≤ f.order := by cases f <;> decide

/-! Log arithmetic (41_field_tables.md R157). -/

theorem GF.addmod_le (f : GF) (a b : Nat) (ha : a ≤ f.mod) (hb : b ≤ f.mod) : f.addmod a b ≤ f.mod := by
  unfold GF.addmod; split <;> omega

theorem GF.submod_le (f : GF) (a b : Nat) (ha : a ≤ f.mod) : f.submod a b ≤ f.mod := by
  unfold GF.submod; split <;> omega

theorem GF.addmod_comm (f : GF) (a b : Nat) : f.addmod a b = f.addmod b a := by
  unfold GF.addmod; rw [Nat.add_comm]

/-! Selecting basis entries by the bits of a number is linear. -/

theorem xor_xor_xor_comm (a b c d : Nat) : (a ^^^ b) ^^^ (c ^^^ d) = (a ^^^ c) ^^^ (b ^^^ d) := by
  rw [Nat.xor_assoc, ← Nat.xor_assoc b, Nat.xor_comm b c, Nat.xor_assoc c, ← Nat.xor_assoc a]

theorem xorSelect_zero (bs : List Nat) : xorSelect bs 0 = 0 := by
  induction bs with
  | nil => rfl
  | cons b bs ih => simp [xorSelect, ih]

theorem xor_mod_two (a b : Nat) : (a ^^^ b) % 2 = 1 ↔ ¬ (a % 2 = 1 ↔ b % 2 = 1) := by
  rw [Nat.xor_mod_two_eq_one]

theorem xor_div_two (a b : Nat) : (a ^^^ b) / 2 = (a / 2) ^^^ (b / 2) := by
  have := Nat.shiftRight_xor_distrib (a := a) (b := b) (i := 1)
  simpa [Nat.shiftRight_succ] using this

theorem xorSelect_xor (bs : List Nat) (a b : Nat) :
    xorSelect bs (a ^^^ b) = xorSelect bs a ^^^ xorSelect bs b := by
  induction bs generalizing a b with
  | nil => simp [xorSelect]
  | cons c bs ih =>
    simp only [xorSelect, xor_div_two, ih, xor_mod_two]
    rw [xor_xor_xor_comm]
    congr 1
    by_cases ha : a % 2 = 1 <;> by_cases hb : b % 2 = 1 <;> simp [ha, hb]

theorem xorSelect_lt (bs : List Nat) (n : Nat) (h : ∀ b ∈ bs, b < 2 ^ n) (v : Nat) :
    xorSelect bs v < 2 ^ n := by
  induction bs generalizing v with
  | nil => exact Nat.two_pow_pos n
  | cons b bs ih =>
    simp only [xorSelect]
    refine Nat.xor_lt_two_pow ?_ (ih (fun x hx => h x (by simp [hx])) _)
    split
    · exact h b (by simp)
    · exact Nat.two_pow_pos n

theorem xorSelect_comp (bs cs : List Nat) (v : Nat) :
    xorSelect bs (xorSelect cs v) = xorSelect (cs.map (xorSelect bs)) v := by
  induction cs generalizing v with
  | nil => simp [xorSelect, xorSelect_zero]
  | cons c cs ih =>
    simp only [xorSelect, List.map_cons, xorSelect_xor, ih]
    congr 1
    split
    · rfl
    · exact xorSelect_zero bs

/-- The powers 2^k, …, 2^(k+n−1). -/
def powersFrom (k : Nat) : Nat → List Nat
  | 0 => []
  | n + 1 => 2 ^ k :: powersFrom (k + 1) n

theorem xorSelect_powersFrom (k n v : Nat) (h : v < 2 ^ n) :
    xorSelect (powersFrom k n) v = 2 ^ k * v := by
  induction n generalizing k v with
  | zero => simp at h; subst h; rfl
  | succ n ih =>
    have hv : v / 2 < 2 ^ n := by omega
    simp only [powersFrom, xorSelect, ih (k + 1) (v / 2) hv]
    have hx : (2 ^ k * (v % 2)) ^^^ (2 ^ (k + 1) * (v / 2)) = 2 ^ k * v := by
      have e : 2 ^ (k + 1) * (v / 2) = (v / 2 * 2) <<< k := by
        rw [Nat.shiftLeft_eq, Nat.pow_succ]; ring
      have e' : 2 ^ k * (v % 2) = (v % 2) <<< k := by rw [Nat.shiftLeft_eq]; ring
      have hx' : (v % 2) ^^^ (v / 2 * 2) = v := by
        apply Nat.eq_of_testBit_eq
        intro i
        cases i with
        | zero => simp
        | succ i =>
          rw [Nat.testBit_succ, Nat.testBit_succ, xor_div_two, show v % 2 / 2 = 0 by omega,
            show v / 2 * 2 / 2 = v / 2 by omega, Nat.zero_xor]
      rw [e, e', ← Nat.shiftLeft_xor_distrib, hx', Nat.shiftLeft_eq]; ring
    rw [← hx]
    congr 1
    by_cases h2 : v % 2 = 1
    · simp [h2]
    · have : v % 2 = 0 := by omega
      simp [this]

/-! The Cantor map (41_field_tables.md R153, R155). -/

theorem GF.cant_lt (f : GF) (v : Nat) : f.cant v < f.order := by
  rw [GF.order_eq]
  exact xorSelect_lt _ _ (by cases f <;> decide) v

theorem GF.uncant_lt (f : GF) (p : Nat) : f.uncant p < f.order := by
  rw [GF.order_eq]
  exact xorSelect_lt _ _ (by cases f <;> decide) p

theorem GF.cant_xor (f : GF) (a b : Nat) : f.cant (a ^^^ b) = f.cant a ^^^ f.cant b := xorSelect_xor _ a b

theorem GF.uncant_xor (f : GF) (a b : Nat) : f.uncant (a ^^^ b) = f.uncant a ^^^ f.uncant b :=
  xorSelect_xor _ a b

theorem GF.cant_zero (f : GF) : f.cant 0 = 0 := xorSelect_zero _

theorem GF.uncant_zero (f : GF) : f.uncant 0 = 0 := xorSelect_zero _

/-- `uncant` inverts the Cantor map (log entry 7). -/
theorem GF.cant_uncant (f : GF) (p : Nat) (h : p < f.order) : f.cant (f.uncant p) = p := by
  rw [GF.order_eq] at h
  unfold GF.cant GF.uncant
  rw [xorSelect_comp, show f.powerBasis.map (xorSelect f.cantorBasis) = powersFrom 0 f.width by
    cases f <;> decide, xorSelect_powersFrom 0 _ _ h]
  simp

theorem GF.uncant_cant (f : GF) (v : Nat) (h : v < f.order) : f.uncant (f.cant v) = v := by
  rw [GF.order_eq] at h
  unfold GF.cant GF.uncant
  rw [xorSelect_comp, show f.cantorBasis.map (xorSelect f.powerBasis) = powersFrom 0 f.width by
    cases f <;> decide, xorSelect_powersFrom 0 _ _ h]
  simp

theorem GF.cant_ne_zero (f : GF) (v : Nat) (h : v < f.order) (h0 : v ≠ 0) : f.cant v ≠ 0 := by
  intro hc
  apply h0
  rw [← f.uncant_cant v h, hc, f.uncant_zero]

/-! The shift register: multiplication by x (41_field_tables.md R154). -/

theorem testBit_top (n s : Nat) (h : s < 2 ^ (n + 1)) : s.testBit n = true ↔ 2 ^ n ≤ s := by
  constructor
  · exact Nat.ge_two_pow_of_testBit
  · intro hle
    have : s = 2 ^ n + (s - 2 ^ n) := by omega
    rw [this, Nat.testBit_two_pow_add_eq]
    rw [Nat.testBit_lt_two_pow (by rw [Nat.pow_succ] at h; omega)]
    rfl

theorem GF.lfsrNext_eq (f : GF) (s : Nat) (h : s < f.order) :
    f.lfsrNext s = 2 * s ^^^ (if s.testBit (f.width - 1) then f.poly else 0) := by
  unfold GF.lfsrNext
  have key : (2 * s ≥ f.order) ↔ s.testBit (f.width - 1) = true := by
    rw [testBit_top _ _ (by cases f <;> exact h)]
    cases f <;> simp [GF.order, GF.width] <;> omega
  by_cases hs : 2 * s ≥ f.order
  · simp [hs, key.1 hs]
  · have : s.testBit (f.width - 1) = false := by
      by_contra hc; exact hs (key.2 (by simpa using hc))
    simp [hs, this]

theorem two_mul_xor (a b : Nat) : 2 * (a ^^^ b) = 2 * a ^^^ 2 * b := by
  have := Nat.shiftLeft_xor_distrib (a := a) (b := b) (i := 1)
  simpa [Nat.shiftLeft_eq, Nat.mul_comm] using this

theorem GF.xor_lt (f : GF) (a b : Nat) (ha : a < f.order) (hb : b < f.order) : a ^^^ b < f.order := by
  rw [GF.order_eq] at *; exact Nat.xor_lt_two_pow ha hb

theorem GF.lfsrNext_xor (f : GF) (a b : Nat) (ha : a < f.order) (hb : b < f.order) :
    f.lfsrNext (a ^^^ b) = f.lfsrNext a ^^^ f.lfsrNext b := by
  rw [f.lfsrNext_eq _ (f.xor_lt a b ha hb), f.lfsrNext_eq a ha, f.lfsrNext_eq b hb, Nat.testBit_xor,
    two_mul_xor, xor_xor_xor_comm]
  congr 1
  cases a.testBit (f.width - 1) <;> cases b.testBit (f.width - 1) <;> simp

theorem GF.lfsrNext_lt (f : GF) (s : Nat) (h : s < f.order) : f.lfsrNext s < f.order := by
  unfold GF.lfsrNext
  split
  · rename_i h2
    rw [GF.order_eq] at *
    apply Nat.lt_pow_two_of_testBit
    intro i hi
    rw [Nat.testBit_xor]
    rcases Nat.lt_or_ge f.width i with hlt | hge
    · have h1 : (2 * s).testBit i = false := Nat.testBit_lt_two_pow (by
        calc 2 * s < 2 ^ (f.width + 1) := by rw [Nat.pow_succ]; omega
          _ ≤ 2 ^ i := Nat.pow_le_pow_right (by decide) hlt)
      have h3 : f.poly.testBit i = false := Nat.testBit_lt_two_pow (by
        calc f.poly < 2 ^ (f.width + 1) := by cases f <;> decide
          _ ≤ 2 ^ i := Nat.pow_le_pow_right (by decide) hlt)
      simp [h1, h3]
    · have hi' : i = f.width := by omega
      subst hi'
      have h1 : (2 * s).testBit f.width = true :=
        (testBit_top _ _ (by rw [Nat.pow_succ]; omega)).2 h2
      have h3 : f.poly.testBit f.width = true := by cases f <;> decide
      simp [h1, h3]
  · omega

theorem GF.lfsrNext_zero (f : GF) : f.lfsrNext 0 = 0 := by cases f <;> decide

theorem xor_eq_zero_iff (a b : Nat) : a ^^^ b = 0 ↔ a = b := by
  constructor
  · intro h
    have : a ^^^ (a ^^^ b) = a ^^^ 0 := by rw [h]
    rw [← Nat.xor_assoc, Nat.xor_self, Nat.zero_xor, Nat.xor_zero] at this
    exact this.symm
  · rintro rfl; exact Nat.xor_self a

theorem GF.lfsrNext_ne_zero (f : GF) (s : Nat) (h0 : s ≠ 0) : f.lfsrNext s ≠ 0 := by
  unfold GF.lfsrNext
  split
  · intro h
    have : 2 * s = f.poly := (xor_eq_zero_iff _ _).1 h
    cases f <;> simp [GF.poly] at this <;> omega
  · omega

theorem GF.lfsrNext_injective (f : GF) (a b : Nat) (ha : a < f.order) (hb : b < f.order)
    (h : f.lfsrNext a = f.lfsrNext b) : a = b := by
  by_contra hne
  have : f.lfsrNext (a ^^^ b) = 0 := by rw [f.lfsrNext_xor a b ha hb, h, Nat.xor_self]
  exact f.lfsrNext_ne_zero _ (fun h0 => hne ((xor_eq_zero_iff a b).1 h0)) this

theorem GF.lfsrRun_zero (f : GF) (s : Nat) : f.lfsrRun 0 s = s := rfl

theorem GF.lfsrRun_succ (f : GF) (n s : Nat) : f.lfsrRun (n + 1) s = f.lfsrRun n (f.lfsrNext s) := by
  simp [GF.lfsrRun, force_eq]

theorem GF.lfsrRun_succ' (f : GF) (n s : Nat) : f.lfsrRun (n + 1) s = f.lfsrNext (f.lfsrRun n s) := by
  induction n generalizing s with
  | zero => simp [GF.lfsrRun_succ, GF.lfsrRun_zero]
  | succ n ih => rw [GF.lfsrRun_succ, ih, ← GF.lfsrRun_succ]

theorem GF.lfsrRun_add (f : GF) (m n s : Nat) : f.lfsrRun (m + n) s = f.lfsrRun m (f.lfsrRun n s) := by
  induction m with
  | zero => simp [GF.lfsrRun_zero]
  | succ m ih => rw [Nat.succ_add, GF.lfsrRun_succ', ih, ← GF.lfsrRun_succ']

theorem GF.lfsrRun_lt (f : GF) (n s : Nat) (h : s < f.order) : f.lfsrRun n s < f.order := by
  induction n with
  | zero => exact h
  | succ n ih => rw [GF.lfsrRun_succ']; exact f.lfsrNext_lt _ ih

theorem GF.lfsrRun_xor (f : GF) (n a b : Nat) (ha : a < f.order) (hb : b < f.order) :
    f.lfsrRun n (a ^^^ b) = f.lfsrRun n a ^^^ f.lfsrRun n b := by
  induction n with
  | zero => rfl
  | succ n ih =>
    rw [GF.lfsrRun_succ', ih, f.lfsrNext_xor _ _ (f.lfsrRun_lt n a ha) (f.lfsrRun_lt n b hb),
      ← GF.lfsrRun_succ', ← GF.lfsrRun_succ']

theorem GF.lfsrRun_base (f : GF) (n : Nat) : f.lfsrRun n 0 = 0 := by
  induction n with
  | zero => rfl
  | succ n ih => rw [GF.lfsrRun_succ', ih, GF.lfsrNext_zero]

theorem GF.lfsrRun_ne_zero (f : GF) (n s : Nat) (h : s ≠ 0) : f.lfsrRun n s ≠ 0 := by
  induction n with
  | zero => exact h
  | succ n ih => rw [GF.lfsrRun_succ']; exact f.lfsrNext_ne_zero _ ih

theorem GF.lfsrRun_injective (f : GF) (n a b : Nat) (ha : a < f.order) (hb : b < f.order)
    (h : f.lfsrRun n a = f.lfsrRun n b) : a = b := by
  induction n with
  | zero => exact h
  | succ n ih =>
    rw [GF.lfsrRun_succ', GF.lfsrRun_succ'] at h
    exact ih (f.lfsrNext_injective _ _ (f.lfsrRun_lt n a ha) (f.lfsrRun_lt n b hb) h)

/-- `n` more turns of the register of order `q` and polynomial `p` from `s` show 1 at the end and not
before. -/
def orbitFree (q p : Nat) : Nat → Nat → Bool
  | 0, s => Nat.beq s 1
  | n + 1, s =>
    bif Nat.beq s 1 then false
    else force (bif Nat.ble q (2 * s) then Nat.xor (2 * s) p else 2 * s) (orbitFree q p n)

theorem orbitFree_spec (f : GF) (n s : Nat) (h : orbitFree f.order f.poly n s = true) :
    (∀ i < n, f.lfsrRun i s ≠ 1) ∧ f.lfsrRun n s = 1 := by
  induction n generalizing s with
  | zero =>
    simp only [orbitFree] at h
    exact ⟨fun i hi => absurd hi (by omega), Nat.eq_of_beq_eq_true h⟩
  | succ n ih =>
    simp only [orbitFree, force_eq] at h
    cases hs : Nat.beq s 1 with
    | true => rw [hs] at h; simp at h
    | false =>
      rw [hs] at h
      have hn : (bif Nat.ble f.order (2 * s) then Nat.xor (2 * s) f.poly else 2 * s) = f.lfsrNext s := by
        unfold GF.lfsrNext
        by_cases hle : f.order ≤ 2 * s
        · rw [if_pos hle, Nat.ble_eq_true_of_le hle]; rfl
        · rw [if_neg hle]
          have : Nat.ble f.order (2 * s) = false := by
            cases hb : Nat.ble f.order (2 * s) with
            | false => rfl
            | true => exact absurd (Nat.le_of_ble_eq_true hb) hle
          rw [this]; rfl
      rw [hn] at h
      obtain ⟨h₁, h₂⟩ := ih _ h
      refine ⟨fun i hi => ?_, by rw [GF.lfsrRun_succ]; exact h₂⟩
      cases i with
      | zero =>
        rw [GF.lfsrRun_zero]
        intro h1
        subst h1
        simp at hs
      | succ i => rw [GF.lfsrRun_succ]; exact h₁ i (by omega)

theorem orbitFree_gf8 : orbitFree 256 0x11D 254 2 = true := by decide +kernel

theorem orbitFree_gf16 : orbitFree 65536 0x1002D 65534 2 = true := by decide +kernel

/-- x has order MOD modulo P_w (41_field_tables.md R151). -/
theorem GF.orbit (f : GF) : (∀ i, 0 < i → i < f.mod → f.lfsrRun i 1 ≠ 1) ∧ f.lfsrRun f.mod 1 = 1 := by
  have h : (∀ i < f.mod - 1, f.lfsrRun i 2 ≠ 1) ∧ f.lfsrRun (f.mod - 1) 2 = 1 := by
    apply orbitFree_spec
    cases f
    · exact orbitFree_gf8
    · exact orbitFree_gf16
  have h2 : f.lfsrNext 1 = 2 := by cases f <;> decide
  have hp := f.mod_pos
  refine ⟨fun i hi hlt => ?_, ?_⟩
  · have := h.1 (i - 1) (by omega)
    rwa [← h2, ← GF.lfsrRun_succ, show i - 1 + 1 = i by omega] at this
  · have := h.2
    rwa [← h2, ← GF.lfsrRun_succ, show f.mod - 1 + 1 = f.mod by omega] at this

theorem GF.one_lt_order (f : GF) : 1 < f.order := by cases f <;> decide

theorem GF.lfsrRun_one_injective (f : GF) (i j : Nat) (hi : i < f.mod) (hj : j < f.mod)
    (h : f.lfsrRun i 1 = f.lfsrRun j 1) : i = j := by
  have key : ∀ i j, i < j → j < f.mod → f.lfsrRun i 1 ≠ f.lfsrRun j 1 := by
    intro i j hij hj h
    have e : f.lfsrRun j 1 = f.lfsrRun i (f.lfsrRun (j - i) 1) := by
      rw [← GF.lfsrRun_add, show i + (j - i) = j by omega]
    rw [e] at h
    have := f.lfsrRun_injective i _ _ f.one_lt_order (f.lfsrRun_lt _ _ f.one_lt_order) h
    exact f.orbit.1 (j - i) (by omega) (by omega) this.symm
  rcases Nat.lt_trichotomy i j with hlt | heq | hgt
  · exact absurd h (key i j hlt hj)
  · exact heq
  · exact absurd h.symm (key j i hgt hi)

/-- Every nonzero polynomial-basis element is a power of x. -/
theorem GF.lfsrRun_surjective (f : GF) (p : Nat) (h0 : p ≠ 0) (hp : p < f.order) :
    ∃ i < f.mod, f.lfsrRun i 1 = p := by
  have hinj : Set.InjOn (fun i => f.lfsrRun i 1) (Finset.range f.mod : Set Nat) := by
    intro i hi j hj h
    exact f.lfsrRun_one_injective i j (by simpa using hi) (by simpa using hj) h
  have hcard : ((Finset.range f.mod).image fun i => f.lfsrRun i 1).card = f.mod := by
    rw [Finset.card_image_of_injOn hinj, Finset.card_range]
  have hsub : ((Finset.range f.mod).image fun i => f.lfsrRun i 1) ⊆ Finset.Ico 1 f.order := by
    intro x hx
    obtain ⟨i, _, rfl⟩ := Finset.mem_image.1 hx
    have h1 := f.lfsrRun_lt i 1 f.one_lt_order
    have h2 := f.lfsrRun_ne_zero i 1 one_ne_zero
    exact Finset.mem_Ico.2 ⟨by omega, h1⟩
  have heq := Finset.eq_of_subset_of_card_le hsub (by
    rw [hcard, Nat.card_Ico]; have := f.mod_eq; omega)
  have hmem : p ∈ Finset.Ico 1 f.order := Finset.mem_Ico.2 ⟨by omega, hp⟩
  rw [← heq] at hmem
  obtain ⟨i, hi, h⟩ := Finset.mem_image.1 hmem
  exact ⟨i, by simpa using hi, h⟩

theorem GF.lfsrRun_mod (f : GF) (s : Nat) (hs : s < f.order) : f.lfsrRun f.mod s = s := by
  by_cases h0 : s = 0
  · subst h0; exact f.lfsrRun_base _
  · obtain ⟨i, _, rfl⟩ := f.lfsrRun_surjective s h0 hs
    rw [← GF.lfsrRun_add, Nat.add_comm, GF.lfsrRun_add, f.orbit.2]

/-! The discrete log. -/

theorem GF.lfsrFind_spec (f : GF) (p left : Nat) (s : Nat) (i : Nat) (hl : left ≤ f.mod)
    (hi : i < left) (hp : f.lfsrRun i s = p) (hfirst : ∀ j < i, f.lfsrRun j s ≠ p) :
    f.lfsrFind p left s = f.mod - left + i := by
  induction left generalizing s i with
  | zero => omega
  | succ left ih =>
    simp only [GF.lfsrFind, force_eq]
    cases i with
    | zero =>
      rw [GF.lfsrRun_zero] at hp
      rw [if_pos hp]; rfl
    | succ i =>
      have h0 : s ≠ p := hfirst 0 (by omega)
      rw [if_neg h0, ih (f.lfsrNext s) i (by omega) (by omega) (by rw [← GF.lfsrRun_succ]; exact hp)
        (fun j hj => by rw [← GF.lfsrRun_succ]; exact hfirst (j + 1) (by omega))]
      omega

theorem GF.lfsr_spec (f : GF) (p : Nat) (h0 : p ≠ 0) (hp : p < f.order) :
    f.lfsr p < f.mod ∧ f.lfsrRun (f.lfsr p) 1 = p := by
  obtain ⟨i, hi, h⟩ := f.lfsrRun_surjective p h0 hp
  have : f.lfsr p = i := by
    rw [GF.lfsr, if_neg h0, f.lfsrFind_spec p f.mod 1 i le_rfl hi h ?_]
    · omega
    · intro j hj hjp
      exact absurd (f.lfsrRun_one_injective j i (by omega) hi (hjp.trans h.symm)) (by omega)
  rw [this]; exact ⟨hi, h⟩

theorem GF.lfsr_run (f : GF) (i : Nat) (hi : i < f.mod) : f.lfsr (f.lfsrRun i 1) = i := by
  have h0 := f.lfsrRun_ne_zero i 1 one_ne_zero
  have hl := f.lfsr_spec _ h0 (f.lfsrRun_lt i 1 f.one_lt_order)
  exact f.lfsrRun_one_injective _ _ hl.1 hi hl.2

/-! LOG and EXP (41_field_tables.md R155). -/

theorem GF.log_eq (f : GF) (v : Nat) : f.log v = f.lfsr (f.cant v) := by
  rw [GF.log, force_eq]

theorem GF.exp_eq (f : GF) (i : Nat) : f.exp i = f.uncant (f.lfsrRun (if i = f.mod then 0 else i) 1) := by
  rw [GF.exp, force_eq]

/-- EXP_w[i] for every i ≤ MOD is the element of x^i. -/
theorem GF.exp_run (f : GF) (i : Nat) : f.exp i = f.uncant (f.lfsrRun i 1) := by
  rw [GF.exp_eq]
  split
  · rename_i h; subst h; rw [f.orbit.2]; rfl
  · rfl

theorem GF.log_zero (f : GF) : f.log 0 = f.mod := by
  rw [GF.log_eq, GF.cant_zero]; rfl

theorem GF.log_lt (f : GF) (v : Nat) (h : v < f.order) (h0 : v ≠ 0) : f.log v < f.mod := by
  rw [GF.log_eq]
  exact (f.lfsr_spec _ (f.cant_ne_zero v h h0) (f.cant_lt v)).1

theorem GF.log_le (f : GF) (v : Nat) (h : v < f.order) : f.log v ≤ f.mod := by
  by_cases h0 : v = 0
  · subst h0; exact le_of_eq f.log_zero
  · exact (f.log_lt v h h0).le

theorem GF.exp_lt (f : GF) (i : Nat) : f.exp i < f.order := by
  rw [GF.exp_run]; exact f.uncant_lt _

theorem GF.cant_exp (f : GF) (i : Nat) : f.cant (f.exp i) = f.lfsrRun i 1 := by
  rw [GF.exp_run, f.cant_uncant _ (f.lfsrRun_lt i 1 f.one_lt_order)]

theorem GF.run_log (f : GF) (v : Nat) (h : v < f.order) (h0 : v ≠ 0) :
    f.lfsrRun (f.log v) 1 = f.cant v := by
  rw [GF.log_eq]
  exact (f.lfsr_spec _ (f.cant_ne_zero v h h0) (f.cant_lt v)).2

/-! Multiplication (41_field_tables.md R156). -/

theorem GF.addmod_run (f : GF) (a b s : Nat) (hs : s < f.order) :
    f.lfsrRun (f.addmod a b) s = f.lfsrRun (a + b) s := by
  unfold GF.addmod
  split
  · rfl
  · rename_i h
    have e : a + b = (a + b - f.mod) + f.mod := by omega
    conv_rhs => rw [e, GF.lfsrRun_add, f.lfsrRun_mod s hs]

/-- mulLog is `l` turns of the shift register on the polynomial-basis element. -/
theorem GF.mulLog_run (f : GF) (a l : Nat) (ha : a < f.order) :
    f.mulLog a l = f.uncant (f.lfsrRun l (f.cant a)) := by
  unfold GF.mulLog
  split
  · rename_i h; subst h; rw [f.cant_zero, f.lfsrRun_base, f.uncant_zero]
  · rename_i h
    rw [GF.exp_run, f.addmod_run _ _ _ f.one_lt_order, Nat.add_comm, GF.lfsrRun_add, f.run_log a ha h]

theorem GF.mulLog_lt (f : GF) (a l : Nat) : f.mulLog a l < f.order := by
  unfold GF.mulLog
  split
  · have := f.two_le_order; omega
  · exact f.exp_lt _

theorem GF.mulLog_zero (f : GF) (l : Nat) : f.mulLog 0 l = 0 := by simp [GF.mulLog]

theorem GF.mulLog_xor (f : GF) (a b l : Nat) (ha : a < f.order) (hb : b < f.order) :
    f.mulLog (a ^^^ b) l = f.mulLog a l ^^^ f.mulLog b l := by
  rw [f.mulLog_run _ _ (f.xor_lt a b ha hb), f.mulLog_run a l ha, f.mulLog_run b l hb, f.cant_xor,
    f.lfsrRun_xor _ _ _ (f.cant_lt a) (f.cant_lt b), f.uncant_xor]

/-- Multiplication of polynomial-basis elements modulo P_w, over the low `n` bits of the second one. -/
def GF.polyMul (f : GF) : Nat → Nat → Nat → Nat
  | 0, _, _ => 0
  | n + 1, p, q => (if q % 2 = 1 then p else 0) ^^^ GF.polyMul f n (f.lfsrNext p) (q / 2)

theorem GF.polyMul_run (f : GF) (n i p q : Nat) (hp : p < f.order) :
    f.polyMul n (f.lfsrRun i p) q = f.lfsrRun i (f.polyMul n p q) ∧ f.polyMul n p q < f.order := by
  induction n generalizing p q with
  | zero => exact ⟨(f.lfsrRun_base i).symm, by have := f.two_le_order; simp [GF.polyMul]; omega⟩
  | succ n ih =>
    have ih' := ih (f.lfsrNext p) (q / 2) (f.lfsrNext_lt p hp)
    have hz : (if q % 2 = 1 then p else 0) < f.order := by
      split
      · exact hp
      · have := f.two_le_order; omega
    constructor
    · simp only [GF.polyMul]
      rw [f.lfsrRun_xor _ _ _ hz ih'.2, ← ih'.1, ← GF.lfsrRun_succ', GF.lfsrRun_succ]
      congr 1
      split
      · rfl
      · exact (f.lfsrRun_base i).symm
    · exact f.xor_lt _ _ hz ih'.2

theorem GF.polyMul_one (f : GF) (k n q : Nat) (hk : k + n ≤ f.width) (hq : q < 2 ^ n) :
    f.polyMul n (2 ^ k) q = 2 ^ k * q := by
  induction n generalizing k q with
  | zero => simp at hq; subst hq; rfl
  | succ n ih =>
    have h := xorSelect_powersFrom k (n + 1) q hq
    have hnext : n = 0 ∨ f.lfsrNext (2 ^ k) = 2 ^ (k + 1) := by
      rcases Nat.eq_zero_or_pos n with h0 | h0
      · exact .inl h0
      · right
        unfold GF.lfsrNext
        have : 2 * 2 ^ k < f.order := by
          rw [GF.order_eq, ← Nat.pow_succ']
          exact Nat.pow_lt_pow_right (by decide) (by omega)
        rw [if_neg (by omega), Nat.pow_succ']
    have hq2 : q / 2 < 2 ^ n := by omega
    rw [← h]
    simp only [GF.polyMul, powersFrom, xorSelect]
    congr 1
    rw [xorSelect_powersFrom (k + 1) n (q / 2) hq2]
    rcases hnext with h0 | h1
    · subst h0
      simp at hq2
      simp [GF.polyMul]; omega
    · rw [h1, ih (k + 1) (q / 2) (by omega) hq2]

/-- Field multiplication is polynomial multiplication modulo P_w under the Cantor map. -/
theorem GF.mul_poly (f : GF) (a b : Nat) (ha : a < f.order) (hb : b < f.order) :
    f.mul a b = f.uncant (f.polyMul f.width (f.cant a) (f.cant b)) := by
  by_cases h0 : a = 0
  · subst h0
    have := (f.polyMul_run f.width 1 0 (f.cant b) (by have := f.two_le_order; omega))
    have hz : ∀ n q, f.polyMul n 0 q = 0 := by
      intro n
      induction n with
      | zero => intro q; rfl
      | succ n ih => intro q; simp [GF.polyMul, f.lfsrNext_zero, ih]
    simp [GF.mul, f.cant_zero, hz, f.uncant_zero]
  by_cases h1 : b = 0
  · subst h1
    have hz : ∀ n p, f.polyMul n p 0 = 0 := by
      intro n
      induction n with
      | zero => intro q; rfl
      | succ n ih => intro q; simp [GF.polyMul, ih]
    simp [GF.mul, f.cant_zero, hz, f.uncant_zero]
  rw [GF.mul, if_neg (by simp [h0, h1]), GF.exp_run, f.addmod_run _ _ _ f.one_lt_order, GF.lfsrRun_add,
    f.run_log b hb h1, ← f.run_log a ha h0]
  congr 1
  have h := (f.polyMul_run f.width (f.log a) 1 (f.cant b) f.one_lt_order).1
  rw [h]
  have h2 := f.polyMul_one 0 f.width (f.cant b) (by omega) (by
    have := f.cant_lt b; rwa [GF.order_eq] at this)
  simp at h2
  rw [h2]

theorem GF.exp_ne_zero (f : GF) (i : Nat) : f.exp i ≠ 0 := by
  intro h
  have := f.cant_exp i
  rw [h, f.cant_zero] at this
  exact f.lfsrRun_ne_zero i 1 one_ne_zero this.symm

end Sys2Proof
end

