-- ==== Sys2Proof/Laws/Rows.lean ====
section
/-! SUPPORT. Rows of field elements: their lengths and bounds under every row operation, and the two directions
between bytes and elements (20_memory.md R83 to R86). -/

namespace Sys2Proof

/-- Every element of a row is below 2^w. -/
def GF.Bounded (f : GF) (r : Row) : Prop :=
  ∀ e ∈ r, e < f.order

@[simp] theorem GF.length_mulRow (f : GF) (l : Nat) (b : Row) : (f.mulRow l b).length = b.length := by
  simp [GF.mulRow]

theorem GF.bounded_mulRow (f : GF) (l : Nat) (b : Row) : f.Bounded (f.mulRow l b) := by
  intro e he
  obtain ⟨x, _, rfl⟩ := List.mem_map.1 he
  exact f.mulLog_lt x l

@[simp] theorem GF.length_mulAddRow (f : GF) (l : Nat) (x y : Row) :
    (f.mulAddRow l x y).length = min x.length y.length := by
  simp [GF.mulAddRow]

@[simp] theorem length_xorRow (x y : Row) : (xorRow x y).length = min x.length y.length := by
  simp [xorRow]

theorem mem_zipWith {α β γ : Type} (g : α → β → γ) (x : List α) (y : List β) (e : γ)
    (h : e ∈ List.zipWith g x y) : ∃ a ∈ x, ∃ b ∈ y, e = g a b := by
  induction x generalizing y with
  | nil => simp at h
  | cons a x ih =>
    cases y with
    | nil => simp at h
    | cons b y =>
      rcases List.mem_cons.1 h with rfl | h
      · exact ⟨a, by simp, b, by simp, rfl⟩
      · obtain ⟨a', ha, b', hb, rfl⟩ := ih y h
        exact ⟨a', by simp [ha], b', by simp [hb], rfl⟩

theorem GF.bounded_mulAddRow (f : GF) (l : Nat) (x y : Row) (hx : f.Bounded x) :
    f.Bounded (f.mulAddRow l x y) := by
  intro e he
  obtain ⟨a, ha, b, _, rfl⟩ := mem_zipWith _ _ _ _ he
  exact f.xor_lt _ _ (hx a ha) (f.mulLog_lt b l)

theorem GF.bounded_xorRow (f : GF) (x y : Row) (hx : f.Bounded x) (hy : f.Bounded y) :
    f.Bounded (xorRow x y) := by
  intro e he
  obtain ⟨a, ha, b, hb, rfl⟩ := mem_zipWith _ _ _ _ he
  exact f.xor_lt _ _ (hx a ha) (hy b hb)

theorem GF.fft2_length (f : GF) (lo hi : Row) (t n : Nat) (hl : lo.length = n) (hh : hi.length = n) :
    (f.fft2 lo hi t).1.length = n ∧ (f.fft2 lo hi t).2.length = n := by
  unfold GF.fft2
  split <;> simp [hl, hh]

theorem GF.ifft2_length (f : GF) (lo hi : Row) (t n : Nat) (hl : lo.length = n) (hh : hi.length = n) :
    (f.ifft2 lo hi t).1.length = n ∧ (f.ifft2 lo hi t).2.length = n := by
  unfold GF.ifft2
  split <;> simp [hl, hh]

theorem GF.fft2_bounded (f : GF) (lo hi : Row) (t : Nat) (hl : f.Bounded lo) (hh : f.Bounded hi) :
    f.Bounded (f.fft2 lo hi t).1 ∧ f.Bounded (f.fft2 lo hi t).2 := by
  unfold GF.fft2
  split
  · exact ⟨hl, f.bounded_xorRow _ _ hh hl⟩
  · exact ⟨f.bounded_mulAddRow _ _ _ hl, f.bounded_xorRow _ _ hh (f.bounded_mulAddRow _ _ _ hl)⟩

theorem GF.ifft2_bounded (f : GF) (lo hi : Row) (t : Nat) (hl : f.Bounded lo) (hh : f.Bounded hi) :
    f.Bounded (f.ifft2 lo hi t).1 ∧ f.Bounded (f.ifft2 lo hi t).2 := by
  unfold GF.ifft2
  have hx := f.bounded_xorRow _ _ hh hl
  split
  · exact ⟨hl, hx⟩
  · exact ⟨f.bounded_mulAddRow _ _ _ hl, hx⟩

/-- A row XORed twice with the same row is itself. -/
theorem xorRow_cancel (x y : Row) (h : x.length = y.length) : xorRow (xorRow x y) y = x := by
  unfold xorRow
  apply List.ext_getElem
  · simp [h]
  · intro i h₁ h₂
    simp

theorem xorRow_comm (x y : Row) : xorRow x y = xorRow y x := by
  unfold xorRow
  apply List.ext_getElem
  · simp [Nat.min_comm]
  · intro i h₁ h₂
    simp [Nat.xor_comm]

/-- A row that has the same multiple added twice is itself. -/
theorem GF.mulAddRow_cancel (f : GF) (l : Nat) (x y : Row) (h : x.length = y.length) :
    f.mulAddRow l (f.mulAddRow l x y) y = x := by
  unfold GF.mulAddRow
  apply List.ext_getElem
  · simp [h]
  · intro i h₁ h₂
    simp

/-- Multiplying a sum of rows (41_field_tables.md R158). -/
theorem GF.mulRow_xorRow (f : GF) (l : Nat) (x y : Row) (hx : f.Bounded x) (hy : f.Bounded y) :
    f.mulRow l (xorRow x y) = xorRow (f.mulRow l x) (f.mulRow l y) := by
  unfold GF.mulRow xorRow
  apply List.ext_getElem
  · simp
  · intro i h₁ h₂
    simp only [List.length_map, List.length_zipWith, lt_min_iff] at h₁
    simp only [List.getElem_map, List.getElem_zipWith]
    exact f.mulLog_xor _ _ _ (hx _ (List.getElem_mem h₁.1)) (hy _ (List.getElem_mem h₁.2))

namespace Machine

/-! Bytes and elements. -/

theorem byte_join_split (e : Nat) (h : e < 65536) :
    ((BitVec.ofNat 8 e).toNat ||| (BitVec.ofNat 8 (e >>> 8)).toNat <<< 8) = e := by
  simp only [BitVec.toNat_ofNat]
  rw [Nat.or_comm, ← Nat.shiftLeft_add_eq_or_of_lt (Nat.mod_lt e (by decide))]
  rw [Nat.shiftLeft_eq, Nat.shiftRight_eq_div_pow]
  omega

theorem byte_split_join (lo hi : Byte) :
    BitVec.ofNat 8 (lo.toNat ||| hi.toNat <<< 8) = lo
      ∧ BitVec.ofNat 8 ((lo.toNat ||| hi.toNat <<< 8) >>> 8) = hi := by
  have h : lo.toNat ||| hi.toNat <<< 8 = hi.toNat * 256 + lo.toNat := by
    rw [Nat.or_comm, ← Nat.shiftLeft_add_eq_or_of_lt (by simpa using lo.isLt), Nat.shiftLeft_eq]
  rw [h, Nat.shiftRight_eq_div_pow]
  have hl := lo.isLt
  have hh := hi.isLt
  constructor
  · apply BitVec.eq_of_toNat_eq; simp; omega
  · apply BitVec.eq_of_toNat_eq; simp; omega

theorem byte_join_lt (lo hi : Byte) : lo.toNat ||| hi.toNat <<< 8 < 65536 := by
  rw [Nat.or_comm, ← Nat.shiftLeft_add_eq_or_of_lt (by simpa using lo.isLt), Nat.shiftLeft_eq]
  have hl := lo.isLt
  have hh := hi.isLt
  omega

theorem length_split64Elems (c : Nat) (bs : List Byte) (h : bs.length = 64 * c) :
    (split64Elems c bs).length = 32 * c := by
  induction c generalizing bs with
  | zero => rfl
  | succ c ih =>
    simp only [split64Elems, List.length_append, List.length_zipWith, List.length_take, List.length_drop]
    rw [ih _ (by simp; omega)]; omega

theorem length_split64Bytes (c : Nat) (es : Row) (h : es.length = 32 * c) :
    (split64Bytes c es).length = 64 * c := by
  induction c generalizing es with
  | zero => rfl
  | succ c ih =>
    simp only [split64Bytes, List.length_append, List.length_map, List.length_take]
    rw [ih _ (by simp; omega)]; omega

theorem split64Bytes_split64Elems (c : Nat) (bs : List Byte) (h : bs.length = 64 * c) :
    split64Bytes c (split64Elems c bs) = bs := by
  induction c generalizing bs with
  | zero =>
    have : bs = [] := List.eq_nil_of_length_eq_zero (by omega)
    subst this; rfl
  | succ c ih =>
    have hlen : (List.zipWith (fun lo hi : Byte => lo.toNat ||| hi.toNat <<< 8) (bs.take 32)
        ((bs.drop 32).take 32)).length = 32 := by simp; omega
    simp only [split64Elems, split64Bytes]
    rw [List.take_left' hlen, List.drop_left' hlen, ih _ (by simp; omega)]
    have h₁ : (List.zipWith (fun lo hi : Byte => lo.toNat ||| hi.toNat <<< 8) (bs.take 32)
        ((bs.drop 32).take 32)).map (BitVec.ofNat 8) = bs.take 32 := by
      apply List.ext_getElem
      · simp; omega
      · intro i h₁ h₂
        simp only [List.getElem_map, List.getElem_zipWith]
        exact (byte_split_join _ _).1
    have h₂ : (List.zipWith (fun lo hi : Byte => lo.toNat ||| hi.toNat <<< 8) (bs.take 32)
        ((bs.drop 32).take 32)).map (fun e => BitVec.ofNat 8 (e >>> 8)) = (bs.drop 32).take 32 := by
      apply List.ext_getElem
      · simp
      · intro i h₁ h₂
        simp only [List.getElem_map, List.getElem_zipWith]
        exact (byte_split_join _ _).2
    rw [h₁, h₂, show bs.drop 64 = (bs.drop 32).drop 32 by rw [List.drop_drop], List.append_assoc,
      List.take_append_drop, List.take_append_drop]

theorem split64Elems_split64Bytes (c : Nat) (es : Row) (h : es.length = 32 * c)
    (hb : ∀ e ∈ es, e < 65536) : split64Elems c (split64Bytes c es) = es := by
  induction c generalizing es with
  | zero =>
    have : es = [] := List.eq_nil_of_length_eq_zero (by omega)
    subst this; rfl
  | succ c ih =>
    have h₁ : ((es.take 32).map (BitVec.ofNat 8)).length = 32 := by simp; omega
    have h₂ : ((es.take 32).map fun e => BitVec.ofNat 8 (e >>> 8)).length = 32 := by simp; omega
    simp only [split64Elems, split64Bytes, List.append_assoc]
    rw [List.take_left' h₁, List.drop_left' h₁, List.take_left' h₂]
    have hd : (List.map (BitVec.ofNat 8) (es.take 32) ++
        (List.map (fun e => BitVec.ofNat 8 (e >>> 8)) (es.take 32) ++ split64Bytes c (es.drop 32))).drop 64
        = split64Bytes c (es.drop 32) := by
      rw [← List.append_assoc, List.drop_left' (by simp; omega)]
    rw [hd, ih _ (by simp; omega) fun e he => hb e (List.mem_of_mem_drop he)]
    have hz : List.zipWith (fun lo hi : Byte => lo.toNat ||| hi.toNat <<< 8)
        (List.map (BitVec.ofNat 8) (es.take 32))
        (List.map (fun e => BitVec.ofNat 8 (e >>> 8)) (es.take 32)) = es.take 32 := by
      apply List.ext_getElem
      · simp
      · intro i h₁ h₂
        simp only [List.getElem_map, List.getElem_zipWith]
        exact byte_join_split _ (hb _ (List.mem_of_mem_take (List.getElem_mem h₂)))
    rw [hz, List.take_append_drop]

theorem length_le16Elems (n : Nat) (bs : List Byte) : (le16Elems n bs).length = n := by
  induction n generalizing bs with
  | zero => rfl
  | succ n ih => simp [le16Elems, ih]

theorem length_le16Bytes (es : Row) : (le16Bytes es).length = 2 * es.length := by
  induction es with
  | nil => rfl
  | cons e es ih => simp only [le16Bytes, List.flatMap_cons, List.length_append] at *; simp; omega

theorem le16Bytes_le16Elems (n : Nat) (bs : List Byte) (h : bs.length = 2 * n) :
    le16Bytes (le16Elems n bs) = bs := by
  induction n generalizing bs with
  | zero =>
    have : bs = [] := List.eq_nil_of_length_eq_zero (by omega)
    subst this; rfl
  | succ n ih =>
    match bs, h with
    | b0 :: b1 :: rest, h =>
      have := ih rest (by simp at h; omega)
      simp only [le16Elems, le16Bytes, List.flatMap_cons, List.getD_cons_zero, List.getD_cons_succ,
        List.drop_succ_cons, List.drop_zero] at *
      rw [this, (byte_split_join b0 b1).1, (byte_split_join b0 b1).2]; rfl

theorem le16Elems_le16Bytes (es : Row) (hb : ∀ e ∈ es, e < 65536) :
    le16Elems es.length (le16Bytes es) = es := by
  induction es with
  | nil => rfl
  | cons e es ih =>
    have := ih fun x hx => hb x (by simp [hx])
    simp only [le16Bytes, List.flatMap_cons, List.length_cons, le16Elems] at *
    simp only [List.cons_append, List.nil_append, List.getD_cons_zero, List.getD_cons_succ,
      List.drop_succ_cons, List.drop_zero]
    rw [this, byte_join_split e (hb e (by simp))]

/-- Every element that bytes hold is below 2^w. -/
theorem bounded_elemsOfBytes (f : GF) (layout : Elem16Layout) (bs : List Byte) :
    f.Bounded (elemsOfBytes f layout bs) := by
  intro e he
  cases f with
  | gf8 =>
    obtain ⟨b, _, rfl⟩ := List.mem_map.1 he
    exact b.isLt
  | gf16 =>
    cases layout with
    | split64 =>
      simp only [elemsOfBytes] at he
      suffices H : ∀ c (bs : List Byte), ∀ e ∈ split64Elems c bs, e < 65536 from H _ _ e he
      intro c
      induction c with
      | zero => intro bs e he; simp [split64Elems] at he
      | succ c ih =>
        intro bs e he
        rcases List.mem_append.1 he with he | he
        · obtain ⟨a, _, b, _, rfl⟩ := mem_zipWith _ _ _ _ he
          exact byte_join_lt a b
        · exact ih _ e he
    | le16 =>
      simp only [elemsOfBytes] at he
      suffices H : ∀ n (bs : List Byte), ∀ e ∈ le16Elems n bs, e < 65536 from H _ _ e he
      intro n
      induction n with
      | zero => intro bs e he; simp [le16Elems] at he
      | succ n ih =>
        intro bs e he
        rcases List.mem_cons.1 he with rfl | he
        · exact byte_join_lt _ _
        · exact ih _ e he

/-- The number of elements that aligned bytes hold (42_kernels.md R191). -/
theorem length_elemsOfBytes (f : GF) (layout : Elem16Layout) (bs : List Byte)
    (h : lenAligned f layout bs.length = true) :
    (elemsOfBytes f layout bs).length = elemCount f bs.length := by
  cases f with
  | gf8 => simp [elemsOfBytes, elemCount]
  | gf16 =>
    cases layout with
    | split64 =>
      simp only [lenAligned, decide_eq_true_eq] at h
      simp only [elemsOfBytes, elemCount]
      rw [length_split64Elems _ _ (by omega)]; omega
    | le16 => simp [elemsOfBytes, elemCount, length_le16Elems]

/-- Aligned bytes are the bytes of the elements they hold. -/
theorem bytesOfElems_elemsOfBytes (f : GF) (layout : Elem16Layout) (bs : List Byte)
    (h : lenAligned f layout bs.length = true) :
    bytesOfElems f layout (elemsOfBytes f layout bs) = bs := by
  cases f with
  | gf8 =>
    simp only [elemsOfBytes, bytesOfElems, List.map_map]
    conv_rhs => rw [← List.map_id bs]
    exact List.map_congr_left fun b _ => by simp
  | gf16 =>
    cases layout with
    | split64 =>
      simp only [lenAligned, decide_eq_true_eq] at h
      simp only [elemsOfBytes, bytesOfElems]
      have hl := length_split64Elems (bs.length / 64) bs (by omega)
      rw [hl, show 32 * (bs.length / 64) / 32 = bs.length / 64 by omega]
      exact split64Bytes_split64Elems _ _ (by omega)
    | le16 =>
      simp only [lenAligned, decide_eq_true_eq] at h
      exact le16Bytes_le16Elems _ _ (by omega)

/-- A row of `elemCount f len` elements for an aligned length takes `len` bytes. -/
theorem length_bytesOfElems (f : GF) (layout : Elem16Layout) (es : Row) (len : Nat)
    (h : lenAligned f layout len = true) (hl : es.length = elemCount f len) :
    (bytesOfElems f layout es).length = len := by
  cases f with
  | gf8 => simpa [bytesOfElems, elemCount] using hl
  | gf16 =>
    cases layout with
    | split64 =>
      simp only [lenAligned, decide_eq_true_eq] at h
      simp only [elemCount] at hl
      simp only [bytesOfElems]
      rw [length_split64Bytes _ _ (by omega)]; omega
    | le16 =>
      simp only [lenAligned, decide_eq_true_eq] at h
      simp only [elemCount] at hl
      simp only [bytesOfElems]
      rw [length_le16Bytes]; omega

/-- The elements of the bytes of a row are the row. -/
theorem elemsOfBytes_bytesOfElems (f : GF) (layout : Elem16Layout) (es : Row) (len : Nat)
    (h : lenAligned f layout len = true) (hl : es.length = elemCount f len) (hb : f.Bounded es) :
    elemsOfBytes f layout (bytesOfElems f layout es) = es := by
  have hlen := length_bytesOfElems f layout es len h hl
  cases f with
  | gf8 =>
    simp only [elemsOfBytes, bytesOfElems, List.map_map]
    conv_rhs => rw [← List.map_id es]
    exact List.map_congr_left fun e he => by
      have := hb e he
      simp only [GF.order] at this
      simp [Nat.mod_eq_of_lt this]
  | gf16 =>
    cases layout with
    | split64 =>
      simp only [lenAligned, decide_eq_true_eq] at h
      simp only [elemCount] at hl
      simp only [elemsOfBytes, bytesOfElems] at hlen ⊢
      rw [hlen, show len / 64 = es.length / 32 by omega]
      exact split64Elems_split64Bytes _ _ (by omega) hb
    | le16 =>
      simp only [lenAligned, decide_eq_true_eq] at h
      simp only [elemCount] at hl
      simp only [elemsOfBytes, bytesOfElems] at hlen ⊢
      rw [hlen, show len / 2 = es.length by omega]
      exact le16Elems_le16Bytes _ hb

end Machine

end Sys2Proof
end

