-- ==== Sys2Proof/Laws/State.lean ====
section
/-! SUPPORT. One lemma per field per update of the state, and completion as a whole. -/

namespace Sys2Proof.Machine

@[simp] theorem State.setSlen_params (s : State) (i : Nat) (v : Word) :
    (s.setSlen i v).params = s.params := rfl
@[simp] theorem State.setSlen_ctrl (s : State) (i : Nat) (v : Word) : (s.setSlen i v).ctrl = s.ctrl := rfl
@[simp] theorem State.setSlen_status (s : State) (i : Nat) (v : Word) :
    (s.setSlen i v).status = s.status := rfl
@[simp] theorem State.setSlen_seq (s : State) (i : Nat) (v : Word) : (s.setSlen i v).seq = s.seq := rfl
@[simp] theorem State.setSlen_parIoLatch (s : State) (i : Nat) (v : Word) :
    (s.setSlen i v).parIoLatch = s.parIoLatch := rfl
@[simp] theorem State.setSlen_errStream (s : State) (i : Nat) (v : Word) :
    (s.setSlen i v).errStream = s.errStream := rfl
@[simp] theorem State.setSlen_errInner (s : State) (i : Nat) (v : Word) :
    (s.setSlen i v).errInner = s.errInner := rfl
@[simp] theorem State.setSlen_result (s : State) (i : Nat) (v : Word) :
    (s.setSlen i v).result = s.result := rfl
@[simp] theorem State.setSlen_cfg (s : State) (i : Nat) (v : Word) : (s.setSlen i v).cfg = s.cfg := rfl
@[simp] theorem State.setSlen_geo (s : State) (i : Nat) (v : Word) : (s.setSlen i v).geo = s.geo := rfl
@[simp] theorem State.setSlen_dlen (s : State) (i : Nat) (v : Word) : (s.setSlen i v).dlen = s.dlen := rfl
@[simp] theorem State.setSlen_args (s : State) (i : Nat) (v : Word) : (s.setSlen i v).args = s.args := rfl
@[simp] theorem State.setSlen_slen (s : State) (i : Nat) (v : Word) :
    (s.setSlen i v).slen = tableSet 0 i v s.slen := rfl
@[simp] theorem State.setSlen_slots (s : State) (i : Nat) (v : Word) : (s.setSlen i v).slots = s.slots := rfl
@[simp] theorem State.setSlen_dbuf (s : State) (i : Nat) (v : Word) : (s.setSlen i v).dbuf = s.dbuf := rfl
@[simp] theorem State.setSlen_work (s : State) (i : Nat) (v : Word) : (s.setSlen i v).work = s.work := rfl
@[simp] theorem State.setSlen_stg (s : State) (i : Nat) (v : Word) : (s.setSlen i v).stg = s.stg := rfl
@[simp] theorem State.setSlen_inPorts (s : State) (i : Nat) (v : Word) :
    (s.setSlen i v).inPorts = s.inPorts := rfl
@[simp] theorem State.setSlen_outPorts (s : State) (i : Nat) (v : Word) :
    (s.setSlen i v).outPorts = s.outPorts := rfl
@[simp] theorem State.setSlen_job (s : State) (i : Nat) (v : Word) : (s.setSlen i v).job = s.job := rfl
@[simp] theorem State.setSlen_draws (s : State) (i : Nat) (v : Word) : (s.setSlen i v).draws = s.draws := rfl
@[simp] theorem State.setSlen_inputs (s : State) (i : Nat) (v : Word) :
    (s.setSlen i v).inputs = s.inputs := rfl
@[simp] theorem State.setSlen_readValue (s : State) (i : Nat) (v : Word) :
    (s.setSlen i v).readValue = s.readValue := rfl

@[simp] theorem State.setSlotBytes_params (s : State) (i : Nat) (bs : List Byte) :
    (s.setSlotBytes i bs).params = s.params := rfl
@[simp] theorem State.setSlotBytes_ctrl (s : State) (i : Nat) (bs : List Byte) :
    (s.setSlotBytes i bs).ctrl = s.ctrl := rfl
@[simp] theorem State.setSlotBytes_status (s : State) (i : Nat) (bs : List Byte) :
    (s.setSlotBytes i bs).status = s.status := rfl
@[simp] theorem State.setSlotBytes_seq (s : State) (i : Nat) (bs : List Byte) :
    (s.setSlotBytes i bs).seq = s.seq := rfl
@[simp] theorem State.setSlotBytes_parIoLatch (s : State) (i : Nat) (bs : List Byte) :
    (s.setSlotBytes i bs).parIoLatch = s.parIoLatch := rfl
@[simp] theorem State.setSlotBytes_errStream (s : State) (i : Nat) (bs : List Byte) :
    (s.setSlotBytes i bs).errStream = s.errStream := rfl
@[simp] theorem State.setSlotBytes_errInner (s : State) (i : Nat) (bs : List Byte) :
    (s.setSlotBytes i bs).errInner = s.errInner := rfl
@[simp] theorem State.setSlotBytes_result (s : State) (i : Nat) (bs : List Byte) :
    (s.setSlotBytes i bs).result = s.result := rfl
@[simp] theorem State.setSlotBytes_cfg (s : State) (i : Nat) (bs : List Byte) :
    (s.setSlotBytes i bs).cfg = s.cfg := rfl
@[simp] theorem State.setSlotBytes_geo (s : State) (i : Nat) (bs : List Byte) :
    (s.setSlotBytes i bs).geo = s.geo := rfl
@[simp] theorem State.setSlotBytes_dlen (s : State) (i : Nat) (bs : List Byte) :
    (s.setSlotBytes i bs).dlen = s.dlen := rfl
@[simp] theorem State.setSlotBytes_args (s : State) (i : Nat) (bs : List Byte) :
    (s.setSlotBytes i bs).args = s.args := rfl
@[simp] theorem State.setSlotBytes_slen (s : State) (i : Nat) (bs : List Byte) :
    (s.setSlotBytes i bs).slen = s.slen := rfl
@[simp] theorem State.setSlotBytes_slots (s : State) (i : Nat) (bs : List Byte) :
    (s.setSlotBytes i bs).slots = s.slots.writeBytes (s.slotAddr i) bs := rfl
@[simp] theorem State.setSlotBytes_dbuf (s : State) (i : Nat) (bs : List Byte) :
    (s.setSlotBytes i bs).dbuf = s.dbuf := rfl
@[simp] theorem State.setSlotBytes_work (s : State) (i : Nat) (bs : List Byte) :
    (s.setSlotBytes i bs).work = s.work := rfl
@[simp] theorem State.setSlotBytes_stg (s : State) (i : Nat) (bs : List Byte) :
    (s.setSlotBytes i bs).stg = s.stg := rfl
@[simp] theorem State.setSlotBytes_inPorts (s : State) (i : Nat) (bs : List Byte) :
    (s.setSlotBytes i bs).inPorts = s.inPorts := rfl
@[simp] theorem State.setSlotBytes_outPorts (s : State) (i : Nat) (bs : List Byte) :
    (s.setSlotBytes i bs).outPorts = s.outPorts := rfl
@[simp] theorem State.setSlotBytes_job (s : State) (i : Nat) (bs : List Byte) :
    (s.setSlotBytes i bs).job = s.job := rfl
@[simp] theorem State.setSlotBytes_draws (s : State) (i : Nat) (bs : List Byte) :
    (s.setSlotBytes i bs).draws = s.draws := rfl
@[simp] theorem State.setSlotBytes_inputs (s : State) (i : Nat) (bs : List Byte) :
    (s.setSlotBytes i bs).inputs = s.inputs := rfl
@[simp] theorem State.setSlotBytes_readValue (s : State) (i : Nat) (bs : List Byte) :
    (s.setSlotBytes i bs).readValue = s.readValue := rfl

@[simp] theorem State.setWorkBytes_params (s : State) (i : Nat) (bs : List Byte) :
    (s.setWorkBytes i bs).params = s.params := rfl
@[simp] theorem State.setWorkBytes_ctrl (s : State) (i : Nat) (bs : List Byte) :
    (s.setWorkBytes i bs).ctrl = s.ctrl := rfl
@[simp] theorem State.setWorkBytes_status (s : State) (i : Nat) (bs : List Byte) :
    (s.setWorkBytes i bs).status = s.status := rfl
@[simp] theorem State.setWorkBytes_seq (s : State) (i : Nat) (bs : List Byte) :
    (s.setWorkBytes i bs).seq = s.seq := rfl
@[simp] theorem State.setWorkBytes_parIoLatch (s : State) (i : Nat) (bs : List Byte) :
    (s.setWorkBytes i bs).parIoLatch = s.parIoLatch := rfl
@[simp] theorem State.setWorkBytes_errStream (s : State) (i : Nat) (bs : List Byte) :
    (s.setWorkBytes i bs).errStream = s.errStream := rfl
@[simp] theorem State.setWorkBytes_errInner (s : State) (i : Nat) (bs : List Byte) :
    (s.setWorkBytes i bs).errInner = s.errInner := rfl
@[simp] theorem State.setWorkBytes_result (s : State) (i : Nat) (bs : List Byte) :
    (s.setWorkBytes i bs).result = s.result := rfl
@[simp] theorem State.setWorkBytes_cfg (s : State) (i : Nat) (bs : List Byte) :
    (s.setWorkBytes i bs).cfg = s.cfg := rfl
@[simp] theorem State.setWorkBytes_geo (s : State) (i : Nat) (bs : List Byte) :
    (s.setWorkBytes i bs).geo = s.geo := rfl
@[simp] theorem State.setWorkBytes_dlen (s : State) (i : Nat) (bs : List Byte) :
    (s.setWorkBytes i bs).dlen = s.dlen := rfl
@[simp] theorem State.setWorkBytes_args (s : State) (i : Nat) (bs : List Byte) :
    (s.setWorkBytes i bs).args = s.args := rfl
@[simp] theorem State.setWorkBytes_slen (s : State) (i : Nat) (bs : List Byte) :
    (s.setWorkBytes i bs).slen = s.slen := rfl
@[simp] theorem State.setWorkBytes_slots (s : State) (i : Nat) (bs : List Byte) :
    (s.setWorkBytes i bs).slots = s.slots := rfl
@[simp] theorem State.setWorkBytes_dbuf (s : State) (i : Nat) (bs : List Byte) :
    (s.setWorkBytes i bs).dbuf = s.dbuf := rfl
@[simp] theorem State.setWorkBytes_work (s : State) (i : Nat) (bs : List Byte) :
    (s.setWorkBytes i bs).work = s.work.writeBytes (s.slotAddr i) bs := rfl
@[simp] theorem State.setWorkBytes_stg (s : State) (i : Nat) (bs : List Byte) :
    (s.setWorkBytes i bs).stg = s.stg := rfl
@[simp] theorem State.setWorkBytes_inPorts (s : State) (i : Nat) (bs : List Byte) :
    (s.setWorkBytes i bs).inPorts = s.inPorts := rfl
@[simp] theorem State.setWorkBytes_outPorts (s : State) (i : Nat) (bs : List Byte) :
    (s.setWorkBytes i bs).outPorts = s.outPorts := rfl
@[simp] theorem State.setWorkBytes_job (s : State) (i : Nat) (bs : List Byte) :
    (s.setWorkBytes i bs).job = s.job := rfl
@[simp] theorem State.setWorkBytes_draws (s : State) (i : Nat) (bs : List Byte) :
    (s.setWorkBytes i bs).draws = s.draws := rfl
@[simp] theorem State.setWorkBytes_inputs (s : State) (i : Nat) (bs : List Byte) :
    (s.setWorkBytes i bs).inputs = s.inputs := rfl
@[simp] theorem State.setWorkBytes_readValue (s : State) (i : Nat) (bs : List Byte) :
    (s.setWorkBytes i bs).readValue = s.readValue := rfl

@[simp] theorem State.setStgBytes_params (s : State) (i : Nat) (bs : List Byte) :
    (s.setStgBytes i bs).params = s.params := rfl
@[simp] theorem State.setStgBytes_ctrl (s : State) (i : Nat) (bs : List Byte) :
    (s.setStgBytes i bs).ctrl = s.ctrl := rfl
@[simp] theorem State.setStgBytes_status (s : State) (i : Nat) (bs : List Byte) :
    (s.setStgBytes i bs).status = s.status := rfl
@[simp] theorem State.setStgBytes_seq (s : State) (i : Nat) (bs : List Byte) :
    (s.setStgBytes i bs).seq = s.seq := rfl
@[simp] theorem State.setStgBytes_parIoLatch (s : State) (i : Nat) (bs : List Byte) :
    (s.setStgBytes i bs).parIoLatch = s.parIoLatch := rfl
@[simp] theorem State.setStgBytes_errStream (s : State) (i : Nat) (bs : List Byte) :
    (s.setStgBytes i bs).errStream = s.errStream := rfl
@[simp] theorem State.setStgBytes_errInner (s : State) (i : Nat) (bs : List Byte) :
    (s.setStgBytes i bs).errInner = s.errInner := rfl
@[simp] theorem State.setStgBytes_result (s : State) (i : Nat) (bs : List Byte) :
    (s.setStgBytes i bs).result = s.result := rfl
@[simp] theorem State.setStgBytes_cfg (s : State) (i : Nat) (bs : List Byte) :
    (s.setStgBytes i bs).cfg = s.cfg := rfl
@[simp] theorem State.setStgBytes_geo (s : State) (i : Nat) (bs : List Byte) :
    (s.setStgBytes i bs).geo = s.geo := rfl
@[simp] theorem State.setStgBytes_dlen (s : State) (i : Nat) (bs : List Byte) :
    (s.setStgBytes i bs).dlen = s.dlen := rfl
@[simp] theorem State.setStgBytes_args (s : State) (i : Nat) (bs : List Byte) :
    (s.setStgBytes i bs).args = s.args := rfl
@[simp] theorem State.setStgBytes_slen (s : State) (i : Nat) (bs : List Byte) :
    (s.setStgBytes i bs).slen = s.slen := rfl
@[simp] theorem State.setStgBytes_slots (s : State) (i : Nat) (bs : List Byte) :
    (s.setStgBytes i bs).slots = s.slots := rfl
@[simp] theorem State.setStgBytes_dbuf (s : State) (i : Nat) (bs : List Byte) :
    (s.setStgBytes i bs).dbuf = s.dbuf := rfl
@[simp] theorem State.setStgBytes_work (s : State) (i : Nat) (bs : List Byte) :
    (s.setStgBytes i bs).work = s.work := rfl
@[simp] theorem State.setStgBytes_stg (s : State) (i : Nat) (bs : List Byte) :
    (s.setStgBytes i bs).stg = s.stg.writeBytes (s.stgAddr i) bs := rfl
@[simp] theorem State.setStgBytes_inPorts (s : State) (i : Nat) (bs : List Byte) :
    (s.setStgBytes i bs).inPorts = s.inPorts := rfl
@[simp] theorem State.setStgBytes_outPorts (s : State) (i : Nat) (bs : List Byte) :
    (s.setStgBytes i bs).outPorts = s.outPorts := rfl
@[simp] theorem State.setStgBytes_job (s : State) (i : Nat) (bs : List Byte) :
    (s.setStgBytes i bs).job = s.job := rfl
@[simp] theorem State.setStgBytes_draws (s : State) (i : Nat) (bs : List Byte) :
    (s.setStgBytes i bs).draws = s.draws := rfl
@[simp] theorem State.setStgBytes_inputs (s : State) (i : Nat) (bs : List Byte) :
    (s.setStgBytes i bs).inputs = s.inputs := rfl
@[simp] theorem State.setStgBytes_readValue (s : State) (i : Nat) (bs : List Byte) :
    (s.setStgBytes i bs).readValue = s.readValue := rfl

@[simp] theorem State.setInPort_params (s : State) (i : Nat) (p : InPort) :
    (s.setInPort i p).params = s.params := rfl
@[simp] theorem State.setInPort_ctrl (s : State) (i : Nat) (p : InPort) :
    (s.setInPort i p).ctrl = s.ctrl := rfl
@[simp] theorem State.setInPort_status (s : State) (i : Nat) (p : InPort) :
    (s.setInPort i p).status = s.status := rfl
@[simp] theorem State.setInPort_seq (s : State) (i : Nat) (p : InPort) : (s.setInPort i p).seq = s.seq := rfl
@[simp] theorem State.setInPort_parIoLatch (s : State) (i : Nat) (p : InPort) :
    (s.setInPort i p).parIoLatch = s.parIoLatch := rfl
@[simp] theorem State.setInPort_errStream (s : State) (i : Nat) (p : InPort) :
    (s.setInPort i p).errStream = s.errStream := rfl
@[simp] theorem State.setInPort_errInner (s : State) (i : Nat) (p : InPort) :
    (s.setInPort i p).errInner = s.errInner := rfl
@[simp] theorem State.setInPort_result (s : State) (i : Nat) (p : InPort) :
    (s.setInPort i p).result = s.result := rfl
@[simp] theorem State.setInPort_cfg (s : State) (i : Nat) (p : InPort) : (s.setInPort i p).cfg = s.cfg := rfl
@[simp] theorem State.setInPort_geo (s : State) (i : Nat) (p : InPort) : (s.setInPort i p).geo = s.geo := rfl
@[simp] theorem State.setInPort_dlen (s : State) (i : Nat) (p : InPort) :
    (s.setInPort i p).dlen = s.dlen := rfl
@[simp] theorem State.setInPort_args (s : State) (i : Nat) (p : InPort) :
    (s.setInPort i p).args = s.args := rfl
@[simp] theorem State.setInPort_slen (s : State) (i : Nat) (p : InPort) :
    (s.setInPort i p).slen = s.slen := rfl
@[simp] theorem State.setInPort_slots (s : State) (i : Nat) (p : InPort) :
    (s.setInPort i p).slots = s.slots := rfl
@[simp] theorem State.setInPort_dbuf (s : State) (i : Nat) (p : InPort) :
    (s.setInPort i p).dbuf = s.dbuf := rfl
@[simp] theorem State.setInPort_work (s : State) (i : Nat) (p : InPort) :
    (s.setInPort i p).work = s.work := rfl
@[simp] theorem State.setInPort_stg (s : State) (i : Nat) (p : InPort) : (s.setInPort i p).stg = s.stg := rfl
@[simp] theorem State.setInPort_inPorts (s : State) (i : Nat) (p : InPort) :
    (s.setInPort i p).inPorts = tableSet InPort.empty i p s.inPorts := rfl
@[simp] theorem State.setInPort_outPorts (s : State) (i : Nat) (p : InPort) :
    (s.setInPort i p).outPorts = s.outPorts := rfl
@[simp] theorem State.setInPort_job (s : State) (i : Nat) (p : InPort) : (s.setInPort i p).job = s.job := rfl
@[simp] theorem State.setInPort_draws (s : State) (i : Nat) (p : InPort) :
    (s.setInPort i p).draws = s.draws := rfl
@[simp] theorem State.setInPort_inputs (s : State) (i : Nat) (p : InPort) :
    (s.setInPort i p).inputs = s.inputs := rfl
@[simp] theorem State.setInPort_readValue (s : State) (i : Nat) (p : InPort) :
    (s.setInPort i p).readValue = s.readValue := rfl

@[simp] theorem State.setOutPort_params (s : State) (j : Nat) (p : OutPort) :
    (s.setOutPort j p).params = s.params := rfl
@[simp] theorem State.setOutPort_ctrl (s : State) (j : Nat) (p : OutPort) :
    (s.setOutPort j p).ctrl = s.ctrl := rfl
@[simp] theorem State.setOutPort_status (s : State) (j : Nat) (p : OutPort) :
    (s.setOutPort j p).status = s.status := rfl
@[simp] theorem State.setOutPort_seq (s : State) (j : Nat) (p : OutPort) :
    (s.setOutPort j p).seq = s.seq := rfl
@[simp] theorem State.setOutPort_parIoLatch (s : State) (j : Nat) (p : OutPort) :
    (s.setOutPort j p).parIoLatch = s.parIoLatch := rfl
@[simp] theorem State.setOutPort_errStream (s : State) (j : Nat) (p : OutPort) :
    (s.setOutPort j p).errStream = s.errStream := rfl
@[simp] theorem State.setOutPort_errInner (s : State) (j : Nat) (p : OutPort) :
    (s.setOutPort j p).errInner = s.errInner := rfl
@[simp] theorem State.setOutPort_result (s : State) (j : Nat) (p : OutPort) :
    (s.setOutPort j p).result = s.result := rfl
@[simp] theorem State.setOutPort_cfg (s : State) (j : Nat) (p : OutPort) :
    (s.setOutPort j p).cfg = s.cfg := rfl
@[simp] theorem State.setOutPort_geo (s : State) (j : Nat) (p : OutPort) :
    (s.setOutPort j p).geo = s.geo := rfl
@[simp] theorem State.setOutPort_dlen (s : State) (j : Nat) (p : OutPort) :
    (s.setOutPort j p).dlen = s.dlen := rfl
@[simp] theorem State.setOutPort_args (s : State) (j : Nat) (p : OutPort) :
    (s.setOutPort j p).args = s.args := rfl
@[simp] theorem State.setOutPort_slen (s : State) (j : Nat) (p : OutPort) :
    (s.setOutPort j p).slen = s.slen := rfl
@[simp] theorem State.setOutPort_slots (s : State) (j : Nat) (p : OutPort) :
    (s.setOutPort j p).slots = s.slots := rfl
@[simp] theorem State.setOutPort_dbuf (s : State) (j : Nat) (p : OutPort) :
    (s.setOutPort j p).dbuf = s.dbuf := rfl
@[simp] theorem State.setOutPort_work (s : State) (j : Nat) (p : OutPort) :
    (s.setOutPort j p).work = s.work := rfl
@[simp] theorem State.setOutPort_stg (s : State) (j : Nat) (p : OutPort) :
    (s.setOutPort j p).stg = s.stg := rfl
@[simp] theorem State.setOutPort_inPorts (s : State) (j : Nat) (p : OutPort) :
    (s.setOutPort j p).inPorts = s.inPorts := rfl
@[simp] theorem State.setOutPort_outPorts (s : State) (j : Nat) (p : OutPort) :
    (s.setOutPort j p).outPorts = tableSet OutPort.empty j p s.outPorts := rfl
@[simp] theorem State.setOutPort_job (s : State) (j : Nat) (p : OutPort) :
    (s.setOutPort j p).job = s.job := rfl
@[simp] theorem State.setOutPort_draws (s : State) (j : Nat) (p : OutPort) :
    (s.setOutPort j p).draws = s.draws := rfl
@[simp] theorem State.setOutPort_inputs (s : State) (j : Nat) (p : OutPort) :
    (s.setOutPort j p).inputs = s.inputs := rfl
@[simp] theorem State.setOutPort_readValue (s : State) (j : Nat) (p : OutPort) :
    (s.setOutPort j p).readValue = s.readValue := rfl

@[simp] theorem State.setResult_params (s : State) (v : Nat) : (s.setResult v).params = s.params := rfl
@[simp] theorem State.setResult_ctrl (s : State) (v : Nat) : (s.setResult v).ctrl = s.ctrl := rfl
@[simp] theorem State.setResult_status (s : State) (v : Nat) : (s.setResult v).status = s.status := rfl
@[simp] theorem State.setResult_seq (s : State) (v : Nat) : (s.setResult v).seq = s.seq := rfl
@[simp] theorem State.setResult_parIoLatch (s : State) (v : Nat) :
    (s.setResult v).parIoLatch = s.parIoLatch := rfl
@[simp] theorem State.setResult_errStream (s : State) (v : Nat) :
    (s.setResult v).errStream = s.errStream := rfl
@[simp] theorem State.setResult_errInner (s : State) (v : Nat) : (s.setResult v).errInner = s.errInner := rfl
@[simp] theorem State.setResult_result (s : State) (v : Nat) :
    (s.setResult v).result = BitVec.ofNat 32 v := rfl
@[simp] theorem State.setResult_cfg (s : State) (v : Nat) : (s.setResult v).cfg = s.cfg := rfl
@[simp] theorem State.setResult_geo (s : State) (v : Nat) : (s.setResult v).geo = s.geo := rfl
@[simp] theorem State.setResult_dlen (s : State) (v : Nat) : (s.setResult v).dlen = s.dlen := rfl
@[simp] theorem State.setResult_args (s : State) (v : Nat) : (s.setResult v).args = s.args := rfl
@[simp] theorem State.setResult_slen (s : State) (v : Nat) : (s.setResult v).slen = s.slen := rfl
@[simp] theorem State.setResult_slots (s : State) (v : Nat) : (s.setResult v).slots = s.slots := rfl
@[simp] theorem State.setResult_dbuf (s : State) (v : Nat) : (s.setResult v).dbuf = s.dbuf := rfl
@[simp] theorem State.setResult_work (s : State) (v : Nat) : (s.setResult v).work = s.work := rfl
@[simp] theorem State.setResult_stg (s : State) (v : Nat) : (s.setResult v).stg = s.stg := rfl
@[simp] theorem State.setResult_inPorts (s : State) (v : Nat) : (s.setResult v).inPorts = s.inPorts := rfl
@[simp] theorem State.setResult_outPorts (s : State) (v : Nat) : (s.setResult v).outPorts = s.outPorts := rfl
@[simp] theorem State.setResult_job (s : State) (v : Nat) : (s.setResult v).job = s.job := rfl
@[simp] theorem State.setResult_draws (s : State) (v : Nat) : (s.setResult v).draws = s.draws := rfl
@[simp] theorem State.setResult_inputs (s : State) (v : Nat) : (s.setResult v).inputs = s.inputs := rfl
@[simp] theorem State.setResult_readValue (s : State) (v : Nat) :
    (s.setResult v).readValue = s.readValue := rfl

@[simp] theorem State.setSeq_params (s : State) (q : Seq) : (s.setSeq q).params = s.params := rfl
@[simp] theorem State.setSeq_ctrl (s : State) (q : Seq) : (s.setSeq q).ctrl = s.ctrl := rfl
@[simp] theorem State.setSeq_status (s : State) (q : Seq) : (s.setSeq q).status = s.status := rfl
@[simp] theorem State.setSeq_seq (s : State) (q : Seq) : (s.setSeq q).seq = q := rfl
@[simp] theorem State.setSeq_parIoLatch (s : State) (q : Seq) : (s.setSeq q).parIoLatch = s.parIoLatch := rfl
@[simp] theorem State.setSeq_errStream (s : State) (q : Seq) : (s.setSeq q).errStream = s.errStream := rfl
@[simp] theorem State.setSeq_errInner (s : State) (q : Seq) : (s.setSeq q).errInner = s.errInner := rfl
@[simp] theorem State.setSeq_result (s : State) (q : Seq) : (s.setSeq q).result = s.result := rfl
@[simp] theorem State.setSeq_cfg (s : State) (q : Seq) : (s.setSeq q).cfg = s.cfg := rfl
@[simp] theorem State.setSeq_geo (s : State) (q : Seq) : (s.setSeq q).geo = s.geo := rfl
@[simp] theorem State.setSeq_dlen (s : State) (q : Seq) : (s.setSeq q).dlen = s.dlen := rfl
@[simp] theorem State.setSeq_args (s : State) (q : Seq) : (s.setSeq q).args = s.args := rfl
@[simp] theorem State.setSeq_slen (s : State) (q : Seq) : (s.setSeq q).slen = s.slen := rfl
@[simp] theorem State.setSeq_slots (s : State) (q : Seq) : (s.setSeq q).slots = s.slots := rfl
@[simp] theorem State.setSeq_dbuf (s : State) (q : Seq) : (s.setSeq q).dbuf = s.dbuf := rfl
@[simp] theorem State.setSeq_work (s : State) (q : Seq) : (s.setSeq q).work = s.work := rfl
@[simp] theorem State.setSeq_stg (s : State) (q : Seq) : (s.setSeq q).stg = s.stg := rfl
@[simp] theorem State.setSeq_inPorts (s : State) (q : Seq) : (s.setSeq q).inPorts = s.inPorts := rfl
@[simp] theorem State.setSeq_outPorts (s : State) (q : Seq) : (s.setSeq q).outPorts = s.outPorts := rfl
@[simp] theorem State.setSeq_job (s : State) (q : Seq) : (s.setSeq q).job = s.job := rfl
@[simp] theorem State.setSeq_draws (s : State) (q : Seq) : (s.setSeq q).draws = s.draws := rfl
@[simp] theorem State.setSeq_inputs (s : State) (q : Seq) : (s.setSeq q).inputs = s.inputs := rfl
@[simp] theorem State.setSeq_readValue (s : State) (q : Seq) : (s.setSeq q).readValue = s.readValue := rfl

@[simp] theorem State.setVerify_params (s : State) (ok : Bool) : (s.setVerify ok).params = s.params := rfl
@[simp] theorem State.setVerify_ctrl (s : State) (ok : Bool) : (s.setVerify ok).ctrl = s.ctrl := rfl
@[simp] theorem State.setVerify_status (s : State) (ok : Bool) :
    (s.setVerify ok).status = { s.status with verifyOk := ok } := rfl
@[simp] theorem State.setVerify_seq (s : State) (ok : Bool) : (s.setVerify ok).seq = s.seq := rfl
@[simp] theorem State.setVerify_parIoLatch (s : State) (ok : Bool) :
    (s.setVerify ok).parIoLatch = s.parIoLatch := rfl
@[simp] theorem State.setVerify_errStream (s : State) (ok : Bool) :
    (s.setVerify ok).errStream = s.errStream := rfl
@[simp] theorem State.setVerify_errInner (s : State) (ok : Bool) :
    (s.setVerify ok).errInner = s.errInner := rfl
@[simp] theorem State.setVerify_result (s : State) (ok : Bool) :
    (s.setVerify ok).result = if ok then 1 else 0 := rfl
@[simp] theorem State.setVerify_cfg (s : State) (ok : Bool) : (s.setVerify ok).cfg = s.cfg := rfl
@[simp] theorem State.setVerify_geo (s : State) (ok : Bool) : (s.setVerify ok).geo = s.geo := rfl
@[simp] theorem State.setVerify_dlen (s : State) (ok : Bool) : (s.setVerify ok).dlen = s.dlen := rfl
@[simp] theorem State.setVerify_args (s : State) (ok : Bool) : (s.setVerify ok).args = s.args := rfl
@[simp] theorem State.setVerify_slen (s : State) (ok : Bool) : (s.setVerify ok).slen = s.slen := rfl
@[simp] theorem State.setVerify_slots (s : State) (ok : Bool) : (s.setVerify ok).slots = s.slots := rfl
@[simp] theorem State.setVerify_dbuf (s : State) (ok : Bool) : (s.setVerify ok).dbuf = s.dbuf := rfl
@[simp] theorem State.setVerify_work (s : State) (ok : Bool) : (s.setVerify ok).work = s.work := rfl
@[simp] theorem State.setVerify_stg (s : State) (ok : Bool) : (s.setVerify ok).stg = s.stg := rfl
@[simp] theorem State.setVerify_inPorts (s : State) (ok : Bool) : (s.setVerify ok).inPorts = s.inPorts := rfl
@[simp] theorem State.setVerify_outPorts (s : State) (ok : Bool) :
    (s.setVerify ok).outPorts = s.outPorts := rfl
@[simp] theorem State.setVerify_job (s : State) (ok : Bool) : (s.setVerify ok).job = s.job := rfl
@[simp] theorem State.setVerify_draws (s : State) (ok : Bool) : (s.setVerify ok).draws = s.draws := rfl
@[simp] theorem State.setVerify_inputs (s : State) (ok : Bool) : (s.setVerify ok).inputs = s.inputs := rfl
@[simp] theorem State.setVerify_readValue (s : State) (ok : Bool) :
    (s.setVerify ok).readValue = s.readValue := rfl

@[simp] theorem State.setOvr_params (s : State) : (s.setOvr).params = s.params := rfl
@[simp] theorem State.setOvr_ctrl (s : State) : (s.setOvr).ctrl = s.ctrl := rfl
@[simp] theorem State.setOvr_status (s : State) : (s.setOvr).status = { s.status with ovr := true } := rfl
@[simp] theorem State.setOvr_seq (s : State) : (s.setOvr).seq = s.seq := rfl
@[simp] theorem State.setOvr_parIoLatch (s : State) : (s.setOvr).parIoLatch = s.parIoLatch := rfl
@[simp] theorem State.setOvr_errStream (s : State) : (s.setOvr).errStream = s.errStream := rfl
@[simp] theorem State.setOvr_errInner (s : State) : (s.setOvr).errInner = s.errInner := rfl
@[simp] theorem State.setOvr_result (s : State) : (s.setOvr).result = s.result := rfl
@[simp] theorem State.setOvr_cfg (s : State) : (s.setOvr).cfg = s.cfg := rfl
@[simp] theorem State.setOvr_geo (s : State) : (s.setOvr).geo = s.geo := rfl
@[simp] theorem State.setOvr_dlen (s : State) : (s.setOvr).dlen = s.dlen := rfl
@[simp] theorem State.setOvr_args (s : State) : (s.setOvr).args = s.args := rfl
@[simp] theorem State.setOvr_slen (s : State) : (s.setOvr).slen = s.slen := rfl
@[simp] theorem State.setOvr_slots (s : State) : (s.setOvr).slots = s.slots := rfl
@[simp] theorem State.setOvr_dbuf (s : State) : (s.setOvr).dbuf = s.dbuf := rfl
@[simp] theorem State.setOvr_work (s : State) : (s.setOvr).work = s.work := rfl
@[simp] theorem State.setOvr_stg (s : State) : (s.setOvr).stg = s.stg := rfl
@[simp] theorem State.setOvr_inPorts (s : State) : (s.setOvr).inPorts = s.inPorts := rfl
@[simp] theorem State.setOvr_outPorts (s : State) : (s.setOvr).outPorts = s.outPorts := rfl
@[simp] theorem State.setOvr_job (s : State) : (s.setOvr).job = s.job := rfl
@[simp] theorem State.setOvr_draws (s : State) : (s.setOvr).draws = s.draws := rfl
@[simp] theorem State.setOvr_inputs (s : State) : (s.setOvr).inputs = s.inputs := rfl
@[simp] theorem State.setOvr_readValue (s : State) : (s.setOvr).readValue = s.readValue := rfl

@[simp] theorem State.waitOn_params (s : State) (j : Job) : (s.waitOn j).params = s.params := rfl
@[simp] theorem State.waitOn_ctrl (s : State) (j : Job) : (s.waitOn j).ctrl = s.ctrl := rfl
@[simp] theorem State.waitOn_status (s : State) (j : Job) : (s.waitOn j).status = s.status := rfl
@[simp] theorem State.waitOn_seq (s : State) (j : Job) : (s.waitOn j).seq = .streamIo := rfl
@[simp] theorem State.waitOn_parIoLatch (s : State) (j : Job) : (s.waitOn j).parIoLatch = s.parIoLatch := rfl
@[simp] theorem State.waitOn_errStream (s : State) (j : Job) : (s.waitOn j).errStream = s.errStream := rfl
@[simp] theorem State.waitOn_errInner (s : State) (j : Job) : (s.waitOn j).errInner = s.errInner := rfl
@[simp] theorem State.waitOn_result (s : State) (j : Job) : (s.waitOn j).result = s.result := rfl
@[simp] theorem State.waitOn_cfg (s : State) (j : Job) : (s.waitOn j).cfg = s.cfg := rfl
@[simp] theorem State.waitOn_geo (s : State) (j : Job) : (s.waitOn j).geo = s.geo := rfl
@[simp] theorem State.waitOn_dlen (s : State) (j : Job) : (s.waitOn j).dlen = s.dlen := rfl
@[simp] theorem State.waitOn_args (s : State) (j : Job) : (s.waitOn j).args = s.args := rfl
@[simp] theorem State.waitOn_slen (s : State) (j : Job) : (s.waitOn j).slen = s.slen := rfl
@[simp] theorem State.waitOn_slots (s : State) (j : Job) : (s.waitOn j).slots = s.slots := rfl
@[simp] theorem State.waitOn_dbuf (s : State) (j : Job) : (s.waitOn j).dbuf = s.dbuf := rfl
@[simp] theorem State.waitOn_work (s : State) (j : Job) : (s.waitOn j).work = s.work := rfl
@[simp] theorem State.waitOn_stg (s : State) (j : Job) : (s.waitOn j).stg = s.stg := rfl
@[simp] theorem State.waitOn_inPorts (s : State) (j : Job) : (s.waitOn j).inPorts = s.inPorts := rfl
@[simp] theorem State.waitOn_outPorts (s : State) (j : Job) : (s.waitOn j).outPorts = s.outPorts := rfl
@[simp] theorem State.waitOn_job (s : State) (j : Job) : (s.waitOn j).job = some j := rfl
@[simp] theorem State.waitOn_draws (s : State) (j : Job) : (s.waitOn j).draws = s.draws := rfl
@[simp] theorem State.waitOn_inputs (s : State) (j : Job) : (s.waitOn j).inputs = s.inputs := rfl
@[simp] theorem State.waitOn_readValue (s : State) (j : Job) : (s.waitOn j).readValue = s.readValue := rfl

@[simp] theorem State.spoilWork_params (s : State) (need : Nat) : (s.spoilWork need).params = s.params := rfl
@[simp] theorem State.spoilWork_ctrl (s : State) (need : Nat) : (s.spoilWork need).ctrl = s.ctrl := rfl
@[simp] theorem State.spoilWork_status (s : State) (need : Nat) : (s.spoilWork need).status = s.status := rfl
@[simp] theorem State.spoilWork_seq (s : State) (need : Nat) : (s.spoilWork need).seq = s.seq := rfl
@[simp] theorem State.spoilWork_parIoLatch (s : State) (need : Nat) :
    (s.spoilWork need).parIoLatch = s.parIoLatch := rfl
@[simp] theorem State.spoilWork_errStream (s : State) (need : Nat) :
    (s.spoilWork need).errStream = s.errStream := rfl
@[simp] theorem State.spoilWork_errInner (s : State) (need : Nat) :
    (s.spoilWork need).errInner = s.errInner := rfl
@[simp] theorem State.spoilWork_result (s : State) (need : Nat) : (s.spoilWork need).result = s.result := rfl
@[simp] theorem State.spoilWork_cfg (s : State) (need : Nat) : (s.spoilWork need).cfg = s.cfg := rfl
@[simp] theorem State.spoilWork_geo (s : State) (need : Nat) : (s.spoilWork need).geo = s.geo := rfl
@[simp] theorem State.spoilWork_dlen (s : State) (need : Nat) : (s.spoilWork need).dlen = s.dlen := rfl
@[simp] theorem State.spoilWork_args (s : State) (need : Nat) : (s.spoilWork need).args = s.args := rfl
@[simp] theorem State.spoilWork_slen (s : State) (need : Nat) : (s.spoilWork need).slen = s.slen := rfl
@[simp] theorem State.spoilWork_slots (s : State) (need : Nat) : (s.spoilWork need).slots = s.slots := rfl
@[simp] theorem State.spoilWork_dbuf (s : State) (need : Nat) : (s.spoilWork need).dbuf = s.dbuf := rfl
@[simp] theorem State.spoilWork_work (s : State) (need : Nat) :
    (s.spoilWork need).work = s.work.spoil (s.slotAddr need) s.draws := rfl
@[simp] theorem State.spoilWork_stg (s : State) (need : Nat) : (s.spoilWork need).stg = s.stg := rfl
@[simp] theorem State.spoilWork_inPorts (s : State) (need : Nat) :
    (s.spoilWork need).inPorts = s.inPorts := rfl
@[simp] theorem State.spoilWork_outPorts (s : State) (need : Nat) :
    (s.spoilWork need).outPorts = s.outPorts := rfl
@[simp] theorem State.spoilWork_job (s : State) (need : Nat) : (s.spoilWork need).job = s.job := rfl
@[simp] theorem State.spoilWork_draws (s : State) (need : Nat) : (s.spoilWork need).draws = s.draws + 1 := rfl
@[simp] theorem State.spoilWork_inputs (s : State) (need : Nat) : (s.spoilWork need).inputs = s.inputs := rfl
@[simp] theorem State.spoilWork_readValue (s : State) (need : Nat) :
    (s.spoilWork need).readValue = s.readValue := rfl

@[simp] theorem State.spoilStg_params (s : State) : (s.spoilStg).params = s.params := rfl
@[simp] theorem State.spoilStg_ctrl (s : State) : (s.spoilStg).ctrl = s.ctrl := rfl
@[simp] theorem State.spoilStg_status (s : State) : (s.spoilStg).status = s.status := rfl
@[simp] theorem State.spoilStg_seq (s : State) : (s.spoilStg).seq = s.seq := rfl
@[simp] theorem State.spoilStg_parIoLatch (s : State) : (s.spoilStg).parIoLatch = s.parIoLatch := rfl
@[simp] theorem State.spoilStg_errStream (s : State) : (s.spoilStg).errStream = s.errStream := rfl
@[simp] theorem State.spoilStg_errInner (s : State) : (s.spoilStg).errInner = s.errInner := rfl
@[simp] theorem State.spoilStg_result (s : State) : (s.spoilStg).result = s.result := rfl
@[simp] theorem State.spoilStg_cfg (s : State) : (s.spoilStg).cfg = s.cfg := rfl
@[simp] theorem State.spoilStg_geo (s : State) : (s.spoilStg).geo = s.geo := rfl
@[simp] theorem State.spoilStg_dlen (s : State) : (s.spoilStg).dlen = s.dlen := rfl
@[simp] theorem State.spoilStg_args (s : State) : (s.spoilStg).args = s.args := rfl
@[simp] theorem State.spoilStg_slen (s : State) : (s.spoilStg).slen = s.slen := rfl
@[simp] theorem State.spoilStg_slots (s : State) : (s.spoilStg).slots = s.slots := rfl
@[simp] theorem State.spoilStg_dbuf (s : State) : (s.spoilStg).dbuf = s.dbuf := rfl
@[simp] theorem State.spoilStg_work (s : State) : (s.spoilStg).work = s.work := rfl
@[simp] theorem State.spoilStg_stg (s : State) : (s.spoilStg).stg = Memory.drawn s.draws := rfl
@[simp] theorem State.spoilStg_inPorts (s : State) : (s.spoilStg).inPorts = s.inPorts := rfl
@[simp] theorem State.spoilStg_outPorts (s : State) : (s.spoilStg).outPorts = s.outPorts := rfl
@[simp] theorem State.spoilStg_job (s : State) : (s.spoilStg).job = s.job := rfl
@[simp] theorem State.spoilStg_draws (s : State) : (s.spoilStg).draws = s.draws + 1 := rfl
@[simp] theorem State.spoilStg_inputs (s : State) : (s.spoilStg).inputs = s.inputs := rfl
@[simp] theorem State.spoilStg_readValue (s : State) : (s.spoilStg).readValue = s.readValue := rfl

@[simp] theorem State.accept_params (s : State) : (s.accept).params = s.params := rfl
@[simp] theorem State.accept_ctrl (s : State) : (s.accept).ctrl = s.ctrl := rfl
@[simp] theorem State.accept_status (s : State) :
    (s.accept).status = { s.status with done := false, err := false, errCode := 0, verifyOk := false } := rfl
@[simp] theorem State.accept_seq (s : State) : (s.accept).seq = .borrowWork := rfl
@[simp] theorem State.accept_parIoLatch (s : State) : (s.accept).parIoLatch = s.ctrl.parIo := rfl
@[simp] theorem State.accept_errStream (s : State) : (s.accept).errStream = 0 := rfl
@[simp] theorem State.accept_errInner (s : State) : (s.accept).errInner = 0 := rfl
@[simp] theorem State.accept_result (s : State) : (s.accept).result = 0 := rfl
@[simp] theorem State.accept_cfg (s : State) : (s.accept).cfg = s.cfg := rfl
@[simp] theorem State.accept_geo (s : State) : (s.accept).geo = s.geo := rfl
@[simp] theorem State.accept_dlen (s : State) : (s.accept).dlen = s.dlen := rfl
@[simp] theorem State.accept_args (s : State) : (s.accept).args = s.args := rfl
@[simp] theorem State.accept_slen (s : State) : (s.accept).slen = s.slen := rfl
@[simp] theorem State.accept_slots (s : State) : (s.accept).slots = s.slots := rfl
@[simp] theorem State.accept_dbuf (s : State) : (s.accept).dbuf = s.dbuf := rfl
@[simp] theorem State.accept_work (s : State) : (s.accept).work = s.work := rfl
@[simp] theorem State.accept_stg (s : State) : (s.accept).stg = s.stg := rfl
@[simp] theorem State.accept_inPorts (s : State) : (s.accept).inPorts = s.inPorts := rfl
@[simp] theorem State.accept_outPorts (s : State) : (s.accept).outPorts = s.outPorts := rfl
@[simp] theorem State.accept_job (s : State) : (s.accept).job = none := rfl
@[simp] theorem State.accept_draws (s : State) : (s.accept).draws = s.draws := rfl
@[simp] theorem State.accept_inputs (s : State) : (s.accept).inputs = s.inputs := rfl
@[simp] theorem State.accept_readValue (s : State) : (s.accept).readValue = s.readValue := rfl

@[simp] theorem State.setArg_params (s : State) (i : Fin 8) (v : Word) :
    (s.setArg i v).params = s.params := rfl
@[simp] theorem State.setArg_ctrl (s : State) (i : Fin 8) (v : Word) : (s.setArg i v).ctrl = s.ctrl := rfl
@[simp] theorem State.setArg_status (s : State) (i : Fin 8) (v : Word) :
    (s.setArg i v).status = s.status := rfl
@[simp] theorem State.setArg_seq (s : State) (i : Fin 8) (v : Word) : (s.setArg i v).seq = s.seq := rfl
@[simp] theorem State.setArg_parIoLatch (s : State) (i : Fin 8) (v : Word) :
    (s.setArg i v).parIoLatch = s.parIoLatch := rfl
@[simp] theorem State.setArg_errStream (s : State) (i : Fin 8) (v : Word) :
    (s.setArg i v).errStream = s.errStream := rfl
@[simp] theorem State.setArg_errInner (s : State) (i : Fin 8) (v : Word) :
    (s.setArg i v).errInner = s.errInner := rfl
@[simp] theorem State.setArg_result (s : State) (i : Fin 8) (v : Word) :
    (s.setArg i v).result = s.result := rfl
@[simp] theorem State.setArg_cfg (s : State) (i : Fin 8) (v : Word) : (s.setArg i v).cfg = s.cfg := rfl
@[simp] theorem State.setArg_geo (s : State) (i : Fin 8) (v : Word) : (s.setArg i v).geo = s.geo := rfl
@[simp] theorem State.setArg_dlen (s : State) (i : Fin 8) (v : Word) : (s.setArg i v).dlen = s.dlen := rfl
@[simp] theorem State.setArg_args (s : State) (i : Fin 8) (v : Word) :
    (s.setArg i v).args = s.args.set i v := rfl
@[simp] theorem State.setArg_slen (s : State) (i : Fin 8) (v : Word) : (s.setArg i v).slen = s.slen := rfl
@[simp] theorem State.setArg_slots (s : State) (i : Fin 8) (v : Word) : (s.setArg i v).slots = s.slots := rfl
@[simp] theorem State.setArg_dbuf (s : State) (i : Fin 8) (v : Word) : (s.setArg i v).dbuf = s.dbuf := rfl
@[simp] theorem State.setArg_work (s : State) (i : Fin 8) (v : Word) : (s.setArg i v).work = s.work := rfl
@[simp] theorem State.setArg_stg (s : State) (i : Fin 8) (v : Word) : (s.setArg i v).stg = s.stg := rfl
@[simp] theorem State.setArg_inPorts (s : State) (i : Fin 8) (v : Word) :
    (s.setArg i v).inPorts = s.inPorts := rfl
@[simp] theorem State.setArg_outPorts (s : State) (i : Fin 8) (v : Word) :
    (s.setArg i v).outPorts = s.outPorts := rfl
@[simp] theorem State.setArg_job (s : State) (i : Fin 8) (v : Word) : (s.setArg i v).job = s.job := rfl
@[simp] theorem State.setArg_draws (s : State) (i : Fin 8) (v : Word) : (s.setArg i v).draws = s.draws := rfl
@[simp] theorem State.setArg_inputs (s : State) (i : Fin 8) (v : Word) :
    (s.setArg i v).inputs = s.inputs := rfl
@[simp] theorem State.setArg_readValue (s : State) (i : Fin 8) (v : Word) :
    (s.setArg i v).readValue = s.readValue := rfl

@[simp] theorem State.setRead_params (s : State) (v : Nat) : (s.setRead v).params = s.params := rfl
@[simp] theorem State.setRead_ctrl (s : State) (v : Nat) : (s.setRead v).ctrl = s.ctrl := rfl
@[simp] theorem State.setRead_status (s : State) (v : Nat) : (s.setRead v).status = s.status := rfl
@[simp] theorem State.setRead_seq (s : State) (v : Nat) : (s.setRead v).seq = s.seq := rfl
@[simp] theorem State.setRead_parIoLatch (s : State) (v : Nat) :
    (s.setRead v).parIoLatch = s.parIoLatch := rfl
@[simp] theorem State.setRead_errStream (s : State) (v : Nat) : (s.setRead v).errStream = s.errStream := rfl
@[simp] theorem State.setRead_errInner (s : State) (v : Nat) : (s.setRead v).errInner = s.errInner := rfl
@[simp] theorem State.setRead_result (s : State) (v : Nat) : (s.setRead v).result = s.result := rfl
@[simp] theorem State.setRead_cfg (s : State) (v : Nat) : (s.setRead v).cfg = s.cfg := rfl
@[simp] theorem State.setRead_geo (s : State) (v : Nat) : (s.setRead v).geo = s.geo := rfl
@[simp] theorem State.setRead_dlen (s : State) (v : Nat) : (s.setRead v).dlen = s.dlen := rfl
@[simp] theorem State.setRead_args (s : State) (v : Nat) : (s.setRead v).args = s.args := rfl
@[simp] theorem State.setRead_slen (s : State) (v : Nat) : (s.setRead v).slen = s.slen := rfl
@[simp] theorem State.setRead_slots (s : State) (v : Nat) : (s.setRead v).slots = s.slots := rfl
@[simp] theorem State.setRead_dbuf (s : State) (v : Nat) : (s.setRead v).dbuf = s.dbuf := rfl
@[simp] theorem State.setRead_work (s : State) (v : Nat) : (s.setRead v).work = s.work := rfl
@[simp] theorem State.setRead_stg (s : State) (v : Nat) : (s.setRead v).stg = s.stg := rfl
@[simp] theorem State.setRead_inPorts (s : State) (v : Nat) : (s.setRead v).inPorts = s.inPorts := rfl
@[simp] theorem State.setRead_outPorts (s : State) (v : Nat) : (s.setRead v).outPorts = s.outPorts := rfl
@[simp] theorem State.setRead_job (s : State) (v : Nat) : (s.setRead v).job = s.job := rfl
@[simp] theorem State.setRead_draws (s : State) (v : Nat) : (s.setRead v).draws = s.draws := rfl
@[simp] theorem State.setRead_inputs (s : State) (v : Nat) : (s.setRead v).inputs = s.inputs := rfl
@[simp] theorem State.setRead_readValue (s : State) (v : Nat) :
    (s.setRead v).readValue = BitVec.ofNat 64 v := rfl

@[simp] theorem State.setConfig_params (s : State) (geo : Geo) (f : GF) :
    (s.setConfig geo f).params = s.params := rfl
@[simp] theorem State.setConfig_ctrl (s : State) (geo : Geo) (f : GF) :
    (s.setConfig geo f).ctrl = s.ctrl := rfl
@[simp] theorem State.setConfig_status (s : State) (geo : Geo) (f : GF) :
    (s.setConfig geo f).status = { s.status with configured := true, field16 := f == .gf16 } := rfl
@[simp] theorem State.setConfig_seq (s : State) (geo : Geo) (f : GF) : (s.setConfig geo f).seq = s.seq := rfl
@[simp] theorem State.setConfig_parIoLatch (s : State) (geo : Geo) (f : GF) :
    (s.setConfig geo f).parIoLatch = s.parIoLatch := rfl
@[simp] theorem State.setConfig_errStream (s : State) (geo : Geo) (f : GF) :
    (s.setConfig geo f).errStream = s.errStream := rfl
@[simp] theorem State.setConfig_errInner (s : State) (geo : Geo) (f : GF) :
    (s.setConfig geo f).errInner = s.errInner := rfl
@[simp] theorem State.setConfig_result (s : State) (geo : Geo) (f : GF) :
    (s.setConfig geo f).result = s.result := rfl
@[simp] theorem State.setConfig_cfg (s : State) (geo : Geo) (f : GF) : (s.setConfig geo f).cfg = s.cfg := rfl
@[simp] theorem State.setConfig_geo (s : State) (geo : Geo) (f : GF) : (s.setConfig geo f).geo = geo := rfl
@[simp] theorem State.setConfig_dlen (s : State) (geo : Geo) (f : GF) :
    (s.setConfig geo f).dlen = s.dlen := rfl
@[simp] theorem State.setConfig_args (s : State) (geo : Geo) (f : GF) :
    (s.setConfig geo f).args = s.args := rfl
@[simp] theorem State.setConfig_slen (s : State) (geo : Geo) (f : GF) :
    (s.setConfig geo f).slen = s.slen := rfl
@[simp] theorem State.setConfig_slots (s : State) (geo : Geo) (f : GF) :
    (s.setConfig geo f).slots = s.slots := rfl
@[simp] theorem State.setConfig_dbuf (s : State) (geo : Geo) (f : GF) :
    (s.setConfig geo f).dbuf = s.dbuf := rfl
@[simp] theorem State.setConfig_work (s : State) (geo : Geo) (f : GF) :
    (s.setConfig geo f).work = s.work := rfl
@[simp] theorem State.setConfig_stg (s : State) (geo : Geo) (f : GF) : (s.setConfig geo f).stg = s.stg := rfl
@[simp] theorem State.setConfig_inPorts (s : State) (geo : Geo) (f : GF) :
    (s.setConfig geo f).inPorts = s.inPorts := rfl
@[simp] theorem State.setConfig_outPorts (s : State) (geo : Geo) (f : GF) :
    (s.setConfig geo f).outPorts = s.outPorts := rfl
@[simp] theorem State.setConfig_job (s : State) (geo : Geo) (f : GF) : (s.setConfig geo f).job = s.job := rfl
@[simp] theorem State.setConfig_draws (s : State) (geo : Geo) (f : GF) :
    (s.setConfig geo f).draws = s.draws := rfl
@[simp] theorem State.setConfig_inputs (s : State) (geo : Geo) (f : GF) :
    (s.setConfig geo f).inputs = s.inputs := rfl
@[simp] theorem State.setConfig_readValue (s : State) (geo : Geo) (f : GF) :
    (s.setConfig geo f).readValue = s.readValue := rfl

@[simp] theorem State.clearConfig_params (s : State) : (s.clearConfig).params = s.params := rfl
@[simp] theorem State.clearConfig_ctrl (s : State) : (s.clearConfig).ctrl = s.ctrl := rfl
@[simp] theorem State.clearConfig_status (s : State) :
    (s.clearConfig).status = { s.status with configured := false, field16 := false } := rfl
@[simp] theorem State.clearConfig_seq (s : State) : (s.clearConfig).seq = s.seq := rfl
@[simp] theorem State.clearConfig_parIoLatch (s : State) : (s.clearConfig).parIoLatch = s.parIoLatch := rfl
@[simp] theorem State.clearConfig_errStream (s : State) : (s.clearConfig).errStream = s.errStream := rfl
@[simp] theorem State.clearConfig_errInner (s : State) : (s.clearConfig).errInner = s.errInner := rfl
@[simp] theorem State.clearConfig_result (s : State) : (s.clearConfig).result = s.result := rfl
@[simp] theorem State.clearConfig_cfg (s : State) : (s.clearConfig).cfg = s.cfg := rfl
@[simp] theorem State.clearConfig_geo (s : State) :
    (s.clearConfig).geo = { k := 0, m := 0, n := 0, mpow := 0 } := rfl
@[simp] theorem State.clearConfig_dlen (s : State) : (s.clearConfig).dlen = s.dlen := rfl
@[simp] theorem State.clearConfig_args (s : State) : (s.clearConfig).args = s.args := rfl
@[simp] theorem State.clearConfig_slen (s : State) : (s.clearConfig).slen = s.slen := rfl
@[simp] theorem State.clearConfig_slots (s : State) : (s.clearConfig).slots = s.slots := rfl
@[simp] theorem State.clearConfig_dbuf (s : State) : (s.clearConfig).dbuf = s.dbuf := rfl
@[simp] theorem State.clearConfig_work (s : State) : (s.clearConfig).work = s.work := rfl
@[simp] theorem State.clearConfig_stg (s : State) : (s.clearConfig).stg = s.stg := rfl
@[simp] theorem State.clearConfig_inPorts (s : State) : (s.clearConfig).inPorts = s.inPorts := rfl
@[simp] theorem State.clearConfig_outPorts (s : State) : (s.clearConfig).outPorts = s.outPorts := rfl
@[simp] theorem State.clearConfig_job (s : State) : (s.clearConfig).job = s.job := rfl
@[simp] theorem State.clearConfig_draws (s : State) : (s.clearConfig).draws = s.draws := rfl
@[simp] theorem State.clearConfig_inputs (s : State) : (s.clearConfig).inputs = s.inputs := rfl
@[simp] theorem State.clearConfig_readValue (s : State) : (s.clearConfig).readValue = s.readValue := rfl

@[simp] theorem State.putShard_params (s : State) (S i : Nat) (bs : List Byte) :
    (s.putShard S i bs).params = s.params := rfl
@[simp] theorem State.putShard_ctrl (s : State) (S i : Nat) (bs : List Byte) :
    (s.putShard S i bs).ctrl = s.ctrl := rfl
@[simp] theorem State.putShard_status (s : State) (S i : Nat) (bs : List Byte) :
    (s.putShard S i bs).status = s.status := rfl
@[simp] theorem State.putShard_seq (s : State) (S i : Nat) (bs : List Byte) :
    (s.putShard S i bs).seq = s.seq := rfl
@[simp] theorem State.putShard_parIoLatch (s : State) (S i : Nat) (bs : List Byte) :
    (s.putShard S i bs).parIoLatch = s.parIoLatch := rfl
@[simp] theorem State.putShard_errStream (s : State) (S i : Nat) (bs : List Byte) :
    (s.putShard S i bs).errStream = s.errStream := rfl
@[simp] theorem State.putShard_errInner (s : State) (S i : Nat) (bs : List Byte) :
    (s.putShard S i bs).errInner = s.errInner := rfl
@[simp] theorem State.putShard_result (s : State) (S i : Nat) (bs : List Byte) :
    (s.putShard S i bs).result = s.result := rfl
@[simp] theorem State.putShard_cfg (s : State) (S i : Nat) (bs : List Byte) :
    (s.putShard S i bs).cfg = s.cfg := rfl
@[simp] theorem State.putShard_geo (s : State) (S i : Nat) (bs : List Byte) :
    (s.putShard S i bs).geo = s.geo := rfl
@[simp] theorem State.putShard_dlen (s : State) (S i : Nat) (bs : List Byte) :
    (s.putShard S i bs).dlen = s.dlen := rfl
@[simp] theorem State.putShard_args (s : State) (S i : Nat) (bs : List Byte) :
    (s.putShard S i bs).args = s.args := rfl
@[simp] theorem State.putShard_slen (s : State) (S i : Nat) (bs : List Byte) :
    (s.putShard S i bs).slen = tableSet 0 i (BitVec.ofNat 32 S) s.slen := rfl
@[simp] theorem State.putShard_slots (s : State) (S i : Nat) (bs : List Byte) :
    (s.putShard S i bs).slots = s.slots.writeBytes (s.slotAddr i) bs := rfl
@[simp] theorem State.putShard_dbuf (s : State) (S i : Nat) (bs : List Byte) :
    (s.putShard S i bs).dbuf = s.dbuf := rfl
@[simp] theorem State.putShard_work (s : State) (S i : Nat) (bs : List Byte) :
    (s.putShard S i bs).work = s.work := rfl
@[simp] theorem State.putShard_stg (s : State) (S i : Nat) (bs : List Byte) :
    (s.putShard S i bs).stg = s.stg := rfl
@[simp] theorem State.putShard_inPorts (s : State) (S i : Nat) (bs : List Byte) :
    (s.putShard S i bs).inPorts = s.inPorts := rfl
@[simp] theorem State.putShard_outPorts (s : State) (S i : Nat) (bs : List Byte) :
    (s.putShard S i bs).outPorts = s.outPorts := rfl
@[simp] theorem State.putShard_job (s : State) (S i : Nat) (bs : List Byte) :
    (s.putShard S i bs).job = s.job := rfl
@[simp] theorem State.putShard_draws (s : State) (S i : Nat) (bs : List Byte) :
    (s.putShard S i bs).draws = s.draws := rfl
@[simp] theorem State.putShard_inputs (s : State) (S i : Nat) (bs : List Byte) :
    (s.putShard S i bs).inputs = s.inputs := rfl
@[simp] theorem State.putShard_readValue (s : State) (S i : Nat) (bs : List Byte) :
    (s.putShard S i bs).readValue = s.readValue := rfl

@[simp] theorem State.setBufBytes_params (s : State) (b : Buf) (bs : List Byte) :
    (s.setBufBytes b bs).params = s.params := by cases b <;> rfl
@[simp] theorem State.setBufBytes_ctrl (s : State) (b : Buf) (bs : List Byte) :
    (s.setBufBytes b bs).ctrl = s.ctrl := by cases b <;> rfl
@[simp] theorem State.setBufBytes_status (s : State) (b : Buf) (bs : List Byte) :
    (s.setBufBytes b bs).status = s.status := by cases b <;> rfl
@[simp] theorem State.setBufBytes_seq (s : State) (b : Buf) (bs : List Byte) :
    (s.setBufBytes b bs).seq = s.seq := by cases b <;> rfl
@[simp] theorem State.setBufBytes_parIoLatch (s : State) (b : Buf) (bs : List Byte) :
    (s.setBufBytes b bs).parIoLatch = s.parIoLatch := by cases b <;> rfl
@[simp] theorem State.setBufBytes_errStream (s : State) (b : Buf) (bs : List Byte) :
    (s.setBufBytes b bs).errStream = s.errStream := by cases b <;> rfl
@[simp] theorem State.setBufBytes_errInner (s : State) (b : Buf) (bs : List Byte) :
    (s.setBufBytes b bs).errInner = s.errInner := by cases b <;> rfl
@[simp] theorem State.setBufBytes_result (s : State) (b : Buf) (bs : List Byte) :
    (s.setBufBytes b bs).result = s.result := by cases b <;> rfl
@[simp] theorem State.setBufBytes_cfg (s : State) (b : Buf) (bs : List Byte) :
    (s.setBufBytes b bs).cfg = s.cfg := by cases b <;> rfl
@[simp] theorem State.setBufBytes_geo (s : State) (b : Buf) (bs : List Byte) :
    (s.setBufBytes b bs).geo = s.geo := by cases b <;> rfl
@[simp] theorem State.setBufBytes_dlen (s : State) (b : Buf) (bs : List Byte) :
    (s.setBufBytes b bs).dlen = s.dlen := by cases b <;> rfl
@[simp] theorem State.setBufBytes_args (s : State) (b : Buf) (bs : List Byte) :
    (s.setBufBytes b bs).args = s.args := by cases b <;> rfl
@[simp] theorem State.setBufBytes_slen (s : State) (b : Buf) (bs : List Byte) :
    (s.setBufBytes b bs).slen = s.slen := by cases b <;> rfl
@[simp] theorem State.setBufBytes_dbuf (s : State) (b : Buf) (bs : List Byte) :
    (s.setBufBytes b bs).dbuf = s.dbuf := by cases b <;> rfl
@[simp] theorem State.setBufBytes_stg (s : State) (b : Buf) (bs : List Byte) :
    (s.setBufBytes b bs).stg = s.stg := by cases b <;> rfl
@[simp] theorem State.setBufBytes_inPorts (s : State) (b : Buf) (bs : List Byte) :
    (s.setBufBytes b bs).inPorts = s.inPorts := by cases b <;> rfl
@[simp] theorem State.setBufBytes_outPorts (s : State) (b : Buf) (bs : List Byte) :
    (s.setBufBytes b bs).outPorts = s.outPorts := by cases b <;> rfl
@[simp] theorem State.setBufBytes_job (s : State) (b : Buf) (bs : List Byte) :
    (s.setBufBytes b bs).job = s.job := by cases b <;> rfl
@[simp] theorem State.setBufBytes_draws (s : State) (b : Buf) (bs : List Byte) :
    (s.setBufBytes b bs).draws = s.draws := by cases b <;> rfl
@[simp] theorem State.setBufBytes_inputs (s : State) (b : Buf) (bs : List Byte) :
    (s.setBufBytes b bs).inputs = s.inputs := by cases b <;> rfl
@[simp] theorem State.setBufBytes_readValue (s : State) (b : Buf) (bs : List Byte) :
    (s.setBufBytes b bs).readValue = s.readValue := by cases b <;> rfl

@[simp] theorem State.setBufRow_params (s : State) (f : GF) (b : Buf) (es : Row) :
    (s.setBufRow f b es).params = s.params := by cases b <;> rfl
@[simp] theorem State.setBufRow_ctrl (s : State) (f : GF) (b : Buf) (es : Row) :
    (s.setBufRow f b es).ctrl = s.ctrl := by cases b <;> rfl
@[simp] theorem State.setBufRow_status (s : State) (f : GF) (b : Buf) (es : Row) :
    (s.setBufRow f b es).status = s.status := by cases b <;> rfl
@[simp] theorem State.setBufRow_seq (s : State) (f : GF) (b : Buf) (es : Row) :
    (s.setBufRow f b es).seq = s.seq := by cases b <;> rfl
@[simp] theorem State.setBufRow_parIoLatch (s : State) (f : GF) (b : Buf) (es : Row) :
    (s.setBufRow f b es).parIoLatch = s.parIoLatch := by cases b <;> rfl
@[simp] theorem State.setBufRow_errStream (s : State) (f : GF) (b : Buf) (es : Row) :
    (s.setBufRow f b es).errStream = s.errStream := by cases b <;> rfl
@[simp] theorem State.setBufRow_errInner (s : State) (f : GF) (b : Buf) (es : Row) :
    (s.setBufRow f b es).errInner = s.errInner := by cases b <;> rfl
@[simp] theorem State.setBufRow_result (s : State) (f : GF) (b : Buf) (es : Row) :
    (s.setBufRow f b es).result = s.result := by cases b <;> rfl
@[simp] theorem State.setBufRow_cfg (s : State) (f : GF) (b : Buf) (es : Row) :
    (s.setBufRow f b es).cfg = s.cfg := by cases b <;> rfl
@[simp] theorem State.setBufRow_geo (s : State) (f : GF) (b : Buf) (es : Row) :
    (s.setBufRow f b es).geo = s.geo := by cases b <;> rfl
@[simp] theorem State.setBufRow_dlen (s : State) (f : GF) (b : Buf) (es : Row) :
    (s.setBufRow f b es).dlen = s.dlen := by cases b <;> rfl
@[simp] theorem State.setBufRow_args (s : State) (f : GF) (b : Buf) (es : Row) :
    (s.setBufRow f b es).args = s.args := by cases b <;> rfl
@[simp] theorem State.setBufRow_slen (s : State) (f : GF) (b : Buf) (es : Row) :
    (s.setBufRow f b es).slen = s.slen := by cases b <;> rfl
@[simp] theorem State.setBufRow_dbuf (s : State) (f : GF) (b : Buf) (es : Row) :
    (s.setBufRow f b es).dbuf = s.dbuf := by cases b <;> rfl
@[simp] theorem State.setBufRow_stg (s : State) (f : GF) (b : Buf) (es : Row) :
    (s.setBufRow f b es).stg = s.stg := by cases b <;> rfl
@[simp] theorem State.setBufRow_inPorts (s : State) (f : GF) (b : Buf) (es : Row) :
    (s.setBufRow f b es).inPorts = s.inPorts := by cases b <;> rfl
@[simp] theorem State.setBufRow_outPorts (s : State) (f : GF) (b : Buf) (es : Row) :
    (s.setBufRow f b es).outPorts = s.outPorts := by cases b <;> rfl
@[simp] theorem State.setBufRow_job (s : State) (f : GF) (b : Buf) (es : Row) :
    (s.setBufRow f b es).job = s.job := by cases b <;> rfl
@[simp] theorem State.setBufRow_draws (s : State) (f : GF) (b : Buf) (es : Row) :
    (s.setBufRow f b es).draws = s.draws := by cases b <;> rfl
@[simp] theorem State.setBufRow_inputs (s : State) (f : GF) (b : Buf) (es : Row) :
    (s.setBufRow f b es).inputs = s.inputs := by cases b <;> rfl
@[simp] theorem State.setBufRow_readValue (s : State) (f : GF) (b : Buf) (es : Row) :
    (s.setBufRow f b es).readValue = s.readValue := by cases b <;> rfl

@[simp] theorem State.recordErr_params (s : State) (e : Err) :
    (s.recordErr e).params = s.params := by cases e <;> rfl
@[simp] theorem State.recordErr_ctrl (s : State) (e : Err) :
    (s.recordErr e).ctrl = s.ctrl := by cases e <;> rfl
@[simp] theorem State.recordErr_status (s : State) (e : Err) :
    (s.recordErr e).status =
      { s.status with err := true, errCode := e.code, verifyOk := false } := by cases e <;> rfl
@[simp] theorem State.recordErr_seq (s : State) (e : Err) : (s.recordErr e).seq = s.seq := by cases e <;> rfl
@[simp] theorem State.recordErr_parIoLatch (s : State) (e : Err) :
    (s.recordErr e).parIoLatch = s.parIoLatch := by cases e <;> rfl
@[simp] theorem State.recordErr_result (s : State) (e : Err) :
    (s.recordErr e).result = 0 := by cases e <;> rfl
@[simp] theorem State.recordErr_cfg (s : State) (e : Err) : (s.recordErr e).cfg = s.cfg := by cases e <;> rfl
@[simp] theorem State.recordErr_geo (s : State) (e : Err) : (s.recordErr e).geo = s.geo := by cases e <;> rfl
@[simp] theorem State.recordErr_dlen (s : State) (e : Err) :
    (s.recordErr e).dlen = s.dlen := by cases e <;> rfl
@[simp] theorem State.recordErr_args (s : State) (e : Err) :
    (s.recordErr e).args = s.args := by cases e <;> rfl
@[simp] theorem State.recordErr_slen (s : State) (e : Err) :
    (s.recordErr e).slen = s.slen := by cases e <;> rfl
@[simp] theorem State.recordErr_slots (s : State) (e : Err) :
    (s.recordErr e).slots = s.slots := by cases e <;> rfl
@[simp] theorem State.recordErr_dbuf (s : State) (e : Err) :
    (s.recordErr e).dbuf = s.dbuf := by cases e <;> rfl
@[simp] theorem State.recordErr_work (s : State) (e : Err) :
    (s.recordErr e).work = s.work := by cases e <;> rfl
@[simp] theorem State.recordErr_stg (s : State) (e : Err) : (s.recordErr e).stg = s.stg := by cases e <;> rfl
@[simp] theorem State.recordErr_inPorts (s : State) (e : Err) :
    (s.recordErr e).inPorts = s.inPorts := by cases e <;> rfl
@[simp] theorem State.recordErr_outPorts (s : State) (e : Err) :
    (s.recordErr e).outPorts = s.outPorts := by cases e <;> rfl
@[simp] theorem State.recordErr_job (s : State) (e : Err) : (s.recordErr e).job = s.job := by cases e <;> rfl
@[simp] theorem State.recordErr_draws (s : State) (e : Err) :
    (s.recordErr e).draws = s.draws := by cases e <;> rfl
@[simp] theorem State.recordErr_inputs (s : State) (e : Err) :
    (s.recordErr e).inputs = s.inputs := by cases e <;> rfl
@[simp] theorem State.recordErr_readValue (s : State) (e : Err) :
    (s.recordErr e).readValue = s.readValue := by cases e <;> rfl

@[simp] theorem State.complete_params (s : State) (e : Option Err) :
    (s.complete e).params = s.params := by cases e with | none => rfl | some e => cases e <;> rfl
@[simp] theorem State.complete_ctrl (s : State) (e : Option Err) :
    (s.complete e).ctrl = s.ctrl := by cases e with | none => rfl | some e => cases e <;> rfl
@[simp] theorem State.complete_seq (s : State) (e : Option Err) :
    (s.complete e).seq = .idle := by cases e with | none => rfl | some e => cases e <;> rfl
@[simp] theorem State.complete_parIoLatch (s : State) (e : Option Err) :
    (s.complete e).parIoLatch = s.parIoLatch := by cases e with | none => rfl | some e => cases e <;> rfl
@[simp] theorem State.complete_cfg (s : State) (e : Option Err) :
    (s.complete e).cfg = s.cfg := by cases e with | none => rfl | some e => cases e <;> rfl
@[simp] theorem State.complete_geo (s : State) (e : Option Err) :
    (s.complete e).geo = s.geo := by cases e with | none => rfl | some e => cases e <;> rfl
@[simp] theorem State.complete_dlen (s : State) (e : Option Err) :
    (s.complete e).dlen = s.dlen := by cases e with | none => rfl | some e => cases e <;> rfl
@[simp] theorem State.complete_args (s : State) (e : Option Err) :
    (s.complete e).args = s.args := by cases e with | none => rfl | some e => cases e <;> rfl
@[simp] theorem State.complete_slen (s : State) (e : Option Err) :
    (s.complete e).slen = s.slen := by cases e with | none => rfl | some e => cases e <;> rfl
@[simp] theorem State.complete_slots (s : State) (e : Option Err) :
    (s.complete e).slots = s.slots := by cases e with | none => rfl | some e => cases e <;> rfl
@[simp] theorem State.complete_dbuf (s : State) (e : Option Err) :
    (s.complete e).dbuf = s.dbuf := by cases e with | none => rfl | some e => cases e <;> rfl
@[simp] theorem State.complete_work (s : State) (e : Option Err) :
    (s.complete e).work = s.work := by cases e with | none => rfl | some e => cases e <;> rfl
@[simp] theorem State.complete_stg (s : State) (e : Option Err) :
    (s.complete e).stg = s.stg := by cases e with | none => rfl | some e => cases e <;> rfl
@[simp] theorem State.complete_inPorts (s : State) (e : Option Err) :
    (s.complete e).inPorts = s.inPorts := by cases e with | none => rfl | some e => cases e <;> rfl
@[simp] theorem State.complete_outPorts (s : State) (e : Option Err) :
    (s.complete e).outPorts = s.outPorts := by cases e with | none => rfl | some e => cases e <;> rfl
@[simp] theorem State.complete_job (s : State) (e : Option Err) :
    (s.complete e).job = none := by cases e with | none => rfl | some e => cases e <;> rfl
@[simp] theorem State.complete_draws (s : State) (e : Option Err) :
    (s.complete e).draws = s.draws := by cases e with | none => rfl | some e => cases e <;> rfl
@[simp] theorem State.complete_inputs (s : State) (e : Option Err) :
    (s.complete e).inputs = s.inputs := by cases e with | none => rfl | some e => cases e <;> rfl
@[simp] theorem State.complete_readValue (s : State) (e : Option Err) :
    (s.complete e).readValue = s.readValue := by cases e with | none => rfl | some e => cases e <;> rfl

/-- A command that succeeds ends as its rule left it, but for DONE, seq and job (60_exceptions.md R344). -/
theorem State.complete_none (s : State) :
    s.complete none = { s with status := { s.status with done := true }, seq := .idle, job := none } := rfl

/-- The end of a command that failed with an error which names no port (60_exceptions.md R341, R344). -/
theorem State.complete_some (s : State) (e : Err) (h : e.ioInfo = none) :
    s.complete (some e) =
      { s with
        status := { s.status with done := true, err := true, errCode := e.code, verifyOk := false }
        seq := .idle, result := 0, job := none } := by
  cases e <;> simp_all [Err.ioInfo] <;> rfl

/-- The end of a command that failed on a port (10_state.md R51, 60_exceptions.md R341). -/
theorem State.complete_io (s : State) (e : Err) (i : Nat) (c : Word) (h : e.ioInfo = some (i, c)) :
    s.complete (some e) = s.portFailed e.code i c := by
  cases e <;> simp_all [Err.ioInfo] <;> rfl

/-! What a rule reads is the same after acceptance, which writes STATUS, RESULT, the error registers, the latch and the
sequencer only (60_exceptions.md R343). -/

@[simp] theorem State.accept_arg (s : State) (i : Fin 8) : s.accept.arg i = s.arg i := rfl
@[simp] theorem State.accept_argNat (s : State) (i : Fin 8) : s.accept.argNat i = s.argNat i := rfl
@[simp] theorem State.accept_buf (s : State) (id : Word) : s.accept.buf id = s.buf id := rfl
@[simp] theorem State.accept_bufAt (s : State) (w : Bool) (i : Nat) : s.accept.bufAt w i = s.bufAt w i := rfl
@[simp] theorem State.accept_bufs (s : State) (base : Word) (dist r : Nat) : s.accept.bufs base dist r = s.bufs base dist r :=
    rfl
@[simp] theorem State.accept_slotAddr (s : State) (i : Nat) : s.accept.slotAddr i = s.slotAddr i := rfl
@[simp] theorem State.accept_stgAddr (s : State) (i : Nat) : s.accept.stgAddr i = s.stgAddr i := rfl
@[simp] theorem State.accept_slenWord (s : State) (i : Nat) : s.accept.slenWord i = s.slenWord i := rfl
@[simp] theorem State.accept_slenAt (s : State) (i : Nat) : s.accept.slenAt i = s.slenAt i := rfl
@[simp] theorem State.accept_slotBytes (s : State) (i n : Nat) : s.accept.slotBytes i n = s.slotBytes i n :=
    rfl
@[simp] theorem State.accept_stgBytes (s : State) (i n : Nat) : s.accept.stgBytes i n = s.stgBytes i n := rfl
@[simp] theorem State.accept_bufBytes (s : State) (b : Buf) (n : Nat) : s.accept.bufBytes b n = s.bufBytes b n :=
    rfl
@[simp] theorem State.accept_bufLen (s : State) (b : Buf) : s.accept.bufLen b = s.bufLen b :=
    by cases b <;> rfl
@[simp] theorem State.accept_bufRow (s : State) (f : GF) (b : Buf) (n : Nat) : s.accept.bufRow f b n = s.bufRow f b n :=
    rfl
@[simp] theorem State.accept_memByte (s : State) (w : Bool) (a : Nat) : s.accept.memByte w a = s.memByte w a :=
    rfl
@[simp] theorem State.accept_bufByte (s : State) (b : Buf) (j : Nat) : s.accept.bufByte b j = s.bufByte b j :=
    rfl
@[simp] theorem State.accept_inPort (s : State) (i : Nat) : s.accept.inPort i = s.inPort i := rfl
@[simp] theorem State.accept_outPort (s : State) (i : Nat) : s.accept.outPort i = s.outPort i := rfl
@[simp] theorem State.accept_size64 (s : State) : s.accept.size64 = s.size64 := rfl
@[simp] theorem State.accept_field (s : State) : s.accept.field = s.field := rfl
@[simp] theorem State.accept_k (s : State) : s.accept.k = s.k := rfl
@[simp] theorem State.accept_m (s : State) : s.accept.m = s.m := rfl
@[simp] theorem State.accept_n (s : State) : s.accept.n = s.n := rfl
@[simp] theorem State.accept_mpow (s : State) : s.accept.mpow = s.mpow := rfl
@[simp] theorem State.accept_encodeNeed (s : State) : s.accept.encodeNeed = s.encodeNeed := rfl
@[simp] theorem State.accept_decodeNeed (s : State) : s.accept.decodeNeed = s.decodeNeed := rfl
@[simp] theorem State.accept_blockSize (s : State) : s.accept.blockSize = s.blockSize := rfl
@[simp] theorem State.accept_blockOk (s : State) : s.accept.blockOk = s.blockOk := rfl
@[simp] theorem State.accept_absent (s : State) (i : Nat) : s.accept.absent i = s.absent i := rfl
@[simp] theorem State.accept_joinAvail (s : State) : s.accept.joinAvail = s.joinAvail := rfl
@[simp] theorem State.accept_inConn (s : State) (i : Nat) : s.accept.inConn i = s.inConn i := rfl
@[simp] theorem State.accept_outConn (s : State) (i : Nat) : s.accept.outConn i = s.outConn i := rfl
@[simp] theorem State.accept_presentLen (s : State) : s.accept.presentLen = s.presentLen := rfl
@[simp] theorem State.accept_absentCount (s : State) : s.accept.absentCount = s.absentCount := rfl
@[simp] theorem State.accept_disconnectedCount (s : State) : s.accept.disconnectedCount = s.disconnectedCount :=
    rfl
@[simp] theorem State.accept_left (s : State) (i : Nat) : s.accept.left i = s.left i := rfl

/-- A command that fails at entry leaves the state but for what acceptance and the error write. -/
theorem State.accept_complete_some (s : State) (e : Err) (h : e.ioInfo = none) :
    s.accept.complete (some e) = s.failed e := by
  rw [State.complete_some _ _ h]; rfl

/-- A command that writes nothing leaves the state but for what acceptance and completion write. -/
theorem State.accept_complete_none (s : State) : s.accept.complete none = s.succeeded 0 := rfl

/-- A query's completion. -/
theorem State.accept_setResult_complete (s : State) (v : Nat) :
    (s.accept.setResult v).complete none = s.succeeded (BitVec.ofNat 32 v) := rfl

/-- A command that makes no port operation, when its rule succeeds. -/
theorem State.command_ok (s : State) (rule : State → Except Err State) (t : State)
    (h : rule s.accept = .ok t) : s.command rule = t.complete none := by
  simp [State.command, h]

/-- A command that makes no port operation, when its rule fails. -/
theorem State.command_error (s : State) (rule : State → Except Err State) (e : Err)
    (h : rule s.accept = .error e) (he : e.ioInfo = none) : s.command rule = s.failed e := by
  simp only [State.command, h]; exact s.accept_complete_some e he

/-- `check` succeeds when its condition holds. -/
theorem check_true (e : Err) : check true e = .ok () := rfl

/-- `check` raises its error when its condition fails. -/
theorem check_false (e : Err) : check false e = .error e := rfl

end Sys2Proof.Machine
end

