-- ==== Sys2Proof/Laws/Buffers.lean ====
section
/-! SUPPORT. What a write to a buffer does: the bytes and the row read back, every other byte as before, and that
distinct buffers do not overlap. -/

namespace Sys2Proof.Machine

/-- A byte after a write to a buffer. -/
theorem State.memByte_setBufBytes (s : State) (b : Buf) (bs : List Byte) (inWork : Bool) (a : Nat) :
    (s.setBufBytes b bs).memByte inWork a =
      if inWork = b.inWork ∧ s.slotAddr b.index ≤ a ∧ a < s.slotAddr b.index + bs.length then
        bs.getD (a - s.slotAddr b.index) 0
      else s.memByte inWork a := by
  cases b <;> cases inWork <;>
    simp [State.setBufBytes, State.memByte, Buf.inWork, Buf.index, State.setSlotBytes, State.setWorkBytes,
      Memory.read_writeBytes]

@[simp] theorem State.setBufBytes_slotAddr (s : State) (b : Buf) (bs : List Byte) (i : Nat) :
    (s.setBufBytes b bs).slotAddr i = s.slotAddr i := by cases b <;> rfl

/-- A write to a buffer keeps every byte outside what it writes. -/
theorem State.keepsBytesBut_setBufBytes (s : State) (b : Buf) (bs : List Byte) :
    s.KeepsBytesBut (s.setBufBytes b bs) [b] bs.length := by
  intro inWork a h
  rw [State.memByte_setBufBytes, if_neg]
  exact h b (by simp)

/-- The bytes of a buffer, read one by one. -/
theorem State.bufBytes_eq (s : State) (b : Buf) (n : Nat) :
    s.bufBytes b n = (List.range n).map fun j => s.bufByte b j := by
  cases b <;> simp [State.bufBytes, State.bufByte, State.memByte, Buf.inWork, Buf.index, Memory.readBytes_eq]

@[simp] theorem State.length_bufBytes (s : State) (b : Buf) (n : Nat) : (s.bufBytes b n).length = n := by
  simp [State.bufBytes_eq]

/-- Buffers that hold the same bytes read the same. -/
theorem State.bufBytes_congr (s t : State) (b : Buf) (n : Nat)
    (h : ∀ j < n, s.bufByte b j = t.bufByte b j) : s.bufBytes b n = t.bufBytes b n := by
  rw [State.bufBytes_eq, State.bufBytes_eq]
  exact List.map_congr_left fun j hj => h j (List.mem_range.1 hj)

/-- Reading back what was written to a buffer. -/
theorem State.bufBytes_setBufBytes_same (s : State) (b : Buf) (bs : List Byte) :
    (s.setBufBytes b bs).bufBytes b bs.length = bs := by
  cases b <;> exact Memory.readBytes_writeBytes_same _ _ _

/-- Two distinct buffers of one space start at least SLOT_CAP bytes apart. -/
theorem State.slotAddr_apart (s : State) (i j : Nat) (h : i ≠ j) :
    s.slotAddr i + s.params.slotCap ≤ s.slotAddr j ∨ s.slotAddr j + s.params.slotCap ≤ s.slotAddr i := by
  unfold State.slotAddr
  rcases Nat.lt_or_gt_of_ne h with h | h
  · left
    calc i * s.params.slotCap + s.params.slotCap = (i + 1) * s.params.slotCap := by ring
      _ ≤ j * s.params.slotCap := Nat.mul_le_mul_right _ h
  · right
    calc j * s.params.slotCap + s.params.slotCap = (j + 1) * s.params.slotCap := by ring
      _ ≤ i * s.params.slotCap := Nat.mul_le_mul_right _ h

/-- No address lies in two distinct buffers. -/
theorem State.inBuf_unique (s : State) (b c : Buf) (len : Nat) (h : len ≤ s.params.slotCap) (inWork : Bool)
    (a : Nat) (hb : s.InBuf b len inWork a) (hc : s.InBuf c len inWork a) : b = c := by
  obtain ⟨hw, h1, h2⟩ := hb
  obtain ⟨hw', h3, h4⟩ := hc
  by_contra hne
  have hi : b.index ≠ c.index := by
    intro e
    apply hne
    cases b <;> cases c <;> simp_all [Buf.inWork, Buf.index]
  have := s.slotAddr_apart _ _ hi
  omega

/-- A write of at most SLOT_CAP bytes to a buffer leaves every other buffer alone. -/
theorem State.bufBytes_setBufBytes_apart (s : State) (b c : Buf) (bs : List Byte) (n : Nat) (h : b ≠ c)
    (hb : bs.length ≤ s.params.slotCap) (hn : n ≤ s.params.slotCap) :
    (s.setBufBytes b bs).bufBytes c n = s.bufBytes c n := by
  apply State.bufBytes_congr
  intro j hj
  unfold State.bufByte
  rw [State.setBufBytes_slotAddr, State.memByte_setBufBytes, if_neg]
  rintro ⟨hw, h1, h2⟩
  have hi : b.index ≠ c.index := by
    intro e
    apply h
    cases b <;> cases c <;> simp_all [Buf.inWork, Buf.index]
  have := s.slotAddr_apart _ _ hi
  omega

@[simp] theorem State.length_bufRow (s : State) (f : GF) (b : Buf) (len : Nat)
    (h : lenAligned f s.params.layout len = true) : (s.bufRow f b len).length = elemCount f len := by
  unfold State.bufRow
  rw [length_elemsOfBytes _ _ _ (by simpa using h), State.length_bufBytes]

theorem State.bounded_bufRow (s : State) (f : GF) (b : Buf) (len : Nat) : f.Bounded (s.bufRow f b len) :=
  bounded_elemsOfBytes _ _ _

/-- A row that fits `len` bytes: its number of elements and their range. -/
def State.RowFits (s : State) (f : GF) (len : Nat) (r : Row) : Prop :=
  lenAligned f s.params.layout len = true ∧ r.length = elemCount f len ∧ f.Bounded r

theorem State.RowFits.length {s : State} {f : GF} {len : Nat} {r : Row} (h : s.RowFits f len r) :
    (bytesOfElems f s.params.layout r).length = len :=
  length_bytesOfElems _ _ _ _ h.1 h.2.1

theorem State.rowFits_bufRow (s : State) (f : GF) (b : Buf) (len : Nat)
    (h : lenAligned f s.params.layout len = true) : s.RowFits f len (s.bufRow f b len) :=
  ⟨h, s.length_bufRow f b len h, s.bounded_bufRow f b len⟩

/-- Reading back a row written to a buffer. -/
theorem State.bufRow_setBufRow_same (s : State) (f : GF) (b : Buf) (len : Nat) (r : Row)
    (h : s.RowFits f len r) : (s.setBufRow f b r).bufRow f b len = r := by
  have hl := h.length
  unfold State.bufRow State.setBufRow
  conv_lhs => rw [← hl]
  rw [State.bufBytes_setBufBytes_same]
  have : (s.setBufBytes b (bytesOfElems f s.params.layout r)).params = s.params := by cases b <;> rfl
  rw [this]
  exact elemsOfBytes_bytesOfElems _ _ _ _ h.1 h.2.1 h.2.2

/-- A row written to a buffer leaves the rows of other buffers alone. -/
theorem State.bufRow_setBufRow_apart (s : State) (f : GF) (b c : Buf) (len : Nat) (r : Row)
    (h : s.RowFits f len r) (hne : b ≠ c) (hc : len ≤ s.params.slotCap) :
    (s.setBufRow f b r).bufRow f c len = s.bufRow f c len := by
  unfold State.bufRow State.setBufRow
  rw [State.bufBytes_setBufBytes_apart _ _ _ _ _ hne (by rw [h.length]; exact hc) hc]
  cases b <;> rfl

/-- A byte after a row is written to a buffer. -/
theorem State.keepsBytesBut_setBufRow (s : State) (f : GF) (b : Buf) (len : Nat) (r : Row)
    (h : s.RowFits f len r) : s.KeepsBytesBut (s.setBufRow f b r) [b] len := by
  have := s.keepsBytesBut_setBufBytes b (bytesOfElems f s.params.layout r)
  rwa [h.length] at this

/-- Writes to two lists of buffers, one after the other. -/
theorem State.KeepsBytesBut.trans {s t u : State} {bs cs : List Buf} {len : Nat}
    (h₁ : s.KeepsBytesBut t bs len) (h₂ : t.KeepsBytesBut u cs len) (hp : t.params = s.params) :
    s.KeepsBytesBut u (bs ++ cs) len := by
  intro inWork a h
  rw [h₂ inWork a fun c hc => ?_, h₁ inWork a fun b hb => h b (by simp [hb])]
  have := h c (by simp [hc])
  simpa [State.InBuf, State.slotAddr, hp] using this

/-- The buffers that a base id and a distance name are distinct. -/
theorem State.bufs_index (s : State) (base : Word) (dist r : Nat) (bs : List Buf)
    (h : s.bufs base dist r = some bs) : dist ≠ 0 ∧
      bs = (List.range r).map fun j =>
        if base.getLsbD 31 then Buf.work ((base.extractLsb' 0 16).toNat + j * dist)
        else .slot ((base.extractLsb' 0 16).toNat + j * dist) := by
  unfold State.bufs at h
  split at h
  · cases h
  · rename_i hc
    refine ⟨fun e => hc (Or.inr e), ?_⟩
    have key : ∀ (l : List Nat) (bs : List Buf),
        (l.mapM fun j => s.bufAt (base.getLsbD 31) ((base.extractLsb' 0 16).toNat + j * dist)) = some bs →
        bs = l.map fun j =>
          if base.getLsbD 31 then Buf.work ((base.extractLsb' 0 16).toNat + j * dist)
          else .slot ((base.extractLsb' 0 16).toNat + j * dist) := by
      intro l
      induction l with
      | nil => intro bs h; simpa using h.symm
      | cons j l ih =>
        intro bs h
        rw [List.mapM_cons] at h
        simp only [Option.pure_def, Option.bind_eq_bind, Option.bind_eq_some_iff, Option.some.injEq] at h
        obtain ⟨b, hb, cs, hcs, rfl⟩ := h
        rw [List.map_cons, ← ih cs hcs]
        congr 1
        unfold State.bufAt at hb
        split at hb <;> rename_i hw <;> split at hb <;> simp_all
    exact key _ _ h

/-- The operands of a butterfly are pairwise distinct (43_butterflies.md R210). -/
theorem State.bufs_apart (s : State) (base : Word) (dist r : Nat) (bs : List Buf)
    (h : s.bufs base dist r = some bs) : bs.Pairwise (· ≠ ·) := by
  obtain ⟨hd, rfl⟩ := s.bufs_index base dist r bs h
  rw [List.pairwise_map]
  refine (List.pairwise_lt_range (n := r)).imp fun {a b} hab => ?_
  have : a * dist < b * dist := Nat.mul_lt_mul_of_pos_right hab (Nat.pos_of_ne_zero hd)
  by_cases hw : base.getLsbD 31 <;> simp only [hw, if_true, Bool.false_eq_true, if_false, ne_eq,
    Buf.work.injEq, Buf.slot.injEq] <;> omega

end Sys2Proof.Machine
end

