-- ==== Sys2Proof/Laws/Kernels.lean ====
section
/-! SUPPORT. What the operand checks of the kernels and the butterflies answer, and what a command that writes
buffers leaves. -/

namespace Sys2Proof.Machine

/-- A check, and what follows it. -/
theorem check_bind {α : Type} (ok : Bool) (e : Err) (k : Unit → Except Err α) :
    (check ok e >>= k) = if ok then k () else .error e := by
  cases ok <;> rfl

/-- A check with nothing after it. -/
theorem check_eq (ok : Bool) (e : Err) : check ok e = if ok then .ok () else .error e := rfl

/-- A kernel with a buffer id that names nothing (42_kernels.md R190, step 1). -/
theorem State.kernelBufs_none (s : State) (logIn aligned : Bool)
    (h : s.buf (s.arg 0) = none ∨ s.buf (s.arg 1) = none) :
    s.kernelBufs logIn aligned = .error .illegalOperand := by
  unfold State.kernelBufs
  rcases h with h | h
  · rw [h]
  · rw [h]; cases s.buf (s.arg 0) <;> rfl

/-- All that the checks of a kernel on two buffers can answer (42_kernels.md R190, steps 2 to 4). -/
theorem State.kernelBufs_some (s : State) (logIn aligned : Bool) (b0 b1 : Buf)
    (h0 : s.buf (s.arg 0) = some b0) (h1 : s.buf (s.arg 1) = some b1) :
    s.kernelBufs logIn aligned =
      if logIn = false then .error .illegalOperand
      else if s.bufLen b0 < s.argNat 2 ∨ s.bufLen b1 < s.argNat 2 ∨ aligned = false then .error .shardSize
      else .ok (b0, b1) := by
  unfold State.kernelBufs
  rw [h0, h1]
  simp only [check_bind]
  cases logIn <;> cases aligned <;> by_cases hb0 : s.argNat 2 ≤ s.bufLen b0 <;>
    by_cases hb1 : s.argNat 2 ≤ s.bufLen b1 <;> (simp [hb0, hb1, Nat.not_le.1, Nat.not_lt.2]; try rfl)

/-- A butterfly whose base id or distance names no buffers (43_butterflies.md R210, checks 1 and 2). -/
theorem State.butterflyBufs_none (s : State) (f : GF) (r : Nat) (twiddles : List Nat)
    (h : s.bufs (s.arg 0) (s.argNat 1) r = none) :
    s.butterflyBufs f r twiddles = .error .illegalOperand := by
  unfold State.butterflyBufs
  rw [h]

/-- All that the checks of a butterfly on its buffers can answer (43_butterflies.md R210, checks 3 to 5). -/
theorem State.butterflyBufs_some (s : State) (f : GF) (r : Nat) (twiddles : List Nat) (bs : List Buf)
    (h : s.bufs (s.arg 0) (s.argNat 1) r = some bs) :
    s.butterflyBufs f r twiddles =
      if ∃ t ∈ twiddles, f.mod < t then .error .illegalOperand
      else if (∃ b ∈ bs, s.bufLen b < s.argNat 2) ∨ lenAligned f s.params.layout (s.argNat 2) = false then
        .error .shardSize
      else .ok bs := by
  unfold State.butterflyBufs
  rw [h]
  simp only [check_bind]
  by_cases ht : ∃ t ∈ twiddles, f.mod < t
  · have : twiddles.all (logOk f) = false := by simpa [logOk] using ht
    rw [this, if_pos ht]; rfl
  · have : twiddles.all (logOk f) = true := by simpa [logOk] using ht
    rw [this, if_neg ht, if_pos rfl]
    by_cases hl : ∃ b ∈ bs, s.bufLen b < s.argNat 2
    · have : (bs.all fun b => decide (s.argNat 2 ≤ s.bufLen b)) = false := by simpa using hl
      rw [this, if_pos (Or.inl hl)]; rfl
    · have : (bs.all fun b => decide (s.argNat 2 ≤ s.bufLen b)) = true := by simpa using hl
      rw [this, if_pos rfl]
      cases lenAligned f s.params.layout (s.argNat 2) <;> (simp [hl]; try rfl)

theorem State.SameButMemory.refl (s : State) : s.SameButMemory s := rfl

/-- Writing a buffer changes memory only. -/
theorem State.sameButMemory_setBufBytes {t u : State} (h : t.SameButMemory u) (b : Buf) (bs : List Byte) :
    (t.setBufBytes b bs).SameButMemory u := by
  cases b <;> exact h

/-- A command whose rule writes memory only ends as a successful command with RESULT = 0. -/
theorem State.sameButMemory_command (s : State) (rule : State → Except Err State) (t : State)
    (h : rule s.accept = .ok t) (ht : t.SameButMemory s.accept) :
    (s.command rule).SameButMemory (s.succeeded 0) := by
  rw [State.command_ok s rule t h]
  unfold State.SameButMemory at ht ⊢
  have : (s.succeeded 0) = { s.accept with
      status := { s.accept.status with done := true }, seq := .idle, job := none } := rfl
  rw [this, ← ht]
  rfl

/-- A command whose rule succeeds holds the memory that its rule left. -/
theorem State.memByte_command (s : State) (rule : State → Except Err State) (t : State)
    (h : rule s.accept = .ok t) (inWork : Bool) (a : Nat) :
    (s.command rule).memByte inWork a = t.memByte inWork a := by
  rw [State.command_ok s rule t h]; rfl

theorem State.bufRow_command (s : State) (rule : State → Except Err State) (t : State)
    (h : rule s.accept = .ok t) (f : GF) (b : Buf) (len : Nat) :
    (s.command rule).bufRow f b len = t.bufRow f b len := by
  rw [State.command_ok s rule t h]; cases b <;> rfl

end Sys2Proof.Machine
end

