-- ==== Sys2Proof/Laws/Transform.lean ====
section
/-! SUPPORT. The transforms keep the shape of their rows: as many rows, each of as many elements, each element
below 2^w. The same for the encoder and the decoder. -/

namespace Sys2Proof

/-- `size` rows of `n` elements below 2^w. -/
def GF.Shaped (f : GF) (size n : Nat) (V : Rows) : Prop :=
  V.size = size ∧ ∀ i < size, (V.getD i []).length = n ∧ f.Bounded (V.getD i [])

theorem Rows.getD_set (V : Rows) (i j : Nat) (r : Row) :
    (V.setIfInBounds i r).getD j [] = if i = j ∧ i < V.size then r else V.getD j [] := by
  simp only [Array.getD_eq_getD_getElem?, Array.getElem?_setIfInBounds]
  by_cases h : i = j
  · subst h
    by_cases h' : i < V.size <;> simp [h']
  · simp [h]

theorem GF.shaped_set (f : GF) (size n : Nat) (V : Rows) (h : f.Shaped size n V) (i : Nat) (r : Row)
    (hr : r.length = n ∧ f.Bounded r) : f.Shaped size n (V.setIfInBounds i r) := by
  refine ⟨by rw [Array.size_setIfInBounds]; exact h.1, fun j hj => ?_⟩
  rw [Rows.getD_set]
  split
  · exact hr
  · exact h.2 j hj

/-- A radix-2 operation on rows that keeps length and bounds. -/
def GF.Keeps2 (f : GF) (op : Row → Row → Row × Row) : Prop :=
  ∀ n a b, a.length = n → b.length = n → f.Bounded a → f.Bounded b →
    ((op a b).1.length = n ∧ f.Bounded (op a b).1) ∧ ((op a b).2.length = n ∧ f.Bounded (op a b).2)

/-- A radix-4 operation on rows that keeps length and bounds. -/
def GF.Keeps4 (f : GF) (op : Row → Row → Row → Row → Row × Row × Row × Row) : Prop :=
  ∀ n a b c d, a.length = n → b.length = n → c.length = n → d.length = n →
    f.Bounded a → f.Bounded b → f.Bounded c → f.Bounded d →
    ((op a b c d).1.length = n ∧ f.Bounded (op a b c d).1)
      ∧ ((op a b c d).2.1.length = n ∧ f.Bounded (op a b c d).2.1)
      ∧ ((op a b c d).2.2.1.length = n ∧ f.Bounded (op a b c d).2.2.1)
      ∧ ((op a b c d).2.2.2.length = n ∧ f.Bounded (op a b c d).2.2.2)

theorem GF.keeps2_fft2 (f : GF) (t : Nat) : f.Keeps2 fun a b => f.fft2 a b t :=
  fun n a b ha hb ba bb =>
    ⟨⟨(f.fft2_length a b t n ha hb).1, (f.fft2_bounded a b t ba bb).1⟩,
      ⟨(f.fft2_length a b t n ha hb).2, (f.fft2_bounded a b t ba bb).2⟩⟩

theorem GF.keeps2_ifft2 (f : GF) (t : Nat) : f.Keeps2 fun a b => f.ifft2 a b t :=
  fun n a b ha hb ba bb =>
    ⟨⟨(f.ifft2_length a b t n ha hb).1, (f.ifft2_bounded a b t ba bb).1⟩,
      ⟨(f.ifft2_length a b t n ha hb).2, (f.ifft2_bounded a b t ba bb).2⟩⟩

theorem GF.keeps4_fft4 (f : GF) (t01 t23 t02 : Nat) :
    f.Keeps4 fun a b c d => f.fft4 a b c d t01 t23 t02 := by
  intro n a b c d ha hb hc hd ba bb bc bd
  have h₁ := f.keeps2_fft2 t02 n a c ha hc ba bc
  have h₂ := f.keeps2_fft2 t02 n b d hb hd bb bd
  have h₃ := f.keeps2_fft2 t01 n _ _ h₁.1.1 h₂.1.1 h₁.1.2 h₂.1.2
  have h₄ := f.keeps2_fft2 t23 n _ _ h₁.2.1 h₂.2.1 h₁.2.2 h₂.2.2
  exact ⟨h₃.1, h₃.2, h₄.1, h₄.2⟩

theorem GF.keeps4_ifft4 (f : GF) (t01 t23 t02 : Nat) :
    f.Keeps4 fun a b c d => f.ifft4 a b c d t01 t23 t02 := by
  intro n a b c d ha hb hc hd ba bb bc bd
  have h₁ := f.keeps2_ifft2 t01 n a b ha hb ba bb
  have h₂ := f.keeps2_ifft2 t23 n c d hc hd bc bd
  have h₃ := f.keeps2_ifft2 t02 n _ _ h₁.1.1 h₂.1.1 h₁.1.2 h₂.1.2
  have h₄ := f.keeps2_ifft2 t02 n _ _ h₁.2.1 h₂.2.1 h₁.2.2 h₂.2.2
  exact ⟨h₃.1, h₄.1, h₃.2, h₄.2⟩

theorem GF.shaped_at2 (f : GF) (size n : Nat) (V : Rows) (h : f.Shaped size n V) (i dist : Nat)
    (op : Row → Row → Row × Row) (hop : f.Keeps2 op) (hi : i + dist < size) :
    f.Shaped size n (V.at2 i dist op) := by
  have h₀ := h.2 i (by omega)
  have h₁ := h.2 (i + dist) hi
  have hk := hop n _ _ h₀.1 h₁.1 h₀.2 h₁.2
  exact f.shaped_set _ _ _ (f.shaped_set _ _ _ h _ _ hk.1) _ _ hk.2

theorem GF.shaped_at4 (f : GF) (size n : Nat) (V : Rows) (h : f.Shaped size n V) (i dist : Nat)
    (op : Row → Row → Row → Row → Row × Row × Row × Row) (hop : f.Keeps4 op)
    (hi : i + 3 * dist < size) : f.Shaped size n (V.at4 i dist op) := by
  have h₀ := h.2 i (by omega)
  have h₁ := h.2 (i + dist) (by omega)
  have h₂ := h.2 (i + 2 * dist) (by omega)
  have h₃ := h.2 (i + 3 * dist) hi
  have hk := hop n _ _ _ _ h₀.1 h₁.1 h₂.1 h₃.1 h₀.2 h₁.2 h₂.2 h₃.2
  exact f.shaped_set _ _ _ (f.shaped_set _ _ _ (f.shaped_set _ _ _ (f.shaped_set _ _ _ h _ _ hk.1) _ _
    hk.2.1) _ _ hk.2.2.1) _ _ hk.2.2.2

/-- A loop over a list keeps what each of its steps keeps. -/
theorem foldl_keeps {α β : Type} (P : β → Prop) (step : β → α → β) (l : List α) (b : β) (h : P b)
    (hs : ∀ b, ∀ x ∈ l, P b → P (step b x)) : P (l.foldl step b) := by
  induction l generalizing b with
  | nil => exact h
  | cons x l ih =>
    exact ih _ (hs b x (by simp) h) fun b y hy hb => hs b y (by simp [hy]) hb

theorem ceilDiv_mul_le (mtrunc size d : Nat) (hd : 0 < d) (hdvd : d ∣ size) (hle : mtrunc ≤ size) (g : Nat)
    (hg : g < ceilDiv mtrunc d) : g * d + d ≤ size := by
  obtain ⟨c, rfl⟩ := hdvd
  have h : ceilDiv mtrunc d ≤ c := by
    unfold ceilDiv
    have : (mtrunc + d - 1) / d < c + 1 := by
      rw [Nat.div_lt_iff_lt_mul hd]
      have e : (c + 1) * d = d * c + d := by ring
      omega
    omega
  calc g * d + d = (g + 1) * d := by ring
    _ ≤ c * d := Nat.mul_le_mul_right d (by omega)
    _ = d * c := by ring

theorem GF.shaped_level4 (f : GF) (size n : Nat) (V : Rows) (h : f.Shaped size n V)
    (op : Row → Row → Row → Row → Nat → Nat → Nat → Row × Row × Row × Row)
    (hop : ∀ t01 t23 t02, f.Keeps4 fun a b c d => op a b c d t01 t23 t02)
    (mtrunc off dist : Nat) (hd : 0 < dist) (hdvd : 4 * dist ∣ size) (hle : mtrunc ≤ size) :
    f.Shaped size n (f.level4 op mtrunc off dist V) := by
  unfold GF.level4
  refine foldl_keeps (f.Shaped size n) _ _ _ h fun V g hg hV => ?_
  have hg' := ceilDiv_mul_le mtrunc size (4 * dist) (by omega) hdvd hle g (List.mem_range.1 hg)
  refine foldl_keeps (f.Shaped size n) _ _ _ hV fun V i hi hV => ?_
  have hi' := List.mem_range.1 hi
  exact f.shaped_at4 size n V hV _ dist _ (hop _ _ _) (by omega)

theorem GF.shaped_ifftLevels (f : GF) (e n mtrunc off : Nat) (hle : mtrunc ≤ 2 ^ e) (fuel a : Nat)
    (V : Rows) (h : f.Shaped (2 ^ e) n V) (ha : a ≤ e) :
    ∃ a', a' ≤ e ∧ (f.ifftLevels mtrunc (2 ^ e) off fuel (2 ^ a) V).1 = 2 ^ a' ∧
      f.Shaped (2 ^ e) n (f.ifftLevels mtrunc (2 ^ e) off fuel (2 ^ a) V).2 := by
  induction fuel generalizing a V with
  | zero => exact ⟨a, ha, rfl, h⟩
  | succ fuel ih =>
    unfold GF.ifftLevels
    split
    · rename_i h4
      have e4 : 4 * 2 ^ a = 2 ^ (a + 2) := by rw [Nat.pow_add]; ring
      rw [e4] at h4 ⊢
      have ha2 : a + 2 ≤ e := (Nat.pow_le_pow_iff_right (by decide)).1 h4
      exact ih (a + 2) _ (f.shaped_level4 _ _ _ h _ (fun _ _ _ => f.keeps4_ifft4 _ _ _) _ _ _
        (Nat.two_pow_pos a) (by rw [e4]; exact pow_dvd_pow 2 ha2) hle) ha2
    · exact ⟨a, ha, rfl, h⟩

/-- The inverse transform keeps the shape of its rows. -/
theorem GF.shaped_ifft (f : GF) (e n : Nat) (V : Rows) (mtrunc off : Nat) (hle : mtrunc ≤ 2 ^ e)
    (h : f.Shaped (2 ^ e) n V) : f.Shaped (2 ^ e) n (f.ifft V mtrunc (2 ^ e) off) := by
  obtain ⟨a, ha, hd, hV⟩ := f.shaped_ifftLevels e n mtrunc off hle f.width 0 V h (Nat.zero_le e)
  simp only [Nat.pow_zero] at hd hV
  unfold GF.ifft
  simp only
  split
  · rename_i hlt
    rw [hd] at hlt ⊢
    have hlt' : a < e := (Nat.pow_lt_pow_iff_right (by decide)).1 hlt
    have h2 : 2 ^ a + 2 ^ a ≤ 2 ^ e := by
      have : 2 ^ (a + 1) ≤ 2 ^ e := Nat.pow_le_pow_right (by decide) hlt'
      rw [Nat.pow_succ] at this; omega
    refine foldl_keeps (f.Shaped (2 ^ e) n) _ _ _ hV fun V i hi hV => ?_
    have := List.mem_range.1 hi
    exact f.shaped_at2 _ _ V hV _ _ _ (f.keeps2_ifft2 _) (by omega)
  · exact hV

theorem GF.shaped_fftLevels (f : GF) (e n mtrunc off : Nat) (hle : mtrunc ≤ 2 ^ e) (fuel a : Nat)
    (V : Rows) (h : f.Shaped (2 ^ e) n V) (ha : a ≤ e) :
    ∃ a', a' ≤ e ∧ (f.fftLevels mtrunc off fuel (2 ^ a) V).1 = 2 ^ a' ∧
      f.Shaped (2 ^ e) n (f.fftLevels mtrunc off fuel (2 ^ a) V).2 := by
  induction fuel generalizing a V with
  | zero => exact ⟨a, ha, rfl, h⟩
  | succ fuel ih =>
    unfold GF.fftLevels
    split
    · rename_i h4
      have ha2 : 2 ≤ a := by
        by_contra hc
        have : 2 ^ a < 4 := by
          calc 2 ^ a ≤ 2 ^ 1 := Nat.pow_le_pow_right (by decide) (by omega)
            _ < 4 := by decide
        exact h4 (Nat.div_eq_of_lt this)
      have e4 : 2 ^ a / 4 = 2 ^ (a - 2) := by
        rw [show (4 : Nat) = 2 ^ 2 by rfl, Nat.pow_div ha2 (by decide)]
      rw [e4]
      have e5 : 4 * 2 ^ (a - 2) = 2 ^ a := by
        rw [show (4 : Nat) = 2 ^ 2 by rfl, ← Nat.pow_add]; congr 1; omega
      exact ih (a - 2) _ (f.shaped_level4 _ _ _ h _ (fun _ _ _ => f.keeps4_fft4 _ _ _) _ _ _
        (Nat.two_pow_pos _) (by rw [e5]; exact pow_dvd_pow 2 ha) hle) (by omega)
    · exact ⟨a, ha, rfl, h⟩

/-- The forward transform keeps the shape of its rows. -/
theorem GF.shaped_fft (f : GF) (e n : Nat) (V : Rows) (mtrunc off : Nat) (hle : mtrunc ≤ 2 ^ e)
    (h : f.Shaped (2 ^ e) n V) : f.Shaped (2 ^ e) n (f.fft V mtrunc (2 ^ e) off) := by
  obtain ⟨a, ha, hd, hV⟩ := f.shaped_fftLevels e n mtrunc off hle f.width e V h le_rfl
  unfold GF.fft
  simp only
  split
  · rename_i h2
    rw [hd] at h2
    have hdvd : 2 ∣ 2 ^ e := by
      have : 1 ≤ a := by
        by_contra hc
        have : a = 0 := by omega
        subst this; simp at h2
      exact dvd_pow_self 2 (by omega)
    refine foldl_keeps (f.Shaped (2 ^ e) n) _ _ _ hV fun V g hg hV => ?_
    have := ceilDiv_mul_le mtrunc (2 ^ e) 2 (by decide) hdvd hle g (List.mem_range.1 hg)
    exact f.shaped_at2 _ _ V hV _ _ _ (f.keeps2_fft2 _) (by omega)
  · exact hV

@[simp] theorem length_zeroRow (n : Nat) : (zeroRow n).length = n := by simp [zeroRow]

theorem GF.bounded_zeroRow (f : GF) (n : Nat) : f.Bounded (zeroRow n) := by
  intro e he
  rw [List.eq_of_mem_replicate he]
  have := f.two_le_order; omega

/-- Rows built one by one have the shape of each. -/
theorem GF.shaped_ofList (f : GF) (size n : Nat) (g : Nat → Row)
    (h : ∀ i < size, (g i).length = n ∧ f.Bounded (g i)) :
    f.Shaped size n ((List.range size).map g).toArray := by
  refine ⟨by simp, fun i hi => ?_⟩
  have : ((List.range size).map g).toArray.getD i [] = g i := by
    simp [Array.getD_eq_getD_getElem?, hi]
  rw [this]; exact h i hi

theorem ceilPow2_eq (x : Nat) : ∃ e, ceilPow2 x = 2 ^ e := by
  unfold ceilPow2
  split
  · exact ⟨0, rfl⟩
  · exact ⟨_, rfl⟩

theorem le_ceilPow2 (x : Nat) : x ≤ ceilPow2 x := by
  unfold ceilPow2
  split
  · assumption
  · have := Nat.lt_log2_self (n := x - 1)
    omega

theorem ceilPow2_pos (x : Nat) : 0 < ceilPow2 x := by
  obtain ⟨e, h⟩ := ceilPow2_eq x
  rw [h]; exact Nat.two_pow_pos e

/-- One chunk of the encoder has M rows of the data's shape. -/
theorem GF.shaped_encChunk (f : GF) (k e n : Nat) (data : Nat → Row) (j : Nat)
    (hd : ∀ d < k, (data d).length = n ∧ f.Bounded (data d)) :
    f.Shaped (2 ^ e) n (f.encChunk k (2 ^ e) n data j) := by
  unfold GF.encChunk
  apply f.shaped_ifft e n _ _ _ (Nat.min_le_left _ _)
  apply f.shaped_ofList
  intro i _
  split
  · rename_i h
    exact hd _ (by omega)
  · exact ⟨length_zeroRow n, f.bounded_zeroRow n⟩

theorem GF.shaped_zipWith (f : GF) (size n : Nat) (V W : Rows) (hV : f.Shaped size n V)
    (hW : f.Shaped size n W) : f.Shaped size n (Array.zipWith xorRow V W) := by
  refine ⟨by simp [hV.1, hW.1], fun i hi => ?_⟩
  have hv := hV.2 i hi
  have hw := hW.2 i hi
  have h1 : i < V.size := by rw [hV.1]; exact hi
  have h2 : i < W.size := by rw [hW.1]; exact hi
  have : (Array.zipWith xorRow V W).getD i [] = xorRow (V.getD i []) (W.getD i []) := by
    simp [Array.getD_eq_getD_getElem?, h1, h2]
  rw [this]
  exact ⟨by rw [length_xorRow, hv.1, hw.1, Nat.min_self], f.bounded_xorRow _ _ hv.2 hw.2⟩

/-- The encoder's rows have the data's shape. -/
theorem GF.shaped_encParity (f : GF) (k m e n : Nat) (data : Nat → Row) (hm : m ≤ 2 ^ e)
    (hd : ∀ d < k, (data d).length = n ∧ f.Bounded (data d)) :
    f.Shaped (2 ^ e) n (f.encParity k m (2 ^ e) n data) := by
  unfold GF.encParity
  apply f.shaped_fft e n _ _ _ hm
  exact foldl_keeps (f.Shaped (2 ^ e) n) _ _ _ (f.shaped_encChunk k e n data 0 hd) fun W j _ hW =>
    f.shaped_zipWith _ _ _ _ hW (f.shaped_encChunk k e n data (j + 1) hd)

/-- The encoder depends on the data rows below k only. -/
theorem GF.encParity_congr (f : GF) (k m M n : Nat) (data data' : Nat → Row)
    (h : ∀ d < k, data d = data' d) : f.encParity k m M n data = f.encParity k m M n data' := by
  have hc : ∀ j, f.encChunk k M n data j = f.encChunk k M n data' j := by
    intro j
    have hl : ((List.range M).map fun i =>
          if i < min M (k - j * M) then data (j * M + i) else zeroRow n)
        = (List.range M).map fun i =>
          if i < min M (k - j * M) then data' (j * M + i) else zeroRow n := by
      refine List.map_congr_left fun i _ => ?_
      split
      · exact h _ (by omega)
      · rfl
    simp only [GF.encChunk, hl]
  simp only [GF.encParity, hc]

theorem GF.shaped_decodeStart (f : GF) (k m M nd n : Nat) (absent : Nat → Bool) (shard : Nat → Row)
    (E : Array Nat) (hs : ∀ i < k + m, absent i = false → (shard i).length = n) :
    f.Shaped nd n (f.decodeStart k m M nd n absent shard E) := by
  have hz : (zeroRow n).length = n ∧ f.Bounded (zeroRow n) := ⟨length_zeroRow n, f.bounded_zeroRow n⟩
  unfold GF.decodeStart
  apply f.shaped_ofList
  intro p _
  split
  · rename_i h
    split
    · exact hz
    · rename_i ha
      exact ⟨by rw [GF.length_mulRow]; exact hs _ (by omega) (by simpa using ha), f.bounded_mulRow _ _⟩
  · split
    · exact hz
    · split
      · split
        · exact hz
        · rename_i ha
          exact ⟨by rw [GF.length_mulRow]; exact hs _ (by omega) (by simpa using ha), f.bounded_mulRow _ _⟩
      · exact hz

/-- `lowBit i` divides i and is at most i. -/
theorem lowBit_le (i : Nat) (h : 0 < i) : lowBit i ≤ i := by
  have key : ∀ fuel n, 0 < n → n ≤ fuel → 2 ^ trailingZeros fuel n ∣ n := by
    intro fuel
    induction fuel with
    | zero => intro n h0 h1; omega
    | succ fuel ih =>
      intro n h0 h1
      unfold trailingZeros
      split
      · simp
      · have h2 : 2 ∣ n := by omega
        obtain ⟨q, rfl⟩ := h2
        have := ih q (by omega) (by omega)
        rw [show 2 * q / 2 = q by omega, Nat.pow_succ, Nat.mul_comm]
        exact Nat.mul_dvd_mul_left 2 this
  exact Nat.le_of_dvd h (key i i h le_rfl)

/-- The derivative keeps the shape of its rows, when there is a power of two of them. -/
theorem GF.shaped_derivRows (f : GF) (nd n : Nat) (V : Rows) (h : f.Shaped nd n V)
    (hw : ∀ i, 0 < i → i < nd → i + lowBit i ≤ nd) : f.Shaped nd n (derivRows V nd) := by
  unfold derivRows
  refine foldl_keeps (f.Shaped nd n) _ _ _ h fun V i' hi' hV => ?_
  have hi := List.mem_range.1 hi'
  have hl := hw (i' + 1) (by omega) (by omega)
  refine foldl_keeps (f.Shaped nd n) _ _ _ hV fun V j hj hV => ?_
  have hj' := List.mem_range.1 hj
  have hle := lowBit_le (i' + 1) (by omega)
  have h₁ := hV.2 (i' + 1 - lowBit (i' + 1) + j) (by omega)
  have h₂ := hV.2 (i' + 1 + j) (by omega)
  exact f.shaped_set _ _ _ hV _ _ ⟨by rw [length_xorRow, h₁.1, h₂.1, Nat.min_self],
    f.bounded_xorRow _ _ h₁.2 h₂.2⟩

theorem lowBit_add_le (e i : Nat) (h0 : 0 < i) (h : i < 2 ^ e) : i + lowBit i ≤ 2 ^ e := by
  have key : ∀ fuel n, 0 < n → n ≤ fuel → ∃ t, trailingZeros fuel n = t ∧ 2 ^ t ∣ n := by
    intro fuel
    induction fuel with
    | zero => intro n h0 h1; omega
    | succ fuel ih =>
      intro n h0 h1
      unfold trailingZeros
      split
      · exact ⟨0, rfl, by simp⟩
      · obtain ⟨q, rfl⟩ : 2 ∣ n := by omega
        obtain ⟨t, ht, hd⟩ := ih q (by omega) (by omega)
        refine ⟨t + 1, by rw [show 2 * q / 2 = q by omega, ht], ?_⟩
        rw [Nat.pow_succ, Nat.mul_comm]
        exact Nat.mul_dvd_mul_left 2 hd
  obtain ⟨t, ht, hd⟩ := key i i h0 le_rfl
  have hl : lowBit i = 2 ^ t := by unfold lowBit; rw [ht]
  rw [hl]
  have hte : t < e := by
    have : 2 ^ t ≤ i := Nat.le_of_dvd h0 hd
    exact (Nat.pow_lt_pow_iff_right (by decide)).1 (lt_of_le_of_lt this h)
  obtain ⟨c, rfl⟩ := hd
  have he : 2 ^ e = 2 ^ t * 2 ^ (e - t) := by rw [← Nat.pow_add]; congr 1; omega
  rw [he] at h ⊢
  have hc : c < 2 ^ (e - t) := Nat.lt_of_mul_lt_mul_left h
  calc 2 ^ t * c + 2 ^ t = 2 ^ t * (c + 1) := by ring
    _ ≤ 2 ^ t * 2 ^ (e - t) := Nat.mul_le_mul_left _ hc

/-- The decoder's rows have the shards' shape. -/
theorem GF.shaped_decode (f : GF) (k m M n : Nat) (absent : Nat → Bool) (shard : Nat → Row)
    (hs : ∀ i < k + m, absent i = false → (shard i).length = n) :
    f.Shaped (decodeSize k M) n (f.decode k m M n absent shard).2 := by
  obtain ⟨e, he⟩ := ceilPow2_eq (M + k)
  have hle : M + k ≤ 2 ^ e := by rw [← he]; exact le_ceilPow2 _
  have hE : decodeSize k M = 2 ^ e := he
  simp only [GF.decode, hE]
  apply f.shaped_fft e n _ _ _ hle
  apply f.shaped_derivRows _ _ _ _ fun i h0 h => lowBit_add_le e i h0 h
  apply f.shaped_ifft e n _ _ _ hle
  exact f.shaped_decodeStart k m M (2 ^ e) n absent shard _ hs

/-- A recovered shard has the present shards' length, and its elements are below 2^w. -/
theorem GF.recovered_shape (f : GF) (k m M n : Nat) (absent : Nat → Bool) (shard : Nat → Row)
    (hs : ∀ i < k + m, absent i = false → (shard i).length = n) (hm : m ≤ M) (i : Nat) (hi : i < k + m) :
    (f.recovered k M (f.decode k m M n absent shard) i).length = n
      ∧ f.Bounded (f.recovered k M (f.decode k m M n absent shard) i) := by
  have hsh := f.shaped_decode k m M n absent shard hs
  have hle : M + k ≤ decodeSize k M := le_ceilPow2 _
  have hp : shardPos k M i < decodeSize k M := by
    unfold shardPos; split <;> omega
  exact ⟨by rw [GF.recovered, GF.length_mulRow]; exact (hsh.2 _ hp).1, f.bounded_mulRow _ _⟩

/-- The decoder depends on which shards are absent and on the present shards only. -/
theorem GF.decode_congr (f : GF) (k m M n : Nat) (absent absent' : Nat → Bool) (shard shard' : Nat → Row)
    (ha : ∀ i < k + m, absent i = absent' i) (hs : ∀ i < k + m, absent i = false → shard i = shard' i) :
    f.decode k m M n absent shard = f.decode k m M n absent' shard' := by
  have hmark : (List.range f.order).map (errMark k m M absent)
      = (List.range f.order).map (errMark k m M absent') := by
    refine List.map_congr_left fun i _ => ?_
    unfold errMark
    split
    · rw [ha _ (by omega)]
    · split
      · rfl
      · split
        · rw [ha _ (by omega)]
        · rfl
  have hE : f.errLoc k m M absent = f.errLoc k m M absent' := by
    simp only [GF.errLoc, hmark]
  have hstart : ∀ nd E, f.decodeStart k m M nd n absent shard E
      = f.decodeStart k m M nd n absent' shard' E := by
    intro nd E
    unfold GF.decodeStart
    congr 1
    refine List.map_congr_left fun p _ => ?_
    split
    · have hp := ha (k + p) (by omega)
      cases h : absent (k + p)
      · rw [← hp, h, hs _ (by omega) h]
      · rw [← hp, h]; rfl
    · split
      · rfl
      · split
        · have hp := ha (p - M) (by omega)
          cases h : absent (p - M)
          · rw [← hp, h, hs _ (by omega) h]
          · rw [← hp, h]; rfl
        · rfl
  simp only [GF.decode, hE, hstart]

end Sys2Proof
end

