-- ==== Sys2Proof/Laws/Codec.lean ====
section
/-! SUPPORT. What the checks of the codec and shard commands answer, and what a write of shards leaves. -/

namespace Sys2Proof.Machine

theorem allShards_iff (lo count : Nat) (p : Nat → Bool) :
    allShards lo count p = true ↔ ∀ i < count, p (lo + i) = true := by
  simp [allShards]

theorem anyShard_iff (lo count : Nat) (p : Nat → Bool) :
    anyShard lo count p = true ↔ ∃ i < count, p (lo + i) = true := by
  simp [anyShard]

theorem State.absent_iff (s : State) (i : Nat) : s.absent i = true ↔ s.slenAt i = 0 := by
  simp [State.absent]

/-- The answer of a list of checks that ends in a value. -/
def answerOf {α : Type} (verdict : Option Err) (v : α) : Except Err α :=
  match verdict with
  | some e => .error e
  | none => .ok v

/-- A check before other checks: its error comes first. -/
theorem check_answerOf {α : Type} (ok : Bool) (e : Err) (p : Prop) [Decidable p] (h : ok = true ↔ ¬ p)
    (verdict : Option Err) (v : α) :
    (if ok then answerOf verdict v else .error e) = answerOf (if p then some e else verdict) v := by
  by_cases hp : p
  · have : ok = false := by
      cases ok
      · rfl
      · exact absurd hp (h.1 rfl)
    simp [this, hp, answerOf]
  · simp [h.2 hp, hp]

/-- All that the checks of ENCODE can answer (44_codec.md R250). -/
theorem State.encodeChecks_eq (s : State) : s.encodeChecks = answerOf s.encodeVerdict (s.slenAt 0) := by
  unfold State.encodeChecks State.encodeVerdict
  simp only [check_bind]
  rw [← check_answerOf s.status.configured _ _ (by simp)]
  rw [← check_answerOf (decide (s.argNat 0 = s.n)) _ _ (by simp)]
  rw [← check_answerOf (!allShards 0 s.k s.absent) _ _ (by
    rw [← not_iff_not]; simp [allShards_iff, State.absent_iff])]
  rw [← check_answerOf (!anyShard 0 s.k s.absent) _ _ (by
    rw [← not_iff_not]; simp [anyShard_iff, State.absent_iff])]
  rw [← check_answerOf (allShards 0 s.k fun d => decide (s.slenAt d = s.slenAt 0)) _ _ (by
    simp [allShards_iff])]
  rw [← check_answerOf (allShards s.k s.m fun i => s.absent i || decide (s.slenAt i = s.slenAt 0)) _ _ (by
    simp [allShards_iff, State.absent_iff, or_iff_not_imp_left])]
  rw [← check_answerOf (decide (s.slenAt 0 % Config.align = 0)) _ _ (by simp)]
  rw [← check_answerOf (decide (s.encodeNeed ≤ s.params.workBufs)) _ _ (by
    rw [decide_eq_true_iff]; simp [State.encodeNeed])]
  rfl

/-- All that the checks of VERIFY can answer (44_codec.md R251). -/
theorem State.verifyChecks_eq (s : State) : s.verifyChecks = answerOf s.verifyVerdict (s.slenAt 0) := by
  unfold State.verifyChecks State.verifyVerdict
  simp only [check_bind]
  rw [← check_answerOf s.status.configured _ _ (by simp)]
  rw [← check_answerOf (decide (s.argNat 0 = s.n)) _ _ (by simp)]
  rw [← check_answerOf (!allShards 0 s.n s.absent) _ _ (by
    rw [← not_iff_not]; simp [allShards_iff, State.absent_iff])]
  rw [← check_answerOf (!anyShard 0 s.n s.absent) _ _ (by
    rw [← not_iff_not]; simp [anyShard_iff, State.absent_iff])]
  rw [← check_answerOf (allShards 0 s.n fun d => decide (s.slenAt d = s.slenAt 0)) _ _ (by
    simp [allShards_iff])]
  rw [← check_answerOf (decide (s.slenAt 0 % Config.align = 0)) _ _ (by simp)]
  rw [← check_answerOf (decide (s.encodeNeed ≤ s.params.workBufs)) _ _ (by
    rw [decide_eq_true_iff]; simp [State.encodeNeed])]
  rfl

/-- What a plan of a reconstruction makes the checks answer. -/
def Plan.answer : Plan → Except Err (Option Nat)
  | .fails e => .error e
  | .noWork => .ok none
  | .recover S => .ok (some S)

theorem check_plan (ok : Bool) (e : Err) (p : Prop) [Decidable p] (h : ok = true ↔ ¬ p) (plan : Plan) :
    (if ok then plan.answer else .error e) = (if p then Plan.fails e else plan).answer := by
  by_cases hp : p
  · have : ok = false := by
      cases ok
      · rfl
      · exact absurd hp (h.1 rfl)
    simp [this, hp, Plan.answer]
  · simp [h.2 hp, hp]

theorem noWork_plan (b : Bool) (p : Prop) [Decidable p] (h : b = true ↔ p) (plan : Plan) :
    (if b then (Except.ok none : Except Err (Option Nat)) else plan.answer)
      = (if p then Plan.noWork else plan).answer := by
  by_cases hp : p
  · simp [h.2 hp, hp, Plan.answer]
  · have : b = false := by
      cases b
      · rfl
      · exact absurd (h.1 rfl) hp
    simp [this, hp]

theorem State.absentCount_eq_zero (s : State) : s.absentCount = 0 ↔ ∀ i < s.n, s.slenAt i ≠ 0 := by
  simp [State.absentCount, List.filter_eq_nil_iff, State.absent]

/-- S of a reconstruction, by the lowest present shard. -/
theorem State.presentLen_eq (s : State) (i0 : Nat) (h : ∀ i < i0, s.slenAt i = 0) (h0 : s.slenAt i0 ≠ 0)
    (hn : i0 < s.n) : s.presentLen = s.slenAt i0 := by
  have : (List.range s.n).find? (fun i => !s.absent i) = some i0 := by
    rw [List.find?_range_eq_some]
    exact ⟨by simpa [State.absent] using h0, by simpa using hn, fun j hj => by simpa [State.absent] using h j hj⟩
  unfold State.presentLen
  rw [this]

/-- All that the checks of a reconstruction can answer (44_codec.md R252, R253). -/
theorem State.reconstructChecks_eq (s : State) (dataOnly : Bool) :
    s.reconstructChecks dataOnly = (s.reconstructPlan dataOnly s.presentLen).answer := by
  unfold State.reconstructChecks State.reconstructPlan
  simp only [check_bind]
  by_cases hc : s.status.configured = false
  · simp [hc, Plan.answer]
  rw [← check_plan s.status.configured _ _ (by simp)]
  rw [← check_plan (decide (s.argNat 0 = s.n)) _ _ (by simp)]
  rw [← check_plan (!allShards 0 s.n s.absent) _ _ (by
    rw [← not_iff_not]; simp [allShards_iff, State.absent_iff])]
  rw [← check_plan (allShards 0 s.n fun i => s.absent i || decide (s.slenAt i = s.presentLen)) _ _ (by
    simp [allShards_iff, State.absent_iff, or_iff_not_imp_left])]
  rw [← check_plan (decide (s.presentLen % Config.align = 0)) _ _ (by simp)]
  rw [← noWork_plan (decide (s.absentCount = 0)) _ (by simp [State.absentCount_eq_zero])]
  rw [← noWork_plan (dataOnly && !anyShard 0 s.k s.absent) _ (by
    rw [Bool.and_eq_true, Bool.not_eq_true', ← Bool.not_eq_true, anyShard_iff]
    simp [State.absent_iff])]
  rw [← check_plan (decide (s.absentCount ≤ s.m)) _ _ (by
    rw [decide_eq_true_iff, not_lt]; rfl)]
  rw [← check_plan (decide (s.decodeNeed ≤ s.params.workBufs)) _ _ (by
    rw [decide_eq_true_iff]; simp [State.decodeNeed, decodeSize, hc])]
  simp only [decide_eq_true_eq]
  rfl

/-! Writes of shards. -/

/-- Shards written one after the other, each with the length `S`. -/
def State.putAll (s : State) (S : Nat) (l : List (Nat × List Byte)) : State :=
  l.foldl (fun t e => t.putShard S e.1 e.2) s

/-- Shards written change slots and lengths only. -/
theorem State.putAll_rest (s : State) (S : Nat) (l : List (Nat × List Byte)) :
    s.putAll S l = { s with slots := (s.putAll S l).slots, slen := (s.putAll S l).slen } := by
  induction l generalizing s with
  | nil => rfl
  | cons e l ih =>
    have h := ih (s.putShard S e.1 e.2)
    have : s.putAll S (e :: l) = (s.putShard S e.1 e.2).putAll S l := rfl
    rw [this, h]; rfl

@[simp] theorem State.putAll_params (s : State) (S : Nat) (l : List (Nat × List Byte)) :
    (s.putAll S l).params = s.params := by rw [State.putAll_rest]
@[simp] theorem State.putAll_ctrl (s : State) (S : Nat) (l : List (Nat × List Byte)) :
    (s.putAll S l).ctrl = s.ctrl := by rw [State.putAll_rest]
@[simp] theorem State.putAll_status (s : State) (S : Nat) (l : List (Nat × List Byte)) :
    (s.putAll S l).status = s.status := by rw [State.putAll_rest]
@[simp] theorem State.putAll_seq (s : State) (S : Nat) (l : List (Nat × List Byte)) :
    (s.putAll S l).seq = s.seq := by rw [State.putAll_rest]
@[simp] theorem State.putAll_parIoLatch (s : State) (S : Nat) (l : List (Nat × List Byte)) :
    (s.putAll S l).parIoLatch = s.parIoLatch := by rw [State.putAll_rest]
@[simp] theorem State.putAll_errStream (s : State) (S : Nat) (l : List (Nat × List Byte)) :
    (s.putAll S l).errStream = s.errStream := by rw [State.putAll_rest]
@[simp] theorem State.putAll_errInner (s : State) (S : Nat) (l : List (Nat × List Byte)) :
    (s.putAll S l).errInner = s.errInner := by rw [State.putAll_rest]
@[simp] theorem State.putAll_result (s : State) (S : Nat) (l : List (Nat × List Byte)) :
    (s.putAll S l).result = s.result := by rw [State.putAll_rest]
@[simp] theorem State.putAll_cfg (s : State) (S : Nat) (l : List (Nat × List Byte)) :
    (s.putAll S l).cfg = s.cfg := by rw [State.putAll_rest]
@[simp] theorem State.putAll_geo (s : State) (S : Nat) (l : List (Nat × List Byte)) :
    (s.putAll S l).geo = s.geo := by rw [State.putAll_rest]
@[simp] theorem State.putAll_dlen (s : State) (S : Nat) (l : List (Nat × List Byte)) :
    (s.putAll S l).dlen = s.dlen := by rw [State.putAll_rest]
@[simp] theorem State.putAll_args (s : State) (S : Nat) (l : List (Nat × List Byte)) :
    (s.putAll S l).args = s.args := by rw [State.putAll_rest]
@[simp] theorem State.putAll_dbuf (s : State) (S : Nat) (l : List (Nat × List Byte)) :
    (s.putAll S l).dbuf = s.dbuf := by rw [State.putAll_rest]
@[simp] theorem State.putAll_work (s : State) (S : Nat) (l : List (Nat × List Byte)) :
    (s.putAll S l).work = s.work := by rw [State.putAll_rest]
@[simp] theorem State.putAll_stg (s : State) (S : Nat) (l : List (Nat × List Byte)) :
    (s.putAll S l).stg = s.stg := by rw [State.putAll_rest]
@[simp] theorem State.putAll_inPorts (s : State) (S : Nat) (l : List (Nat × List Byte)) :
    (s.putAll S l).inPorts = s.inPorts := by rw [State.putAll_rest]
@[simp] theorem State.putAll_outPorts (s : State) (S : Nat) (l : List (Nat × List Byte)) :
    (s.putAll S l).outPorts = s.outPorts := by rw [State.putAll_rest]
@[simp] theorem State.putAll_job (s : State) (S : Nat) (l : List (Nat × List Byte)) :
    (s.putAll S l).job = s.job := by rw [State.putAll_rest]
@[simp] theorem State.putAll_draws (s : State) (S : Nat) (l : List (Nat × List Byte)) :
    (s.putAll S l).draws = s.draws := by rw [State.putAll_rest]
@[simp] theorem State.putAll_inputs (s : State) (S : Nat) (l : List (Nat × List Byte)) :
    (s.putAll S l).inputs = s.inputs := by rw [State.putAll_rest]
@[simp] theorem State.putAll_readValue (s : State) (S : Nat) (l : List (Nat × List Byte)) :
    (s.putAll S l).readValue = s.readValue := by rw [State.putAll_rest]

/-- The lengths after shards are written. -/
theorem State.slenWord_putAll (s : State) (S : Nat) (l : List (Nat × List Byte)) (j : Nat) :
    (s.putAll S l).slenWord j = if j ∈ l.map (·.1) then BitVec.ofNat 32 S else s.slenWord j := by
  induction l generalizing s with
  | nil => simp [State.putAll]
  | cons e l ih =>
    have : s.putAll S (e :: l) = (s.putShard S e.1 e.2).putAll S l := rfl
    rw [this, ih]
    by_cases hj : j ∈ l.map (·.1)
    · simp [hj]
    · have hs : (s.putShard S e.1 e.2).slenWord j = if j = e.1 then BitVec.ofNat 32 S else s.slenWord j := by
        simp only [State.slenWord, State.putShard_slen, tableGet_tableSet]
      rw [if_neg hj, hs]
      by_cases he : j = e.1 <;> simp [he, hj]

/-- Bytes outside the written shards stay. -/
theorem State.read_putAll (s : State) (S : Nat) (l : List (Nat × List Byte)) (hl : ∀ e ∈ l, e.2.length = S)
    (a : Nat) (h : ∀ e ∈ l, ¬ s.InBuf (.slot e.1) S false a) :
    (s.putAll S l).slots.read a = s.slots.read a := by
  induction l generalizing s with
  | nil => rfl
  | cons e l ih =>
    have : s.putAll S (e :: l) = (s.putShard S e.1 e.2).putAll S l := rfl
    rw [this, ih (s.putShard S e.1 e.2) (fun e he => hl e (by simp [he])) fun e' he' => h e' (by simp [he'])]
    rw [State.putShard_slots, Memory.read_writeBytes, if_neg]
    have h0 := h e (by simp)
    have h1 := hl e (by simp)
    simp only [State.InBuf, Buf.inWork, Buf.index, true_and] at h0
    rw [h1]; exact h0

/-- A written shard reads back, when no shard is written twice and none is longer than SLOT_CAP. -/
theorem State.slotBytes_putAll (s : State) (S : Nat) (l : List (Nat × List Byte))
    (hl : ∀ e ∈ l, e.2.length = S) (hS : S ≤ s.params.slotCap) (hn : (l.map (·.1)).Nodup)
    (e : Nat × List Byte) (he : e ∈ l) : (s.putAll S l).slotBytes e.1 S = e.2 := by
  induction l generalizing s with
  | nil => cases he
  | cons x l ih =>
    have hx : s.putAll S (x :: l) = (s.putShard S x.1 x.2).putAll S l := rfl
    rw [List.map_cons, List.nodup_cons] at hn
    rcases List.mem_cons.1 he with rfl | he'
    · have h1 := hl e (by simp)
      have hrest : ((s.putShard S e.1 e.2).putAll S l).params = s.params := by
        rw [State.putAll_rest]; rfl
      have : ((s.putShard S e.1 e.2).putAll S l).slotBytes e.1 S = (s.putShard S e.1 e.2).slotBytes e.1 S := by
        unfold State.slotBytes
        have ha : ((s.putShard S e.1 e.2).putAll S l).slotAddr e.1 = s.slotAddr e.1 := by
          simp [State.slotAddr]
        rw [ha]
        apply Memory.readBytes_congr
        intro i hi
        apply State.read_putAll _ _ _ (fun e he => hl e (by simp [he]))
        intro e' he'' hb
        have hne : e.1 ≠ e'.1 := fun h => hn.1 (h ▸ List.mem_map_of_mem he'')
        have := s.slotAddr_apart _ _ hne
        have hb' : s.slotAddr e'.1 ≤ s.slotAddr e.1 + i ∧ s.slotAddr e.1 + i < s.slotAddr e'.1 + S := hb.2
        omega
      rw [hx, this]
      unfold State.slotBytes
      rw [State.putShard_slots]
      have := Memory.readBytes_writeBytes_same s.slots (s.slotAddr e.1) e.2
      rw [h1] at this
      exact this
    · rw [hx]
      exact ih (s.putShard S x.1 x.2) (fun e he => hl e (by simp [he])) hS hn.2 he'

/-- ENCODE's writes as a list of shards. -/
theorem State.putParity_eq (s : State) (S : Nat) (rows : Rows) :
    s.putParity S rows
      = s.putAll S ((List.range s.m).map fun p => (s.k + p, s.parityBytes rows p)) := by
  unfold State.putParity State.putAll
  rw [List.foldl_map]

/-- The writes of a reconstruction as a list of shards (44_codec.md R267). -/
theorem State.putRecovered_eq (s : State) (S : Nat) (dataOnly : Bool) :
    s.putRecovered S dataOnly
      = s.putAll S (((List.range (if dataOnly then s.k else s.k + s.m)).filter s.absent).map fun i =>
          (i, bytesOfElems s.field s.params.layout (s.field.recovered s.k s.mpow
            (s.field.decode s.k s.m s.mpow (elemCount s.field S) s.absent (s.slotRow S)) i))) := by
  unfold State.putRecovered State.putAll
  rw [List.foldl_map, List.foldl_filter]

/-- The work buffers from `need` on keep their bytes when those below become UNSPECIFIED. -/
theorem State.read_spoilWork (s : State) (need a : Nat) (h : s.slotAddr need ≤ a) :
    (s.spoilWork need).work.read a = s.work.read a :=
  Memory.read_spoil _ _ _ _ h

/-- A codec command whose rule raises an error of its checks. -/
theorem State.codec_error (s : State) (need : Nat) (rule : State → Except Err State) (e : Err)
    (h : rule s.accept = .error e) (he : e.ioInfo = none) :
    s.codec need rule = .next ((s.failed e).spoilWork need) := by
  unfold State.codec
  rw [State.command_error s rule e h he]

/-- A codec command whose rule ends in the state `t`. -/
theorem State.codec_ok (s : State) (need : Nat) (rule : State → Except Err State) (t : State)
    (h : rule s.accept = .ok t) : s.codec need rule = .next ((t.complete none).spoilWork need) := by
  unfold State.codec
  rw [State.command_ok s rule t h]

/-! Lengths of the rows and of the bytes that the codec writes. -/

/-- A multiple of 64 is an aligned length in both fields and both layouts (20_memory.md R90). -/
theorem lenAligned_of_mod (f : GF) (layout : Elem16Layout) (S : Nat) (h : S % 64 = 0) :
    lenAligned f layout S = true := by
  cases f
  · rfl
  · cases layout
    · simpa [lenAligned] using h
    · simp only [lenAligned, decide_eq_true_eq]; omega

theorem State.slotRow_shape (s : State) (S i : Nat) (h : S % 64 = 0) :
    (s.slotRow S i).length = elemCount s.field S ∧ s.field.Bounded (s.slotRow S i) := by
  refine ⟨?_, bounded_elemsOfBytes _ _ _⟩
  unfold State.slotRow State.slotBytes
  rw [length_elemsOfBytes _ _ _ (by simpa using lenAligned_of_mod _ _ _ h), Memory.length_readBytes]

/-- The parity rows have the data's shape, for a configuration that CONFIG admits. -/
theorem State.shaped_encParity (s : State) (S : Nat) (rows : Nat → Row) (h : s.ConfigInv)
    (hc : s.status.configured = true)
    (hr : ∀ d < s.k, (rows d).length = elemCount s.field S ∧ s.field.Bounded (rows d)) :
    s.field.Shaped s.mpow (elemCount s.field S)
      (s.field.encParity s.k s.m s.mpow (elemCount s.field S) rows) := by
  obtain ⟨e, he⟩ := ceilPow2_eq s.m
  have hM : s.mpow = 2 ^ e := by rw [h.power hc, he]
  have hm : s.m ≤ 2 ^ e := he ▸ le_ceilPow2 s.m
  rw [hM]
  exact s.field.shaped_encParity s.k s.m e _ rows hm hr

/-- A parity shard has the data's length. -/
theorem State.length_parityBytes (s : State) (S : Nat) (rows : Nat → Row) (h : s.ConfigInv)
    (hc : s.status.configured = true) (hS : S % 64 = 0)
    (hr : ∀ d < s.k, (rows d).length = elemCount s.field S ∧ s.field.Bounded (rows d)) (p : Nat)
    (hp : p < s.m) :
    (s.parityBytes (s.field.encParity s.k s.m s.mpow (elemCount s.field S) rows) p).length = S := by
  have hs := s.shaped_encParity S rows h hc hr
  have hm : s.m ≤ s.mpow := by rw [h.power hc]; exact le_ceilPow2 _
  exact length_bytesOfElems _ _ _ _ (lenAligned_of_mod _ _ _ hS) (hs.2 p (by omega)).1

/-- A recovered shard has the present shards' length. -/
theorem State.length_recovered (s : State) (S : Nat) (absent : Nat → Bool) (rows : Nat → Row) (h : s.ConfigInv)
    (hc : s.status.configured = true) (hS : S % 64 = 0)
    (hr : ∀ i < s.k + s.m, absent i = false → (rows i).length = elemCount s.field S) (i : Nat)
    (hi : i < s.k + s.m) :
    (bytesOfElems s.field s.params.layout (s.field.recovered s.k s.mpow
      (s.field.decode s.k s.m s.mpow (elemCount s.field S) absent rows) i)).length = S := by
  have hm : s.m ≤ s.mpow := by rw [h.power hc]; exact le_ceilPow2 _
  have := s.field.recovered_shape s.k s.m s.mpow (elemCount s.field S) absent rows hr hm i hi
  exact length_bytesOfElems _ _ _ _ (lenAligned_of_mod _ _ _ hS) this.1

end Sys2Proof.Machine
end

