-- ==== Sys2Proof/Laws/Ports.lean ====
section
/-! SUPPORT. What the port operations and the phases of a stream command do when every port operation is served:
the reads of a block, the writes of a block, and the draws of the concurrent mode. -/

namespace Sys2Proof.Machine

/-! Ports. -/

theorem State.inPort_setInPort (s : State) (i : Nat) (p : InPort) (j : Nat) :
    (s.setInPort i p).inPort j = if j = i then p else s.inPort j := tableGet_tableSet _ _ _ _ _

theorem State.outPort_setOutPort (s : State) (i : Nat) (p : OutPort) (j : Nat) :
    (s.setOutPort i p).outPort j = if j = i then p else s.outPort j := tableGet_tableSet _ _ _ _ _

/-- A served read: the port's answer, and the port after it (45_stream.md R290). -/
theorem State.portRead_served (s : State) (i want : Nat) :
    s.portRead .served i want
      = (((s.inPort i).readFull want).1, s.setInPort i ((s.inPort i).readFull want).2) := rfl

/-- A served write is OK and appends its bytes (45_stream.md R291). -/
theorem State.portWrite_served (s : State) (j : Nat) (bytes : List Byte) :
    s.portWrite .served j bytes
      = (.ok (), s.setOutPort j { s.outPort j with written := (s.outPort j).written ++ bytes }) := rfl

/-- A cancelled read fails with the environment's word and changes its port only (45_stream.md R299). -/
theorem State.portRead_failed (s : State) (c : Word) (n i want : Nat) :
    ∃ p, s.portRead (.failed c n) i want = (.error c, s.setInPort i p) := ⟨_, rfl⟩

/-- A failed write fails with the environment's word and changes its port only (45_stream.md R291). -/
theorem State.portWrite_failed (s : State) (c : Word) (n j : Nat) (bytes : List Byte) :
    ∃ p, s.portWrite (.failed c n) j bytes = (.error c, s.setOutPort j p) := ⟨_, rfl⟩

/-- In the sequential mode a failed port operation ends the command (45_stream.md R296). -/
theorem State.noteFail_sequential (s : State) (raise : Nat → Word → Err) (i : Nat) (c : Word)
    (fails : List (Nat × Word)) (h : s.parIoLatch = false) :
    s.noteFail raise i c fails = .error (raise i c) := by simp [State.noteFail, h]

/-- In the concurrent mode a failed port operation is kept (45_stream.md R296). -/
theorem State.noteFail_concurrent (s : State) (raise : Nat → Word → Err) (i : Nat) (c : Word)
    (fails : List (Nat × Word)) (h : s.parIoLatch = true) :
    s.noteFail raise i c fails = .ok (fails ++ [(i, c)]) := by simp [State.noteFail, h]

/-- A reader that ends without an error answers every read with the bytes it has, at most `want`. -/
theorem InPort.readFull_eof (p : InPort) (want : Nat) (h : p.term = .eof) :
    (p.readFull want).1 = .ok ((p.data.drop p.pos).take want)
      ∧ (p.readFull want).2.data = p.data ∧ (p.readFull want).2.term = .eof
      ∧ (p.readFull want).2.conn = p.conn
      ∧ (p.readFull want).2.data.drop (p.readFull want).2.pos = (p.data.drop p.pos).drop want := by
  unfold InPort.readFull InPort.avail
  split
  · exact ⟨rfl, rfl, h, rfl, by rw [List.drop_drop]⟩
  · rename_i hl
    rw [h]
    refine ⟨?_, rfl, rfl, rfl, ?_⟩
    · rw [List.take_of_length_le (by rw [List.length_drop]; omega)]
    · simp only [List.drop_length]
      rw [List.drop_of_length_le (by rw [List.length_drop]; omega)]

/-! The draws of the concurrent mode (45_stream.md R296). -/

theorem permute_perm {α : Type} (fuel c : Nat) (l : List α) : (permute fuel c l).Perm l := by
  induction fuel generalizing c l with
  | zero => exact List.Perm.refl _
  | succ fuel ih =>
    unfold permute
    split
    · exact List.Perm.refl _
    · rename_i x hx
      obtain ⟨hi, rfl⟩ := List.getElem?_eq_some_iff.1 hx
      refine (List.Perm.cons _ (ih _ _)).trans ?_
      exact List.getElem_cons_eraseIdx_perm hi

/-- The order of a block's port operations: some order, and as listed with PAR_IO = 0. -/
theorem State.ordered_eq {α : Type} (s : State) (l : List α) :
    ∃ l' d, s.ordered l = (l', { s with draws := d }) ∧ l'.Perm l
      ∧ (s.parIoLatch = false → l' = l ∧ d = s.draws) := by
  unfold State.ordered
  split
  · rename_i h
    exact ⟨_, _, rfl, permute_perm _ _ _, fun h' => by rw [h] at h'; cases h'⟩
  · exact ⟨l, s.draws, rfl, List.Perm.refl _, fun _ => ⟨rfl, rfl⟩⟩

/-- A drawn entry of a list that is not empty is one of its entries. -/
theorem State.pick_mem {α : Type} (s : State) (dflt : α) (l : List α) (h : l ≠ []) :
    (s.pick dflt l).1 ∈ l ∧ (s.pick dflt l).2 = { s with draws := s.draws + 1 } := by
  refine ⟨?_, rfl⟩
  have hl : 0 < l.length := List.length_pos_iff.2 h
  have := Nat.mod_lt (Config.freeChoice s.draws) hl
  simp only [State.pick, List.getD_eq_getElem?_getD, List.getElem?_eq_getElem this, Option.getD_some]
  exact List.getElem_mem this

/-- The length of the lowest-indexed reader (45_stream.md R293). -/
theorem lowestLen_lowest (l : List (Nat × Nat)) (h : l ≠ []) :
    ∃ e ∈ l, lowestLen l = e.2 ∧ ∀ e' ∈ l, e.1 ≤ e'.1 := by
  cases l with
  | nil => exact absurd rfl h
  | cons e es =>
    suffices H : ∀ (es : List (Nat × Nat)) (b : Nat × Nat), ∃ x ∈ b :: es,
        (es.foldl (fun best e => if e.1 < best.1 then e else best) b) = x ∧ ∀ y ∈ b :: es, x.1 ≤ y.1 by
      obtain ⟨x, hx, he, hm⟩ := H es e
      exact ⟨x, hx, by rw [lowestLen, he], hm⟩
    intro es
    induction es with
    | nil => intro b; exact ⟨b, by simp, rfl, by simp⟩
    | cons a as ih =>
      intro b
      obtain ⟨x, hx, he, hm⟩ := ih (if a.1 < b.1 then a else b)
      have hab : x.1 ≤ b.1 ∧ x.1 ≤ a.1 := by
        have := hm (if a.1 < b.1 then a else b) (by simp)
        split at this <;> omega
      refine ⟨x, ?_, by rw [List.foldl_cons, he], fun y hy => ?_⟩
      · rcases List.mem_cons.1 hx with rfl | hx
        · split <;> simp
        · simp [hx]
      · simp only [List.mem_cons] at hy
        rcases hy with rfl | rfl | hy
        · exact hab.1
        · exact hab.2
        · exact hm y (by simp [hy])

/-- The size that a block's reads settle is the length that one of them returned, the lowest-indexed one with
PAR_IO = 0 (45_stream.md R293, R296). -/
theorem State.settleSize_eq (s : State) (lens : List (Nat × Nat)) (h : lens ≠ []) :
    ∃ d, ∃ e ∈ lens, s.settleSize lens = (e.2, { s with draws := d })
      ∧ (s.parIoLatch = false → ∀ e' ∈ lens, e.1 ≤ e'.1) := by
  unfold State.settleSize
  split
  · rename_i hp
    exact ⟨s.draws + 1, _, (s.pick_mem (0, 0) lens h).1, rfl, fun h' => by rw [h'] at hp; cases hp⟩
  · obtain ⟨e, he, hl, hm⟩ := lowestLen_lowest lens h
    exact ⟨s.draws, e, he, by rw [hl], fun _ => hm⟩

/-! Answers one after the other. -/

theorem State.served_add (m n : Nat) (s t : State) (h : State.served m s = .next t) :
    State.served (m + n) s = State.served n t := by
  induction m generalizing s with
  | zero =>
    simp only [State.served, Host.Outcome.next.injEq] at h
    rw [h, Nat.zero_add]
  | succ m ih =>
    rw [show m + 1 + n = (m + n) + 1 by omega]
    simp only [State.served] at h ⊢
    cases ha : s.answer .served with
    | next u => rw [ha] at h; exact ih u h
    | fault f => rw [ha] at h; cases h
    | refused r => rw [ha] at h; cases h

theorem State.served_one (s t : State) (h : s.answer .served = .next t) : State.served 1 s = .next t := by
  simp [State.served, h]

/-! The reads of a block. -/

/-- `t` is `s` but for the input ports, staging, and where the command stands. -/
def State.SameButReads (s t : State) : Prop :=
  t = { s with inPorts := t.inPorts, stg := t.stg, job := t.job }

theorem State.SameButReads.trans {s t u : State} (h₁ : s.SameButReads t) (h₂ : t.SameButReads u) :
    s.SameButReads u := by
  unfold State.SameButReads at *
  rw [h₂, h₁]

/-- What one block's reads leave: every reader in `todo` has moved past the bytes it gave, at most `want`, and
they stand at the start of its staging row; nothing else has changed. -/
structure State.Reads (s t : State) (want : Nat) (todo : List Nat) : Prop where
  same : s.SameButReads t
  ports : ∀ i, t.inPort i = if i ∈ todo then ((s.inPort i).readFull want).2 else s.inPort i
  rows : ∀ i ∈ todo, ∀ j < ((s.left i).take want).length,
    t.stg.read (s.stgAddr i + j) = ((s.left i).take want).getD j 0
  others : ∀ a, (∀ i ∈ todo, ¬ (s.stgAddr i ≤ a ∧ a < s.stgAddr i + ((s.left i).take want).length)) →
    t.stg.read a = s.stg.read a

/-- Distinct staging rows start at least STG_CAP bytes apart (10_state.md R57). -/
theorem State.stgAddr_apart (s : State) (i j : Nat) (h : i ≠ j) :
    s.stgAddr i + s.params.stgCap ≤ s.stgAddr j ∨ s.stgAddr j + s.params.stgCap ≤ s.stgAddr i := by
  unfold State.stgAddr
  rcases Nat.lt_or_gt_of_ne h with h | h
  · left
    calc i * s.params.stgCap + s.params.stgCap = (i + 1) * s.params.stgCap := by ring
      _ ≤ j * s.params.stgCap := Nat.mul_le_mul_right _ h
  · right
    calc j * s.params.stgCap + s.params.stgCap = (j + 1) * s.params.stgCap := by ring
      _ ≤ i * s.params.stgCap := Nat.mul_le_mul_right _ h

/-- One read that is served, of a reader that ends without an error. -/
theorem State.reads_one (s : State) (i want : Nat) (h : (s.inPort i).term = .eof) :
    s.Reads ((s.setInPort i ((s.inPort i).readFull want).2).setStgBytes i ((s.left i).take want)) want [i] := by
  refine ⟨rfl, fun j => ?_, fun k hk j hj => ?_, fun a ha => ?_⟩
  · by_cases e : j = i
    · subst e
      rw [if_pos (List.mem_singleton.2 rfl)]
      exact (State.inPort_setInPort s j _ j).trans (if_pos rfl)
    · rw [if_neg (by simpa using e)]
      exact (State.inPort_setInPort s i _ j).trans (if_neg e)
  · rw [List.mem_singleton] at hk
    subst hk
    rw [State.setStgBytes_stg, Memory.read_writeBytes]
    have e : (s.setInPort k ((s.inPort k).readFull want).2).stgAddr k = s.stgAddr k := rfl
    rw [e, if_pos ⟨by omega, by omega⟩, Nat.add_sub_cancel_left]
  · rw [State.setStgBytes_stg, Memory.read_writeBytes, if_neg]
    · rfl
    · exact ha i (by simp)

/-- Reads of distinct readers compose. -/
theorem State.Reads.trans {s t u : State} {want i : Nat} {todo : List Nat} (hw : want ≤ s.params.stgCap)
    (h₁ : s.Reads t want [i]) (hn : i ∉ todo) (h₂ : t.Reads u want todo) : s.Reads u want (i :: todo) := by
  have hp : t.params = s.params := by rw [h₁.same]
  have ha : ∀ j, t.stgAddr j = s.stgAddr j := fun j => by simp [State.stgAddr, hp]
  have hl : ∀ j, j ≠ i → t.inPort j = s.inPort j := fun j hj => by
    rw [h₁.ports, if_neg (by simpa using hj)]
  have hleft : ∀ j ∈ todo, t.left j = s.left j := fun j hj => by
    unfold State.left
    rw [hl j fun e => hn (e ▸ hj)]
  have hlen : ∀ j, ((s.left j).take want).length ≤ want := fun j => by simp
  refine ⟨h₁.same.trans h₂.same, fun j => ?_, fun j hj k hk => ?_, fun a hx => ?_⟩
  · rw [h₂.ports]
    by_cases hj : j ∈ todo
    · rw [if_pos hj, if_pos (by simp [hj]), hl j fun e => hn (e ▸ hj)]
    · rw [if_neg hj, h₁.ports]
      by_cases e : j = i <;> simp [e, hj, hn]
  · rcases List.mem_cons.1 hj with rfl | hj
    · rw [h₂.others _ fun c hc hx => ?_, h₁.rows j (by simp) k hk]
      have hne : j ≠ c := fun e => hn (e ▸ hc)
      have := s.stgAddr_apart _ _ hne
      rw [ha, hleft c hc] at hx
      have := hlen j
      have := hlen c
      omega
    · rw [← ha, h₂.rows j hj k (by rw [hleft j hj]; exact hk), hleft j hj]
  · rw [h₂.others a fun c hc => by rw [ha, hleft c hc]; exact hx c (by simp [hc]), h₁.others a fun c hc => ?_]
    rw [List.mem_singleton] at hc
    subst hc
    exact hx c (by simp)

theorem State.SameButReads.blockSize {s t : State} (h : s.SameButReads t) : t.blockSize = s.blockSize := by
  rw [h]; rfl

/-- All reads of a block, served one after the other: the command goes on to settle the block. -/
theorem State.served_reads (kind : BlockKind) (blocks : Nat) (todo : List Nat) (hne : todo ≠ [])
    (hn : todo.Nodup) (lens : List (Nat × Nat)) (s : State)
    (hj : s.job = some (.readBlock kind blocks todo lens [])) (hq : s.seq = .streamIo)
    (hw : s.blockSize ≤ s.params.stgCap) (he : ∀ i ∈ todo, (s.inPort i).term = .eof) :
    ∃ t, s.Reads t s.blockSize todo ∧
      State.served todo.length s = .next (t.blockReply kind (State.settleBlock kind blocks
        (lens ++ todo.map fun i => (i, ((s.left i).take s.blockSize).length)) t)) := by
  induction todo generalizing lens s with
  | nil => exact absurd rfl hne
  | cons i rest ih =>
    have hi := he i (by simp)
    have h₁ := s.reads_one i s.blockSize hi
    have hr := InPort.readFull_eof (s.inPort i) s.blockSize hi
    have ha : s.answer .served = .next (s.blockReply kind (s.readStep .served kind blocks (i :: rest) lens [])) := by
      unfold State.answer; rw [hj]
    unfold State.readStep at ha
    simp only [State.portRead_served, hr.1] at ha
    rw [show ((s.inPort i).data.drop (s.inPort i).pos) = s.left i from rfl] at ha
    generalize hu : (s.setInPort i ((s.inPort i).readFull s.blockSize).2).setStgBytes i
      ((s.left i).take s.blockSize) = u at *
    by_cases hrest : rest = []
    · subst hrest
      refine ⟨u, h₁, ?_⟩
      rw [List.length_singleton]
      apply State.served_one
      rw [ha]
      have hb : ∀ f, s.blockReply kind f = u.blockReply kind f := fun f => by
        rw [h₁.same]; rfl
      rw [hb]; rfl
    · have hemp : rest.isEmpty = false := by simpa using hrest
      simp only [hemp, Bool.false_eq_true, if_false] at ha
      have ha' : s.answer .served = .next (u.waitOn (.readBlock kind blocks rest
          (lens ++ [(i, ((s.left i).take s.blockSize).length)]) [])) := ha
      generalize hv : u.waitOn (.readBlock kind blocks rest
          (lens ++ [(i, ((s.left i).take s.blockSize).length)]) []) = v at *
      have h₁' : s.Reads v s.blockSize [i] := by
        have : v = { u with job := v.job } := by
          rw [← hv]
          have : u.seq = .streamIo := by rw [h₁.same]; exact hq
          unfold State.waitOn
          rw [← this]
        refine ⟨?_, ?_, ?_, ?_⟩
        · unfold State.SameButReads
          have h := h₁.same
          unfold State.SameButReads at h
          rw [this, h]
        · intro j; rw [this]; exact h₁.ports j
        · intro j hj k hk; rw [this]; exact h₁.rows j hj k hk
        · intro a hx; rw [this]; exact h₁.others a hx
      have hvb := h₁'.same.blockSize
      have hvp : v.params = s.params := by rw [h₁'.same]
      rw [List.nodup_cons] at hn
      have hl : ∀ j ∈ rest, v.inPort j = s.inPort j := fun j hj => by
        rw [h₁'.ports, if_neg]
        simp only [List.mem_singleton]
        exact fun e => hn.1 (e ▸ hj)
      obtain ⟨t, ht, hs⟩ := ih hrest hn.2 (lens ++ [(i, ((s.left i).take s.blockSize).length)]) v
        (by rw [← hv]; rfl) (by rw [← hv]; rfl) (by rw [hvb, hvp]; exact hw)
        (fun j hj => by rw [hl j hj]; exact he j (by simp [hj]))
      rw [hvb] at ht hs
      refine ⟨t, State.Reads.trans hw h₁' hn.1 ht, ?_⟩
      rw [show (i :: rest).length = 1 + rest.length by simp; omega]
      rw [State.served_add 1 _ s v (State.served_one s v ha'), hs]
      have hm : (rest.map fun j => (j, ((v.left j).take s.blockSize).length))
          = rest.map fun j => (j, ((s.left j).take s.blockSize).length) := by
        refine List.map_congr_left fun j hj => ?_
        unfold State.left
        rw [hl j hj]
      rw [hm, List.append_assoc, List.map_cons, List.singleton_append]

/-! The writes of a block. -/

/-- `t` is `s` but for the output ports and where the command stands. -/
def State.SameButWrites (s t : State) : Prop :=
  t = { s with outPorts := t.outPorts, job := t.job }

/-- The writes `todo` are made: each port has taken its bytes, and nothing else has changed. -/
structure State.Writes (s t : State) (todo : List (Nat × List Byte)) : Prop where
  same : s.SameButWrites t
  wrote : ∀ e ∈ todo, s.Wrote t e.1 e.2
  others : ∀ j, j ∉ todo.map (·.1) → t.outPort j = s.outPort j

/-- All writes of a block, served one after the other: the command goes on by `next`. -/
theorem State.served_writes (again : List (Nat × List Byte) → List (Nat × Word) → Job) (next : State → Flow)
    (cleanup : State → State)
    (todo : List (Nat × List Byte)) (hne : todo ≠ []) (hn : (todo.map (·.1)).Nodup) (s : State)
    (ha : ∀ t l, s.SameButWrites t → t.job = some (again l []) →
      t.answer .served = .next ((t.writeStep .served l [] again next).settleWith cleanup))
    (hj : s.job = some (again todo [])) (hq : s.seq = .streamIo) :
    ∃ t, s.Writes t todo ∧ State.served todo.length s = .next ((next t).settleWith cleanup) := by
  induction todo generalizing s with
  | nil => exact absurd rfl hne
  | cons e rest ih =>
    have h := ha s _ rfl hj
    unfold State.writeStep at h
    simp only [State.portWrite_served] at h
    generalize hu : s.setOutPort e.1 { s.outPort e.1 with written := (s.outPort e.1).written ++ e.2 } = u at *
    have hsu : s.SameButWrites u := by rw [← hu]; rfl
    have hpu : ∀ j, u.outPort j = if j = e.1 then { s.outPort e.1 with written := (s.outPort e.1).written ++ e.2 }
        else s.outPort j := fun j => by rw [← hu]; exact State.outPort_setOutPort _ _ _ _
    rw [List.map_cons, List.nodup_cons] at hn
    by_cases hrest : rest = []
    · subst hrest
      refine ⟨u, ⟨hsu, ?_, ?_⟩, ?_⟩
      · intro x hx
        rw [List.mem_singleton] at hx
        subst hx
        unfold State.Wrote
        rw [hpu, if_pos rfl]
      · intro j hj
        rw [hpu, if_neg (by simpa using hj)]
      · rw [List.length_singleton]
        exact State.served_one _ _ h
    · have hemp : rest.isEmpty = false := by simpa using hrest
      simp only [hemp, Bool.false_eq_true, if_false] at h
      have h' : s.answer .served = .next (u.waitOn (again rest [])) := h
      generalize hv : u.waitOn (again rest []) = v at *
      have hvu : v = { u with job := v.job } := by
        rw [← hv]
        have : u.seq = .streamIo := by rw [hsu]; exact hq
        unfold State.waitOn
        rw [← this]
      have hsv : s.SameButWrites v := by
        unfold State.SameButWrites at hsu ⊢
        rw [hvu, hsu]
      have hpv : ∀ j, v.outPort j = u.outPort j := fun j => by rw [hvu]; rfl
      obtain ⟨t, ht, hs⟩ := ih hrest hn.2 v
        (fun t l hst hjt => ha t l (by
          unfold State.SameButWrites at hsv hst ⊢
          rw [hst, hsv]) hjt)
        (by rw [← hv]; rfl) (by rw [← hv]; rfl)
      refine ⟨t, ⟨?_, ?_, ?_⟩, ?_⟩
      · have := ht.same
        unfold State.SameButWrites at hsv this ⊢
        rw [this, hsv]
      · intro x hx
        rcases List.mem_cons.1 hx with rfl | hx
        · unfold State.Wrote
          rw [ht.others _ hn.1, hpv, hpu, if_pos rfl]
        · have hw := ht.wrote x hx
          unfold State.Wrote at hw ⊢
          have hne' : x.1 ≠ e.1 := fun h => hn.1 (h ▸ List.mem_map_of_mem hx)
          rw [hw, hpv, hpu, if_neg hne']
      · intro j hj
        simp only [List.map_cons, List.mem_cons, not_or] at hj
        rw [ht.others j hj.2, hpv, hpu, if_neg hj.1]
      · rw [show (e :: rest).length = 1 + rest.length by simp; omega]
        rw [State.served_add 1 _ s v (State.served_one s v h')]
        exact hs

end Sys2Proof.Machine
end

