-- ==== Sys2Proof/Laws/Streams.lean ====
section
/-! SUPPORT. What the entry checks of the stream commands answer, and the rows of a padded block. -/

namespace Sys2Proof.Machine

/-- The common checks of the stream commands before their own (45_stream.md §4). -/
theorem State.streamChecks_eq {α : Type} (s : State) (own : Option Err) (v : α) :
    (s.streamChecks >>= fun _ => answerOf own v) = answerOf (s.streamVerdict own) v := by
  unfold State.streamChecks State.streamVerdict
  cases hc : s.status.configured
  · rfl
  · have : s.blockOk = decide ¬ (s.blockSize = 0 ∨ s.blockSize % 64 ≠ 0 ∨ s.params.stgCap < s.blockSize) := by
      unfold State.blockOk
      by_cases h0 : s.blockSize = 0 <;> by_cases h1 : s.blockSize % 64 = 0 <;>
        by_cases h2 : s.blockSize ≤ s.params.stgCap <;> simp [h0, h1, h2, Config.align]
    rw [this]
    by_cases h : s.blockSize = 0 ∨ s.blockSize % 64 ≠ 0 ∨ s.params.stgCap < s.blockSize
    · simp only [h, not_true_eq_false, decide_false, if_true, Bool.true_eq_false, if_false]; rfl
    · simp only [h, not_false_eq_true, decide_true, if_false, Bool.true_eq_false]; rfl

/-- Two lists of checks, one after the other. -/
theorem answerOf_orElse {α : Type} (a b : Option Err) (v : α) :
    (answerOf a () >>= fun _ => answerOf b v) = answerOf (a <|> b) v := by
  cases a <;> rfl

/-- All that the entry of STREAM_ENCODE can answer (45_stream.md R310). -/
theorem State.streamEncodeRule_eq (s : State) :
    s.streamEncodeRule = answerOf s.streamEncodeVerdict (s.startBlock .encode 0) := by
  unfold State.streamEncodeRule State.streamEncodeVerdict
  rw [← State.streamChecks_eq]
  congr 1
  funext _
  simp only [check_bind]
  rw [← check_answerOf (decide (s.argNat 0 = s.k) && decide (s.argNat 1 = s.m)) _ _ (by simp)]
  rw [← check_answerOf (allShards 0 s.k s.inConn) _ _ (by simp [allShards_iff, State.inConn])]
  rw [← check_answerOf (allShards s.k s.m s.outConn) _ _ (by simp [allShards_iff, State.outConn])]
  rw [← check_answerOf (decide (s.encodeNeed ≤ s.params.workBufs)) _ _ (by
    rw [decide_eq_true_iff]; simp [State.encodeNeed])]
  rfl

/-- All that the entry of STREAM_VERIFY can answer (45_stream.md R311). -/
theorem State.streamVerifyRule_eq (s : State) :
    s.streamVerifyRule = answerOf s.streamVerifyVerdict (s.startBlock .verify 0) := by
  unfold State.streamVerifyRule State.streamVerifyVerdict
  rw [← State.streamChecks_eq]
  congr 1
  funext _
  simp only [check_bind]
  rw [← check_answerOf (decide (s.argNat 0 = s.n)) _ _ (by simp)]
  rw [← check_answerOf (allShards 0 s.n s.inConn) _ _ (by simp [allShards_iff, State.inConn])]
  rw [← check_answerOf (decide (s.encodeNeed ≤ s.params.workBufs)) _ _ (by
    rw [decide_eq_true_iff]; simp [State.encodeNeed])]
  rfl

/-- The shards whose reader is disconnected, counted (45_stream.md R312). -/
theorem State.disconnectedCount_eq (s : State) : s.disconnectedCount = s.absentStreams.length := by
  unfold State.disconnectedCount State.absentStreams State.inConn
  congr 2
  funext i
  simp

/-- All that the entry of a stream reconstruction can answer (45_stream.md R312, R313). -/
theorem State.streamReconstructRule_eq (s : State) (dataOnly : Bool) [Decidable (s.NothingToRecover dataOnly)] :
    State.streamReconstructRule dataOnly s =
      match s.streamReconstructVerdict with
      | some e => .error e
      | none =>
        if s.NothingToRecover dataOnly then .ok (.done (s.setResult 0))
        else answerOf s.streamDecodeVerdict (s.startBlock (.reconstruct dataOnly) 0) := by
  have hk : ∀ k : Except Err Flow, (match s.streamReconstructVerdict with
      | some e => .error e
      | none => k) = (answerOf s.streamReconstructVerdict () >>= fun _ => k) := by
    intro k; cases s.streamReconstructVerdict <;> rfl
  have assoc : ∀ (a : Except Err Unit) (b : Unit → Except Err Unit) (c : Unit → Except Err Flow),
      ((a >>= b) >>= c) = (a >>= fun x => b x >>= c) := by
    intro a b c; cases a <;> rfl
  rw [hk]
  unfold State.streamReconstructRule State.streamReconstructVerdict
  rw [← State.streamChecks_eq, assoc]
  cases hs : s.streamChecks with
  | error e => rfl
  | ok _ =>
    change (check _ _ >>= _) = (answerOf _ () >>= _)
    simp only [check_bind]
    by_cases h1 : s.argNat 0 ≠ s.n ∨ s.argNat 1 ≠ s.n
    · have : (decide (s.argNat 0 = s.n) && decide (s.argNat 1 = s.n)) = false := by
        rw [Bool.eq_false_iff, ne_eq, Bool.and_eq_true, decide_eq_true_iff, decide_eq_true_iff]; tauto
      rw [this, if_pos h1]; rfl
    · have : (decide (s.argNat 0 = s.n) && decide (s.argNat 1 = s.n)) = true := by
        rw [Bool.and_eq_true, decide_eq_true_iff, decide_eq_true_iff]; tauto
      rw [this, if_pos rfl, if_neg h1]
      by_cases h2 : ∃ i < s.n, (s.inPort i).conn = true ∧ (s.outPort i).conn = true
      · have : (!anyShard 0 s.n fun i => s.inConn i && s.outConn i) = false := by
          rw [Bool.not_eq_false', anyShard_iff]; simpa [State.inConn, State.outConn] using h2
        rw [this, if_pos h2]; rfl
      · have : (!anyShard 0 s.n fun i => s.inConn i && s.outConn i) = true := by
          rw [Bool.not_eq_true', ← Bool.not_eq_true, anyShard_iff]
          simpa [State.inConn, State.outConn] using h2
        rw [this, if_pos rfl, if_neg h2]
        simp only [answerOf]
        by_cases h3 : s.NothingToRecover dataOnly
        · rw [if_pos h3]
          by_cases h4 : s.absentStreams = []
          · have : s.disconnectedCount = 0 := by rw [State.disconnectedCount_eq, h4]; rfl
            rw [if_pos this]; rfl
          · have : s.disconnectedCount ≠ 0 := by
              rw [State.disconnectedCount_eq]; simpa using h4
            have h5 := (or_iff_right h4).1 h3
            have h6 : (dataOnly && allShards 0 s.k s.inConn) = true := by
              rw [Bool.and_eq_true, allShards_iff]; simpa [State.inConn] using h5
            rw [if_neg this, if_pos h6]; rfl
        · rw [if_neg h3]
          have h4 : s.disconnectedCount ≠ 0 := by
            rw [State.disconnectedCount_eq]
            intro h; exact h3 (Or.inl (List.length_eq_zero_iff.1 h))
          have h5 : ¬ (dataOnly && allShards 0 s.k s.inConn) = true := by
            rw [Bool.and_eq_true, allShards_iff]
            intro h; exact h3 (Or.inr (by simpa [State.inConn] using h))
          rw [if_neg h4, if_neg h5]
          have hconf : s.status.configured = true := by
            cases hc : s.status.configured
            · unfold State.streamChecks at hs; rw [hc] at hs; cases hs
            · rfl
          unfold State.streamDecodeVerdict
          change _ = answerOf _ _
          rw [← check_answerOf (decide (s.disconnectedCount ≤ s.m)) _ _ (by
            rw [decide_eq_true_iff, not_lt, State.disconnectedCount_eq])]
          rw [← check_answerOf (decide (s.decodeNeed ≤ s.params.workBufs)) _ _ (by
            rw [decide_eq_true_iff]; simp [State.decodeNeed, decodeSize, hconf])]
          rfl

/-- All that the entry of STREAM_SPLIT can answer (45_stream.md R314). -/
theorem State.streamSplitRule_eq (s : State) :
    s.streamSplitRule = answerOf s.streamSplitVerdict (.wait (s.waitOn (.splitRead s.size64))) := by
  unfold State.streamSplitRule State.streamSplitVerdict
  rw [← State.streamChecks_eq]
  congr 1
  funext _
  simp only [check_bind]
  rw [← check_answerOf (!sizeNegative s.size64) _ _ (by simp [sizeNegative])]
  rw [← check_answerOf (decide (s.argNat 0 = s.k)) _ _ (by simp)]
  rw [← check_answerOf (allShards 0 s.k s.outConn) _ _ (by simp [allShards_iff, State.outConn])]
  rw [← check_answerOf (decide (s.size64 ≠ 0)) _ _ (by simp)]
  rw [← check_answerOf (decide (perShard s.size64 s.k ≤ s.params.stgCap)) _ _ (by simp)]
  rw [← check_answerOf (s.inConn 0) _ _ (by simp [State.inConn])]
  rfl

/-- All that the entry of STREAM_JOIN can answer (45_stream.md R315). -/
theorem State.streamJoinRule_eq (s : State) :
    s.streamJoinRule = answerOf s.streamJoinVerdict (s.streamJoinNext 0 s.size64 0) := by
  unfold State.streamJoinRule State.streamJoinVerdict
  rw [← State.streamChecks_eq]
  congr 1
  funext _
  simp only [check_bind]
  rw [← check_answerOf (!sizeNegative s.size64) _ _ (by simp [sizeNegative])]
  rw [← check_answerOf (decide (s.k ≤ s.argNat 0)) _ _ (by simp)]
  rw [← check_answerOf (decide (s.argNat 0 ≤ s.n)) _ _ (by simp)]
  rw [← check_answerOf (s.outConn 0) _ _ (by simp [State.outConn])]
  rfl

/-- All that the entry of JOIN can answer (45_stream.md R301). -/
theorem State.joinRule_eq (s : State) :
    s.joinRule = answerOf s.joinVerdict (s.joinNext 0 s.size64 s.size64) := by
  unfold State.joinRule State.joinVerdict
  simp only [check_bind]
  rw [← check_answerOf s.status.configured _ _ (by simp)]
  rw [← check_answerOf (!sizeNegative s.size64) _ _ (by simp [sizeNegative])]
  rw [← check_answerOf (decide (s.k ≤ s.argNat 0)) _ _ (by simp)]
  rw [← check_answerOf (decide (s.argNat 0 ≤ s.n)) _ _ (by simp)]
  rw [← check_answerOf (s.outPort 0).conn _ _ (by simp)]
  rw [← check_answerOf (decide (s.size64 ≤ s.joinAvail)) _ _ (by simp)]
  rfl

/-! Padding. -/

@[simp] theorem State.padRow_k (size : Nat) (s : State) (row : Nat × Nat) :
    (State.padRow size s row).k = s.k := rfl

@[simp] theorem State.padRow_stgAddr (size : Nat) (s : State) (row : Nat × Nat) (i : Nat) :
    (State.padRow size s row).stgAddr i = s.stgAddr i := rfl

/-- A byte of staging after one row is padded (45_stream.md R318). -/
theorem State.read_padRow (size : Nat) (s : State) (row : Nat × Nat) (a : Nat) :
    (State.padRow size s row).stg.read a =
      (let sp := roundUp size Config.align
       let keep := min row.2 (if row.1 < s.k then size else sp)
       if s.stgAddr row.1 + keep ≤ a ∧ a < s.stgAddr row.1 + keep + (sp - keep) then 0
       else s.stg.read a) := by
  have hz : ∀ n i, (List.replicate n (0 : Byte)).getD i 0 = 0 := fun n i => by
    rw [List.getD_eq_getElem?_getD, List.getElem?_replicate]
    split <;> rfl
  simp only [State.padRow, Memory.read_writeBytes, List.length_replicate, hz]

/-- Padding changes staging only. -/
theorem State.padBlock_rest (s : State) (size : Nat) (lens : List (Nat × Nat)) :
    s.padBlock size lens = { s with stg := (s.padBlock size lens).stg } := by
  unfold State.padBlock
  induction lens generalizing s with
  | nil => rfl
  | cons e l ih =>
    rw [List.foldl_cons, ih (State.padRow size s e)]
    rfl

end Sys2Proof.Machine
end

