-- ==== Sys2Proof/Laws/Blocks.lean ====
section
/-! SUPPORT. One answered port operation, failed or served: what it answers, what ends the command, what it waits on
next. -/

namespace Sys2Proof.Machine

/-- `t` is `s` but for the ports, staging and the draws: what an answered port operation writes before the command
waits or ends. -/
def State.SameButPorts (s t : State) : Prop :=
  t = { s with inPorts := t.inPorts, outPorts := t.outPorts, stg := t.stg, draws := t.draws }

/-! The answers. -/

/-- A failing read: the word, and a change of its port only (45_stream.md R290, R299). -/
theorem State.portRead_fails (s : State) (r : Reply) (i want : Nat) (c : Word) (h : s.ReadFails r i want c) :
    ∃ p, s.portRead r i want = (.error c, s.setInPort i p) := by
  rcases h with ⟨n, rfl⟩ | ⟨rfl, ht, hl⟩
  · exact ⟨_, rfl⟩
  · have hw : ¬ want ≤ (s.inPort i).avail := by
      unfold State.left at hl
      rw [List.length_drop] at hl
      unfold InPort.avail
      omega
    exact ⟨_, by simp only [State.portRead, InPort.readFull, hw, if_false, ht]; rfl⟩

/-- A served read that gives bytes: they are what the reader has left, at most `want` (45_stream.md R290). -/
theorem State.portRead_gives (s : State) (i want : Nat) (bytes : List Byte) (h : s.ReadGives i want bytes) :
    ∃ p, s.portRead .served i want = (.ok bytes, s.setInPort i p)
      ∧ p.data.drop p.pos = (s.left i).drop want := by
  obtain ⟨rfl, ht⟩ := h
  by_cases hl : (s.left i).length < want
  · have hr := InPort.readFull_eof (s.inPort i) want (ht hl)
    exact ⟨_, by rw [State.portRead_served, hr.1]; rfl, hr.2.2.2.2⟩
  · have hw : want ≤ (s.inPort i).avail := by
      unfold State.left at hl
      rw [List.length_drop] at hl
      unfold InPort.avail
      omega
    exact ⟨_, by rw [State.portRead_served, InPort.readFull, if_pos hw]; rfl,
      by simp [State.left, List.drop_drop]⟩

/-- A write's answer, and the bytes that its port takes (45_stream.md R291). -/
theorem State.portWrite_movesOut (s : State) (r : Reply) (j : Nat) (bytes : List Byte) :
    s.MovesOut (s.portWrite r j bytes).2 j
        (match r with
          | .served => bytes
          | .failed _ n => bytes.take n) := by
  cases r with
  | served =>
    exact ⟨rfl, (s.outPort_setOutPort j _ j).trans (if_pos rfl),
      fun j' hj => (s.outPort_setOutPort j _ j').trans (if_neg hj)⟩
  | failed c n =>
    exact ⟨rfl, (s.outPort_setOutPort j _ j).trans (if_pos rfl),
      fun j' hj => (s.outPort_setOutPort j _ j').trans (if_neg hj)⟩

/-- A change of one input port moves no other one. -/
theorem State.movesIn_setInPort (s : State) (i : Nat) (p : InPort) : s.MovesIn (s.setInPort i p) i :=
  ⟨rfl, fun j hj => (s.inPort_setInPort i p j).trans (if_neg hj)⟩

/-- When some operation of a block failed, the command ends with the error of one of them (45_stream.md R296). -/
theorem State.afterBatch_fails (s : State) (raise : Nat → Word → Err) (fails : List (Nat × Word))
    (next : State → Flow) (h : fails ≠ []) :
    ∃ e ∈ fails, ∃ d, s.afterBatch raise fails next = .fail (raise e.1 e.2) { s with draws := d } := by
  cases fails with
  | nil => exact absurd rfl h
  | cons f l => exact ⟨_, (s.pick_mem f (f :: l) h).1, s.draws + 1, rfl⟩

/-! The ends. -/

/-- The cleanup of a command, on the ports and on work memory (10_state.md R56, R57). -/
theorem State.endBlockCommand_keeps (t : State) (need : Nat) (e : Option Err) :
    (State.endBlockCommand need (t.complete e)).inPorts = t.inPorts
      ∧ (State.endBlockCommand need (t.complete e)).outPorts = t.outPorts
      ∧ t.KeepsWorkFrom (State.endBlockCommand need (t.complete e)) need := by
  have h : ∀ u : State, u.inPorts = t.inPorts → u.outPorts = t.outPorts → u.work = t.work → u.params = t.params →
      (State.endBlockCommand need u).inPorts = t.inPorts ∧ (State.endBlockCommand need u).outPorts = t.outPorts
        ∧ t.KeepsWorkFrom (State.endBlockCommand need u) need := by
    intro u h1 h2 h3 h4
    refine ⟨h1, h2, fun a ha => ?_⟩
    have e1 : u.slotAddr need = t.slotAddr need := by unfold State.slotAddr; rw [h4]
    change (u.work.spoil (u.slotAddr need) u.draws).read a = t.work.read a
    rw [e1, Memory.read_spoil _ _ _ _ ha, h3]
  cases e with
  | none => exact h _ rfl rfl rfl rfl
  | some e => cases e <;> exact h _ rfl rfl rfl rfl

/-- A command that fails on a port, whatever its cleanup (60_exceptions.md R341, R344). -/
theorem State.endsAs_failed {s t : State} (h : s.SameButPorts t) (need : Nat) (e : Err) (i : Nat) (c : Word)
    (he : e.ioInfo = some (i, c)) :
    (State.endBlockCommand need (t.complete (some e))).EndsAs (s.portFailed e.code i c)
      ∧ (t.complete (some e)).spoilStg.EndsAs (s.portFailed e.code i c) := by
  have hc : t.complete (some e) = { t.portFailed e.code i c with job := none } := by
    cases e <;> simp only [Err.ioInfo, Option.some.injEq, Prod.mk.injEq, reduceCtorEq] at he <;>
      obtain ⟨rfl, rfl⟩ := he <;> rfl
  rw [hc, h]
  exact ⟨rfl, rfl⟩

/-- A command that fails with an error which names no port, whatever its cleanup (60_exceptions.md R341, R344). -/
theorem State.endsAs_aborted {s t : State} (h : s.SameButPorts t) (need : Nat) (e : Err)
    (he : e.ioInfo = none) :
    (State.endBlockCommand need (t.complete (some e))).EndsAs (s.aborted e)
      ∧ (t.complete (some e)).spoilStg.EndsAs (s.aborted e) := by
  have hc : t.complete (some e) = t.aborted e := by
    cases e <;> simp only [Err.ioInfo, reduceCtorEq] at he <;> rfl
  rw [hc, h]
  exact ⟨rfl, rfl⟩

/-- The end of a block command, on work memory. -/
theorem State.SameButPorts.keepsWork {s t : State} (h : s.SameButPorts t) (need : Nat) (e : Option Err) :
    s.KeepsWorkFrom (State.endBlockCommand need (t.complete e)) need := by
  have hk := (t.endBlockCommand_keeps need e).2.2
  unfold State.KeepsWorkFrom State.slotAddr at *
  rwa [show t.params = s.params by rw [h], show t.work = s.work by rw [h]] at hk

/-- The end of a block command moves no input port. -/
theorem State.MovesIn.endBlockCommand {s t : State} {i : Nat} (h : s.MovesIn t i) (need : Nat) (e : Option Err) :
    s.MovesIn (State.endBlockCommand need (t.complete e)) i := by
  obtain ⟨hi, ho, -⟩ := t.endBlockCommand_keeps need e
  refine ⟨ho.trans h.1, fun j hj => ?_⟩
  unfold State.inPort
  rw [hi]
  exact h.2 j hj

/-- The end of a block command moves no output port. -/
theorem State.MovesOut.endBlockCommand {s t : State} {j : Nat} {bytes : List Byte} (h : s.MovesOut t j bytes)
    (need : Nat) (e : Option Err) : s.MovesOut (State.endBlockCommand need (t.complete e)) j bytes := by
  obtain ⟨hi, ho, -⟩ := t.endBlockCommand_keeps need e
  obtain ⟨h1, h2, h3⟩ := h
  unfold State.Wrote State.outPort at *
  refine ⟨hi.trans h1, ?_, fun j' hj => ?_⟩
  · unfold State.Wrote State.outPort
    rw [ho]
    exact h2
  · unfold State.outPort
    rw [ho]
    exact h3 j' hj

/-! The starts. -/

/-- A block with readers waits on its first read (45_stream.md R293, R296). -/
theorem State.startBlock_starts {s t : State} (h : s.SameButPorts t) (kind : BlockKind) (blocks : Nat)
    (hne : s.readers kind ≠ []) (hr : t.readers kind = s.readers kind) :
    ∃ u, t.startBlock kind blocks = .wait u ∧ s.StartsBlock u kind blocks ∧ u.inPorts = t.inPorts
      ∧ u.outPorts = t.outPorts ∧ u.work = t.work := by
  obtain ⟨todo, d, ho, hp, hs⟩ := t.ordered_eq (t.readers kind)
  rw [hr] at hp hs ho
  have hemp : todo.isEmpty = false := by
    cases todo with
    | nil => exact absurd (List.nil_perm.1 hp) hne
    | cons a l => rfl
  refine ⟨({ t with draws := d } : State).waitOn (.readBlock kind blocks todo [] []), ?_,
    ⟨todo, hp, fun hq => (hs (by rw [h]; exact hq)).1, ?_⟩, rfl, rfl, rfl⟩
  · unfold State.startBlock
    rw [hr, ho]
    simp [hemp]
  · unfold State.WaitsOn State.waitOn
    rw [h]

/-- A block with something to write waits on its first write (45_stream.md R296, R310, R312). -/
theorem State.startWrites_starts {s t : State} (h : s.SameButPorts t) (kind : BlockKind) (blocks : Nat)
    (writes : List (Nat × List Byte)) (hne : writes ≠ []) :
    ∃ u, t.startWrites kind blocks writes = .wait u ∧ s.StartsWrites u (.writeBlock kind blocks) writes
      ∧ u.inPorts = t.inPorts ∧ u.outPorts = t.outPorts ∧ u.work = t.work := by
  obtain ⟨todo, d, ho, hp, hs⟩ := t.ordered_eq writes
  have hemp : todo.isEmpty = false := by
    cases todo with
    | nil => exact absurd (List.nil_perm.1 hp) hne
    | cons a l => rfl
  refine ⟨({ t with draws := d } : State).waitOn (.writeBlock kind blocks todo []), ?_,
    ⟨todo, hp, fun hq => (hs (by rw [h]; exact hq)).1, ?_⟩, rfl, rfl, rfl⟩
  · unfold State.startWrites
    rw [ho]
    simp [hemp]
  · unfold State.WaitsOn State.waitOn
    rw [h]

end Sys2Proof.Machine
end

