-- ==== Sys2Proof/Laws/Bus.lean ====
section
/-! SUPPORT. Laws of the host accesses: where an address of each region lies, what a step on an access does, and
the little-endian bytes of a value. -/

namespace Sys2Proof.Machine

/-- A step serves the oldest input. -/
theorem step_cons (s : State) (x : Input) (rest : List Input) (h : s.inputs = x :: rest) :
    step s = State.handle { s with inputs := rest } x := by
  simp [step, State.advance, h]

theorem step_nil (s : State) (h : s.inputs = []) : step s = .next s := by
  simp [step, State.advance, h]

/-! Regions. -/

theorem placeOf_window (p : Params) (off : Nat) (h : off < 4096) :
    placeOf p (p.mmioBase + off) = some (.window off) := by
  have hin : p.mmioBase ≤ p.mmioBase + off ∧ p.mmioBase + off < p.mmioBase + Config.windowBytes :=
    ⟨Nat.le_add_right _ _, Nat.add_lt_add_left h _⟩
  rw [placeOf, if_pos hin]
  simp

theorem placeOf_slen (p : Params) (hp : p.wellFormed = true) (off : Nat) (h : off < 4 * Config.nslot) :
    placeOf p (p.slenBase + off) = some (.slen off) := by
  simp only [Params.wellFormed, Params.regionsApart, rangesApart, Bool.and_eq_true, Bool.or_eq_true,
    decide_eq_true_eq] at hp
  rw [placeOf, if_neg (by omega), if_pos (by omega)]
  simp

theorem placeOf_slots (p : Params) (hp : p.wellFormed = true) (off : Nat) (h : off < Config.nslot * p.slotCap) :
    placeOf p (p.slotBase + off) = some (.slots off) := by
  simp only [Params.wellFormed, Params.regionsApart, rangesApart, Bool.and_eq_true, Bool.or_eq_true,
    decide_eq_true_eq] at hp
  rw [placeOf, if_neg (by omega), if_neg (by omega), if_pos (by omega)]
  simp

theorem placeOf_dbuf (p : Params) (hp : p.wellFormed = true) (off : Nat) (h : off < p.dbufCap) :
    placeOf p (p.dbufBase + off) = some (.dbuf off) := by
  simp only [Params.wellFormed, Params.regionsApart, rangesApart, Bool.and_eq_true, Bool.or_eq_true,
    decide_eq_true_eq] at hp
  rw [placeOf, if_neg (by omega), if_neg (by omega), if_neg (by omega), if_pos (by omega)]
  simp

theorem wordAccessOk_aligned (base off : Nat) (hb : base % 4 = 0) (ho : off % 4 = 0) :
    wordAccessOk (base + off) off 4 = true := by
  simp only [wordAccessOk, decide_true, Bool.true_and, Bool.and_eq_true, decide_eq_true_eq]
  omega

/-! The register window. -/

/-- A step on a host write to a window register. -/
theorem step_regWrite (s : State) (off : Nat) (v : Word) (rest : List Input) (hb : s.params.mmioBase % 4 = 0)
    (h : off < 4096) (ho : off % 4 = 0) (hi : s.inputs = s.regWrite off v :: rest) :
    step s = State.writeReg { s with inputs := rest } off v := by
  have hv : BitVec.setWidth 32 (BitVec.setWidth 64 v) = v := by simp
  rw [step_cons s _ rest hi]
  simp only [State.regWrite, State.handle, State.serve, State.hostWrite, placeOf_window _ _ h,
    wordAccessOk_aligned _ _ hb ho, if_true, hv]

/-- A step on a host read of a window register. -/
theorem step_regRead (s : State) (off : Nat) (rest : List Input) (hb : s.params.mmioBase % 4 = 0)
    (h : off < 4096) (ho : off % 4 = 0) (hi : s.inputs = s.regRead off :: rest) :
    step s = .next (State.setRead { s with inputs := rest }
      (State.readReg { s with inputs := rest } off).toNat) := by
  rw [step_cons s _ rest hi]
  simp only [State.regRead, State.handle, State.serve, State.hostRead, placeOf_window _ _ h,
    wordAccessOk_aligned _ _ hb ho, if_true]

/-! Little-endian values. -/

theorem length_leBytes (n v : Nat) : (leBytes n v).length = n := by
  induction n generalizing v with
  | zero => rfl
  | succ n ih => simp [leBytes, ih]

/-- Byte b of a value. -/
theorem getD_leBytes (n v b : Nat) (h : b < n) (d : Byte) :
    (leBytes n v).getD b d = BitVec.ofNat 8 (v / 256 ^ b) := by
  induction n generalizing v b with
  | zero => omega
  | succ n ih =>
    cases b with
    | zero => simp [leBytes]
    | succ b =>
      have := ih (v / 256) b (by omega)
      simp only [leBytes, List.getD_cons_succ, this, Nat.div_div_eq_div_mul, Nat.pow_succ, Nat.mul_comm]

theorem leValue_leBytes (n v : Nat) : leValue (leBytes n v) = v % 256 ^ n := by
  induction n generalizing v with
  | zero => simp [leBytes, leValue, Nat.mod_one]
  | succ n ih =>
    rw [leBytes, leValue, ih, Nat.pow_succ, Nat.mul_comm (256 ^ n) 256, Nat.mod_mul]
    simp

end Sys2Proof.Machine
end

