-- ==== Sys2Proof/Laws/Loops.lean ====
section
/-! SUPPORT. The in-place loops of the transforms, position by position: what a level leaves at a position is one
component of its operation on the four (or two) positions of its block before the level. -/

namespace Sys2Proof

theorem getD_set {α : Type} (d : α) (V : Array α) (i j : Nat) (x : α) :
    (V.setIfInBounds i x).getD j d = if i = j ∧ i < V.size then x else V.getD j d := by
  simp only [Array.getD_eq_getD_getElem?, Array.getElem?_setIfInBounds]
  by_cases h : i = j
  · subst h
    by_cases h' : i < V.size <;> simp [h']
  · simp [h]

/-- A loop whose steps own disjoint positions: each position is left as its owner's step on the first array leaves
it. -/
theorem foldl_owned {α β : Type} (d : α) (step : Array α → β → Array α) (owns : β → Nat → Prop) (N : Nat)
    (l : List β) (hl : l.Nodup) (hown : ∀ x ∈ l, ∀ y ∈ l, ∀ p, owns x p → owns y p → x = y)
    (hsize : ∀ V x, V.size = N → (step V x).size = N)
    (hkeep : ∀ V, ∀ x ∈ l, V.size = N → ∀ p, ¬ owns x p → (step V x).getD p d = V.getD p d)
    (hcongr : ∀ V V', ∀ x ∈ l, V.size = N → V'.size = N → (∀ p, owns x p → V.getD p d = V'.getD p d) →
      ∀ p, owns x p → (step V x).getD p d = (step V' x).getD p d)
    (V : Array α) (hV : V.size = N) :
    (l.foldl step V).size = N
      ∧ (∀ x ∈ l, ∀ p, owns x p → (l.foldl step V).getD p d = (step V x).getD p d)
      ∧ ∀ p, (∀ x ∈ l, ¬ owns x p) → (l.foldl step V).getD p d = V.getD p d := by
  induction l generalizing V with
  | nil => exact ⟨hV, fun x hx => absurd hx (by simp), fun p _ => rfl⟩
  | cons x l ih =>
    rw [List.nodup_cons] at hl
    obtain ⟨h1, h2, h3⟩ := ih hl.2 (fun a ha b hb => hown a (by simp [ha]) b (by simp [hb]))
      (fun V a ha => hkeep V a (by simp [ha])) (fun V V' a ha => hcongr V V' a (by simp [ha])) (step V x)
      (hsize V x hV)
    have hx : ∀ y ∈ l, ∀ p, owns y p → ¬ owns x p := fun y hy p hp hxp =>
      hl.1 (hown y (by simp [hy]) x (by simp) p hp hxp ▸ hy)
    refine ⟨h1, fun y hy p hp => ?_, fun p hp => ?_⟩
    · rcases List.mem_cons.1 hy with rfl | hy
      · exact h3 p fun z hz hzp => hx z hz p hzp hp
      · rw [List.foldl_cons, h2 y hy p hp]
        exact hcongr _ _ y (by simp [hy]) (hsize V x hV) hV
          (fun q hq => hkeep V x (by simp) hV q (hx y hy q hq)) p hp
    · rw [List.foldl_cons, h3 p fun y hy => hp y (by simp [hy])]
      exact hkeep V x (by simp) hV p (hp x (by simp))

/-- Component k of a block of four. -/
def pick4 {α : Type} (q : α × α × α × α) (k : Nat) : α :=
  if k = 0 then q.1 else if k = 1 then q.2.1 else if k = 2 then q.2.2.1 else q.2.2.2

/-- A radix-4 step on the positions i, i + dist, i + 2·dist and i + 3·dist. -/
def at4 {α : Type} (d : α) (V : Array α) (i dist : Nat) (op : α → α → α → α → α × α × α × α) : Array α :=
  let q := op (V.getD i d) (V.getD (i + dist) d) (V.getD (i + 2 * dist) d) (V.getD (i + 3 * dist) d)
  (((V.setIfInBounds i q.1).setIfInBounds (i + dist) q.2.1).setIfInBounds (i + 2 * dist) q.2.2.1).setIfInBounds
    (i + 3 * dist) q.2.2.2

theorem size_at4 {α : Type} (d : α) (V : Array α) (i dist : Nat) (op : α → α → α → α → α × α × α × α) :
    (at4 d V i dist op).size = V.size := by simp [at4]

theorem getD_at4 {α : Type} (d : α) (V : Array α) (i dist : Nat) (op : α → α → α → α → α × α × α × α)
    (hd : 0 < dist) (hi : i + 3 * dist < V.size) :
    (∀ k < 4, (at4 d V i dist op).getD (i + k * dist) d
      = pick4 (op (V.getD i d) (V.getD (i + dist) d) (V.getD (i + 2 * dist) d) (V.getD (i + 3 * dist) d)) k)
    ∧ ∀ p, (∀ k < 4, p ≠ i + k * dist) → (at4 d V i dist op).getD p d = V.getD p d := by
  constructor
  · intro k hk
    have h : k = 0 ∨ k = 1 ∨ k = 2 ∨ k = 3 := by omega
    simp only [at4, getD_set, Array.size_setIfInBounds]
    rcases h with rfl | rfl | rfl | rfl
    · rw [if_neg (by omega), if_neg (by omega), if_neg (by omega), if_pos ⟨by omega, by omega⟩]; rfl
    · rw [if_neg (by omega), if_neg (by omega), if_pos ⟨by omega, by omega⟩]; rfl
    · rw [if_neg (by omega), if_pos ⟨rfl, by omega⟩]; rfl
    · rw [if_pos ⟨rfl, hi⟩]; rfl
  · intro p hp
    have h0 := hp 0 (by omega)
    have h1 := hp 1 (by omega)
    have h2 := hp 2 (by omega)
    have h3 := hp 3 (by omega)
    simp only [at4, getD_set, Array.size_setIfInBounds]
    rw [if_neg (by omega), if_neg (by omega), if_neg (by omega), if_neg (by omega)]

/-- One radix-4 level over G groups of 4·dist positions. -/
def levelLoop {α : Type} (d : α) (G dist : Nat) (op : Nat → α → α → α → α → α × α × α × α) (V : Array α) :
    Array α :=
  (List.range G).foldl (init := V) fun V g =>
    (List.range dist).foldl (init := V) fun V i => at4 d V (g * (4 * dist) + i) dist (op g)

theorem block_unique (a i i' k k' : Nat) (hi : i < a) (hi' : i' < a) (h : k * a + i = k' * a + i') :
    k = k' ∧ i = i' := by
  have ha : 0 < a := by omega
  have h1 : (k * a + i) / a = k := by
    rw [Nat.add_comm, Nat.add_mul_div_right _ _ ha, Nat.div_eq_of_lt hi, Nat.zero_add]
  have h2 : (k' * a + i') / a = k' := by
    rw [Nat.add_comm, Nat.add_mul_div_right _ _ ha, Nat.div_eq_of_lt hi', Nat.zero_add]
  have hk : k = k' := by rw [← h1, h, h2]
  subst hk
  exact ⟨rfl, by omega⟩

/-- What a level leaves at a position: a component of its operation on the position's block. -/
theorem getD_levelLoop {α : Type} (d : α) (G dist : Nat) (op : Nat → α → α → α → α → α × α × α × α)
    (V : Array α) (N : Nat) (hV : V.size = N) (hd : 0 < dist) (hG : G * (4 * dist) ≤ N) :
    (levelLoop d G dist op V).size = N
      ∧ (∀ g < G, ∀ i < dist, ∀ k < 4, (levelLoop d G dist op V).getD (g * (4 * dist) + i + k * dist) d
        = pick4 (op g (V.getD (g * (4 * dist) + i) d) (V.getD (g * (4 * dist) + i + dist) d)
            (V.getD (g * (4 * dist) + i + 2 * dist) d) (V.getD (g * (4 * dist) + i + 3 * dist) d)) k)
      ∧ ∀ p, G * (4 * dist) ≤ p → (levelLoop d G dist op V).getD p d = V.getD p d := by
  have hs : ∀ g, (g + 1) * (4 * dist) = g * (4 * dist) + 4 * dist := fun g => by ring
  have hin : ∀ g < G, ∀ i < dist, g * (4 * dist) + i + 3 * dist < N := fun g hg i hi => by
    have := Nat.mul_le_mul_right (4 * dist) (Nat.succ_le_of_lt hg)
    have := hs g
    simp only [Nat.succ_eq_add_one] at *
    omega
  -- one group
  have inner : ∀ g < G, ∀ V : Array α, V.size = N →
      let W := (List.range dist).foldl (init := V) fun V i => at4 d V (g * (4 * dist) + i) dist (op g)
      W.size = N
      ∧ (∀ i < dist, ∀ k < 4, W.getD (g * (4 * dist) + i + k * dist) d
        = pick4 (op g (V.getD (g * (4 * dist) + i) d) (V.getD (g * (4 * dist) + i + dist) d)
            (V.getD (g * (4 * dist) + i + 2 * dist) d) (V.getD (g * (4 * dist) + i + 3 * dist) d)) k)
      ∧ ∀ p, (p < g * (4 * dist) ∨ (g + 1) * (4 * dist) ≤ p) → W.getD p d = V.getD p d := by
    intro g hg V hV
    obtain ⟨h1, h2, h3⟩ := foldl_owned d (fun V i => at4 d V (g * (4 * dist) + i) dist (op g))
      (fun i p => i < dist ∧ ∃ k < 4, p = g * (4 * dist) + i + k * dist) N (List.range dist) List.nodup_range
      (fun i _ i' _ p ⟨hi, k, _, hp⟩ ⟨hi', k', _, hp'⟩ => by
        have : k * dist + i = k' * dist + i' := by omega
        exact (block_unique dist i i' k k' hi hi' this).2)
      (fun V i hV => by rw [size_at4, hV])
      (fun V i hi hV p hp => by
        have hi' := List.mem_range.1 hi
        exact (getD_at4 d V _ dist (op g) hd (by rw [hV]; exact hin g hg i hi')).2 p fun k hk e => hp ⟨hi', k, hk, e⟩)
      (fun V V' i hi hV hV' heq p ⟨hi', k, hk, e⟩ => by
        have hin' := hin g hg i hi'
        subst e
        rw [(getD_at4 d V _ dist (op g) hd (by rw [hV]; exact hin')).1 k hk,
          (getD_at4 d V' _ dist (op g) hd (by rw [hV']; exact hin')).1 k hk]
        have e0 := heq (g * (4 * dist) + i) ⟨hi', 0, by omega, by omega⟩
        have e1 := heq (g * (4 * dist) + i + dist) ⟨hi', 1, by omega, by omega⟩
        have e2 := heq (g * (4 * dist) + i + 2 * dist) ⟨hi', 2, by omega, rfl⟩
        have e3 := heq (g * (4 * dist) + i + 3 * dist) ⟨hi', 3, by omega, rfl⟩
        rw [e0, e1, e2, e3]) V hV
    refine ⟨h1, fun i hi k hk => ?_, fun p hp => h3 p fun i hi ⟨hi', k, hk, e⟩ => ?_⟩
    · rw [h2 i (List.mem_range.2 hi) _ ⟨hi, k, hk, rfl⟩]
      exact (getD_at4 d V _ dist (op g) hd (by rw [hV]; exact hin g hg i hi)).1 k hk
    · have hk3 : k * dist ≤ 3 * dist := Nat.mul_le_mul_right _ (by omega)
      rw [hs] at hp
      omega
  obtain ⟨h1, h2, h3⟩ := foldl_owned d
    (fun V g => (List.range dist).foldl (init := V) fun V i => at4 d V (g * (4 * dist) + i) dist (op g))
    (fun g p => g * (4 * dist) ≤ p ∧ p < (g + 1) * (4 * dist)) N (List.range G) List.nodup_range
    (fun g _ g' _ p hp hp' => by
      have e : ∀ g, g * (4 * dist) ≤ p ∧ p < (g + 1) * (4 * dist) → p / (4 * dist) = g := fun g h =>
        Nat.div_eq_of_lt_le h.1 h.2
      rw [← e g hp, e g' hp'])
    (fun V g hV => by
      refine foldl_keeps (fun V : Array α => V.size = N) _ _ _ hV fun V i _ h => by rw [size_at4, h])
    (fun V g hg hV p hp => (inner g (List.mem_range.1 hg) V hV).2.2 p (by omega))
    (fun V V' g hg hV hV' heq p hp => by
      have hg' := List.mem_range.1 hg
      obtain ⟨i, k, hi, hk, e⟩ : ∃ i k, i < dist ∧ k < 4 ∧ p = g * (4 * dist) + i + k * dist := by
        refine ⟨(p - g * (4 * dist)) % dist, (p - g * (4 * dist)) / dist, Nat.mod_lt _ hd, ?_, ?_⟩
        · rw [Nat.div_lt_iff_lt_mul hd]
          have := hp.2
          rw [hs] at this
          omega
        · have h := Nat.mod_add_div (p - g * (4 * dist)) dist
          rw [Nat.mul_comm dist] at h
          omega
      have hq : ∀ k < 4, V.getD (g * (4 * dist) + i + k * dist) d = V'.getD (g * (4 * dist) + i + k * dist) d := by
        intro k hk
        have hk3 : k * dist ≤ 3 * dist := Nat.mul_le_mul_right _ (by omega)
        exact heq _ ⟨by omega, by rw [hs]; omega⟩
      have q0 := hq 0 (by omega)
      have q1 := hq 1 (by omega)
      have q2 := hq 2 (by omega)
      have q3 := hq 3 (by omega)
      rw [Nat.zero_mul, Nat.add_zero] at q0
      rw [Nat.one_mul] at q1
      rw [e, (inner g hg' V hV).2.1 i hi k hk, (inner g hg' V' hV').2.1 i hi k hk, q0, q1, q2, q3]) V hV
  refine ⟨h1, fun g hg i hi k hk => ?_, fun p hp => h3 p fun g hg hgp => ?_⟩
  · have hk3 : k * dist ≤ 3 * dist := Nat.mul_le_mul_right _ (by omega)
    exact (h2 g (List.mem_range.2 hg) _ ⟨by omega, by rw [hs]; omega⟩).trans
      ((inner g hg V hV).2.1 i hi k hk)
  · have : (g + 1) * (4 * dist) ≤ G * (4 * dist) := Nat.mul_le_mul_right _ (List.mem_range.1 hg)
    omega

/-- A radix-2 step on the positions i and i + dist. -/
def at2 {α : Type} (d : α) (V : Array α) (i dist : Nat) (op : α → α → α × α) : Array α :=
  let q := op (V.getD i d) (V.getD (i + dist) d)
  (V.setIfInBounds i q.1).setIfInBounds (i + dist) q.2

theorem size_at2 {α : Type} (d : α) (V : Array α) (i dist : Nat) (op : α → α → α × α) :
    (at2 d V i dist op).size = V.size := by simp [at2]

theorem getD_at2 {α : Type} (d : α) (V : Array α) (i dist : Nat) (op : α → α → α × α)
    (hd : 0 < dist) (hi : i + dist < V.size) :
    (at2 d V i dist op).getD i d = (op (V.getD i d) (V.getD (i + dist) d)).1
    ∧ (at2 d V i dist op).getD (i + dist) d = (op (V.getD i d) (V.getD (i + dist) d)).2
    ∧ ∀ p, p ≠ i → p ≠ i + dist → (at2 d V i dist op).getD p d = V.getD p d := by
  simp only [at2, getD_set, Array.size_setIfInBounds]
  refine ⟨?_, ?_, fun p h0 h1 => ?_⟩
  · rw [if_neg (by omega), if_pos ⟨trivial, by omega⟩]
  · rw [if_pos ⟨trivial, hi⟩]
  · rw [if_neg (by omega), if_neg (by omega)]

/-- A radix-2 loop over blocks that lie apart: the positions a(x) and a(x) + dist for the x of a list. -/
theorem getD_loop2 {α β : Type} (d : α) (dist : Nat) (a : β → Nat) (op : β → α → α → α × α) (l : List β)
    (hl : l.Nodup) (V : Array α) (N : Nat) (hV : V.size = N) (hd : 0 < dist)
    (hin : ∀ x ∈ l, a x + dist < N)
    (hap : ∀ x ∈ l, ∀ y ∈ l, a x = a y ∨ a x = a y + dist ∨ a y = a x + dist → x = y) :
    let W := l.foldl (fun V x => at2 d V (a x) dist (op x)) V
    W.size = N
      ∧ (∀ x ∈ l, W.getD (a x) d = (op x (V.getD (a x) d) (V.getD (a x + dist) d)).1
        ∧ W.getD (a x + dist) d = (op x (V.getD (a x) d) (V.getD (a x + dist) d)).2)
      ∧ ∀ p, (∀ x ∈ l, p ≠ a x ∧ p ≠ a x + dist) → W.getD p d = V.getD p d := by
  obtain ⟨h1, h2, h3⟩ := foldl_owned d (fun V x => at2 d V (a x) dist (op x))
    (fun x p => p = a x ∨ p = a x + dist) N l hl
    (fun x hx y hy p hp hp' => hap x hx y hy (by omega))
    (fun V x hV => by rw [size_at2, hV])
    (fun V x hx hV p hp => by
      rw [not_or] at hp
      exact (getD_at2 d V _ dist (op x) hd (by rw [hV]; exact hin x hx)).2.2 p hp.1 hp.2)
    (fun V V' x hx hV hV' heq p hp => by
      have g := getD_at2 d V (a x) dist (op x) hd (by rw [hV]; exact hin x hx)
      have g' := getD_at2 d V' (a x) dist (op x) hd (by rw [hV']; exact hin x hx)
      have e0 := heq (a x) (.inl rfl)
      have e1 := heq (a x + dist) (.inr rfl)
      rcases hp with rfl | rfl
      · rw [g.1, g'.1, e0, e1]
      · rw [g.2.1, g'.2.1, e0, e1]) V hV
  refine ⟨h1, fun x hx => ?_, fun p hp => h3 p fun x hx h => ?_⟩
  · have g := getD_at2 d V (a x) dist (op x) hd (by rw [hV]; exact hin x hx)
    exact ⟨(h2 x hx _ (.inl rfl)).trans g.1, (h2 x hx _ (.inr rfl)).trans g.2.1⟩
  · have := hp x hx
    omega

/-! The model's loops are these. -/

theorem GF.level4_eq (f : GF) (op : Row → Row → Row → Row → Nat → Nat → Nat → Row × Row × Row × Row)
    (mtrunc off dist : Nat) (V : Rows) :
    f.level4 op mtrunc off dist V
      = levelLoop [] (ceilDiv mtrunc (4 * dist)) dist (fun g b0 b1 b2 b3 =>
          op b0 b1 b2 b3 (f.skew (off + (g * (4 * dist) + dist) - 1))
            (f.skew (off + (g * (4 * dist) + dist) + 2 * dist - 1))
            (f.skew (off + (g * (4 * dist) + dist) + dist - 1))) V := rfl

theorem GF.fwhtLevel_eq (f : GF) (mtrunc dist : Nat) (V : Array Nat) :
    f.fwhtLevel mtrunc dist V
      = levelLoop 0 (ceilDiv mtrunc (4 * dist)) dist (fun _ b0 b1 b2 b3 =>
          ((f.fwht2 (f.fwht2 b0 b1).1 (f.fwht2 b2 b3).1).1, (f.fwht2 (f.fwht2 b0 b1).2 (f.fwht2 b2 b3).2).1,
            (f.fwht2 (f.fwht2 b0 b1).1 (f.fwht2 b2 b3).1).2, (f.fwht2 (f.fwht2 b0 b1).2 (f.fwht2 b2 b3).2).2)) V :=
  rfl

theorem lt_ceilDiv_iff (a b g : Nat) (hb : 0 < b) : g < ceilDiv a b ↔ g * b < a := by
  unfold ceilDiv
  rw [← Nat.add_one_le_iff, Nat.le_div_iff_mul_le hb, Nat.add_mul]
  omega

theorem ceilDiv_mul_le_size (mtrunc size d : Nat) (hd : 0 < d) (hdvd : d ∣ size) (hle : mtrunc ≤ size) :
    ceilDiv mtrunc d * d ≤ size := by
  by_cases h0 : ceilDiv mtrunc d = 0
  · rw [h0, Nat.zero_mul]; exact Nat.zero_le _
  · have := ceilDiv_mul_le mtrunc size d hd hdvd hle (ceilDiv mtrunc d - 1) (by omega)
    rwa [← Nat.succ_mul, Nat.succ_eq_add_one, Nat.sub_add_cancel (by omega)] at this

theorem le_ceilDiv_mul (mtrunc d : Nat) (hd : 0 < d) : mtrunc ≤ ceilDiv mtrunc d * d := by
  by_contra h
  exact absurd ((lt_ceilDiv_iff mtrunc d _ hd).2 (by omega)) (lt_irrefl _)

end Sys2Proof
end

