-- ==== Sys2Proof/Laws/Model.lean ====
section
/-! SUPPORT. The elements of GF(2^w) as a field of Mathlib: a map from the numbers below 2^w into a field of
characteristic 2 that carries XOR to addition, multiplication to multiplication, and a right shift to y² + y, the
property of the Cantor basis. -/

namespace Sys2Proof

/-- `φ` carries the numbers below 2^w into the field K. -/
structure GF.Model (f : GF) (K : Type) [Field K] (φ : Nat → K) : Prop where
  two : (2 : K) = 0
  one : φ 1 = 1
  xor : ∀ a b, a < f.order → b < f.order → φ (a ^^^ b) = φ a + φ b
  mul : ∀ a b, a < f.order → b < f.order → φ (f.mul a b) = φ a * φ b
  inj : ∀ a b, a < f.order → b < f.order → φ a = φ b → a = b
  half : ∀ a, a < f.order → φ (a / 2) = φ a ^ 2 + φ a

theorem GF.zero_lt_order (f : GF) : 0 < f.order := by cases f <;> decide

/-- A product with a factor that is not 0 is a product by a log (41_field_tables.md R156). -/
theorem GF.mul_eq_mulLog (f : GF) (a b : Nat) (hb : b ≠ 0) : f.mul a b = f.mulLog a (f.log b) := by
  unfold GF.mul GF.mulLog
  by_cases ha : a = 0 <;> simp [ha, hb]

theorem GF.mul_zero_right (f : GF) (a : Nat) : f.mul a 0 = 0 := by simp [GF.mul]

theorem GF.mul_zero_left (f : GF) (a : Nat) : f.mul 0 a = 0 := by simp [GF.mul]

theorem GF.mul_swap (f : GF) (a b : Nat) : f.mul a b = f.mul b a := by
  unfold GF.mul
  rw [f.addmod_comm]
  simp only [or_comm]

theorem GF.mul_lt_order (f : GF) (a b : Nat) : f.mul a b < f.order := by
  by_cases hb : b = 0
  · rw [hb, f.mul_zero_right]; exact f.zero_lt_order
  · rw [f.mul_eq_mulLog a b hb]; exact f.mulLog_lt _ _

theorem GF.cant_inj (f : GF) (a b : Nat) (ha : a < f.order) (hb : b < f.order) (h : f.cant a = f.cant b) :
    a = b := by
  rw [← f.uncant_cant a ha, h, f.uncant_cant b hb]

/-- Multiplication by b turns the shift register LOG[b] times (41_field_tables.md R154, R156). -/
theorem GF.cant_mul (f : GF) (a b : Nat) (ha : a < f.order) (hb : b ≠ 0) :
    f.cant (f.mul a b) = f.lfsrRun (f.log b) (f.cant a) := by
  rw [f.mul_eq_mulLog a b hb, f.mulLog_run a _ ha, f.cant_uncant _ (f.lfsrRun_lt _ _ (f.cant_lt a))]

theorem GF.mul_reassoc (f : GF) (a b c : Nat) (hb : b < f.order) :
    f.mul (f.mul a b) c = f.mul a (f.mul b c) := by
  by_cases hb0 : b = 0
  · simp [hb0, f.mul_zero_right, f.mul_zero_left]
  by_cases hc0 : c = 0
  · simp [hc0, f.mul_zero_right]
  by_cases ha0 : a = 0
  · simp [ha0, f.mul_zero_left]
  apply f.cant_inj _ _ (f.mul_lt_order _ _) (f.mul_lt_order _ _)
  rw [f.cant_mul _ c (f.mul_lt_order _ _) hc0, f.mul_swap a b, f.cant_mul b a hb ha0, f.mul_swap a,
    f.cant_mul _ a (f.mul_lt_order _ _) ha0, f.cant_mul b c hb hc0, ← GF.lfsrRun_add, ← GF.lfsrRun_add,
    Nat.add_comm]

theorem GF.mul_xor_left (f : GF) (a b c : Nat) (ha : a < f.order) (hb : b < f.order) :
    f.mul (a ^^^ b) c = f.mul a c ^^^ f.mul b c := by
  by_cases hc : c = 0
  · simp [hc, f.mul_zero_right]
  · simp only [f.mul_eq_mulLog _ c hc, f.mulLog_xor a b _ ha hb]

theorem GF.cant_one (f : GF) : f.cant 1 = 1 := by cases f <;> decide

theorem GF.mul_one_right (f : GF) (a : Nat) (ha : a < f.order) : f.mul a 1 = a := by
  apply f.cant_inj _ _ (f.mul_lt_order _ _) ha
  rw [f.cant_mul a 1 ha one_ne_zero]
  have h : f.log 1 = 0 := by
    rw [GF.log_eq, f.cant_one]
    exact f.lfsr_run 0 f.mod_pos
  rw [h, GF.lfsrRun_zero]

/-- Multiplication by the element with a log (41_field_tables.md R156). -/
theorem GF.mulLog_eq_mul (f : GF) (a l : Nat) (ha : a < f.order) : f.mulLog a l = f.mul a (f.exp l) := by
  rw [f.mul_swap]
  by_cases h0 : a = 0
  · rw [h0, f.mulLog_zero, f.mul_zero_right]
  apply f.cant_inj _ _ (f.mulLog_lt _ _) (f.mul_lt_order _ _)
  rw [f.mulLog_run a l ha, f.cant_uncant _ (f.lfsrRun_lt _ _ (f.cant_lt a)), f.cant_mul _ a (f.exp_lt l) h0,
    f.cant_exp, ← GF.lfsrRun_add, Nat.add_comm, GF.lfsrRun_add, f.run_log a ha h0]

/-- The inverse of 41_field_tables.md R158. -/
theorem GF.mul_inverse (f : GF) (a : Nat) (ha : a < f.order) (h0 : a ≠ 0) :
    f.mul a (f.exp (f.mod - f.log a)) = 1 := by
  have hl := f.log_lt a ha h0
  apply f.cant_inj _ _ (f.mul_lt_order _ _) f.one_lt_order
  rw [f.mul_swap, f.cant_mul _ a (f.exp_lt _) h0, f.cant_exp, ← GF.lfsrRun_add,
    show f.log a + (f.mod - f.log a) = f.mod by omega, f.cant_one]
  exact f.lfsrRun_mod 1 f.one_lt_order

theorem GF.square_basis (f : GF) (n : Nat) (hn : n < f.width) :
    f.mul (2 ^ n) (2 ^ n) ^^^ 2 ^ n = 2 ^ n / 2 := by
  have h : 2 ^ n < f.order := by rw [GF.order_eq]; exact Nat.pow_lt_pow_right (by decide) hn
  rw [f.mul_poly _ _ h h]
  have key : ∀ n < f.width,
      f.uncant (f.polyMul f.width (f.cant (2 ^ n)) (f.cant (2 ^ n))) ^^^ 2 ^ n = 2 ^ n / 2 := by
    cases f <;> decide +kernel
  exact key n hn

/-- The Cantor property: y² + y is y without its lowest coordinate, shifted right (41_field_tables.md R152). -/
theorem GF.square_xor (f : GF) (y : Nat) (hy : y < f.order) : f.mul y y ^^^ y = y / 2 := by
  rw [GF.order_eq] at hy
  suffices H : ∀ n ≤ f.width, ∀ y < 2 ^ n, f.mul y y ^^^ y = y / 2 from H _ le_rfl y hy
  intro n
  induction n with
  | zero => intro _ y hy; obtain rfl : y = 0 := by omega
            simp [f.mul_zero_left]
  | succ n ih =>
    intro hn y hy
    by_cases hlt : y < 2 ^ n
    · exact ih (by omega) y hlt
    have hle : 2 ^ (n + 1) ≤ f.order := by rw [GF.order_eq]; exact Nat.pow_le_pow_right (by decide) hn
    have hp : 2 ^ (n + 1) = 2 * 2 ^ n := by rw [Nat.pow_succ']
    obtain ⟨z, hz⟩ : ∃ z, y = 2 ^ n ^^^ z := ⟨2 ^ n ^^^ y, by rw [← Nat.xor_assoc, Nat.xor_self, Nat.zero_xor]⟩
    have hzl : z < 2 ^ n := by
      have hz' : z = 2 ^ n ^^^ y := by rw [hz, ← Nat.xor_assoc, Nat.xor_self, Nat.zero_xor]
      rw [hz']
      apply Nat.lt_pow_two_of_testBit
      intro i hi
      rcases Nat.eq_or_lt_of_le hi with rfl | hi'
      · have : y.testBit n = true := (testBit_top n y hy).2 (by omega)
        simp [this]
      · have h1 : y.testBit i = false := Nat.testBit_lt_two_pow (lt_of_lt_of_le hy (Nat.pow_le_pow_right (by decide) hi'))
        have h2 : (2 ^ n).testBit i = false := by rw [Nat.testBit_two_pow]; simp; omega
        simp [h1, h2]
    have ha : 2 ^ n < f.order := by omega
    have hb : z < f.order := by omega
    have hsq : f.mul y y = f.mul (2 ^ n) (2 ^ n) ^^^ f.mul z z := by
      rw [hz, f.mul_xor_left _ _ _ ha hb, f.mul_swap (2 ^ n) (2 ^ n ^^^ z), f.mul_swap z (2 ^ n ^^^ z),
        f.mul_xor_left _ _ _ ha hb, f.mul_xor_left _ _ _ ha hb, f.mul_swap z (2 ^ n), ← Nat.xor_assoc,
        Nat.xor_assoc (f.mul (2 ^ n) (2 ^ n)), Nat.xor_self, Nat.xor_zero]
    rw [hsq, hz, xor_xor_xor_comm, f.square_basis n (by omega), ih (by omega) z hzl, xor_div_two]

/-- There is such a field. -/
theorem GF.exists_model (f : GF) : ∃ (K : Type) (_ : Field K) (φ : Nat → K), GF.Model f K φ := by
  let K := { v : Nat // v < f.order }
  let : Add K := ⟨fun a b => ⟨a.1 ^^^ b.1, f.xor_lt _ _ a.2 b.2⟩⟩
  let : Mul K := ⟨fun a b => ⟨f.mul a.1 b.1, f.mul_lt_order _ _⟩⟩
  let : Neg K := ⟨fun a => a⟩
  let : Zero K := ⟨⟨0, f.zero_lt_order⟩⟩
  let : One K := ⟨⟨1, f.one_lt_order⟩⟩
  let : Inv K := ⟨fun a => if a.1 = 0 then ⟨0, f.zero_lt_order⟩ else ⟨f.exp (f.mod - f.log a.1), f.exp_lt _⟩⟩
  let inst : Field K := Field.ofMinimalAxioms K
    (fun a b c => Subtype.ext (Nat.xor_assoc _ _ _)) (fun a => Subtype.ext (Nat.zero_xor _))
    (fun a => Subtype.ext (Nat.xor_self _)) (fun a b c => Subtype.ext (f.mul_reassoc _ _ _ b.2))
    (fun a b => Subtype.ext (f.mul_swap _ _))
    (fun a => Subtype.ext ((f.mul_swap _ _).trans (f.mul_one_right _ a.2)))
    (fun a ha => by
      have h0 : a.1 ≠ 0 := fun h => ha (Subtype.ext h)
      refine Subtype.ext ?_
      change f.mul a.1 (if a.1 = 0 then _ else _ : K).1 = 1
      rw [if_neg h0]
      exact f.mul_inverse _ a.2 h0)
    (if_pos rfl)
    (fun a b c => Subtype.ext (by
      change f.mul a.1 (b.1 ^^^ c.1) = f.mul a.1 b.1 ^^^ f.mul a.1 c.1
      rw [f.mul_swap, f.mul_xor_left _ _ _ b.2 c.2, f.mul_swap b.1, f.mul_swap c.1]))
    ⟨0, 1, fun h => by cases congrArg Subtype.val h⟩
  let φ : Nat → K := fun v => if h : v < f.order then ⟨v, h⟩ else 0
  have hφ : ∀ v (h : v < f.order), φ v = ⟨v, h⟩ := fun v h => dif_pos h
  refine ⟨K, inst, φ, ⟨?_, hφ 1 f.one_lt_order, ?_, ?_, ?_, ?_⟩⟩
  · rw [← one_add_one_eq_two]
    exact Subtype.ext (Nat.xor_self 1)
  · intro a b ha hb
    rw [hφ a ha, hφ b hb, hφ _ (f.xor_lt a b ha hb)]; rfl
  · intro a b ha hb
    rw [hφ a ha, hφ b hb, hφ _ (f.mul_lt_order a b)]; rfl
  · intro a b ha hb h
    rw [hφ a ha, hφ b hb] at h
    exact congrArg Subtype.val h
  · intro a ha
    rw [hφ a ha, hφ _ (lt_of_le_of_lt (Nat.div_le_self a 2) ha), pow_two]
    exact Subtype.ext (f.square_xor a ha).symm

end Sys2Proof
end

