-- ==== Sys2Proof/Laws/Twiddles.lean ====
section
/-! SUPPORT. The skew table in closed form (41_field_tables.md R159, R160): the element at a position of level i is
the left end of its group, shifted right by i. -/

namespace Sys2Proof

theorem two_pow_xor (n a : Nat) (h : a < 2 ^ n) : a ^^^ 2 ^ n = 2 ^ n + a := by
  apply Nat.eq_of_testBit_eq
  intro i
  rw [Nat.testBit_xor, Nat.testBit_two_pow]
  rcases Nat.lt_trichotomy i n with hi | rfl | hi
  · have hne : n ≠ i := by omega
    simp [Nat.testBit_two_pow_add_gt hi, hne]
  · simp [Nat.testBit_two_pow_add_eq, Nat.testBit_lt_two_pow h]
  · have h1 : a.testBit i = false := Nat.testBit_lt_two_pow (lt_trans h (Nat.pow_lt_pow_right (by decide) hi))
    have h2 : (2 ^ n + a).testBit i = false := Nat.testBit_lt_two_pow (by
      have : 2 ^ (n + 1) ≤ 2 ^ i := Nat.pow_le_pow_right (by decide) hi
      rw [Nat.pow_succ] at this; omega)
    rw [h1, h2]; simp; omega

/-- The scratch table `temp` of 41_field_tables.md R159 while stage m runs, from entry m on: powers of two. -/
theorem GF.tempAt_getD (f : GF) (m : Nat) : (f.tempAt m).length = f.width - 1 ∧
    ∀ i, m ≤ i → i < f.width - 1 → (f.tempAt m).getD i 0 = 2 ^ (i + 1 - m) := by
  induction m with
  | zero =>
    refine ⟨by simp [GF.tempAt], fun i _ hi => ?_⟩
    simp [GF.tempAt, hi]
  | succ m ih =>
    obtain ⟨hl, ih⟩ := ih
    refine ⟨by simp [GF.tempAt, hl], fun i hm hi => ?_⟩
    have hpow : ∀ b, b < f.width → 2 ^ b < f.order := fun b hb => by
      rw [GF.order_eq]; exact Nat.pow_lt_pow_right (by decide) hb
    have hw : 1 < f.width := by omega
    have h2 : (2 : Nat) < f.order := by have := hpow 1 hw; omega
    have ht : (f.tempAt m).getD m 0 = 2 := by rw [ih m le_rfl (by omega)]; simp
    -- the product of t and t + 1
    have hmul : ∀ b, 1 ≤ b → b < f.width → f.mulLog (2 ^ b) (f.log (2 ^ b ^^^ 1)) = 2 ^ (b - 1) := by
      intro b hb hbw
      have hne : (2 : Nat) ^ b ≠ 1 := by
        have : 2 ^ 1 ≤ 2 ^ b := Nat.pow_le_pow_right (by decide) hb
        omega
      have hx : 2 ^ b ^^^ 1 ≠ 0 := fun h => hne ((xor_eq_zero_iff _ _).1 h)
      rw [← f.mul_eq_mulLog _ _ hx, f.mul_swap, f.mul_xor_left _ _ _ (hpow b hbw) f.one_lt_order, f.mul_swap 1,
        f.mul_one_right _ (hpow b hbw), f.square_basis b hbw]
      obtain ⟨c, rfl⟩ : ∃ c, b = c + 1 := ⟨b - 1, by omega⟩
      rw [Nat.pow_succ, Nat.mul_div_cancel _ (by decide)]; simp
    have hone : f.log 1 = 0 := by
      rw [GF.log_eq, f.cant_one]; exact f.lfsr_run 0 f.mod_pos
    have hlm : f.mod - f.log (f.mulLog 2 (f.log (2 ^^^ 1))) = f.mod := by
      have := hmul 1 le_rfl hw
      simp only [Nat.pow_one, Nat.sub_self, Nat.pow_zero] at this
      rw [this, hone, Nat.sub_zero]
    have hget : (f.tempAt m)[i]? = some (2 ^ (i + 1 - m)) := by
      have hi' : i < (f.tempAt m).length := by rw [hl]; exact hi
      have := ih i (by omega) hi
      rw [List.getD_eq_getElem?_getD, List.getElem?_eq_getElem hi'] at this
      rw [List.getElem?_eq_getElem hi', ← this]; rfl
    rw [List.getD_eq_getElem?_getD]
    simp only [GF.tempAt, List.getElem?_mapIdx, hget, ht, hlm, Option.map_some, Option.getD_some]
    rw [if_neg (by omega), if_neg (by omega)]
    have hb : 2 ^ (i + 1 - m) < f.order := hpow _ (by omega)
    rw [f.mulLog_run _ _ hb, f.addmod_run _ _ _ (f.cant_lt _), GF.lfsrRun_add,
      f.lfsrRun_mod _ (f.cant_lt _), ← f.mulLog_run _ _ hb, hmul _ (by omega) (by omega)]
    congr 1

/-- What stage m leaves at position k: the bits of k above bit m, moved to bit 1 (41_field_tables.md R159). -/
theorem GF.skewStage_eq (f : GF) (m fuel k : Nat) (hk : k < 2 ^ fuel) (hw : k < f.order) :
    GF.skewStage (f.tempAt m) m fuel k = 2 * (k / 2 ^ (m + 1)) := by
  induction fuel generalizing k with
  | zero =>
    obtain rfl : k = 0 := by omega
    simp [GF.skewStage]
  | succ fuel ih =>
    unfold GF.skewStage
    split
    · rename_i h; rw [Nat.div_eq_of_lt h]
    · rename_i h
      have hk0 : k ≠ 0 := by have := Nat.two_pow_pos (m + 1); omega
      have hlo : 2 ^ k.log2 ≤ k := Nat.log2_self_le hk0
      have hhi : k < 2 ^ (k.log2 + 1) := Nat.lt_log2_self
      have hm : m + 1 ≤ k.log2 := by
        by_contra hc
        have : 2 ^ (k.log2 + 1) ≤ 2 ^ (m + 1) := Nat.pow_le_pow_right (by decide) (by omega)
        omega
      have hf : k.log2 ≤ fuel := by
        have : 2 ^ k.log2 < 2 ^ (fuel + 1) := by omega
        have := (Nat.pow_lt_pow_iff_right (by decide)).1 this
        omega
      have hlw : k.log2 < f.width := by
        rw [GF.order_eq] at hw
        exact (Nat.pow_lt_pow_iff_right (by decide)).1 (lt_of_le_of_lt hlo hw)
      rw [Nat.pow_succ] at hhi
      rw [ih (k - 2 ^ k.log2) (by
          have : 2 ^ k.log2 ≤ 2 ^ fuel := Nat.pow_le_pow_right (by decide) hf
          omega) (by omega), (f.tempAt_getD m).2 _ (by omega) (by omega)]
      generalize hL : k.log2 = L at *
      obtain ⟨q, hq⟩ : ∃ q, L = m + 1 + q := ⟨L - (m + 1), by omega⟩
      have e1 : L - 1 + 1 - m = q + 1 := by omega
      have e2 : 2 ^ L = 2 ^ q * 2 ^ (m + 1) := by rw [hq, Nat.pow_add, Nat.mul_comm]
      have hsub : (k - 2 ^ L) / 2 ^ (m + 1) = k / 2 ^ (m + 1) - 2 ^ q := by
        rw [e2, Nat.mul_comm, Nat.sub_mul_div]
      have hge : 2 ^ q ≤ k / 2 ^ (m + 1) := by
        rw [Nat.le_div_iff_mul_le (Nat.two_pow_pos _), ← e2]; exact hlo
      have hlt : k / 2 ^ (m + 1) < 2 ^ q * 2 := by
        rw [Nat.div_lt_iff_lt_mul (Nat.two_pow_pos _)]
        calc k < 2 ^ L * 2 := hhi
          _ = 2 ^ q * 2 * 2 ^ (m + 1) := by rw [e2]; ring
      rw [hsub, e1, two_pow_xor _ _ (by rw [Nat.pow_succ 2 q]; omega), Nat.pow_succ 2 q]
      omega

theorem trailingZeros_mul (fuel i c : Nat) (h : i < fuel) : trailingZeros fuel (2 ^ i * (2 * c + 1)) = i := by
  induction fuel generalizing i with
  | zero => omega
  | succ fuel ih =>
    unfold trailingZeros
    cases i with
    | zero => rw [Nat.pow_zero, Nat.one_mul, if_pos (by omega)]
    | succ i =>
      have e : 2 ^ (i + 1) * (2 * c + 1) = 2 * (2 ^ i * (2 * c + 1)) := by rw [Nat.pow_succ']; ring
      rw [e, if_neg (by omega), Nat.mul_div_cancel_left _ (by decide), ih i (by omega)]

/-- The element behind the skew-table entry of level i for the group of 2^(i+1) positions that starts at
c · 2^(i+1): the start, shifted right by i (41_field_tables.md R159, R160). -/
theorem GF.skewElem_eq (f : GF) (i c : Nat) (h : c * 2 ^ (i + 1) + 2 ^ i - 1 < f.mod) :
    f.skewElem (c * 2 ^ (i + 1) + 2 ^ i - 1) = 2 * c := by
  have hp := Nat.two_pow_pos i
  have hs : 2 ^ (i + 1) = 2 * 2 ^ i := Nat.pow_succ' ..
  have e : c * 2 ^ (i + 1) + 2 ^ i - 1 + 1 = 2 ^ i * (2 * c + 1) := by
    rw [hs, Nat.sub_add_cancel (by omega)]; ring
  have hm := f.mod_eq
  have hord : 2 ^ i * (2 * c + 1) < f.order := by omega
  have hi : i < f.width := by
    rw [GF.order_eq] at hord
    refine (Nat.pow_lt_pow_iff_right (by decide)).1 (lt_of_le_of_lt ?_ hord)
    exact Nat.le_mul_of_pos_right _ (by omega)
  unfold GF.skewElem
  rw [e, trailingZeros_mul _ _ _ hi]
  simp only
  split
  · rw [f.skewStage_eq i f.width _ (by rw [← GF.order_eq]; omega) (by omega)]
    congr 1
    have : c * 2 ^ (i + 1) + 2 ^ i - 1 = (2 ^ i - 1) + c * 2 ^ (i + 1) := by omega
    rw [this, Nat.add_mul_div_right _ _ (Nat.two_pow_pos _), Nat.div_eq_of_lt (by omega), Nat.zero_add]
  · rename_i hn
    have hw : i + 1 = f.width := by omega
    have : c = 0 := by
      by_contra hc
      have h1 : 2 ^ (i + 1) ≤ c * 2 ^ (i + 1) := Nat.le_mul_of_pos_left _ (by omega)
      rw [GF.order_eq, ← hw] at hm
      omega
    simp [this]

end Sys2Proof
end

