-- ==== Sys2Proof/Laws/Evaluate.lean ====
section
/-! SUPPORT. The transforms evaluate: FFT takes the coefficients of a sum of basis products to its values, and IFFT
takes values back to coefficients, for every truncation, size and offset (44_codec.md R264, R265). -/

namespace Sys2Proof

open Finset in
/-- The product of the x / 2^b over the set bits b of j: the basis function of index j at the position x. -/
def basisAt {K : Type} [Field K] (φ : Nat → K) (w j x : Nat) : K :=
  ∏ b ∈ range w, if j.testBit b then φ (x / 2 ^ b) else 1

/-- The value at position p of the sum whose coefficients stand in p's group of 2^i positions. -/
def groupEval {K : Type} [Field K] (φ : Nat → K) (w off : Nat) (v : Nat → K) (i p : Nat) : K :=
  ∑ h ∈ Finset.range (2 ^ i), v (p / 2 ^ i * 2 ^ i + h) * basisAt φ w h (off + p)

section Basis

variable {K : Type} [Field K] (φ : Nat → K) (w : Nat)

theorem basisAt_add (i k h x : Nat) (hh : h < 2 ^ i) :
    basisAt φ w (2 ^ i * k + h) x = basisAt φ w (2 ^ i * k) x * basisAt φ w h x := by
  unfold basisAt
  rw [← Finset.prod_mul_distrib]
  refine Finset.prod_congr rfl fun b _ => ?_
  have h0 := Nat.testBit_two_pow_mul_add k (Nat.two_pow_pos i) b
  rw [Nat.add_zero] at h0
  rw [Nat.testBit_two_pow_mul_add k hh b, h0]
  by_cases hb : b < i
  · simp [hb]
  · have : h.testBit b = false := Nat.testBit_lt_two_pow (lt_of_lt_of_le hh (Nat.pow_le_pow_right (by decide) (by omega)))
    simp [hb, this]

theorem basisAt_zero (x : Nat) : basisAt φ w 0 x = 1 := by simp [basisAt]

theorem basisAt_pow (i x : Nat) (hi : i < w) : basisAt φ w (2 ^ i) x = φ (x / 2 ^ i) := by
  unfold basisAt
  rw [Finset.prod_eq_single i]
  · simp
  · intro b _ hb
    have : i ≠ b := fun h => hb h.symm
    simp [this]
  · intro h
    exact absurd (Finset.mem_range.2 hi) h

theorem basisAt_three (i x : Nat) (hi : i + 1 < w) :
    basisAt φ w (2 ^ i * 3) x = φ (x / 2 ^ (i + 1)) * φ (x / 2 ^ i) := by
  have h := basisAt_add φ w (i + 1) 1 (2 ^ i) x (by rw [Nat.pow_succ]; have := Nat.two_pow_pos i; omega)
  rw [Nat.mul_one] at h
  rw [show 2 ^ i * 3 = 2 ^ (i + 1) + 2 ^ i by rw [Nat.pow_succ]; ring, h, basisAt_pow φ w _ x hi,
    basisAt_pow φ w i x (by omega)]

/-- a0 + u·a1 + v·a2 + u·v·a3. -/
def quad (a0 a1 a2 a3 u v : K) : K := a0 + u * a1 + v * a2 + u * v * a3

theorem group_start (d g q : Nat) (hq : q < d) : (g * d + q) / d * d = g * d := by
  rw [Nat.add_comm, Nat.add_mul_div_right _ _ (by omega), Nat.div_eq_of_lt hq, Nat.zero_add]

/-- A group of 2^(i+2) positions, as four of 2^i. -/
theorem groupEval_four (off : Nat) (v : Nat → K) (i g q : Nat) (hi : i + 1 < w) (hq : q < 4 * 2 ^ i) :
    groupEval φ w off v (i + 2) (g * (4 * 2 ^ i) + q)
      = ∑ h ∈ Finset.range (2 ^ i), quad (v (g * (4 * 2 ^ i) + h)) (v (g * (4 * 2 ^ i) + h + 2 ^ i))
          (v (g * (4 * 2 ^ i) + h + 2 * 2 ^ i)) (v (g * (4 * 2 ^ i) + h + 3 * 2 ^ i))
          (φ ((off + (g * (4 * 2 ^ i) + q)) / 2 ^ i)) (φ ((off + (g * (4 * 2 ^ i) + q)) / 2 ^ (i + 1)))
          * basisAt φ w h (off + (g * (4 * 2 ^ i) + q)) := by
  have e4 : 2 ^ (i + 2) = 4 * 2 ^ i := by rw [Nat.pow_add]; ring
  unfold groupEval
  rw [e4, group_start _ g q hq]
  generalize off + (g * (4 * 2 ^ i) + q) = x
  generalize g * (4 * 2 ^ i) = R
  rw [show 4 * 2 ^ i = 2 ^ i + 2 ^ i + 2 ^ i + 2 ^ i by ring, Finset.sum_range_add, Finset.sum_range_add,
    Finset.sum_range_add, ← Finset.sum_add_distrib, ← Finset.sum_add_distrib, ← Finset.sum_add_distrib]
  refine Finset.sum_congr rfl fun h hh => ?_
  have hh := Finset.mem_range.1 hh
  have b1 := basisAt_add φ w i 1 h x hh
  have b2 := basisAt_add φ w i 2 h x hh
  have b3 := basisAt_add φ w i 3 h x hh
  rw [Nat.mul_one, basisAt_pow φ w i x (by omega)] at b1
  rw [show 2 ^ i * 2 = 2 ^ (i + 1) by rw [Nat.pow_succ], basisAt_pow φ w _ x hi] at b2
  rw [basisAt_three φ w i x hi] at b3
  rw [show 2 ^ i + 2 ^ i + h = 2 ^ (i + 1) + h by rw [Nat.pow_succ]; ring,
    show 2 ^ i + 2 ^ i + 2 ^ i + h = 2 ^ i * 3 + h by ring, b1, b2, b3]
  have a1 : R + (2 ^ i + h) = R + h + 2 ^ i := by ring
  have a2 : R + (2 ^ (i + 1) + h) = R + h + 2 * 2 ^ i := by rw [Nat.pow_succ]; ring
  have a3 : R + (2 ^ i * 3 + h) = R + h + 3 * 2 ^ i := by ring
  rw [a1, a2, a3]
  unfold quad
  ring

/-- A group of 2^(i+1) positions, as two of 2^i. -/
theorem groupEval_two (off : Nat) (v : Nat → K) (i g q : Nat) (hi : i < w) (hq : q < 2 * 2 ^ i) :
    groupEval φ w off v (i + 1) (g * (2 * 2 ^ i) + q)
      = ∑ h ∈ Finset.range (2 ^ i), (v (g * (2 * 2 ^ i) + h)
          + φ ((off + (g * (2 * 2 ^ i) + q)) / 2 ^ i) * v (g * (2 * 2 ^ i) + h + 2 ^ i))
          * basisAt φ w h (off + (g * (2 * 2 ^ i) + q)) := by
  have e2 : 2 ^ (i + 1) = 2 * 2 ^ i := by rw [Nat.pow_succ']
  unfold groupEval
  rw [e2, group_start _ g q hq]
  generalize off + (g * (2 * 2 ^ i) + q) = x
  generalize g * (2 * 2 ^ i) = R
  rw [show 2 * 2 ^ i = 2 ^ i + 2 ^ i by ring, Finset.sum_range_add, ← Finset.sum_add_distrib]
  refine Finset.sum_congr rfl fun h hh => ?_
  have b1 := basisAt_add φ w i 1 h x (Finset.mem_range.1 hh)
  rw [Nat.mul_one, basisAt_pow φ w i x hi] at b1
  rw [b1, show R + (2 ^ i + h) = R + h + 2 ^ i by ring]
  ring

theorem groupEval_zero (off : Nat) (v : Nat → K) (p : Nat) : groupEval φ w off v 0 p = v p := by
  simp [groupEval, basisAt_zero]

theorem groupEval_full (off : Nat) (v : Nat → K) (e q : Nat) (hq : q < 2 ^ e) :
    groupEval φ w off v e q = ∑ h ∈ Finset.range (2 ^ e), v h * basisAt φ w h (off + q) := by
  unfold groupEval
  rw [Nat.div_eq_of_lt hq, Nat.zero_mul]
  simp only [Nat.zero_add]

end Basis

/-! Butterflies on columns. -/

/-- Column j of the rows V, in K. -/
def colAt {K : Type} (φ : Nat → K) (V : Rows) (j p : Nat) : K := φ ((V.getD p []).getD j 0)

theorem getD_zipWith (g : Nat → Nat → Nat) (x y : Row) (n j : Nat) (hx : x.length = n) (hy : y.length = n)
    (hj : j < n) : (List.zipWith g x y).getD j 0 = g (x.getD j 0) (y.getD j 0) := by
  simp only [List.getD_eq_getElem?_getD, List.getElem?_zipWith]
  rw [List.getElem?_eq_getElem (by omega), List.getElem?_eq_getElem (by omega)]
  rfl

theorem GF.Bounded.getD {f : GF} {r : Row} (h : f.Bounded r) (j : Nat) : r.getD j 0 < f.order := by
  rw [List.getD_eq_getElem?_getD]
  by_cases hj : j < r.length
  · rw [List.getElem?_eq_getElem hj]; exact h _ (List.getElem_mem hj)
  · rw [List.getElem?_eq_none (by omega)]; exact f.zero_lt_order

namespace GF.Model

variable {f : GF} {K : Type} [Field K] {φ : Nat → K}

theorem zero (M : f.Model K φ) : φ 0 = 0 := by
  have h := M.xor 0 0 f.zero_lt_order f.zero_lt_order
  simp only [Nat.xor_self] at h
  exact left_eq_add.1 h

theorem add_self (M : f.Model K φ) (a : K) : a + a = 0 := by
  linear_combination a * M.two

theorem succ_even (M : f.Model K φ) (a : Nat) (h : 2 * a + 1 < f.order) : φ (2 * a + 1) = φ (2 * a) + 1 := by
  have hx : 2 * a ^^^ 1 = 2 * a + 1 := by
    apply Nat.eq_of_testBit_eq
    intro i
    cases i with
    | zero => simp [Nat.testBit_zero]
    | succ i =>
      rw [Nat.testBit_xor, Nat.testBit_succ, Nat.testBit_succ, Nat.testBit_succ,
        show 2 * a / 2 = a by omega, show (2 * a + 1) / 2 = a by omega]
      simp
  rw [← hx, M.xor _ _ (by omega) f.one_lt_order, M.one]

theorem fft2_col (M : f.Model K φ) (lo hi : Row) (y n j : Nat) (hl : lo.length = n) (hh : hi.length = n)
    (bl : f.Bounded lo) (bh : f.Bounded hi) (hy : y < f.order) (hj : j < n) :
    φ ((f.fft2 lo hi (f.log y)).1.getD j 0) = φ (lo.getD j 0) + φ y * φ (hi.getD j 0)
      ∧ φ ((f.fft2 lo hi (f.log y)).2.getD j 0)
        = φ (hi.getD j 0) + (φ (lo.getD j 0) + φ y * φ (hi.getD j 0)) := by
  have h1 : φ ((f.fft2 lo hi (f.log y)).1.getD j 0) = φ (lo.getD j 0) + φ y * φ (hi.getD j 0) := by
    by_cases h0 : y = 0
    · subst h0
      simp only [GF.fft2, f.log_zero, if_true, M.zero]
      ring
    · have hne : f.log y ≠ f.mod := (f.log_lt y hy h0).ne
      simp only [GF.fft2, if_neg hne, GF.mulAddRow]
      rw [getD_zipWith _ lo hi n j hl hh hj, M.xor _ _ (bl.getD j) (f.mulLog_lt _ _), ← f.mul_eq_mulLog _ y h0,
        M.mul _ _ (bh.getD j) hy]
      ring
  refine ⟨h1, ?_⟩
  rw [← h1]
  have hlen := f.fft2_length lo hi (f.log y) n hl hh
  have hb := f.fft2_bounded lo hi (f.log y) bl bh
  have : (f.fft2 lo hi (f.log y)).2 = xorRow hi (f.fft2 lo hi (f.log y)).1 := rfl
  rw [this, xorRow, getD_zipWith _ hi _ n j hh hlen.1 hj, M.xor _ _ (bh.getD j) (hb.1.getD j)]

theorem ifft2_col (M : f.Model K φ) (lo hi : Row) (y n j : Nat) (hl : lo.length = n) (hh : hi.length = n)
    (bl : f.Bounded lo) (bh : f.Bounded hi) (hy : y < f.order) (hj : j < n) :
    φ ((f.ifft2 lo hi (f.log y)).1.getD j 0) + φ y * φ ((f.ifft2 lo hi (f.log y)).2.getD j 0) = φ (lo.getD j 0)
      ∧ φ ((f.ifft2 lo hi (f.log y)).2.getD j 0) = φ (hi.getD j 0) + φ (lo.getD j 0) := by
  have h2 : φ ((f.ifft2 lo hi (f.log y)).2.getD j 0) = φ (hi.getD j 0) + φ (lo.getD j 0) := by
    have : (f.ifft2 lo hi (f.log y)).2 = xorRow hi lo := rfl
    rw [this, xorRow, getD_zipWith _ hi lo n j hh hl hj, M.xor _ _ (bh.getD j) (bl.getD j)]
  refine ⟨?_, h2⟩
  by_cases h0 : y = 0
  · subst h0
    simp only [GF.ifft2, f.log_zero, if_true, M.zero]
    ring
  · have hne : f.log y ≠ f.mod := (f.log_lt y hy h0).ne
    have hlen := f.ifft2_length lo hi (f.log y) n hl hh
    have hb := f.ifft2_bounded lo hi (f.log y) bl bh
    have e : (f.ifft2 lo hi (f.log y)).1 = f.mulAddRow (f.log y) lo (f.ifft2 lo hi (f.log y)).2 := by
      simp only [GF.ifft2, if_neg hne]
    rw [e, GF.mulAddRow, getD_zipWith _ lo _ n j hl hlen.2 hj, M.xor _ _ (bl.getD j) (f.mulLog_lt _ _),
      ← f.mul_eq_mulLog _ y h0, M.mul _ _ (hb.2.getD j) hy]
    linear_combination M.add_self (φ y * φ ((f.ifft2 lo hi (f.log y)).2.getD j 0))

/-- FFT4 on a column: component k is the sum at the k-th quarter of the group. -/
theorem fft4_col (M : f.Model K φ) (b0 b1 b2 b3 : Row) (c n j : Nat) (h0 : b0.length = n) (h1 : b1.length = n)
    (h2 : b2.length = n) (h3 : b3.length = n) (g0 : f.Bounded b0) (g1 : f.Bounded b1) (g2 : f.Bounded b2)
    (g3 : f.Bounded b3) (hc : 4 * c + 3 < f.order) (hj : j < n) (k : Nat) (hk : k < 4) :
    φ ((pick4 (f.fft4 b0 b1 b2 b3 (f.log (4 * c)) (f.log (4 * c + 2)) (f.log (2 * c))) k).getD j 0)
      = quad (φ (b0.getD j 0)) (φ (b1.getD j 0)) (φ (b2.getD j 0)) (φ (b3.getD j 0)) (φ (4 * c + k))
          (φ (2 * c + k / 2)) := by
  have y02 : 2 * c < f.order := by omega
  have y01 : 4 * c < f.order := by omega
  have y23 : 4 * c + 2 < f.order := by omega
  have p := M.fft2_col b0 b2 _ n j h0 h2 g0 g2 y02 hj
  have q := M.fft2_col b1 b3 _ n j h1 h3 g1 g3 y02 hj
  have lp := f.fft2_length b0 b2 (f.log (2 * c)) n h0 h2
  have lq := f.fft2_length b1 b3 (f.log (2 * c)) n h1 h3
  have gp := f.fft2_bounded b0 b2 (f.log (2 * c)) g0 g2
  have gq := f.fft2_bounded b1 b3 (f.log (2 * c)) g1 g3
  have u := M.fft2_col _ _ _ n j lp.1 lq.1 gp.1 gq.1 y01 hj
  have v := M.fft2_col _ _ _ n j lp.2 lq.2 gp.2 gq.2 y23 hj
  rw [p.1, q.1] at u
  rw [p.2, q.2] at v
  have s1 : φ (4 * c + 1) = φ (4 * c) + 1 := by
    have := M.succ_even (2 * c) (by omega)
    rwa [show 2 * (2 * c) = 4 * c by ring] at this
  have s3 : φ (4 * c + 3) = φ (4 * c + 2) + 1 := by
    have := M.succ_even (2 * c + 1) (by omega)
    rwa [show 2 * (2 * c + 1) = 4 * c + 2 by ring] at this
  have s2 := M.succ_even c (by omega)
  have hk' : k = 0 ∨ k = 1 ∨ k = 2 ∨ k = 3 := by omega
  unfold quad
  rcases hk' with rfl | rfl | rfl | rfl
  · refine u.1.trans ?_
    simp only [Nat.add_zero, Nat.zero_div]
    ring
  · refine u.2.trans ?_
    rw [s1, show 1 / 2 = 0 by rfl, Nat.add_zero]
    ring
  · refine v.1.trans ?_
    rw [show 2 / 2 = 1 by rfl, s2]
    ring
  · refine v.2.trans ?_
    rw [show 3 / 2 = 1 by rfl, s2, s3]
    ring

/-- IFFT4 on a column: the sum of its components at the k-th quarter of the group is the k-th value. -/
theorem ifft4_col (M : f.Model K φ) (b0 b1 b2 b3 : Row) (c n j : Nat) (h0 : b0.length = n) (h1 : b1.length = n)
    (h2 : b2.length = n) (h3 : b3.length = n) (g0 : f.Bounded b0) (g1 : f.Bounded b1) (g2 : f.Bounded b2)
    (g3 : f.Bounded b3) (hc : 4 * c + 3 < f.order) (hj : j < n) (k : Nat) (hk : k < 4) :
    (let r := f.ifft4 b0 b1 b2 b3 (f.log (4 * c)) (f.log (4 * c + 2)) (f.log (2 * c))
     quad (φ (r.1.getD j 0)) (φ (r.2.1.getD j 0)) (φ (r.2.2.1.getD j 0)) (φ (r.2.2.2.getD j 0)) (φ (4 * c + k))
        (φ (2 * c + k / 2))) = φ ((pick4 (b0, b1, b2, b3) k).getD j 0) := by
  have y02 : 2 * c < f.order := by omega
  have y01 : 4 * c < f.order := by omega
  have y23 : 4 * c + 2 < f.order := by omega
  have p := M.ifft2_col b0 b1 _ n j h0 h1 g0 g1 y01 hj
  have q := M.ifft2_col b2 b3 _ n j h2 h3 g2 g3 y23 hj
  have lp := f.ifft2_length b0 b1 (f.log (4 * c)) n h0 h1
  have lq := f.ifft2_length b2 b3 (f.log (4 * c + 2)) n h2 h3
  have gp := f.ifft2_bounded b0 b1 (f.log (4 * c)) g0 g1
  have gq := f.ifft2_bounded b2 b3 (f.log (4 * c + 2)) g2 g3
  have u := M.ifft2_col _ _ _ n j lp.1 lq.1 gp.1 gq.1 y02 hj
  have v := M.ifft2_col _ _ _ n j lp.2 lq.2 gp.2 gq.2 y02 hj
  have s1 : φ (4 * c + 1) = φ (4 * c) + 1 := by
    have := M.succ_even (2 * c) (by omega)
    rwa [show 2 * (2 * c) = 4 * c by ring] at this
  have s3 : φ (4 * c + 3) = φ (4 * c + 2) + 1 := by
    have := M.succ_even (2 * c + 1) (by omega)
    rwa [show 2 * (2 * c + 1) = 4 * c + 2 by ring] at this
  have s2 := M.succ_even c (by omega)
  simp only
  have hr : f.ifft4 b0 b1 b2 b3 (f.log (4 * c)) (f.log (4 * c + 2)) (f.log (2 * c))
      = ((f.ifft2 (f.ifft2 b0 b1 (f.log (4 * c))).1 (f.ifft2 b2 b3 (f.log (4 * c + 2))).1 (f.log (2 * c))).1,
        (f.ifft2 (f.ifft2 b0 b1 (f.log (4 * c))).2 (f.ifft2 b2 b3 (f.log (4 * c + 2))).2 (f.log (2 * c))).1,
        (f.ifft2 (f.ifft2 b0 b1 (f.log (4 * c))).1 (f.ifft2 b2 b3 (f.log (4 * c + 2))).1 (f.log (2 * c))).2,
        (f.ifft2 (f.ifft2 b0 b1 (f.log (4 * c))).2 (f.ifft2 b2 b3 (f.log (4 * c + 2))).2 (f.log (2 * c))).2) := rfl
  rw [hr]
  simp only
  generalize (f.ifft2 (f.ifft2 b0 b1 (f.log (4 * c))).1 (f.ifft2 b2 b3 (f.log (4 * c + 2))).1 (f.log (2 * c))) = U at *
  generalize (f.ifft2 (f.ifft2 b0 b1 (f.log (4 * c))).2 (f.ifft2 b2 b3 (f.log (4 * c + 2))).2 (f.log (2 * c))) = V at *
  generalize (f.ifft2 b0 b1 (f.log (4 * c))) = P at *
  generalize (f.ifft2 b2 b3 (f.log (4 * c + 2))) = Q at *
  have hk' : k = 0 ∨ k = 1 ∨ k = 2 ∨ k = 3 := by omega
  unfold quad
  rcases hk' with rfl | rfl | rfl | rfl
  · simp only [Nat.add_zero, Nat.zero_div]
    change _ = φ (b0.getD j 0)
    linear_combination u.1 + φ (4 * c) * v.1 + p.1
  · rw [s1, show 1 / 2 = 0 by rfl, Nat.add_zero]
    change _ = φ (b1.getD j 0)
    linear_combination u.1 + (φ (4 * c) + 1) * v.1 + p.1 + p.2 + M.add_self (φ (b0.getD j 0))
  · rw [show 2 / 2 = 1 by rfl, s2]
    change _ = φ (b2.getD j 0)
    linear_combination u.1 + φ (4 * c + 2) * v.1 + u.2 + φ (4 * c + 2) * v.2 + q.1 + M.add_self (φ (P.1.getD j 0)) + φ (4 * c + 2) * M.add_self (φ (P.2.getD j 0))
  · rw [show 3 / 2 = 1 by rfl, s2, s3]
    change _ = φ (b3.getD j 0)
    linear_combination u.1 + (φ (4 * c + 2) + 1) * v.1 + u.2 + (φ (4 * c + 2) + 1) * v.2 + q.1 + q.2 + M.add_self (φ (P.1.getD j 0)) + (φ (4 * c + 2) + 1) * M.add_self (φ (P.2.getD j 0)) + M.add_self (φ (b2.getD j 0))

theorem quarter_div (C g k r d : Nat) (hr : r < d) :
    (C * (4 * d) + (g * (4 * d) + (k * d + r))) / d = 4 * (C + g) + k
      ∧ (C * (4 * d) + (g * (4 * d) + (k * d + r))) / (d * 2) = 2 * (C + g) + k / 2 := by
  have e : (C * (4 * d) + (g * (4 * d) + (k * d + r))) / d = 4 * (C + g) + k := by
    rw [show C * (4 * d) + (g * (4 * d) + (k * d + r)) = r + (4 * (C + g) + k) * d by ring,
      Nat.add_mul_div_right _ _ (by omega), Nat.div_eq_of_lt hr, Nat.zero_add]
  refine ⟨e, ?_⟩
  rw [← Nat.div_div_eq_div_mul, e]
  omega

theorem skew_group (i c : Nat) (h : c * 2 ^ (i + 1) + 2 ^ i - 1 < f.mod) :
    f.skew (c * 2 ^ (i + 1) + 2 ^ i - 1) = f.log (2 * c) := by
  rw [GF.skew, f.skewElem_eq i c h]

/-- The twiddles of a radix-4 group. -/
theorem skew_group4 (a C g : Nat) (h : (C + g + 1) * (4 * 2 ^ a) ≤ f.order) :
    f.skew (C * (4 * 2 ^ a) + (g * (4 * 2 ^ a) + 2 ^ a) - 1) = f.log (4 * (C + g))
      ∧ f.skew (C * (4 * 2 ^ a) + (g * (4 * 2 ^ a) + 2 ^ a) + 2 * 2 ^ a - 1) = f.log (4 * (C + g) + 2)
      ∧ f.skew (C * (4 * 2 ^ a) + (g * (4 * 2 ^ a) + 2 ^ a) + 2 ^ a - 1) = f.log (2 * (C + g))
      ∧ 4 * (C + g) + 3 < f.order := by
  have hp := Nat.two_pow_pos a
  have hm := f.mod_eq
  have e1 : 2 ^ (a + 1) = 2 * 2 ^ a := Nat.pow_succ' ..
  have e2 : 2 ^ (a + 1 + 1) = 4 * 2 ^ a := by rw [Nat.pow_succ', e1]; ring
  have hx : (C + g + 1) * (4 * 2 ^ a) = (C + g) * (4 * 2 ^ a) + 4 * 2 ^ a := by ring
  have i0 : C * (4 * 2 ^ a) + (g * (4 * 2 ^ a) + 2 ^ a) = 2 * (C + g) * 2 ^ (a + 1) + 2 ^ a := by rw [e1]; ring
  have i1 : C * (4 * 2 ^ a) + (g * (4 * 2 ^ a) + 2 ^ a) + 2 * 2 ^ a
      = (2 * (C + g) + 1) * 2 ^ (a + 1) + 2 ^ a := by rw [e1]; ring
  have i2 : C * (4 * 2 ^ a) + (g * (4 * 2 ^ a) + 2 ^ a) + 2 ^ a
      = (C + g) * 2 ^ (a + 1 + 1) + 2 ^ (a + 1) := by rw [e2, e1]; ring
  have b0 : C * (4 * 2 ^ a) + (g * (4 * 2 ^ a) + 2 ^ a) = (C + g) * (4 * 2 ^ a) + 2 ^ a := by ring
  refine ⟨?_, ?_, ?_, ?_⟩
  · rw [i0, skew_group _ _ (by rw [← i0, b0]; omega)]; congr 1; ring
  · rw [i1, skew_group _ _ (by rw [← i1, b0]; omega)]; congr 1; ring
  · rw [i2, skew_group _ _ (by rw [← i2, b0]; omega)]
  · have : (C + g + 1) * 4 ≤ (C + g + 1) * (4 * 2 ^ a) := Nat.mul_le_mul_left _ (by omega)
    omega

/-- A radix-4 level of IFFT: the groups of 4·2^a positions have the values that their quarters had. -/
theorem ifftLevel_eval (M : f.Model K φ) (N n a C mtrunc : Nat) (V : Rows) (h : f.Shaped N n V)
    (hN : ceilDiv mtrunc (4 * 2 ^ a) * (4 * 2 ^ a) ≤ N)
    (hC : C * (4 * 2 ^ a) + ceilDiv mtrunc (4 * 2 ^ a) * (4 * 2 ^ a) ≤ f.order)
    (hw : a + 1 < f.width)
    (j : Nat) (hj : j < n) (hz : ∀ p, ceilDiv mtrunc (4 * 2 ^ a) * (4 * 2 ^ a) ≤ p → colAt φ V j p = 0)
    (p : Nat) :
    groupEval φ f.width (C * (4 * 2 ^ a)) (colAt φ (f.level4 f.ifft4 mtrunc (C * (4 * 2 ^ a)) (2 ^ a) V) j) (a + 2) p
      = groupEval φ f.width (C * (4 * 2 ^ a)) (colAt φ V j) a p := by
  have hd := Nat.two_pow_pos a
  obtain ⟨hs, hin, hout⟩ := getD_levelLoop ([] : Row) (ceilDiv mtrunc (4 * 2 ^ a)) (2 ^ a) (fun g b0 b1 b2 b3 =>
    f.ifft4 b0 b1 b2 b3 (f.skew (C * (4 * 2 ^ a) + (g * (4 * 2 ^ a) + 2 ^ a) - 1))
      (f.skew (C * (4 * 2 ^ a) + (g * (4 * 2 ^ a) + 2 ^ a) + 2 * 2 ^ a - 1))
      (f.skew (C * (4 * 2 ^ a) + (g * (4 * 2 ^ a) + 2 ^ a) + 2 ^ a - 1))) V N h.1 hd hN
  rw [← f.level4_eq] at hs hin hout
  generalize f.level4 f.ifft4 mtrunc (C * (4 * 2 ^ a)) (2 ^ a) V = W at *
  generalize hG : ceilDiv mtrunc (4 * 2 ^ a) = G at *
  have e4 : 2 ^ (a + 2) = 4 * 2 ^ a := by rw [Nat.pow_add]; ring
  obtain ⟨g, q, hq, rfl⟩ : ∃ g q, q < 4 * 2 ^ a ∧ p = g * (4 * 2 ^ a) + q :=
    ⟨p / (4 * 2 ^ a), p % (4 * 2 ^ a), Nat.mod_lt _ (by omega), by rw [Nat.mul_comm, Nat.div_add_mod]⟩
  by_cases hg : g < G
  · obtain ⟨k, r, hk, hr, rfl⟩ : ∃ k r, k < 4 ∧ r < 2 ^ a ∧ q = k * 2 ^ a + r :=
      ⟨q / 2 ^ a, q % 2 ^ a, by rw [Nat.div_lt_iff_lt_mul hd]; exact hq, Nat.mod_lt _ hd,
        by rw [Nat.mul_comm, Nat.div_add_mod]⟩
    have hgs : (g + 1) * (4 * 2 ^ a) ≤ G * (4 * 2 ^ a) := Nat.mul_le_mul_right _ hg
    have hgs' : (g + 1) * (4 * 2 ^ a) = g * (4 * 2 ^ a) + 4 * 2 ^ a := by ring
    obtain ⟨t01, t23, t02, hc⟩ := skew_group4 (f := f) a C g (by
      have : (C + g + 1) * (4 * 2 ^ a) = C * (4 * 2 ^ a) + (g + 1) * (4 * 2 ^ a) := by ring
      omega)
    obtain ⟨d1, d2⟩ := quarter_div C g k r (2 ^ a) hr
    rw [groupEval_four φ f.width _ _ a g _ hw hq, show 2 ^ (a + 1) = 2 ^ a * 2 from Nat.pow_succ .., d1, d2]
    unfold groupEval
    have hst : (g * (4 * 2 ^ a) + (k * 2 ^ a + r)) / 2 ^ a * 2 ^ a = g * (4 * 2 ^ a) + k * 2 ^ a := by
      rw [show g * (4 * 2 ^ a) + (k * 2 ^ a + r) = (4 * g + k) * 2 ^ a + r by ring, group_start _ _ _ hr]; ring
    rw [hst]
    refine Finset.sum_congr rfl fun i hi => ?_
    have hi := Finset.mem_range.1 hi
    congr 1
    have w0 := hin g hg i hi 0 (by omega)
    have w1 := hin g hg i hi 1 (by omega)
    have w2 := hin g hg i hi 2 (by omega)
    have w3 := hin g hg i hi 3 (by omega)
    rw [Nat.zero_mul, Nat.add_zero] at w0
    rw [Nat.one_mul] at w1
    simp only [t01, t23, t02] at w0 w1 w2 w3
    unfold colAt
    rw [w0, w1, w2, w3]
    have s0 := h.2 (g * (4 * 2 ^ a) + i) (by omega)
    have s1 := h.2 (g * (4 * 2 ^ a) + i + 2 ^ a) (by omega)
    have s2 := h.2 (g * (4 * 2 ^ a) + i + 2 * 2 ^ a) (by omega)
    have s3 := h.2 (g * (4 * 2 ^ a) + i + 3 * 2 ^ a) (by omega)
    have key := M.ifft4_col _ _ _ _ (C + g) n j s0.1 s1.1 s2.1 s3.1 s0.2 s1.2 s2.2 s3.2 hc hj k hk
    refine Eq.trans key ?_
    have hk' : k = 0 ∨ k = 1 ∨ k = 2 ∨ k = 3 := by omega
    rcases hk' with rfl | rfl | rfl | rfl
    · rw [Nat.zero_mul, Nat.add_zero]; rfl
    · rw [Nat.one_mul, Nat.add_right_comm]; rfl
    · rw [Nat.add_right_comm _ (2 * 2 ^ a) i]; rfl
    · rw [Nat.add_right_comm _ (3 * 2 ^ a) i]; rfl
  · have hge : G * (4 * 2 ^ a) ≤ g * (4 * 2 ^ a) := Nat.mul_le_mul_right _ (by omega)
    have z : ∀ p, g * (4 * 2 ^ a) ≤ p → colAt φ V j p = 0 ∧ colAt φ W j p = 0 := fun p hp =>
      ⟨hz p (by omega), by unfold colAt; rw [hout p (by omega)]; exact hz p (by omega)⟩
    unfold groupEval
    rw [e4, group_start _ _ _ hq, Finset.sum_eq_zero, Finset.sum_eq_zero]
    · intro i _
      rw [(z _ _).1, MulZeroClass.zero_mul]
      have : g * (4 * 2 ^ a) ≤ (g * (4 * 2 ^ a) + q) / 2 ^ a * 2 ^ a := by
        rw [show g * (4 * 2 ^ a) = (4 * g) * 2 ^ a by ring, Nat.add_comm,
          Nat.add_mul_div_right _ _ hd, Nat.add_mul]
        exact Nat.le_add_left _ _
      omega
    · intro i _
      rw [(z _ (by omega)).2, MulZeroClass.zero_mul]

/-- A radix-4 level of FFT: the quarters of the groups it takes have the values that the groups had. -/
theorem fftLevel_eval (M : f.Model K φ) (N n a C mtrunc : Nat) (V : Rows) (h : f.Shaped N n V)
    (hN : ceilDiv mtrunc (4 * 2 ^ a) * (4 * 2 ^ a) ≤ N)
    (hC : C * (4 * 2 ^ a) + ceilDiv mtrunc (4 * 2 ^ a) * (4 * 2 ^ a) ≤ f.order)
    (hw : a + 1 < f.width) (j : Nat) (hj : j < n) (p : Nat)
    (hp : p < ceilDiv mtrunc (4 * 2 ^ a) * (4 * 2 ^ a)) :
    groupEval φ f.width (C * (4 * 2 ^ a)) (colAt φ (f.level4 f.fft4 mtrunc (C * (4 * 2 ^ a)) (2 ^ a) V) j) a p
      = groupEval φ f.width (C * (4 * 2 ^ a)) (colAt φ V j) (a + 2) p := by
  have hd := Nat.two_pow_pos a
  obtain ⟨hs, hin, hout⟩ := getD_levelLoop ([] : Row) (ceilDiv mtrunc (4 * 2 ^ a)) (2 ^ a) (fun g b0 b1 b2 b3 =>
    f.fft4 b0 b1 b2 b3 (f.skew (C * (4 * 2 ^ a) + (g * (4 * 2 ^ a) + 2 ^ a) - 1))
      (f.skew (C * (4 * 2 ^ a) + (g * (4 * 2 ^ a) + 2 ^ a) + 2 * 2 ^ a - 1))
      (f.skew (C * (4 * 2 ^ a) + (g * (4 * 2 ^ a) + 2 ^ a) + 2 ^ a - 1))) V N h.1 hd hN
  rw [← f.level4_eq] at hs hin hout
  generalize f.level4 f.fft4 mtrunc (C * (4 * 2 ^ a)) (2 ^ a) V = W at *
  generalize hG : ceilDiv mtrunc (4 * 2 ^ a) = G at *
  obtain ⟨g, q, hq, rfl⟩ : ∃ g q, q < 4 * 2 ^ a ∧ p = g * (4 * 2 ^ a) + q :=
    ⟨p / (4 * 2 ^ a), p % (4 * 2 ^ a), Nat.mod_lt _ (by omega), by rw [Nat.mul_comm, Nat.div_add_mod]⟩
  have hg : g < G := Nat.lt_of_mul_lt_mul_right (lt_of_le_of_lt (Nat.le_add_right _ q) hp)
  obtain ⟨k, r, hk, hr, rfl⟩ : ∃ k r, k < 4 ∧ r < 2 ^ a ∧ q = k * 2 ^ a + r :=
    ⟨q / 2 ^ a, q % 2 ^ a, by rw [Nat.div_lt_iff_lt_mul hd]; exact hq, Nat.mod_lt _ hd,
      by rw [Nat.mul_comm, Nat.div_add_mod]⟩
  have hgs : (g + 1) * (4 * 2 ^ a) ≤ G * (4 * 2 ^ a) := Nat.mul_le_mul_right _ hg
  have hgs' : (g + 1) * (4 * 2 ^ a) = g * (4 * 2 ^ a) + 4 * 2 ^ a := by ring
  obtain ⟨t01, t23, t02, hc⟩ := skew_group4 (f := f) a C g (by
    have : (C + g + 1) * (4 * 2 ^ a) = C * (4 * 2 ^ a) + (g + 1) * (4 * 2 ^ a) := by ring
    omega)
  obtain ⟨d1, d2⟩ := quarter_div C g k r (2 ^ a) hr
  rw [groupEval_four φ f.width _ _ a g _ hw hq, show 2 ^ (a + 1) = 2 ^ a * 2 from Nat.pow_succ .., d1, d2]
  unfold groupEval
  have hst : (g * (4 * 2 ^ a) + (k * 2 ^ a + r)) / 2 ^ a * 2 ^ a = g * (4 * 2 ^ a) + k * 2 ^ a := by
    rw [show g * (4 * 2 ^ a) + (k * 2 ^ a + r) = (4 * g + k) * 2 ^ a + r by ring, group_start _ _ _ hr]; ring
  rw [hst]
  refine Finset.sum_congr rfl fun i hi => ?_
  have hi := Finset.mem_range.1 hi
  congr 1
  have wk := hin g hg i hi k hk
  simp only [t01, t23, t02] at wk
  unfold colAt
  rw [Nat.add_right_comm, wk]
  have s0 := h.2 (g * (4 * 2 ^ a) + i) (by omega)
  have s1 := h.2 (g * (4 * 2 ^ a) + i + 2 ^ a) (by omega)
  have s2 := h.2 (g * (4 * 2 ^ a) + i + 2 * 2 ^ a) (by omega)
  have s3 := h.2 (g * (4 * 2 ^ a) + i + 3 * 2 ^ a) (by omega)
  exact M.fft4_col _ _ _ _ (C + g) n j s0.1 s1.1 s2.1 s3.1 s0.2 s1.2 s2.2 s3.2 hc hj k hk

/-- The room a transform has: its positions lie below 2^w, at a multiple of its size. -/
theorem width_of_room (e C : Nat) (hC : C * 2 ^ e + 2 ^ e ≤ f.order) : e ≤ f.width := by
  rw [GF.order_eq] at hC
  have : 2 ^ e ≤ 2 ^ f.width := by omega
  exact (Nat.pow_le_pow_iff_right (by decide)).1 this

theorem ifftLevels_eval (M : f.Model K φ) (e n C mtrunc : Nat) (hle : mtrunc ≤ 2 ^ e)
    (hC : C * 2 ^ e + 2 ^ e ≤ f.order) (j : Nat) (hj : j < n) (fuel a : Nat) (V : Rows)
    (h : f.Shaped (2 ^ e) n V) (ha : a ≤ e) (hf : e ≤ a + 2 * fuel + 1)
    (hz : ∀ p, mtrunc ≤ p / 2 ^ a * 2 ^ a → colAt φ V j p = 0) :
    ∃ a', a' ≤ e ∧ e ≤ a' + 1 ∧ (f.ifftLevels mtrunc (2 ^ e) (C * 2 ^ e) fuel (2 ^ a) V).1 = 2 ^ a'
      ∧ f.Shaped (2 ^ e) n (f.ifftLevels mtrunc (2 ^ e) (C * 2 ^ e) fuel (2 ^ a) V).2
      ∧ ∀ p, groupEval φ f.width (C * 2 ^ e)
          (colAt φ (f.ifftLevels mtrunc (2 ^ e) (C * 2 ^ e) fuel (2 ^ a) V).2 j) a' p
        = groupEval φ f.width (C * 2 ^ e) (colAt φ V j) a p := by
  induction fuel generalizing a V with
  | zero => exact ⟨a, ha, by omega, rfl, h, fun p => rfl⟩
  | succ fuel ih =>
    unfold GF.ifftLevels
    have e4 : 4 * 2 ^ a = 2 ^ (a + 2) := by rw [Nat.pow_add]; ring
    split
    · rename_i h4
      rw [e4] at h4
      have ha2 : a + 2 ≤ e := (Nat.pow_le_pow_iff_right (by decide)).1 h4
      have hdvd : 4 * 2 ^ a ∣ 2 ^ e := by rw [e4]; exact pow_dvd_pow 2 ha2
      have hw := width_of_room (f := f) e C hC
      have hpos : 0 < 4 * 2 ^ a := by have := Nat.two_pow_pos a; omega
      have hN := ceilDiv_mul_le_size mtrunc _ _ hpos hdvd hle
      obtain ⟨c, hc⟩ : 4 * 2 ^ a ∣ C * 2 ^ e := Dvd.dvd.mul_left hdvd C
      have hc' : C * 2 ^ e = c * (4 * 2 ^ a) := by rw [hc, Nat.mul_comm]
      have hz' : ∀ p, ceilDiv mtrunc (4 * 2 ^ a) * (4 * 2 ^ a) ≤ p → colAt φ V j p = 0 := fun p hp => by
        apply hz
        have h1 := le_ceilDiv_mul mtrunc _ hpos
        have : 4 * ceilDiv mtrunc (4 * 2 ^ a) ≤ p / 2 ^ a := by
          rw [Nat.le_div_iff_mul_le (Nat.two_pow_pos a)]
          calc _ = ceilDiv mtrunc (4 * 2 ^ a) * (4 * 2 ^ a) := by ring
            _ ≤ p := hp
        have := Nat.mul_le_mul_right (2 ^ a) this
        have e5 : 4 * ceilDiv mtrunc (4 * 2 ^ a) * 2 ^ a = ceilDiv mtrunc (4 * 2 ^ a) * (4 * 2 ^ a) := by ring
        omega
      have hlev := M.ifftLevel_eval (2 ^ e) n a c mtrunc V h hN (by rw [← hc']; omega) (by omega) j hj hz'
      have hsh := f.shaped_level4 _ _ _ h f.ifft4 (fun _ _ _ => f.keeps4_ifft4 _ _ _) mtrunc (C * 2 ^ e) _
        (Nat.two_pow_pos a) hdvd hle
      rw [← hc'] at hlev
      have hkeep := (getD_levelLoop ([] : Row) (ceilDiv mtrunc (4 * 2 ^ a)) (2 ^ a) (fun g b0 b1 b2 b3 =>
        f.ifft4 b0 b1 b2 b3 (f.skew (C * 2 ^ e + (g * (4 * 2 ^ a) + 2 ^ a) - 1))
          (f.skew (C * 2 ^ e + (g * (4 * 2 ^ a) + 2 ^ a) + 2 * 2 ^ a - 1))
          (f.skew (C * 2 ^ e + (g * (4 * 2 ^ a) + 2 ^ a) + 2 ^ a - 1))) V _ h.1 (Nat.two_pow_pos a) hN).2.2
      rw [← f.level4_eq] at hkeep
      rw [e4]
      obtain ⟨a', h1, h1', h2, h3, h4⟩ := ih (a + 2) _ hsh ha2 (by omega) fun p hp => by
        have hge : ceilDiv mtrunc (4 * 2 ^ a) * (4 * 2 ^ a) ≤ p := by
          rw [← e4] at hp
          have : ¬ p / (4 * 2 ^ a) < ceilDiv mtrunc (4 * 2 ^ a) := fun hlt => by
            have := (lt_ceilDiv_iff mtrunc _ _ hpos).1 hlt
            omega
          have := Nat.mul_le_mul_right (4 * 2 ^ a) (Nat.le_of_not_lt this)
          exact le_trans this (Nat.div_mul_le_self p _)
        unfold colAt
        rw [hkeep p hge]
        exact hz' p hge
      exact ⟨a', h1, h1', h2, h3, fun p => (h4 p).trans (hlev p)⟩
    · rename_i h4
      refine ⟨a, ha, ?_, rfl, h, fun p => rfl⟩
      by_contra hc
      exact h4 (by rw [e4]; exact Nat.pow_le_pow_right (by decide) (by omega))

/-- IFFT takes values to coefficients: the sum that its output stands for has the input as its values, if the
positions from mtrunc on hold zero (44_codec.md R264). -/
theorem ifft_eval (M : f.Model K φ) (e n C mtrunc : Nat) (V : Rows) (h : f.Shaped (2 ^ e) n V) (hle : mtrunc ≤ 2 ^ e)
    (hC : C * 2 ^ e + 2 ^ e ≤ f.order) (j : Nat) (hj : j < n) (hz : ∀ p, mtrunc ≤ p → colAt φ V j p = 0) (p : Nat)
    (hp : p < 2 ^ e) :
    groupEval φ f.width (C * 2 ^ e) (colAt φ (f.ifft V mtrunc (2 ^ e) (C * 2 ^ e)) j) e p = colAt φ V j p := by
  have hw := width_of_room (f := f) e C hC
  obtain ⟨a, ha, ha', hd, hs, hev⟩ := M.ifftLevels_eval e n C mtrunc hle hC j hj f.width 0 V h (Nat.zero_le e)
    (by omega) (by simpa using hz)
  simp only [Nat.pow_zero] at hd hs hev
  simp only [groupEval_zero] at hev
  unfold GF.ifft
  simp only [hd]
  generalize (f.ifftLevels mtrunc (2 ^ e) (C * 2 ^ e) f.width 1 V).2 = W at *
  split
  · rename_i hlt
    have hae : e = a + 1 := by
      have := (Nat.pow_lt_pow_iff_right (by decide)).1 hlt
      omega
    subst hae
    have hpa := Nat.two_pow_pos a
    have e2 : 2 ^ (a + 1) = 2 * 2 ^ a := Nat.pow_succ' ..
    have hm := f.mod_eq
    have ht := skew_group (f := f) a C (by omega)
    have h2c : 2 * C + 1 < f.order := by
      have : C * 2 ^ (a + 1) + 2 ^ (a + 1) = (2 * C + 2) * 2 ^ a := by rw [e2]; ring
      have h3 : 2 * C + 2 ≤ (2 * C + 2) * 2 ^ a := Nat.le_mul_of_pos_right _ hpa
      omega
    obtain ⟨w1, w2, -⟩ := getD_loop2 ([] : Row) (2 ^ a) (fun i => i)
      (fun _ x y => f.ifft2 x y (f.skew (C * 2 ^ (a + 1) + 2 ^ a - 1))) (List.range (2 ^ a)) List.nodup_range W
      (2 ^ (a + 1)) hs.1 hpa (fun x hx => by have := List.mem_range.1 hx; omega)
      (fun x hx y hy hxy => by have := List.mem_range.1 hx; have := List.mem_range.1 hy; omega)
    change groupEval φ f.width (C * 2 ^ (a + 1)) (colAt φ ((List.range (2 ^ a)).foldl (fun V i =>
      at2 [] V i (2 ^ a) fun x y => f.ifft2 x y (f.skew (C * 2 ^ (a + 1) + 2 ^ a - 1))) W) j) (a + 1) p = _
    generalize (List.range (2 ^ a)).foldl (fun V i =>
      at2 [] V i (2 ^ a) fun x y => f.ifft2 x y (f.skew (C * 2 ^ (a + 1) + 2 ^ a - 1))) W = U at *
    rw [← hev p]
    have h2 := groupEval_two φ f.width (C * 2 ^ (a + 1)) (colAt φ U j) a 0 p (by omega) (by omega)
    rw [Nat.zero_mul, Nat.zero_add] at h2
    rw [h2]
    unfold groupEval
    refine Finset.sum_congr rfl fun i hi => ?_
    have hi' := Finset.mem_range.1 hi
    congr 1
    have hw2 := w2 i (List.mem_range.2 hi')
    have s0 := hs.2 i (by omega)
    have s1 := hs.2 (i + 2 ^ a) (by omega)
    have key := M.ifft2_col _ _ _ n j s0.1 s1.1 s0.2 s1.2 (show 2 * C < f.order by omega) hj
    rw [← ht] at key
    rw [← hw2.1, ← hw2.2] at key
    simp only [Nat.zero_add] at *
    by_cases hlo : p < 2 ^ a
    · have hx : (C * 2 ^ (a + 1) + p) / 2 ^ a = 2 * C := by
        rw [e2, show C * (2 * 2 ^ a) + p = p + 2 * C * 2 ^ a by ring, Nat.add_mul_div_right _ _ hpa,
          Nat.div_eq_of_lt hlo, Nat.zero_add]
      rw [hx, Nat.div_eq_of_lt hlo, Nat.zero_mul, Nat.zero_add]
      exact key.1
    · have hx : (C * 2 ^ (a + 1) + p) / 2 ^ a = 2 * C + 1 := by
        rw [e2, show C * (2 * 2 ^ a) + p = (p - 2 ^ a) + (2 * C + 1) * 2 ^ a by
            rw [Nat.add_mul, Nat.one_mul]
            have : C * (2 * 2 ^ a) = 2 * C * 2 ^ a := by ring
            omega, Nat.add_mul_div_right _ _ hpa,
          Nat.div_eq_of_lt (by omega), Nat.zero_add]
      have hx1 : p / 2 ^ a = 1 := by
        rw [show p = (p - 2 ^ a) + 1 * 2 ^ a by omega, Nat.add_mul_div_right _ _ hpa,
          Nat.div_eq_of_lt (by omega), Nat.zero_add]
      rw [hx, hx1, Nat.one_mul, M.succ_even C h2c, Nat.add_comm (2 ^ a) i]
      unfold colAt
      linear_combination key.1 + key.2 + M.add_self (φ ((W.getD i []).getD j 0))
  · rename_i hlt
    have hae : a = e := by
      by_contra hne
      exact hlt (Nat.pow_lt_pow_right (by decide) (by omega))
    subst hae
    exact hev p

theorem fftLevels_eval (M : f.Model K φ) (e n C mtrunc : Nat) (hle : mtrunc ≤ 2 ^ e)
    (hC : C * 2 ^ e + 2 ^ e ≤ f.order) (j : Nat) (hj : j < n) (fuel a : Nat) (V : Rows)
    (h : f.Shaped (2 ^ e) n V) (ha : a ≤ e) (hf : a ≤ 2 * fuel + 1) :
    ∃ a', a' ≤ 1 ∧ a' ≤ a ∧ (f.fftLevels mtrunc (C * 2 ^ e) fuel (2 ^ a) V).1 = 2 ^ a'
      ∧ f.Shaped (2 ^ e) n (f.fftLevels mtrunc (C * 2 ^ e) fuel (2 ^ a) V).2
      ∧ ∀ p, p / 2 ^ a' * 2 ^ a' < mtrunc → groupEval φ f.width (C * 2 ^ e)
          (colAt φ (f.fftLevels mtrunc (C * 2 ^ e) fuel (2 ^ a) V).2 j) a' p
        = groupEval φ f.width (C * 2 ^ e) (colAt φ V j) a p := by
  induction fuel generalizing a V with
  | zero => exact ⟨a, by omega, le_rfl, rfl, h, fun p _ => rfl⟩
  | succ fuel ih =>
    unfold GF.fftLevels
    split
    · rename_i h4
      obtain ⟨b, rfl⟩ : ∃ b, a = b + 2 := by
        refine ⟨a - 2, ?_⟩
        by_contra hc
        have : 2 ^ a ≤ 2 ^ 1 := Nat.pow_le_pow_right (by decide) (by omega)
        exact h4 (Nat.div_eq_of_lt (by omega))
      have e4 : 4 * 2 ^ b = 2 ^ (b + 2) := by rw [Nat.pow_add]; ring
      rw [← e4, Nat.mul_div_cancel_left _ (by decide)]
      have hdvd : 4 * 2 ^ b ∣ 2 ^ e := by rw [e4]; exact pow_dvd_pow 2 ha
      have hw := width_of_room (f := f) e C hC
      have hpos : 0 < 4 * 2 ^ b := by have := Nat.two_pow_pos b; omega
      have hN := ceilDiv_mul_le_size mtrunc _ _ hpos hdvd hle
      obtain ⟨c, hc⟩ : 4 * 2 ^ b ∣ C * 2 ^ e := Dvd.dvd.mul_left hdvd C
      have hc' : C * 2 ^ e = c * (4 * 2 ^ b) := by rw [hc, Nat.mul_comm]
      have hlev := M.fftLevel_eval (2 ^ e) n b c mtrunc V h hN (by rw [← hc']; omega) (by omega) j hj
      rw [← hc'] at hlev
      have hsh := f.shaped_level4 _ _ _ h f.fft4 (fun _ _ _ => f.keeps4_fft4 _ _ _) mtrunc (C * 2 ^ e) _
        (Nat.two_pow_pos b) hdvd hle
      obtain ⟨a', h1, h1', h2, h3, h4⟩ := ih b _ hsh (by omega) (by omega)
      refine ⟨a', h1, by omega, h2, h3, fun p hp => (h4 p hp).trans (hlev p ?_)⟩
      have h5 : p / (4 * 2 ^ b) < ceilDiv mtrunc (4 * 2 ^ b) := by
        rw [lt_ceilDiv_iff _ _ _ hpos]
        refine lt_of_le_of_lt ?_ hp
        have : 2 ^ a' ∣ p / (4 * 2 ^ b) * (4 * 2 ^ b) :=
          Dvd.dvd.mul_left (by rw [e4]; exact pow_dvd_pow 2 (by omega)) _
        obtain ⟨x, hx⟩ := this
        rw [hx, Nat.mul_comm]
        refine Nat.mul_le_mul_right _ ?_
        rw [Nat.le_div_iff_mul_le (Nat.two_pow_pos a'), Nat.mul_comm, ← hx]
        exact Nat.div_mul_le_self _ _
      exact (Nat.div_lt_iff_lt_mul hpos).1 h5
    · rename_i h4
      refine ⟨a, ?_, le_rfl, rfl, h, fun p _ => rfl⟩
      by_contra hc
      have : 2 ^ 2 ≤ 2 ^ a := Nat.pow_le_pow_right (by decide) (by omega)
      omega

/-- FFT takes coefficients to values, at the positions below mtrunc (44_codec.md R265). -/
theorem fft_eval (M : f.Model K φ) (e n C mtrunc : Nat) (V : Rows) (h : f.Shaped (2 ^ e) n V) (hle : mtrunc ≤ 2 ^ e)
    (hC : C * 2 ^ e + 2 ^ e ≤ f.order) (j : Nat) (hj : j < n) (p : Nat) (hp : p < mtrunc) :
    colAt φ (f.fft V mtrunc (2 ^ e) (C * 2 ^ e)) j p = groupEval φ f.width (C * 2 ^ e) (colAt φ V j) e p := by
  have hw := width_of_room (f := f) e C hC
  obtain ⟨a, ha, hae, hd, hs, hev⟩ := M.fftLevels_eval e n C mtrunc hle hC j hj f.width e V h le_rfl (by omega)
  unfold GF.fft
  simp only [hd]
  generalize (f.fftLevels mtrunc (C * 2 ^ e) f.width (2 ^ e) V).2 = W at *
  have ha01 : a = 0 ∨ a = 1 := by omega
  rcases ha01 with rfl | rfl
  · rw [if_neg (by decide), ← hev p (by simpa using hp), groupEval_zero]
  · rw [if_pos (show (2 : Nat) ^ 1 = 2 by rfl)]
    have hm := f.mod_eq
    obtain ⟨e', rfl⟩ : ∃ e', e = e' + 1 := ⟨e - 1, by omega⟩
    have e2 : 2 ^ (e' + 1) = 2 * 2 ^ e' := Nat.pow_succ' ..
    have hN := ceilDiv_mul_le_size mtrunc (2 ^ (e' + 1)) 2 (by decide) (by rw [e2]; exact ⟨_, rfl⟩) hle
    obtain ⟨w1, w2, -⟩ := getD_loop2 ([] : Row) 1 (fun g => 2 * g)
      (fun g x y => f.fft2 x y (f.skew (C * 2 ^ (e' + 1) + 2 * g))) (List.range (ceilDiv mtrunc 2)) List.nodup_range W
      (2 ^ (e' + 1)) hs.1 (by decide) (fun x hx => by have := List.mem_range.1 hx; omega)
      (fun x hx y hy hxy => by omega)
    change colAt φ ((List.range (ceilDiv mtrunc 2)).foldl (fun V g =>
      at2 [] V (2 * g) 1 fun x y => f.fft2 x y (f.skew (C * 2 ^ (e' + 1) + 2 * g))) W) j p = _
    generalize (List.range (ceilDiv mtrunc 2)).foldl (fun V g =>
      at2 [] V (2 * g) 1 fun x y => f.fft2 x y (f.skew (C * 2 ^ (e' + 1) + 2 * g))) W = U at *
    have hg : p / 2 < ceilDiv mtrunc 2 := by rw [lt_ceilDiv_iff _ _ _ (by decide)]; omega
    rw [← hev p (by rw [Nat.pow_one]; omega)]
    obtain ⟨g, q, hq, rfl⟩ : ∃ g q, q < 2 ∧ p = 2 * g + q := ⟨p / 2, p % 2, by omega, by omega⟩
    have hgp : (2 * g + q) / 2 = g := by omega
    rw [hgp] at hg
    have hw2 := w2 g (List.mem_range.2 hg)
    have ht : f.skew (C * 2 ^ (e' + 1) + 2 * g) = f.log (2 * (C * 2 ^ e' + g)) := by
      have := skew_group (f := f) 0 (C * 2 ^ e' + g) (by
        have : (C * 2 ^ e' + g) * 2 ^ (0 + 1) = C * (2 * 2 ^ e') + 2 * g := by ring
        rw [this, ← e2]
        omega)
      rw [← this]
      congr 1
      rw [e2]
      have : (C * 2 ^ e' + g) * 2 ^ (0 + 1) = C * (2 * 2 ^ e') + 2 * g := by ring
      rw [this]
      omega
    have h2c : 2 * (C * 2 ^ e' + g) + 1 < f.order := by
      have : 2 * (C * 2 ^ e' + g) = C * 2 ^ (e' + 1) + 2 * g := by rw [e2]; ring
      omega
    have s0 := hs.2 (2 * g) (by omega)
    have s1 := hs.2 (2 * g + 1) (by omega)
    have key := M.fft2_col _ _ _ n j s0.1 s1.1 s0.2 s1.2 (show 2 * (C * 2 ^ e' + g) < f.order by omega) hj
    rw [← ht, ← hw2.1, ← hw2.2] at key
    have h2 := groupEval_two φ f.width (C * 2 ^ (e' + 1)) (colAt φ W j) 0 g q (by omega) (by omega)
    simp only [Nat.pow_zero, Nat.mul_one, Finset.range_one, Finset.sum_singleton, Nat.add_zero, Nat.zero_add,
      Nat.div_one, basisAt_zero] at h2
    rw [Nat.mul_comm g 2] at h2
    have hx : C * 2 ^ (e' + 1) + (2 * g + q) = 2 * (C * 2 ^ e' + g) + q := by rw [e2]; ring
    rw [h2, hx]
    have hq01 : q = 0 ∨ q = 1 := by omega
    unfold colAt
    rcases hq01 with rfl | rfl
    · rw [Nat.add_zero, Nat.add_zero]
      linear_combination key.1
    · rw [M.succ_even _ h2c]
      linear_combination key.2

end GF.Model

end Sys2Proof
end

