-- ==== Sys2Proof/Laws/Polys.lean ====
section
/-! SUPPORT. The basis products as polynomials: their values, their degrees and their derivatives, and the
polynomial of low degree that a codeword is (44_codec.md R260, R264, R268). -/

namespace Sys2Proof

open Polynomial

/-- The polynomial of a right shift by b: X, then S² + S again and again. -/
noncomputable def shiftPoly (K : Type) [Field K] : Nat → K[X]
  | 0 => X
  | b + 1 => shiftPoly K b ^ 2 + shiftPoly K b

/-- The basis polynomial of index h. -/
noncomputable def basisPoly (K : Type) [Field K] (w h : Nat) : K[X] :=
  ∏ b ∈ Finset.range w, if h.testBit b then shiftPoly K b else 1

theorem sum_bits (h w : Nat) : (∑ b ∈ Finset.range w, if h.testBit b then 2 ^ b else 0) = h % 2 ^ w := by
  induction w with
  | zero => simp [Nat.mod_one]
  | succ w ih =>
    rw [Finset.sum_range_succ, ih, Nat.mod_pow_succ, Nat.testBit_eq_decide_div_mod_eq]
    have := Nat.mod_lt (h / 2 ^ w) (show 0 < 2 by decide)
    by_cases h1 : h / 2 ^ w % 2 = 1
    · simp [h1]
    · have : h / 2 ^ w % 2 = 0 := by omega
      simp [this]

section Degree

variable (K : Type) [Field K]

theorem natDegree_shiftPoly (b : Nat) : (shiftPoly K b).natDegree ≤ 2 ^ b := by
  induction b with
  | zero => simp [shiftPoly]
  | succ b ih =>
    unfold shiftPoly
    refine natDegree_add_le_of_degree_le ?_ (ih.trans (Nat.pow_le_pow_right (by decide) (by omega)))
    refine natDegree_pow_le.trans ?_
    rw [Nat.pow_succ']
    exact Nat.mul_le_mul_left 2 ih

theorem natDegree_basisPoly (w h : Nat) : (basisPoly K w h).natDegree ≤ h := by
  refine (natDegree_prod_le _ _).trans (le_trans ?_ (Nat.mod_le h (2 ^ w)))
  rw [← sum_bits]
  refine Finset.sum_le_sum fun b _ => ?_
  split
  · exact natDegree_shiftPoly K b
  · simp

theorem derivative_shiftPoly (h2 : (2 : K) = 0) (b : Nat) : derivative (shiftPoly K b) = 1 := by
  induction b with
  | zero => simp [shiftPoly]
  | succ b ih =>
    unfold shiftPoly
    rw [derivative_add, derivative_sq, ih]
    simp [h2]

theorem derivative_basisPoly (h2 : (2 : K) = 0) (w h : Nat) :
    derivative (basisPoly K w h)
      = ∑ b ∈ Finset.range w, if h.testBit b then basisPoly K w (h ^^^ 2 ^ b) else 0 := by
  unfold basisPoly
  rw [derivative_prod_finset]
  refine Finset.sum_congr rfl fun b hb => ?_
  by_cases hbit : h.testBit b
  · have hone : (if (h ^^^ 2 ^ b).testBit b then shiftPoly K b else 1) = 1 := by
      have : (h ^^^ 2 ^ b).testBit b = false := by simp [Nat.testBit_xor, hbit]
      rw [this]; rfl
    rw [if_pos hbit, if_pos hbit, derivative_shiftPoly K h2, mul_one,
      ← Finset.prod_erase (Finset.range w) (f := fun c => if (h ^^^ 2 ^ b).testBit c then shiftPoly K c else 1)
        (a := b) hone]
    refine Finset.prod_congr rfl fun c hc => ?_
    have hne : b ≠ c := (Finset.ne_of_mem_erase hc).symm
    have : (h ^^^ 2 ^ b).testBit c = h.testBit c := by simp [Nat.testBit_xor, hne]
    rw [this]
  · simp [hbit]

end Degree

/-- The derivative of a sum of basis polynomials, by coefficients. -/
theorem derivative_sum_basisPoly (K : Type) [Field K] (h2 : (2 : K) = 0) (w e : Nat) (hw : e ≤ w) (v : Nat → K) :
    derivative (∑ h ∈ Finset.range (2 ^ e), C (v h) * basisPoly K w h)
      = ∑ p ∈ Finset.range (2 ^ e),
          C (∑ b ∈ Finset.range e, if p.testBit b then 0 else v (p ^^^ 2 ^ b)) * basisPoly K w p := by
  have e1 : ∀ h ∈ Finset.range (2 ^ e), derivative (C (v h) * basisPoly K w h)
      = ∑ b ∈ Finset.range e, if h.testBit b then C (v h) * basisPoly K w (h ^^^ 2 ^ b) else 0 := by
    intro h hh
    have hh := Finset.mem_range.1 hh
    rw [derivative_C_mul, derivative_basisPoly K h2, Finset.mul_sum]
    rw [show w = e + (w - e) by omega, Finset.sum_range_add]
    rw [show e + (w - e) = w by omega]
    rw [Finset.sum_eq_zero (s := Finset.range (w - e)), add_zero]
    · refine Finset.sum_congr rfl fun b _ => ?_
      split <;> simp
    · intro b _
      have : h.testBit (e + b) = false :=
        Nat.testBit_lt_two_pow (lt_of_lt_of_le hh (Nat.pow_le_pow_right (by decide) (by omega)))
      rw [this]; simp
  rw [derivative_sum, Finset.sum_congr rfl e1, Finset.sum_comm]
  have e2 : ∀ b ∈ Finset.range e,
      (∑ h ∈ Finset.range (2 ^ e), if h.testBit b then C (v h) * basisPoly K w (h ^^^ 2 ^ b) else 0)
      = ∑ p ∈ Finset.range (2 ^ e), if p.testBit b then 0 else C (v (p ^^^ 2 ^ b)) * basisPoly K w p := by
    intro b hb
    have hb := Finset.mem_range.1 hb
    have hlt : ∀ h ∈ Finset.range (2 ^ e), h ^^^ 2 ^ b ∈ Finset.range (2 ^ e) := fun h hh =>
      Finset.mem_range.2 (Nat.xor_lt_two_pow (Finset.mem_range.1 hh) (Nat.pow_lt_pow_right (by decide) hb))
    have hinv : ∀ h : Nat, h ^^^ 2 ^ b ^^^ 2 ^ b = h := fun h => by rw [Nat.xor_assoc, Nat.xor_self, Nat.xor_zero]
    refine Finset.sum_bij' (fun h _ => h ^^^ 2 ^ b) (fun h _ => h ^^^ 2 ^ b) hlt hlt (fun h _ => hinv h)
      (fun h _ => hinv h) fun h _ => ?_
    have : (h ^^^ 2 ^ b).testBit b = !h.testBit b := by simp [Nat.testBit_xor]
    rw [this, hinv]
    cases h.testBit b <;> simp
  rw [Finset.sum_congr rfl e2, Finset.sum_comm]
  refine Finset.sum_congr rfl fun p _ => ?_
  rw [map_sum, Finset.sum_mul]
  refine Finset.sum_congr rfl fun b _ => ?_
  split <;> simp

namespace GF.Model

variable {f : GF} {K : Type} [Field K] {φ : Nat → K}

theorem eval_shiftPoly (M : f.Model K φ) (b x : Nat) (hx : x < f.order) :
    (shiftPoly K b).eval (φ x) = φ (x / 2 ^ b) := by
  induction b with
  | zero => simp [shiftPoly]
  | succ b ih =>
    unfold shiftPoly
    rw [eval_add, eval_pow, ih, Nat.pow_succ, ← Nat.div_div_eq_div_mul,
      M.half _ (lt_of_le_of_lt (Nat.div_le_self _ _) hx)]

theorem eval_basisPoly (M : f.Model K φ) (w h x : Nat) (hx : x < f.order) :
    (basisPoly K w h).eval (φ x) = basisAt φ w h x := by
  unfold basisPoly basisAt
  rw [eval_prod]
  refine Finset.prod_congr rfl fun b _ => ?_
  split
  · exact M.eval_shiftPoly b x hx
  · simp

theorem injOn (M : f.Model K φ) (N : Nat) (hN : N ≤ f.order) : Set.InjOn φ (Finset.range N : Set Nat) := by
  intro a ha b hb h
  have ha := Finset.mem_range.1 (Finset.mem_coe.1 ha)
  have hb := Finset.mem_range.1 (Finset.mem_coe.1 hb)
  exact M.inj a b (by omega) (by omega) h

theorem sub_eq (M : f.Model K φ) (a b : Nat) (ha : a < f.order) (hb : b < f.order) :
    φ a - φ b = φ (a ^^^ b) := by
  rw [M.xor a b ha hb]
  linear_combination -M.add_self (φ b)

/-- Values at the first 2^τ positions that sum to nothing are those of a polynomial of a degree below 2^τ - 1. -/
theorem degree_interpolate (M : f.Model K φ) (τ : Nat) (hτ : 2 ^ τ ≤ f.order) (r : Nat → K)
    (hr : ∑ t ∈ Finset.range (2 ^ τ), r t = 0) :
    (Lagrange.interpolate (Finset.range (2 ^ τ)) φ r).natDegree + 1 < 2 ^ τ ∨
      Lagrange.interpolate (Finset.range (2 ^ τ)) φ r = 0 := by
  have hinj := M.injOn _ hτ
  have hdeg := Lagrange.degree_interpolate_lt r hinj
  have hp := Nat.two_pow_pos τ
  have hprod : ∀ t ∈ Finset.range (2 ^ τ), ∏ u ∈ (Finset.range (2 ^ τ)).erase t, (φ t - φ u)
      = ∏ u ∈ (Finset.range (2 ^ τ)).erase 0, φ u := by
    intro t ht
    have ht' := Finset.mem_range.1 ht
    have hmem : ∀ u, u ∈ Finset.range (2 ^ τ) → t ^^^ u ∈ Finset.range (2 ^ τ) := fun u hu =>
      Finset.mem_range.2 (Nat.xor_lt_two_pow ht' (Finset.mem_range.1 hu))
    have hinv : ∀ u, t ^^^ (t ^^^ u) = u := fun u => by rw [← Nat.xor_assoc, Nat.xor_self, Nat.zero_xor]
    refine Finset.prod_bij' (fun u _ => t ^^^ u) (fun u _ => t ^^^ u) ?_ ?_ (fun u _ => hinv u) (fun u _ => hinv u) ?_
    · intro u hu
      obtain ⟨h1, h2⟩ := Finset.mem_erase.1 hu
      exact Finset.mem_erase.2 ⟨fun h => h1 ((xor_eq_zero_iff _ _).1 h).symm, hmem u h2⟩
    · intro u hu
      obtain ⟨h1, h2⟩ := Finset.mem_erase.1 hu
      refine Finset.mem_erase.2 ⟨fun h => h1 ?_, hmem u h2⟩
      have := hinv u
      rw [h, Nat.xor_self] at this
      exact this.symm
    · intro u hu
      have hu' := Finset.mem_range.1 (Finset.mem_erase.1 hu).2
      exact M.sub_eq t u (by omega) (by omega)
  have hc := Lagrange.coeff_eq_sum hinj hdeg
  rw [Finset.card_range] at hc hdeg
  have hz : (Lagrange.interpolate (Finset.range (2 ^ τ)) φ r).coeff (2 ^ τ - 1) = 0 := by
    rw [hc]
    have : ∀ t ∈ Finset.range (2 ^ τ), (Lagrange.interpolate (Finset.range (2 ^ τ)) φ r).eval (φ t)
          / ∏ u ∈ (Finset.range (2 ^ τ)).erase t, (φ t - φ u)
        = r t * (∏ u ∈ (Finset.range (2 ^ τ)).erase 0, φ u)⁻¹ := fun t ht => by
      rw [Lagrange.eval_interpolate_at_node r hinj ht, hprod t ht, div_eq_mul_inv]
    rw [Finset.sum_congr rfl this, ← Finset.sum_mul, hr, MulZeroClass.zero_mul]
  generalize Lagrange.interpolate (Finset.range (2 ^ τ)) φ r = G at *
  by_cases h0 : G = 0
  · exact Or.inr h0
  · left
    have h1 := (natDegree_lt_iff_degree_lt h0).2 hdeg
    have h2 : G.natDegree ≠ 2 ^ τ - 1 := fun h => by
      rw [← h] at hz
      exact h0 (leadingCoeff_eq_zero.1 hz)
    omega

/-- Blocks of values whose coefficients sum to nothing are the values of one polynomial of a degree below all but one
block (44_codec.md R260). -/
theorem exists_codeword (M : f.Model K φ) (e τ : Nat) (hN : 2 ^ τ * 2 ^ e ≤ f.order) (hτ : 1 ≤ τ)
    (v : Nat → Nat → K) (hv : ∀ h, ∑ t ∈ Finset.range (2 ^ τ), v t h = 0) :
    ∃ F : K[X], F.degree < ((2 ^ τ * 2 ^ e - 2 ^ e : Nat) : WithBot Nat)
      ∧ ∀ t < 2 ^ τ, ∀ q < 2 ^ e, F.eval (φ (t * 2 ^ e + q))
        = ∑ h ∈ Finset.range (2 ^ e), v t h * basisAt φ f.width h (t * 2 ^ e + q) := by
  have hpe := Nat.two_pow_pos e
  have hpt : 2 ≤ 2 ^ τ := by
    calc 2 = 2 ^ 1 := rfl
      _ ≤ 2 ^ τ := Nat.pow_le_pow_right (by decide) hτ
  have hT : 2 ^ τ ≤ f.order := le_trans (Nat.le_mul_of_pos_right _ hpe) hN
  have hinj := M.injOn _ hT
  refine ⟨∑ h ∈ Finset.range (2 ^ e), basisPoly K f.width h
    * (Lagrange.interpolate (Finset.range (2 ^ τ)) φ fun t => v t h).comp (shiftPoly K e), ?_, ?_⟩
  · refine lt_of_le_of_lt (degree_sum_le _ _) ?_
    rw [Finset.sup_lt_iff (by exact WithBot.bot_lt_coe _)]
    intro h hh
    have hh := Finset.mem_range.1 hh
    rcases M.degree_interpolate τ hT (fun t => v t h) (hv h) with hd | hd
    · refine lt_of_le_of_lt degree_le_natDegree ?_
      rw [Nat.cast_lt]
      refine lt_of_le_of_lt natDegree_mul_le ?_
      rw [natDegree_comp]
      have h1 := natDegree_basisPoly K f.width h
      have h2 := natDegree_shiftPoly K e
      have h3 := Nat.mul_le_mul_left
        (Lagrange.interpolate (Finset.range (2 ^ τ)) φ fun t => v t h).natDegree h2
      have h4 : ((Lagrange.interpolate (Finset.range (2 ^ τ)) φ fun t => v t h).natDegree + 2) * 2 ^ e
          ≤ 2 ^ τ * 2 ^ e := Nat.mul_le_mul_right _ (by omega)
      rw [Nat.add_mul] at h4
      omega
    · rw [hd]
      simp only [zero_comp, MulZeroClass.mul_zero, degree_zero]
      exact WithBot.bot_lt_coe _
  · intro t ht q hq
    have hx : t * 2 ^ e + q < f.order := by
      have : (t + 1) * 2 ^ e ≤ 2 ^ τ * 2 ^ e := Nat.mul_le_mul_right _ ht
      rw [Nat.add_mul] at this
      omega
    rw [eval_finsetSum]
    refine Finset.sum_congr rfl fun h _ => ?_
    rw [eval_mul, eval_comp, M.eval_basisPoly _ _ _ hx, M.eval_shiftPoly _ _ hx]
    have : (t * 2 ^ e + q) / 2 ^ e = t := by
      rw [Nat.add_comm, Nat.add_mul_div_right _ _ hpe, Nat.div_eq_of_lt hq, Nat.zero_add]
    rw [this, Lagrange.eval_interpolate_at_node _ hinj (Finset.mem_range.2 ht)]
    ring

end GF.Model

end Sys2Proof
end

