-- ==== Sys2Proof/Laws/Derivative.lean ====
section
/-! SUPPORT. DERIV, position by position (44_codec.md R268): each row gains the rows whose index has one bit more. -/

namespace Sys2Proof

/-- A loop over 0, 1, … keeps an invariant that counts its turns. -/
theorem foldl_range_inv {β : Type} (P : Nat → β → Prop) (step : β → Nat → β) (n : Nat) (b : β) (h0 : P 0 b)
    (hs : ∀ i < n, ∀ b, P i b → P (i + 1) (step b i)) : P n ((List.range n).foldl step b) := by
  induction n with
  | zero => exact h0
  | succ n ih =>
    rw [List.range_succ, List.foldl_append]
    exact hs n (by omega) _ (ih fun i hi => hs i (by omega))

theorem xor_two_pow_of_clear (b c x : Nat) (hx : x < 2 ^ b) :
    (2 ^ b * (2 * c) + x) ^^^ 2 ^ b = 2 ^ b * (2 * c + 1) + x := by
  apply Nat.eq_of_testBit_eq
  intro i
  rw [Nat.testBit_xor, Nat.testBit_two_pow_mul_add _ hx, Nat.testBit_two_pow_mul_add _ hx, Nat.testBit_two_pow]
  by_cases hi : i < b
  · have : b ≠ i := by omega
    simp [hi, this]
  · rw [if_neg hi, if_neg hi]
    obtain ⟨d, rfl⟩ : ∃ d, i = b + d := ⟨i - b, by omega⟩
    rw [Nat.add_sub_cancel_left]
    cases d with
    | zero => simp [Nat.testBit_zero]
    | succ d =>
      rw [Nat.testBit_succ, Nat.testBit_succ, show 2 * c / 2 = c by omega, show (2 * c + 1) / 2 = c by omega]
      simp

theorem lowBit_mul (b c : Nat) : lowBit (2 ^ b * (2 * c + 1)) = 2 ^ b := by
  unfold lowBit
  rw [trailingZeros_mul]
  calc b < 2 ^ b := Nat.lt_two_pow_self
    _ ≤ 2 ^ b * (2 * c + 1) := Nat.le_mul_of_pos_right _ (by omega)

theorem odd_part_unique (b c b' c' : Nat) (h : 2 ^ b * (2 * c + 1) = 2 ^ b' * (2 * c' + 1)) : b = b' ∧ c = c' := by
  have hb : b = b' := by
    have := lowBit_mul b c
    rw [h, lowBit_mul] at this
    exact (Nat.pow_right_injective (le_refl 2) this).symm
  subst hb
  have := Nat.eq_of_mul_eq_mul_left (Nat.two_pow_pos b) h
  exact ⟨rfl, by omega⟩

theorem exists_odd_part (i : Nat) (h : 0 < i) : ∃ b c, i = 2 ^ b * (2 * c + 1) := by
  obtain ⟨b, m, ⟨c, rfl⟩, hi⟩ := Nat.exists_eq_two_pow_mul_odd (n := i) (by omega)
  exact ⟨b, c, hi⟩

/-- The inner loop of DERIV: rows i - w .. i - 1 gain rows i .. i + w - 1. -/
theorem getD_derivStep (V : Rows) (N lo w : Nat) (hV : V.size = N) (hN : lo + w + w ≤ N) :
    let W := (List.range w).foldl (init := V) fun V j =>
      V.setIfInBounds (lo + j) (xorRow (V.getD (lo + j) []) (V.getD (lo + w + j) []))
    W.size = N ∧ (∀ x < w, W.getD (lo + x) [] = xorRow (V.getD (lo + x) []) (V.getD (lo + w + x) []))
      ∧ ∀ p, (p < lo ∨ lo + w ≤ p) → W.getD p [] = V.getD p [] := by
  refine foldl_range_inv (fun t W => W.size = N
    ∧ (∀ x < w, W.getD (lo + x) [] = if x < t then xorRow (V.getD (lo + x) []) (V.getD (lo + w + x) [])
        else V.getD (lo + x) [])
    ∧ ∀ p, (p < lo ∨ lo + w ≤ p) → W.getD p [] = V.getD p []) _ w V ?_ ?_ |>.imp id
    (And.imp (fun h x hx => by rw [h x hx, if_pos hx]) id)
  · exact ⟨hV, fun x _ => by rw [if_neg (by omega)], fun p _ => rfl⟩
  · intro t ht W ⟨h1, h2, h3⟩
    refine ⟨by rw [Array.size_setIfInBounds, h1], fun x hx => ?_, fun p hp => ?_⟩
    · rw [Rows.getD_set, h2 t ht, h3 (lo + w + t) (by omega), if_neg (lt_irrefl t)]
      by_cases hxt : x = t
      · subst hxt
        rw [if_pos ⟨rfl, by omega⟩, if_pos (by omega)]
      · rw [if_neg (by omega), h2 x hx]
        by_cases hlt : x < t
        · rw [if_pos hlt, if_pos (by omega)]
        · rw [if_neg hlt, if_neg (by omega)]
    · rw [Rows.getD_set, if_neg (by omega), h3 p hp]

theorem testBit_clear (b c x : Nat) (hx : x < 2 ^ b) : (2 ^ b * (2 * c) + x).testBit b = false := by
  rw [Nat.testBit_two_pow_mul_add _ hx, if_neg (lt_irrefl b), Nat.sub_self, Nat.testBit_zero]
  simp

/-- A position whose bit b is clear, split at that bit. -/
theorem split_clear (b p : Nat) (h : p.testBit b = false) : ∃ c x, x < 2 ^ b ∧ p = 2 ^ b * (2 * c) + x := by
  rw [Nat.testBit_eq_decide_div_mod_eq] at h
  have h := of_decide_eq_false h
  refine ⟨p / 2 ^ b / 2, p % 2 ^ b, Nat.mod_lt _ (Nat.two_pow_pos b), ?_⟩
  rw [show 2 * (p / 2 ^ b / 2) = p / 2 ^ b by omega, Nat.div_add_mod]

theorem split_div (b c x : Nat) (hx : x < 2 ^ b) : ((2 ^ b * (2 * c) + x) / 2 ^ b + 1) * 2 ^ b = 2 ^ b * (2 * c + 1) := by
  rw [Nat.mul_add_div (Nat.two_pow_pos b), Nat.div_eq_of_lt hx, Nat.add_zero, Nat.mul_comm]

/-- DERIV on a column (44_codec.md R268). -/
theorem GF.Model.deriv_eval {f : GF} {K : Type} [Field K] {φ : Nat → K} (M : f.Model K φ) (e n : Nat) (V : Rows)
    (h : f.Shaped (2 ^ e) n V) (j : Nat) (hj : j < n) (p : Nat) (hp : p < 2 ^ e) :
    colAt φ (derivRows V (2 ^ e)) j p = colAt φ V j p
      + ∑ b ∈ Finset.range e, if p.testBit b then 0 else colAt φ V j (p ^^^ 2 ^ b) := by
  have key := foldl_range_inv (fun t W => f.Shaped (2 ^ e) n W ∧ ∀ p < 2 ^ e, colAt φ W j p = colAt φ V j p
      + ∑ b ∈ Finset.range e, if p.testBit b = false ∧ (p / 2 ^ b + 1) * 2 ^ b ≤ t then colAt φ V j (p ^^^ 2 ^ b) else 0)
    (fun V i' => (List.range (lowBit (i' + 1))).foldl (init := V) fun V j =>
      V.setIfInBounds (i' + 1 - lowBit (i' + 1) + j)
        (xorRow (V.getD (i' + 1 - lowBit (i' + 1) + j) []) (V.getD (i' + 1 + j) []))) (2 ^ e - 1) V ?_ ?_
  · have hd : derivRows V (2 ^ e) = (List.range (2 ^ e - 1)).foldl (init := V) fun V i' =>
      (List.range (lowBit (i' + 1))).foldl (init := V) fun V j =>
        V.setIfInBounds (i' + 1 - lowBit (i' + 1) + j)
          (xorRow (V.getD (i' + 1 - lowBit (i' + 1) + j) []) (V.getD (i' + 1 + j) [])) := rfl
    rw [hd, key.2 p hp]
    congr 1
    refine Finset.sum_congr rfl fun b hb => ?_
    have hb := Finset.mem_range.1 hb
    by_cases hbit : p.testBit b
    · simp [hbit]
    · have hbit' : p.testBit b = false := by simpa using hbit
      rw [if_neg hbit, if_pos]
      refine ⟨hbit', ?_⟩
      obtain ⟨c, x, hx, rfl⟩ := split_clear b p hbit'
      rw [split_div b c x hx]
      have e1 : 2 ^ e = 2 ^ b * (2 * 2 ^ (e - b - 1)) := by
        rw [← Nat.pow_succ', ← Nat.pow_add]; congr 1; omega
      have : 2 * c < 2 * 2 ^ (e - b - 1) := by
        rw [e1] at hp
        exact Nat.lt_of_mul_lt_mul_left (lt_of_le_of_lt (Nat.le_add_right _ x) hp)
      have h2 : 2 ^ b * (2 * c + 1) < 2 ^ b * (2 * 2 ^ (e - b - 1)) :=
        Nat.mul_lt_mul_of_pos_left (by omega) (Nat.two_pow_pos b)
      omega
  · refine ⟨h, fun p _ => ?_⟩
    rw [Finset.sum_eq_zero, add_zero]
    intro b _
    rw [if_neg]
    intro ⟨_, hc⟩
    have := Nat.two_pow_pos b
    have : 0 < (p / 2 ^ b + 1) * 2 ^ b := Nat.mul_pos (Nat.succ_pos _) this
    omega
  · intro t ht W ⟨hs, hW⟩
    obtain ⟨b0, c0, hi⟩ := exists_odd_part (t + 1) (by omega)
    have hlow : lowBit (t + 1) = 2 ^ b0 := by rw [hi, lowBit_mul]
    have hle := lowBit_add_le e (t + 1) (by omega) (by omega)
    have hge := lowBit_le (t + 1) (by omega)
    rw [hlow] at hle hge ⊢
    have hb0 : b0 < e := by
      have : 2 ^ b0 < 2 ^ e := by omega
      exact (Nat.pow_lt_pow_iff_right (by decide)).1 this
    have hlo : t + 1 - 2 ^ b0 = 2 ^ b0 * (2 * c0) := by rw [hi, Nat.mul_add]; omega
    have hti : t + 1 = 2 ^ b0 * (2 * c0) + 2 ^ b0 := by rw [hi, Nat.mul_add, Nat.mul_one]
    obtain ⟨g1, g2, g3⟩ := getD_derivStep W (2 ^ e) (t + 1 - 2 ^ b0) (2 ^ b0) hs.1 (by omega)
    rw [show t + 1 - 2 ^ b0 + 2 ^ b0 = t + 1 by omega] at g1 g2 g3
    generalize (List.range (2 ^ b0)).foldl (fun V j => V.setIfInBounds (t + 1 - 2 ^ b0 + j)
        (xorRow (V.getD (t + 1 - 2 ^ b0 + j) []) (V.getD (t + 1 + j) []))) W = U at *
    have hxor : ∀ x < 2 ^ b0, (U.getD (t + 1 - 2 ^ b0 + x) []).length = n ∧ f.Bounded (U.getD (t + 1 - 2 ^ b0 + x) []) := by
      intro x hx
      have s0 := hs.2 (t + 1 - 2 ^ b0 + x) (by omega)
      have s1 := hs.2 (t + 1 + x) (by omega)
      rw [g2 x hx]
      exact ⟨by rw [length_xorRow, s0.1, s1.1, Nat.min_self], f.bounded_xorRow _ _ s0.2 s1.2⟩
    refine ⟨⟨g1, fun p hp => ?_⟩, fun p hp => ?_⟩
    · by_cases hin : t + 1 - 2 ^ b0 ≤ p ∧ p < t + 1
      · have := hxor (p - (t + 1 - 2 ^ b0)) (by omega)
        rwa [show t + 1 - 2 ^ b0 + (p - (t + 1 - 2 ^ b0)) = p by omega] at this
      · rw [g3 p (by omega)]
        exact hs.2 p hp
    · -- the positions whose condition this turn makes true
      have hnew : ∀ b, p.testBit b = false → ((p / 2 ^ b + 1) * 2 ^ b = t + 1 ↔ b = b0 ∧ t + 1 - 2 ^ b0 ≤ p ∧ p < t + 1) := by
        intro b hbit
        obtain ⟨c, x, hx, rfl⟩ := split_clear b p hbit
        rw [split_div b c x hx]
        constructor
        · intro h
          obtain ⟨rfl, rfl⟩ := odd_part_unique _ _ _ _ (h.trans hi)
          exact ⟨rfl, by omega⟩
        · rintro ⟨rfl, h1, h2⟩
          rw [hi]
          congr 2
          have h3 : (2 ^ b * (2 * c) + x) / 2 ^ b = 2 * c := by
            rw [Nat.mul_add_div (Nat.two_pow_pos b), Nat.div_eq_of_lt hx, Nat.add_zero]
          have h4 : (2 ^ b * (2 * c) + x) / 2 ^ b = 2 * c0 :=
            Nat.div_eq_of_lt_le (by rw [Nat.mul_comm]; omega) (by rw [Nat.mul_comm (2 * c0 + 1), ← hi]; omega)
          rw [← h3, h4]
      by_cases hin : t + 1 - 2 ^ b0 ≤ p ∧ p < t + 1
      · obtain ⟨x, hx, rfl⟩ : ∃ x, x < 2 ^ b0 ∧ p = t + 1 - 2 ^ b0 + x := ⟨p - (t + 1 - 2 ^ b0), by omega, by omega⟩
        have s0 := hs.2 (t + 1 - 2 ^ b0 + x) (by omega)
        have s1 := hs.2 (t + 1 + x) (by omega)
        have hU : colAt φ U j (t + 1 - 2 ^ b0 + x) = colAt φ W j (t + 1 - 2 ^ b0 + x) + colAt φ W j (t + 1 + x) := by
          unfold colAt
          rw [g2 x hx, xorRow, getD_zipWith _ _ _ n j s0.1 s1.1 hj, M.xor _ _ (s0.2.getD j) (s1.2.getD j)]
        have hsrc : colAt φ W j (t + 1 + x) = colAt φ V j (t + 1 + x) := by
          rw [hW _ (by omega), Finset.sum_eq_zero, add_zero]
          intro b _
          rw [if_neg]
          intro ⟨_, hc⟩
          have := Nat.lt_div_mul_add (a := t + 1 + x) (Nat.two_pow_pos b)
          rw [Nat.add_mul] at hc
          omega
        have hflip : (t + 1 - 2 ^ b0 + x) ^^^ 2 ^ b0 = t + 1 + x := by
          rw [hlo, xor_two_pow_of_clear _ _ _ hx, ← hi]
        have hclear : (t + 1 - 2 ^ b0 + x).testBit b0 = false := by rw [hlo]; exact testBit_clear _ _ _ hx
        rw [hU, hW _ hp, hsrc, add_assoc]
        congr 1
        have hterm : ∀ b ∈ Finset.range e,
            (if (t + 1 - 2 ^ b0 + x).testBit b = false ∧ ((t + 1 - 2 ^ b0 + x) / 2 ^ b + 1) * 2 ^ b ≤ t + 1
              then colAt φ V j ((t + 1 - 2 ^ b0 + x) ^^^ 2 ^ b) else 0)
            = (if (t + 1 - 2 ^ b0 + x).testBit b = false ∧ ((t + 1 - 2 ^ b0 + x) / 2 ^ b + 1) * 2 ^ b ≤ t
              then colAt φ V j ((t + 1 - 2 ^ b0 + x) ^^^ 2 ^ b) else 0)
              + if b = b0 then colAt φ V j (t + 1 + x) else 0 := by
          intro b _
          by_cases hb : b = b0
          · subst hb
            have he := (hnew b hclear).2 ⟨rfl, hin⟩
            rw [if_pos ⟨hclear, by omega⟩, if_neg (by rintro ⟨-, h⟩; omega), if_pos rfl, hflip, zero_add]
          · rw [if_neg hb, add_zero]
            by_cases hbit : (t + 1 - 2 ^ b0 + x).testBit b = false
            · have hne : ((t + 1 - 2 ^ b0 + x) / 2 ^ b + 1) * 2 ^ b ≠ t + 1 := fun he => hb ((hnew b hbit).1 he).1
              by_cases hlt : ((t + 1 - 2 ^ b0 + x) / 2 ^ b + 1) * 2 ^ b ≤ t
              · rw [if_pos ⟨hbit, by omega⟩, if_pos ⟨hbit, hlt⟩]
              · rw [if_neg (by rintro ⟨-, h⟩; omega), if_neg (by rintro ⟨-, h⟩; omega)]
            · rw [if_neg (fun h => hbit h.1), if_neg (fun h => hbit h.1)]
        rw [Finset.sum_congr rfl hterm, Finset.sum_add_distrib, Finset.sum_ite_eq' (Finset.range e) b0,
          if_pos (Finset.mem_range.2 hb0)]
      · have hU : colAt φ U j p = colAt φ W j p := by unfold colAt; rw [g3 p (by omega)]
        rw [hU, hW p hp]
        congr 1
        refine Finset.sum_congr rfl fun b _ => ?_
        by_cases hbit : p.testBit b = false
        · have hne : (p / 2 ^ b + 1) * 2 ^ b ≠ t + 1 := fun he => hin ((hnew b hbit).1 he).2
          by_cases hlt : (p / 2 ^ b + 1) * 2 ^ b ≤ t
          · rw [if_pos ⟨hbit, hlt⟩, if_pos ⟨hbit, by omega⟩]
          · rw [if_neg (by rintro ⟨-, h⟩; omega), if_neg (by rintro ⟨-, h⟩; omega)]
        · rw [if_neg (fun h => hbit h.1), if_neg (fun h => hbit h.1)]

end Sys2Proof
end

