-- ==== Sys2Proof/Laws/Frames.lean ====
section
/-! SUPPORT. What a step, a command, and an answer of the port environment, can do to the state: a sequence of named
writes, then its completion and what that leaves UNSPECIFIED, or a wait on a port. Frames and invariants follow by
induction over the writes. -/

namespace Sys2Proof.Machine

/-- The writes that the rules of commands are made of. -/
inductive Prim where
  | slot (i : Nat) (bs : List Byte)
  | work (i : Nat) (bs : List Byte)
  | slen (i : Nat) (v : Word)
  | stg (i : Nat) (bs : List Byte)
  | stgAt (a : Nat) (bs : List Byte)
  | result (v : Nat)
  | seq (q : Seq)
  | verify (ok : Bool)
  | draw (n : Nat)
  | inPort (i : Nat) (p : InPort)
  | outPort (j : Nat) (p : OutPort)
  | spoilWork (need : Nat)
  | spoilStg

/-- The state after one write. -/
def Prim.run (s : State) : Prim → State
  | .slot i bs => s.setSlotBytes i bs
  | .work i bs => s.setWorkBytes i bs
  | .slen i v => s.setSlen i v
  | .stg i bs => s.setStgBytes i bs
  | .stgAt a bs => { s with stg := s.stg.writeBytes a bs }
  | .result v => s.setResult v
  | .seq q => s.setSeq q
  | .verify ok => s.setVerify ok
  | .draw n => { s with draws := s.draws + n }
  | .inPort i p => s.setInPort i p
  | .outPort j p => s.setOutPort j p
  | .spoilWork need => s.spoilWork need
  | .spoilStg => s.spoilStg

/-- `t` is `s` after some writes, each of them one that `A` admits. -/
inductive State.Does (A : Prim → Prop) : State → State → Prop where
  | refl (s : State) : State.Does A s s
  | cons (p : Prim) (s t : State) (hp : A p) (h : State.Does A (p.run s) t) : State.Does A s t

theorem State.Does.one {A : Prim → Prop} (p : Prim) (s : State) (h : A p) : State.Does A s (p.run s) :=
  .cons p s _ h (.refl _)

theorem State.Does.trans {A : Prim → Prop} {s t u : State} (h₁ : State.Does A s t)
    (h₂ : State.Does A t u) : State.Does A s u := by
  induction h₁ with
  | refl => exact h₂
  | cons p s t hp _ ih => exact .cons p s u hp (ih h₂)

theorem State.Does.mono {A B : Prim → Prop} (hAB : ∀ p, A p → B p) {s t : State}
    (h : State.Does A s t) : State.Does B s t := by
  induction h with
  | refl => exact .refl _
  | cons p s t hp _ ih => exact .cons p s t (hAB p hp) ih

/-- What every admitted write keeps, the writes keep. -/
theorem State.Does.keeps {A : Prim → Prop} (P : State → Prop) (hP : ∀ p s, A p → P s → P (p.run s))
    {s t : State} (h : State.Does A s t) (hs : P s) : P t := by
  induction h with
  | refl => exact hs
  | cons p s t hp _ ih => exact ih (hP p s hp hs)

theorem State.Does.foldl {A : Prim → Prop} {α : Type} (f : State → α → State) (l : List α)
    (h : ∀ t, ∀ x ∈ l, State.Does A t (f t x)) (s : State) : State.Does A s (l.foldl f s) := by
  induction l generalizing s with
  | nil => exact .refl s
  | cons x l ih =>
    exact (h s x (by simp)).trans (ih (fun t y hy => h t y (by simp [hy])) (f s x))

/-- The writes of the commands that work on shards: memory, lengths of at most `cap`, RESULT, the sequencer. -/
def Prim.Memory (cap : Nat) : Prim → Prop
  | .slot _ _ | .work _ _ | .result _ | .seq _ => True
  | .slen _ v => v.toNat ≤ cap
  | _ => False

/-- The writes of VERIFY. -/
def Prim.Verdict : Prim → Prop
  | .seq _ | .verify _ => True
  | _ => False

/-- The only writes of a command before its first port operation: the draw of an order. -/
def Prim.Draw : Prim → Prop
  | .draw _ => True
  | _ => False

/-- The writes of a command with port operations that ends before the first of them. -/
def Prim.Entry : Prim → Prop
  | .draw _ | .result _ => True
  | _ => False

/-- The writes of an answered port operation after which the command waits on the next one: staging, draws, the
ports. -/
def Prim.Port : Prim → Prop
  | .stg _ _ | .stgAt _ _ | .draw _ | .inPort _ _ | .outPort _ _ => True
  | _ => False

/-- The writes of an answered port operation after which the command ends. -/
def Prim.PortEnd : Prim → Prop
  | .stg _ _ | .stgAt _ _ | .draw _ | .inPort _ _ | .outPort _ _ | .result _ | .verify _ => True
  | _ => False

/-- What the end of a command leaves UNSPECIFIED. -/
def Prim.Cleanup : Prim → Prop
  | .spoilWork _ | .spoilStg => True
  | _ => False

/-- `t` is what a command leaves that goes on from `s`: it has completed, after the writes that `A` admits, or it
waits on a port, after the writes that `W` admits. -/
def State.Ends (A W : Prim → Prop) (s t : State) : Prop :=
  (∃ u e, State.Does A s u ∧ State.Does Prim.Cleanup (u.complete e) t)
    ∨ ∃ u j, State.Does W s u ∧ t = u.waitOn j

/-- A flow from the state `s`: an end after the writes that `A` admits, or a wait after those that `W` admits. -/
def Flow.From (A W : Prim → Prop) (s : State) : Flow → Prop
  | .done t | .fail _ t => State.Does A s t
  | .wait t => ∃ u j, State.Does W s u ∧ t = u.waitOn j

theorem Flow.From.after {A W : Prim → Prop} (hW : ∀ p, W p → A p) {s u : State} {f : Flow}
    (hs : State.Does W s u) (h : f.From A W u) : f.From A W s := by
  cases f with
  | done t => exact (hs.mono hW).trans h
  | fail e t => exact (hs.mono hW).trans h
  | wait t =>
    obtain ⟨v, j, hv, ht⟩ := h
    exact ⟨v, j, hs.trans hv, ht⟩

theorem Flow.From.mono {A B W V : Prim → Prop} (hA : ∀ p, A p → B p) (hW : ∀ p, W p → V p) {s : State}
    {f : Flow} (h : f.From A W s) : f.From B V s := by
  cases f with
  | done t => exact State.Does.mono hA h
  | fail e t => exact State.Does.mono hA h
  | wait t =>
    obtain ⟨v, j, hv, ht⟩ := h
    exact ⟨v, j, hv.mono hW, ht⟩

/-- A flow that ends leaves the command ended, whatever its cleanup. -/
theorem Flow.From.settleWith {A W : Prim → Prop} {s : State} {f : Flow} (h : f.From A W s)
    (cleanup : State → State) (hc : ∀ t, State.Does Prim.Cleanup t (cleanup t)) :
    s.Ends A W (f.settleWith cleanup) := by
  cases f with
  | done t => exact .inl ⟨t, none, h, hc _⟩
  | fail e t => exact .inl ⟨t, some e, h, hc _⟩
  | wait t => exact .inr h

theorem Flow.From.settle {A W : Prim → Prop} {s : State} {f : Flow} (h : f.From A W s) :
    s.Ends A W f.settle := by
  have := h.settleWith id fun t => .refl t
  cases f <;> exact this

theorem State.does_endBlockCommand (need : Nat) (s : State) :
    State.Does Prim.Cleanup s (State.endBlockCommand need s) :=
  .cons (.spoilWork need) s _ trivial (.one .spoilStg _ trivial)

theorem State.does_spoilStg (s : State) : State.Does Prim.Cleanup s s.spoilStg := .one .spoilStg s trivial

/-! Commands without ports. -/

theorem State.Does.setBufBytes {A : Prim → Prop} (hs : ∀ i bs, A (.slot i bs)) (hw : ∀ i bs, A (.work i bs))
    (s : State) (b : Buf) (bs : List Byte) : State.Does A s (s.setBufBytes b bs) := by
  cases b with
  | slot i => exact .one (.slot i bs) s (hs i bs)
  | work i => exact .one (.work i bs) s (hw i bs)

theorem State.Does.setBufRow (cap : Nat) (s : State) (f : GF) (b : Buf) (es : Row) :
    State.Does (Prim.Memory cap) s (s.setBufRow f b es) :=
  .setBufBytes (fun _ _ => trivial) (fun _ _ => trivial) s b _

theorem State.Does.putShard (cap : Nat) (s : State) (S i : Nat) (bs : List Byte)
    (h : (BitVec.ofNat 32 S).toNat ≤ cap) : State.Does (Prim.Memory cap) s (s.putShard S i bs) :=
  .cons (.slot i bs) s _ trivial (.one (.slen i (BitVec.ofNat 32 S)) _ h)

/-- A command whose rule makes the writes that `A` admits. -/
theorem State.ends_command {A : Prim → Prop} (s : State) (rule : State → Except Err State)
    (h : ∀ t, rule s.accept = .ok t → State.Does A s.accept t) :
    ∃ u e, State.Does A s.accept u ∧ s.command rule = u.complete e := by
  unfold State.command
  dsimp only
  cases hr : rule s.accept with
  | ok t => exact ⟨t, none, h t hr, rfl⟩
  | error e => exact ⟨_, some e, .refl _, rfl⟩

theorem State.ends_plain {A : Prim → Prop} (s : State) (rule : State → Except Err State)
    (h : ∀ t, rule s.accept = .ok t → State.Does A s.accept t) :
    s.accept.Ends A Prim.Draw (s.command rule) := by
  obtain ⟨u, e, hu, ht⟩ := State.ends_command s rule h
  exact .inl ⟨u, e, hu, ht ▸ .refl _⟩

theorem State.ends_codec {A : Prim → Prop} (s : State) (need : Nat) (rule : State → Except Err State)
    (h : ∀ t, rule s.accept = .ok t → State.Does A s.accept t) :
    s.accept.Ends A Prim.Draw ((s.command rule).spoilWork need) := by
  obtain ⟨u, e, hu, ht⟩ := State.ends_command s rule h
  exact .inl ⟨u, e, hu, ht ▸ .one (.spoilWork need) _ trivial⟩

theorem State.does_query (cap : Nat) (s : State) (ok : Bool) (v : Nat) (t : State)
    (h : (do check ok .illegalOperand; return s.setResult v : Except Err State) = .ok t) :
    State.Does (Prim.Memory cap) s t := by
  rw [check_bind] at h
  cases ok
  · cases h
  · cases h; exact .one (.result v) s trivial

theorem State.does_xorSlice (cap : Nat) (s t : State) (h : s.xorSlice = .ok t) :
    State.Does (Prim.Memory cap) s t := by
  unfold State.xorSlice at h
  cases hb : s.kernelBufs true true with
  | error e => rw [hb] at h; cases h
  | ok b => rw [hb] at h; cases h; exact .setBufBytes (fun _ _ => trivial) (fun _ _ => trivial) s _ _

theorem State.does_mul (cap : Nat) (f : GF) (s t : State) (h : State.mul f s = .ok t) :
    State.Does (Prim.Memory cap) s t := by
  unfold State.mul at h
  dsimp only at h
  cases hb : s.kernelBufs (logOk f (s.argNat 3)) (lenAligned f s.params.layout (s.argNat 2)) with
  | error e => rw [hb] at h; cases h
  | ok b => rw [hb] at h; cases h; exact .setBufRow cap s f _ _

theorem State.does_mulAdd (cap : Nat) (f : GF) (s t : State) (h : State.mulAdd f s = .ok t) :
    State.Does (Prim.Memory cap) s t := by
  unfold State.mulAdd at h
  dsimp only at h
  cases hb : s.kernelBufs (logOk f (s.argNat 3)) (lenAligned f s.params.layout (s.argNat 2)) with
  | error e => rw [hb] at h; cases h
  | ok b => rw [hb] at h; cases h; exact .setBufRow cap s f _ _

theorem State.does_radix2 (cap : Nat) (f : GF) (op : Row → Row → Nat → Row × Row) (s t : State)
    (h : State.radix2 f op s = .ok t) : State.Does (Prim.Memory cap) s t := by
  unfold State.radix2 at h
  dsimp only at h
  cases hb : s.butterflyBufs f 2 [s.argNat 3] with
  | error e => rw [hb] at h; cases h
  | ok bs =>
    rw [hb] at h
    match bs, h with
    | [b0, b1], h => cases h; exact (State.Does.setBufRow cap s f b0 _).trans (.setBufRow cap _ f b1 _)
    | [], h => cases h
    | [_], h => cases h
    | _ :: _ :: _ :: _, h => cases h

theorem State.does_radix4 (cap : Nat) (f : GF)
    (op : Row → Row → Row → Row → Nat → Nat → Nat → Row × Row × Row × Row) (s t : State)
    (h : State.radix4 f op s = .ok t) : State.Does (Prim.Memory cap) s t := by
  unfold State.radix4 at h
  dsimp only at h
  cases hb : s.butterflyBufs f 4 [s.argNat 3, s.argNat 4, s.argNat 5] with
  | error e => rw [hb] at h; cases h
  | ok bs =>
    rw [hb] at h
    match bs, h with
    | [b0, b1, b2, b3], h =>
      cases h
      exact (State.Does.setBufRow cap s f b0 _).trans ((State.Does.setBufRow cap _ f b1 _).trans
        ((State.Does.setBufRow cap _ f b2 _).trans (.setBufRow cap _ f b3 _)))
    | [], h => cases h
    | [_], h => cases h
    | [_, _], h => cases h
    | [_, _, _], h => cases h
    | _ :: _ :: _ :: _ :: _ :: _, h => cases h

theorem State.does_encodeRule (cap : Nat) (s t : State) (hcap : ∀ i, s.slenAt i ≤ cap)
    (h : s.encodeRule = .ok t) : State.Does (Prim.Memory cap) s t := by
  unfold State.encodeRule at h
  rw [State.encodeChecks_eq] at h
  cases hv : s.encodeVerdict with
  | some e => rw [hv] at h; cases h
  | none =>
    rw [hv] at h
    cases h
    refine .cons (.seq .writeResults) s _ trivial (.foldl _ _ (fun u p _ => .putShard cap u _ _ _ ?_) _)
    exact (Nat.mod_le _ _).trans (hcap 0)

theorem State.does_verifyRule (s t : State) (h : s.verifyRule = .ok t) :
    State.Does Prim.Verdict s t := by
  unfold State.verifyRule at h
  rw [State.verifyChecks_eq] at h
  cases hv : s.verifyVerdict with
  | some e => rw [hv] at h; cases h
  | none => rw [hv] at h; cases h; exact .cons (.seq .runFfts) s _ trivial (.one (.verify _) _ trivial)

theorem State.does_reconstructRule (cap : Nat) (dataOnly : Bool) (s t : State)
    (hcap : ∀ i, s.slenAt i ≤ cap) (h : State.reconstructRule dataOnly s = .ok t) :
    State.Does (Prim.Memory cap) s t := by
  unfold State.reconstructRule at h
  rw [State.reconstructChecks_eq] at h
  have hS : s.presentLen ≤ cap := by
    unfold State.presentLen
    split
    · exact hcap _
    · exact Nat.zero_le _
  cases hp : s.reconstructPlan dataOnly s.presentLen with
  | fails e => rw [hp] at h; cases h
  | noWork => rw [hp] at h; cases h; exact .refl _
  | recover S =>
    have hSS : S = s.presentLen := by
      unfold State.reconstructPlan at hp
      repeat' split at hp
      all_goals first | cases hp; rfl | cases hp
    rw [hp] at h
    cases h
    refine .cons (.seq .writeResults) s _ trivial (.foldl _ _ (fun u p _ => ?_) _)
    split
    · exact .putShard cap u _ _ _ ((Nat.mod_le _ _).trans (hSS ▸ hS))
    · exact .refl _

theorem State.does_splitRule (cap : Nat) (s t : State) (hcap : s.params.slotCap ≤ cap)
    (h : s.splitRule = .ok t) : State.Does (Prim.Memory cap) s t := by
  unfold State.splitRule at h
  simp only [check_bind] at h
  split at h
  · split at h
    · split at h
      · rename_i hc
        cases h
        have hp : perShard s.dlen.toNat s.k ≤ cap := (of_decide_eq_true hc).trans hcap
        refine .cons (.seq .writeResults) s _ trivial (State.Does.trans ?_ (.one (.result _) _ trivial))
        refine State.Does.trans (.foldl _ _ (fun u p _ => .putShard cap u _ _ _ ?_) _)
          (.foldl _ _ (fun u p _ => .one (.slen _ 0) u ?_) _)
        · exact (Nat.mod_le _ _).trans hp
        · exact Nat.zero_le _
      · cases h
    · cases h
  · cases h

/-! Commands with ports, up to their first port operation. -/

theorem Prim.draw_entry (p : Prim) (h : p.Draw) : p.Entry := by
  cases p <;> first | exact trivial | cases h

theorem Prim.draw_port (p : Prim) (h : p.Draw) : p.Port := by
  cases p <;> first | exact trivial | cases h

theorem Prim.port_portEnd (p : Prim) (h : p.Port) : p.PortEnd := by
  cases p <;> first | exact trivial | cases h

theorem Prim.entry_portEnd (p : Prim) (h : p.Entry) : p.PortEnd := by
  cases p <;> first | exact trivial | cases h

theorem State.does_ordered {α : Type} (s : State) (l : List α) : State.Does Prim.Draw s (s.ordered l).2 := by
  unfold State.ordered
  split
  · exact .one (.draw l.length) s trivial
  · exact .refl s

/-- A flow that `answerOf` gives: an error at once, or the flow. -/
theorem Flow.From.answerOf {A W : Prim → Prop} {s : State} {f : Flow} (o : Option Err)
    (h : f.From A W s) : (Flow.ofChecks s (answerOf o f)).From A W s := by
  cases o with
  | none => exact h
  | some e => exact State.Does.refl s

theorem Flow.From.waitOn {A W : Prim → Prop} (s : State) (j : Job) : (Flow.wait (s.waitOn j)).From A W s :=
  ⟨s, j, .refl s, rfl⟩

theorem State.startBlock_entry (s : State) (kind : BlockKind) :
    (s.startBlock kind 0).From Prim.Entry Prim.Draw s := by
  refine .after Prim.draw_entry (s.does_ordered (s.readers kind)) ?_
  unfold State.startBlock
  dsimp only
  split
  · exact State.Does.refl _
  · exact .waitOn _ _

theorem State.streamReconstructRule_entry (s : State) (dataOnly : Bool) :
    (Flow.ofChecks s (State.streamReconstructRule dataOnly s)).From Prim.Entry Prim.Draw s := by
  classical
  rw [State.streamReconstructRule_eq]
  split
  · exact State.Does.refl s
  · split
    · exact State.Does.one (.result 0) s trivial
    · exact .answerOf _ (s.startBlock_entry _)

theorem State.streamJoinNext_from {A : Prim → Prop} {W : Prim → Prop} (hA : ∀ v, A (.result v)) (s : State)
    (j rem total : Nat) : (s.streamJoinNext j rem total).From A W s := by
  unfold State.streamJoinNext
  split
  · exact State.Does.one (.result total) s (hA total)
  · split
    · exact .waitOn _ _
    · exact State.Does.refl s

theorem State.joinNext_from {A : Prim → Prop} {W : Prim → Prop} (hA : ∀ v, A (.result v)) (s : State)
    (j rem total : Nat) : (s.joinNext j rem total).From A W s := by
  unfold State.joinNext
  split
  · exact State.Does.one (.result total) s (hA total)
  · exact .waitOn _ _

/-! Answered port operations. -/

theorem State.does_portRead (s : State) (r : Reply) (i want : Nat) :
    State.Does Prim.Port s (s.portRead r i want).2 := by
  cases r with
  | served => exact .one (.inPort i _) s trivial
  | failed c n => exact .one (.inPort i _) s trivial

theorem State.does_portWrite (s : State) (r : Reply) (j : Nat) (bytes : List Byte) :
    State.Does Prim.Port s (s.portWrite r j bytes).2 := by
  cases r with
  | served => exact .one (.outPort j _) s trivial
  | failed c n => exact .one (.outPort j _) s trivial

theorem State.startBlock_from (s : State) (kind : BlockKind) (blocks : Nat) :
    (s.startBlock kind blocks).From Prim.PortEnd Prim.Port s := by
  refine .after Prim.port_portEnd ((s.does_ordered (s.readers kind)).mono Prim.draw_port) ?_
  unfold State.startBlock
  dsimp only
  split
  · unfold State.endOfStream
    split
    · exact State.Does.refl _
    · cases kind with
      | encode => exact State.Does.one (.result _) _ trivial
      | verify => exact State.Does.one (.verify _) _ trivial
      | reconstruct d => exact State.Does.one (.result _) _ trivial
  · exact .waitOn _ _

theorem State.endOfStream_from (s : State) (kind : BlockKind) (blocks : Nat) :
    (s.endOfStream kind blocks).From Prim.PortEnd Prim.Port s := by
  unfold State.endOfStream
  split
  · exact State.Does.refl _
  · cases kind with
    | encode => exact State.Does.one (.result _) _ trivial
    | verify => exact State.Does.one (.verify _) _ trivial
    | reconstruct d => exact State.Does.one (.result _) _ trivial

theorem State.startWrites_from (s : State) (kind : BlockKind) (blocks : Nat) (writes : List (Nat × List Byte)) :
    (s.startWrites kind blocks writes).From Prim.PortEnd Prim.Port s := by
  refine .after Prim.port_portEnd ((s.does_ordered writes).mono Prim.draw_port) ?_
  unfold State.startWrites
  dsimp only
  split
  · exact State.startBlock_from _ _ _
  · exact .waitOn _ _

theorem State.settleBlock_from (kind : BlockKind) (blocks : Nat) (lens : List (Nat × Nat)) (s : State) :
    (State.settleBlock kind blocks lens s).From Prim.PortEnd Prim.Port s := by
  have hd : State.Does Prim.Port s (s.settleSize lens).2 := by
    unfold State.settleSize
    split
    · exact .one (.draw 1) s trivial
    · exact .refl s
  refine .after Prim.port_portEnd hd ?_
  unfold State.settleBlock
  dsimp only
  split
  · exact State.endOfStream_from _ _ _
  · have hpad : ∀ u size, State.Does Prim.Port u (State.padBlock u size lens) := fun u size =>
      State.Does.foldl _ lens (fun v _ _ => .one (.stgAt _ _) v trivial) u
    refine .after Prim.port_portEnd (hpad (s.settleSize lens).2 (s.settleSize lens).1) ?_
    unfold State.runBlock
    cases kind with
    | encode => exact State.startWrites_from _ _ _ _
    | reconstruct d => exact State.startWrites_from _ _ _ _
    | verify =>
      dsimp only
      split
      · exact State.startBlock_from _ _ _
      · exact State.Does.one (.verify _) _ trivial

theorem State.afterBatch_from (s : State) (raise : Nat → Word → Err) (fails : List (Nat × Word))
    (next : State → Flow) (h : ∀ t, (next t).From Prim.PortEnd Prim.Port t) :
    (s.afterBatch raise fails next).From Prim.PortEnd Prim.Port s := by
  cases fails with
  | nil => exact h s
  | cons f l => exact State.Does.one (.draw 1) s trivial

theorem State.readStep_from (s : State) (r : Reply) (kind : BlockKind) (blocks : Nat) (todo : List Nat)
    (lens : List (Nat × Nat)) (fails : List (Nat × Word)) :
    (s.readStep r kind blocks todo lens fails).From Prim.PortEnd Prim.Port s := by
  cases todo with
  | nil => exact State.afterBatch_from _ _ _ _ (State.settleBlock_from _ _ _)
  | cons i rest =>
    have hu := s.does_portRead r i s.blockSize
    unfold State.readStep
    rcases hp : s.portRead r i s.blockSize with ⟨answer, u⟩
    rw [hp] at hu
    refine .after Prim.port_portEnd hu ?_
    simp only [hp]
    cases answer with
    | ok bytes =>
      refine .after Prim.port_portEnd (.one (.stg i bytes) u trivial) ?_
      dsimp only
      split
      · exact State.afterBatch_from _ _ _ _ (State.settleBlock_from _ _ _)
      · exact .waitOn _ _
    | error c =>
      dsimp only
      cases u.noteFail .streamReadError i c fails with
      | error e => exact State.Does.refl u
      | ok l =>
        dsimp only
        split
        · exact State.afterBatch_from _ _ _ _ (State.settleBlock_from _ _ _)
        · exact .waitOn _ _

theorem State.writeStep_from (s : State) (r : Reply) (todo : List (Nat × List Byte)) (fails : List (Nat × Word))
    (again : List (Nat × List Byte) → List (Nat × Word) → Job) (next : State → Flow)
    (h : ∀ t, (next t).From Prim.PortEnd Prim.Port t) :
    (s.writeStep r todo fails again next).From Prim.PortEnd Prim.Port s := by
  cases todo with
  | nil => exact State.afterBatch_from _ _ _ _ h
  | cons e rest =>
    obtain ⟨j, bytes⟩ := e
    have hu := s.does_portWrite r j bytes
    unfold State.writeStep
    rcases hp : s.portWrite r j bytes with ⟨answer, u⟩
    rw [hp] at hu
    refine .after Prim.port_portEnd hu ?_
    simp only [hp]
    split
    · exact State.Does.refl u
    · split
      · exact State.afterBatch_from _ _ _ _ h
      · exact .waitOn _ _

theorem State.splitEnd_from (per : Nat) (s : State) :
    (State.splitEnd per s).From Prim.PortEnd Prim.Port s := State.Does.one (.result per) s trivial

theorem State.splitRows_from (s : State) (size : Nat) (bytes : List Byte) :
    (s.splitRows size bytes).From Prim.PortEnd Prim.Port s := by
  have hf : ∀ f : Nat → List Byte, State.Does Prim.Port s
      ((List.range s.k).foldl (fun t j => t.setStgBytes j (f j)) s) := fun f =>
    State.Does.foldl _ _ (fun v j _ => .one (.stg j _) v trivial) s
  unfold State.splitRows
  dsimp only
  split
  · exact (((hf _).trans ((State.does_ordered _ _).mono Prim.draw_port)).mono Prim.port_portEnd).trans
      (.one (.result _) _ trivial)
  · exact .after Prim.port_portEnd ((hf _).trans ((State.does_ordered _ _).mono Prim.draw_port)) (.waitOn _ _)

/-- What an answer of the port environment can do. -/
theorem State.answer_ends (s t : State) (r : Reply) (h : s.answer r = .next t) :
    s.Ends Prim.PortEnd Prim.Port t := by
  unfold State.answer at h
  have hres : ∀ v, Prim.PortEnd (.result v) := fun _ => trivial
  cases hj : s.job with
  | none => rw [hj] at h; cases h
  | some j =>
    rw [hj] at h
    cases j with
    | readBlock kind blocks todo lens fails =>
      cases h
      exact (s.readStep_from r kind blocks todo lens fails).settleWith _ (State.does_endBlockCommand _)
    | writeBlock kind blocks todo fails =>
      cases h
      exact (s.writeStep_from r todo fails _ _ fun t => State.startBlock_from t _ _).settleWith _
        (State.does_endBlockCommand _)
    | splitRead size =>
      cases h
      refine Flow.From.settleWith ?_ _ State.does_spoilStg
      have hu := s.does_portRead r 0 size
      unfold State.splitReadReply
      rcases hp : s.portRead r 0 size with ⟨answer, u⟩
      rw [hp] at hu
      refine .after Prim.port_portEnd hu ?_
      dsimp only
      cases answer with
      | error c => exact State.Does.refl u
      | ok bytes =>
        dsimp only
        split
        · exact State.Does.refl u
        · exact u.splitRows_from size bytes
    | splitWrite per todo fails =>
      cases h
      exact (s.writeStep_from r todo fails _ _ fun t => State.splitEnd_from per t).settleWith _
        State.does_spoilStg
    | joinWrite j rem outSize =>
      cases h
      refine Flow.From.settle ?_
      have hu := s.does_portWrite r 0 (s.joinBytes j rem)
      unfold State.joinReply
      rcases hp : s.portWrite r 0 (s.joinBytes j rem) with ⟨answer, u⟩
      rw [hp] at hu
      refine .after Prim.port_portEnd hu ?_
      dsimp only
      cases answer with
      | error c => exact State.Does.refl u
      | ok x => exact State.joinNext_from hres u _ _ _
    | streamJoinRead j rem total =>
      cases h
      refine Flow.From.settleWith ?_ _ State.does_spoilStg
      have hu := s.does_portRead r j (min s.blockSize rem)
      unfold State.streamJoinReadReply
      rcases hp : s.portRead r j (min s.blockSize rem) with ⟨answer, u⟩
      rw [hp] at hu
      refine .after Prim.port_portEnd hu ?_
      dsimp only
      cases answer with
      | error c => exact State.Does.refl u
      | ok bytes =>
        dsimp only
        split
        · exact State.streamJoinNext_from hres u _ _ _
        · exact .waitOn _ _
    | streamJoinWrite j rem total bytes =>
      cases h
      refine Flow.From.settleWith ?_ _ State.does_spoilStg
      have hu := s.does_portWrite r 0 bytes
      unfold State.streamJoinWriteReply
      rcases hp : s.portWrite r 0 bytes with ⟨answer, u⟩
      rw [hp] at hu
      refine .after Prim.port_portEnd hu ?_
      dsimp only
      cases answer with
      | error c => exact State.Does.refl u
      | ok x => exact State.streamJoinNext_from hres u _ _ _

/-! Every command but CONFIG. -/

/-- The writes of each command on an accepted state, lengths at most `cap`. -/
def Prim.Of (cap : Nat) : Instr → Prim → Prop
  | .verify => Prim.Verdict
  | .join | .streamEncode | .streamVerify | .streamReconstruct | .streamReconstructData | .streamSplit
  | .streamJoin => Prim.Entry
  | _ => Prim.Memory cap

/-- What a command can do: acceptance, then its writes and its completion, or a wait on its first port operation.
`cap` bounds the shard lengths it finds. -/
theorem exec_ends (cap : Nat) (i : Instr) (s t : State) (hi : i ≠ .config) (hs : ∀ j, s.slenAt j ≤ cap)
    (hc : s.params.slotCap ≤ cap) (h : exec i s = .next t) : s.accept.Ends (Prim.Of cap i) Prim.Draw t := by
  have hres : ∀ v, Prim.Entry (.result v) := fun _ => trivial
  cases i
  case config => exact absurd rfl hi
  all_goals cases h
  case gfLog8 => exact State.ends_plain s _ fun t ht => State.does_query cap _ _ _ t ht
  case gfLog16 => exact State.ends_plain s _ fun t ht => State.does_query cap _ _ _ t ht
  case gfExp8 => exact State.ends_plain s _ fun t ht => State.does_query cap _ _ _ t ht
  case gfExp16 => exact State.ends_plain s _ fun t ht => State.does_query cap _ _ _ t ht
  case gfMul8 => exact State.ends_plain s _ fun t ht => State.does_query cap _ _ _ t ht
  case gfMul16 => exact State.ends_plain s _ fun t ht => State.does_query cap _ _ _ t ht
  case gfMulLog8 => exact State.ends_plain s _ fun t ht => State.does_query cap _ _ _ t ht
  case gfMulLog16 => exact State.ends_plain s _ fun t ht => State.does_query cap _ _ _ t ht
  case skewRead8 => exact State.ends_plain s _ fun t ht => State.does_query cap _ _ _ t ht
  case skewRead16 => exact State.ends_plain s _ fun t ht => State.does_query cap _ _ _ t ht
  case xorSlice => exact State.ends_plain s _ fun t ht => State.does_xorSlice cap _ t ht
  case mul8 => exact State.ends_plain s _ fun t ht => State.does_mul cap _ _ t ht
  case mul16 => exact State.ends_plain s _ fun t ht => State.does_mul cap _ _ t ht
  case mulAdd8 => exact State.ends_plain s _ fun t ht => State.does_mulAdd cap _ _ t ht
  case mulAdd16 => exact State.ends_plain s _ fun t ht => State.does_mulAdd cap _ _ t ht
  case fftDit2x8 => exact State.ends_plain s _ fun t ht => State.does_radix2 cap _ _ _ t ht
  case fftDit2x16 => exact State.ends_plain s _ fun t ht => State.does_radix2 cap _ _ _ t ht
  case ifftDit2x8 => exact State.ends_plain s _ fun t ht => State.does_radix2 cap _ _ _ t ht
  case ifftDit2x16 => exact State.ends_plain s _ fun t ht => State.does_radix2 cap _ _ _ t ht
  case fftDit4x8 => exact State.ends_plain s _ fun t ht => State.does_radix4 cap _ _ _ t ht
  case fftDit4x16 => exact State.ends_plain s _ fun t ht => State.does_radix4 cap _ _ _ t ht
  case ifftDit4x8 => exact State.ends_plain s _ fun t ht => State.does_radix4 cap _ _ _ t ht
  case ifftDit4x16 => exact State.ends_plain s _ fun t ht => State.does_radix4 cap _ _ _ t ht
  case encode => exact State.ends_codec s _ _ fun t ht => State.does_encodeRule cap _ t hs ht
  case verify => exact State.ends_codec s _ _ fun t ht => State.does_verifyRule _ t ht
  case reconstruct => exact State.ends_codec s _ _ fun t ht => State.does_reconstructRule cap _ _ t hs ht
  case reconstructData => exact State.ends_codec s _ _ fun t ht => State.does_reconstructRule cap _ _ t hs ht
  case split => exact State.ends_plain s _ fun t ht => State.does_splitRule cap _ t hc ht
  case join =>
    refine Flow.From.settle ?_
    rw [State.joinRule_eq]
    exact .answerOf _ (State.joinNext_from hres _ _ _ _)
  case streamEncode =>
    refine Flow.From.settleWith ?_ _ (State.does_endBlockCommand _)
    rw [State.streamEncodeRule_eq]
    exact .answerOf _ (State.startBlock_entry _ _)
  case streamVerify =>
    refine Flow.From.settleWith ?_ _ (State.does_endBlockCommand _)
    rw [State.streamVerifyRule_eq]
    exact .answerOf _ (State.startBlock_entry _ _)
  case streamReconstruct =>
    exact (State.streamReconstructRule_entry _ _).settleWith _ (State.does_endBlockCommand _)
  case streamReconstructData =>
    exact (State.streamReconstructRule_entry _ _).settleWith _ (State.does_endBlockCommand _)
  case streamSplit =>
    refine Flow.From.settleWith ?_ _ State.does_spoilStg
    rw [State.streamSplitRule_eq]
    exact .answerOf _ (.waitOn _ _)
  case streamJoin =>
    refine Flow.From.settleWith ?_ _ State.does_spoilStg
    rw [State.streamJoinRule_eq]
    exact .answerOf _ (State.streamJoinNext_from hres _ _ _ _)

/-! Every step. -/

/-- What a step can do, so that a property which each of these keeps is kept by every step: take an input, answer a
read, set OVR, store a permitted host write, run a command, serve a port operation, reset, or change a port. -/
theorem step_keeps (P : State → Prop)
   (hin : ∀ s l, P s → P { s with inputs := l })
   (hrd : ∀ s v, P s → P { s with readValue := v })
   (hovr : ∀ s : State, P s → P s.setOvr)
   (hslots : ∀ (s : State) o bs, P s → P { s with slots := s.slots.writeBytes o bs })
   (hdbuf : ∀ (s : State) o bs, P s → P { s with dbuf := s.dbuf.writeBytes o bs })
   (hslen : ∀ (s : State) i v, v.toNat ≤ s.params.slotCap → P s → P (s.setSlen i v))
   (hctrl : ∀ (s : State) c, P s → P { s with ctrl := c })
   (hst : ∀ (s : State) v, P s → P { s with status := s.status.writeOneToClear v })
   (hk : ∀ (s : State) v, P s → P { s with cfg := { s.cfg with k := v } })
   (hm : ∀ (s : State) v, P s → P { s with cfg := { s.cfg with m := v } })
   (hb : ∀ (s : State) v, P s → P { s with cfg := { s.cfg with block := v } })
   (hc : ∀ (s : State) v, P s → P { s with cfg := { s.cfg with conc := concOfWrite v } })
   (hd : ∀ (s : State) v, v.toNat ≤ s.params.dbufCap → P s → P { s with dlen := v })
   (ha : ∀ (s : State) i v, P s → P (s.setArg i v))
   (hexec : ∀ i (s t : State), s.busy = false → P s → exec i s = .next t → P t)
   (hill : ∀ (s : State), s.busy = false → P s → P (s.command fun _ => .error .illegalCommand))
   (hans : ∀ (s t : State) r, P s → s.answer r = .next t → P t)
   (hreset : ∀ s, P s → P s.assertReset)
   (hsi : ∀ (s : State) i p, P s → P (s.setInPort i p))
   (hso : ∀ (s : State) i p, P s → P (s.setOutPort i p)) :
   ∀ s t, P s → step s = .next t → P t := by
  intro s t hs h
  have hun : ∀ u v : State, P u → P v → P (u.unlessBusy v) := by
    intro u v hu hv; unfold State.unlessBusy; split
    · exact hovr u hu
    · exact hv
  have hsr : ∀ (u : State) v, P u → P (u.storageRead v) := by
    intro u v hu; unfold State.storageRead; split
    · exact hrd _ _ (hovr u hu)
    · exact hrd _ _ hu
  cases hi : s.inputs with
  | nil => rw [step_nil s hi] at h; cases h; exact hs
  | cons x rest =>
    rw [step_cons s x rest hi] at h
    have hu := hin s rest hs
    generalize ({ s with inputs := rest } : State) = u at h hu
    cases x with
    | reply r => exact hans u t r hu h
    | reset => cases h; exact hreset u hu
    | setIn i p =>
      simp only [State.handle, State.changePort] at h
      repeat' split at h
      all_goals first | (cases h; exact hsi u i p hu) | cases h
    | setOut i p =>
      simp only [State.handle, State.changePort] at h
      repeat' split at h
      all_goals first | (cases h; exact hso u i p hu) | cases h
    | access a =>
      cases a with
      | read addr width =>
        simp only [State.handle, State.serve, State.hostRead] at h
        repeat' split at h
        all_goals first | cases h; done | (cases h; first | exact hsr _ _ hu | exact hrd _ _ hu)
      | write addr width v =>
        simp only [State.handle, State.serve, State.hostWrite] at h
        split at h
        · cases h
        · split at h
          · unfold State.writeReg at h
            split at h
            all_goals first
              | (cases h; exact hun _ _ hu (hctrl _ _ hu))
              | (cases h; exact hst _ _ hu)
              | (cases h; exact hun _ _ hu (hk _ _ hu))
              | (cases h; exact hun _ _ hu (hm _ _ hu))
              | (cases h; exact hun _ _ hu (hb _ _ hu))
              | (cases h; exact hun _ _ hu (hc _ _ hu))
              | (cases h; exact hun _ _ hu (ha _ _ _ hu))
              | (cases h; refine hun _ _ hu ?_; split <;> first | exact hd _ _ ‹_› hu | exact hu)
              | (cases h; exact hu)
              | skip
            split at h
            · cases h; exact hovr _ hu
            · rename_i hbusy
              simp only [Bool.not_eq_true] at hbusy
              unfold State.issue at h
              split at h
              · exact hexec _ _ _ hbusy hu h
              · cases h; exact hill _ hbusy hu
          · cases h
        · split at h
          · cases h; unfold State.writeSlen; refine hun _ _ hu ?_; split <;> first | exact hslen _ _ _ ‹_› hu | exact hu
          · cases h
        · repeat' split at h
          all_goals first | cases h; done | (cases h; exact hun _ _ hu (hslots _ _ _ hu))
        · repeat' split at h
          all_goals first | cases h; done | (cases h; exact hun _ _ hu (hdbuf _ _ _ hu))

end Sys2Proof.Machine
end

