-- ==== Sys2Proof/Laws/PerInstr.lean ====
section
/-! SUPPORT. For every command: its word is well formed, sets no bit above W, and decodes to the command
(30_encoding.md R120 to R124). One lemma per constructor of `Instr`. -/

namespace Sys2Proof.Laws

/-- The word of `i` passes the checks of the encoding and the decoder reads `i` from it, as a word and from its
table row. -/
def RoundTrip.Statement (i : Instr) : Prop :=
  i.wellFormed = true ∧ (encode i).extractLsb' 9 23 = 0 ∧ decode (encode i) = .ok i
    ∧ decodeTableWord 32 (encode i).toNat = some i

theorem RoundTrip.config : RoundTrip.Statement .config := by
  unfold RoundTrip.Statement
  decide

theorem RoundTrip.gfLog8 : RoundTrip.Statement .gfLog8 := by
  unfold RoundTrip.Statement
  decide

theorem RoundTrip.gfLog16 : RoundTrip.Statement .gfLog16 := by
  unfold RoundTrip.Statement
  decide

theorem RoundTrip.gfExp8 : RoundTrip.Statement .gfExp8 := by
  unfold RoundTrip.Statement
  decide

theorem RoundTrip.gfExp16 : RoundTrip.Statement .gfExp16 := by
  unfold RoundTrip.Statement
  decide

theorem RoundTrip.gfMul8 : RoundTrip.Statement .gfMul8 := by
  unfold RoundTrip.Statement
  decide

theorem RoundTrip.gfMul16 : RoundTrip.Statement .gfMul16 := by
  unfold RoundTrip.Statement
  decide

theorem RoundTrip.gfMulLog8 : RoundTrip.Statement .gfMulLog8 := by
  unfold RoundTrip.Statement
  decide

theorem RoundTrip.gfMulLog16 : RoundTrip.Statement .gfMulLog16 := by
  unfold RoundTrip.Statement
  decide

theorem RoundTrip.skewRead8 : RoundTrip.Statement .skewRead8 := by
  unfold RoundTrip.Statement
  decide

theorem RoundTrip.skewRead16 : RoundTrip.Statement .skewRead16 := by
  unfold RoundTrip.Statement
  decide

theorem RoundTrip.xorSlice : RoundTrip.Statement .xorSlice := by
  unfold RoundTrip.Statement
  decide

theorem RoundTrip.mul8 : RoundTrip.Statement .mul8 := by
  unfold RoundTrip.Statement
  decide

theorem RoundTrip.mul16 : RoundTrip.Statement .mul16 := by
  unfold RoundTrip.Statement
  decide

theorem RoundTrip.mulAdd8 : RoundTrip.Statement .mulAdd8 := by
  unfold RoundTrip.Statement
  decide

theorem RoundTrip.mulAdd16 : RoundTrip.Statement .mulAdd16 := by
  unfold RoundTrip.Statement
  decide

theorem RoundTrip.fftDit2x8 : RoundTrip.Statement .fftDit2x8 := by
  unfold RoundTrip.Statement
  decide

theorem RoundTrip.fftDit2x16 : RoundTrip.Statement .fftDit2x16 := by
  unfold RoundTrip.Statement
  decide

theorem RoundTrip.ifftDit2x8 : RoundTrip.Statement .ifftDit2x8 := by
  unfold RoundTrip.Statement
  decide

theorem RoundTrip.ifftDit2x16 : RoundTrip.Statement .ifftDit2x16 := by
  unfold RoundTrip.Statement
  decide

theorem RoundTrip.fftDit4x8 : RoundTrip.Statement .fftDit4x8 := by
  unfold RoundTrip.Statement
  decide

theorem RoundTrip.fftDit4x16 : RoundTrip.Statement .fftDit4x16 := by
  unfold RoundTrip.Statement
  decide

theorem RoundTrip.ifftDit4x8 : RoundTrip.Statement .ifftDit4x8 := by
  unfold RoundTrip.Statement
  decide

theorem RoundTrip.ifftDit4x16 : RoundTrip.Statement .ifftDit4x16 := by
  unfold RoundTrip.Statement
  decide

theorem RoundTrip.encode : RoundTrip.Statement .encode := by
  unfold RoundTrip.Statement
  decide

theorem RoundTrip.verify : RoundTrip.Statement .verify := by
  unfold RoundTrip.Statement
  decide

theorem RoundTrip.reconstruct : RoundTrip.Statement .reconstruct := by
  unfold RoundTrip.Statement
  decide

theorem RoundTrip.reconstructData : RoundTrip.Statement .reconstructData := by
  unfold RoundTrip.Statement
  decide

theorem RoundTrip.split : RoundTrip.Statement .split := by
  unfold RoundTrip.Statement
  decide

theorem RoundTrip.join : RoundTrip.Statement .join := by
  unfold RoundTrip.Statement
  decide

theorem RoundTrip.streamEncode : RoundTrip.Statement .streamEncode := by
  unfold RoundTrip.Statement
  decide

theorem RoundTrip.streamVerify : RoundTrip.Statement .streamVerify := by
  unfold RoundTrip.Statement
  decide

theorem RoundTrip.streamReconstruct : RoundTrip.Statement .streamReconstruct := by
  unfold RoundTrip.Statement
  decide

theorem RoundTrip.streamReconstructData : RoundTrip.Statement .streamReconstructData := by
  unfold RoundTrip.Statement
  decide

theorem RoundTrip.streamSplit : RoundTrip.Statement .streamSplit := by
  unfold RoundTrip.Statement
  decide

theorem RoundTrip.streamJoin : RoundTrip.Statement .streamJoin := by
  unfold RoundTrip.Statement
  decide

end Sys2Proof.Laws
end

