-- ==== Sys2Proof/Laws/Walsh.lean ====
section
/-! SUPPORT. The Walsh-Hadamard transform and the error locator: modulo MOD, FWHT is the transform of Hadamard signs
(41_field_tables.md R162), and ERR_LOC leaves at a position the sum of the logs of its differences to the erased
positions (44_codec.md R266). -/

namespace Sys2Proof

/-- The Hadamard sign of a and b: -1 to the number of bits that both have. -/
def sign (R : Type) [CommRing R] (w a b : Nat) : R :=
  ∏ i ∈ Finset.range w, if a.testBit i && b.testBit i then -1 else 1

section Sign

variable (R : Type) [CommRing R] (w : Nat)

theorem sign_swap (a b : Nat) : sign R w a b = sign R w b a := by
  simp only [sign, Bool.and_comm]

theorem sign_xor (a b c : Nat) : sign R w a (b ^^^ c) = sign R w a b * sign R w a c := by
  unfold sign
  rw [← Finset.prod_mul_distrib]
  refine Finset.prod_congr rfl fun i _ => ?_
  rw [Nat.testBit_xor]
  cases a.testBit i <;> cases b.testBit i <;> cases c.testBit i <;> simp

theorem sign_add (i k l r h : Nat) (hr : r < 2 ^ i) (hh : h < 2 ^ i) :
    sign R w (2 ^ i * k + r) (2 ^ i * l + h) = sign R w (2 ^ i * k) (2 ^ i * l) * sign R w r h := by
  unfold sign
  rw [← Finset.prod_mul_distrib]
  refine Finset.prod_congr rfl fun b _ => ?_
  have k0 := Nat.testBit_two_pow_mul_add k (Nat.two_pow_pos i) b
  have l0 := Nat.testBit_two_pow_mul_add l (Nat.two_pow_pos i) b
  rw [Nat.add_zero] at k0 l0
  rw [Nat.testBit_two_pow_mul_add k hr b, Nat.testBit_two_pow_mul_add l hh b, k0, l0]
  by_cases hb : b < i
  · simp [hb]
  · have t : ∀ x, x < 2 ^ i → x.testBit b = false := fun x hx =>
      Nat.testBit_lt_two_pow (lt_of_lt_of_le hx (Nat.pow_le_pow_right (by decide) (by omega)))
    simp [hb, t r hr]

theorem sign_zero_left (b : Nat) : sign R w 0 b = 1 := by simp [sign]

theorem sign_zero_right (a : Nat) : sign R w a 0 = 1 := by simp [sign]

/-- The sign of two single bits. -/
def sign2 (a b : Nat) : R := if a = 1 ∧ b = 1 then -1 else 1

theorem sign_bit (i a b : Nat) (hi : i < w) (ha : a < 2) (hb : b < 2) :
    sign R w (2 ^ i * a) (2 ^ i * b) = sign2 R a b := by
  have ha' : a = 0 ∨ a = 1 := by omega
  have hb' : b = 0 ∨ b = 1 := by omega
  rcases ha' with rfl | rfl
  · rw [Nat.mul_zero, sign_zero_left]; simp [sign2]
  rcases hb' with rfl | rfl
  · rw [Nat.mul_zero, sign_zero_right]; simp [sign2]
  rw [Nat.mul_one]
  unfold sign
  rw [Finset.prod_eq_single i]
  · simp [sign2]
  · intro b _ hb
    have : i ≠ b := fun h => hb h.symm
    simp [this]
  · intro h
    exact absurd (Finset.mem_range.2 hi) h

/-- The sign of two pairs of bits. -/
theorem sign_four (i k l : Nat) (hi : i + 1 < w) (hk : k < 4) (hl : l < 4) :
    sign R w (2 ^ i * k) (2 ^ i * l) = sign2 R (k / 2) (l / 2) * sign2 R (k % 2) (l % 2) := by
  have hp := Nat.two_pow_pos i
  have e : ∀ x, 2 ^ i * x = 2 ^ (i + 1) * (x / 2) + 2 ^ i * (x % 2) := fun x => by
    rw [Nat.pow_succ, Nat.mul_assoc, ← Nat.mul_add]
    congr 1
    omega
  have hlt : ∀ x, 2 ^ i * (x % 2) < 2 ^ (i + 1) := fun x => by
    rw [Nat.pow_succ]
    exact Nat.mul_lt_mul_of_pos_left (Nat.mod_lt _ (by decide)) hp
  rw [e k, e l, sign_add R w (i + 1) _ _ _ _ (hlt k) (hlt l), sign_bit R w _ _ _ hi (by omega) (by omega),
    sign_bit R w _ _ _ (by omega) (Nat.mod_lt _ (by decide)) (Nat.mod_lt _ (by decide))]

/-- The signs of a row sum to nothing, but for the row of 0. -/
theorem sum_sign (n a : Nat) (hn : n ≤ w) (ha : a < 2 ^ n) :
    ∑ j ∈ Finset.range (2 ^ n), sign R w j a = if a = 0 then 2 ^ n else 0 := by
  induction n generalizing a with
  | zero =>
    obtain rfl : a = 0 := by omega
    simp [sign_zero_right]
  | succ n ih =>
    have hp := Nat.two_pow_pos n
    obtain ⟨b, h, hb, hh, rfl⟩ : ∃ b h, b < 2 ∧ h < 2 ^ n ∧ a = 2 ^ n * b + h :=
      ⟨a / 2 ^ n, a % 2 ^ n, by rw [Nat.div_lt_iff_lt_mul hp, Nat.mul_comm, ← Nat.pow_succ]; exact ha,
        Nat.mod_lt _ hp, (Nat.div_add_mod ..).symm⟩
    have h1 : ∀ j ∈ Finset.range (2 ^ n), sign R w (2 ^ n + j) (2 ^ n * b + h) = sign2 R 1 b * sign R w j h := by
      intro j hj
      have := sign_add R w n 1 b j h (Finset.mem_range.1 hj) hh
      rw [sign_bit R w n 1 b (by omega) (by decide) hb, Nat.mul_one] at this
      exact this
    have h0 : ∀ j ∈ Finset.range (2 ^ n), sign R w j (2 ^ n * b + h) = sign R w j h := by
      intro j hj
      have := sign_add R w n 0 b j h (Finset.mem_range.1 hj) hh
      rw [Nat.mul_zero, Nat.zero_add, sign_zero_left, one_mul] at this
      exact this
    rw [Nat.pow_succ, Nat.mul_two, Finset.sum_range_add, Finset.sum_congr rfl h1, Finset.sum_congr rfl h0,
      ← Finset.mul_sum, ih h (by omega) hh]
    have hb' : b = 0 ∨ b = 1 := by omega
    rcases hb' with rfl | rfl
    · rw [Nat.mul_zero, Nat.zero_add, show sign2 R 1 0 = 1 by simp [sign2]]
      split <;> ring
    · rw [if_neg (by omega : ¬ 2 ^ n * 1 + h = 0), show sign2 R 1 1 = -1 by simp [sign2]]
      ring

/-- The transform of v within p's group of 2^i positions. -/
def groupWalsh (v : Nat → R) (i p : Nat) : R :=
  ∑ h ∈ Finset.range (2 ^ i), sign R w (p % 2 ^ i) h * v (p / 2 ^ i * 2 ^ i + h)

theorem groupWalsh_zero (v : Nat → R) (p : Nat) : groupWalsh R w v 0 p = v p := by
  simp [groupWalsh, sign_zero_right]

/-- A group of 2^(i+2) positions, from four of 2^i. -/
theorem groupWalsh_four (v : Nat → R) (i g k r : Nat) (hi : i + 1 < w) (hk : k < 4) (hr : r < 2 ^ i) :
    groupWalsh R w v (i + 2) (g * (4 * 2 ^ i) + (k * 2 ^ i + r))
      = ∑ l ∈ Finset.range 4, sign2 R (k / 2) (l / 2) * sign2 R (k % 2) (l % 2)
          * groupWalsh R w v i (g * (4 * 2 ^ i) + (l * 2 ^ i + r)) := by
  have hp := Nat.two_pow_pos i
  have e4 : 2 ^ (i + 2) = 4 * 2 ^ i := by rw [Nat.pow_add]; ring
  have hq : k * 2 ^ i + r < 4 * 2 ^ i := by
    have : (k + 1) * 2 ^ i ≤ 4 * 2 ^ i := Nat.mul_le_mul_right _ hk
    rw [Nat.add_mul] at this
    omega
  unfold groupWalsh
  have m4 : (g * (4 * 2 ^ i) + (k * 2 ^ i + r)) % (4 * 2 ^ i) = k * 2 ^ i + r := by
    rw [Nat.mul_add_mod_self_right, Nat.mod_eq_of_lt hq]
  have d4 : (g * (4 * 2 ^ i) + (k * 2 ^ i + r)) / (4 * 2 ^ i) * (4 * 2 ^ i) = g * (4 * 2 ^ i) := by
    rw [Nat.add_comm, Nat.add_mul_div_right _ _ (by omega), Nat.div_eq_of_lt hq, Nat.zero_add]
  have mi : ∀ l, (g * (4 * 2 ^ i) + (l * 2 ^ i + r)) % 2 ^ i = r := fun l => by
    rw [show g * (4 * 2 ^ i) + (l * 2 ^ i + r) = (4 * g + l) * 2 ^ i + r by ring, Nat.mul_add_mod_self_right,
      Nat.mod_eq_of_lt hr]
  have di : ∀ l, (g * (4 * 2 ^ i) + (l * 2 ^ i + r)) / 2 ^ i * 2 ^ i = g * (4 * 2 ^ i) + l * 2 ^ i := fun l => by
    rw [show g * (4 * 2 ^ i) + (l * 2 ^ i + r) = r + (4 * g + l) * 2 ^ i by ring,
      Nat.add_mul_div_right _ _ hp, Nat.div_eq_of_lt hr]
    ring
  simp only [e4, m4, d4, mi, di]
  have key : ∀ l < 4, ∀ h ∈ Finset.range (2 ^ i), sign R w (k * 2 ^ i + r) (l * 2 ^ i + h)
      = sign2 R (k / 2) (l / 2) * sign2 R (k % 2) (l % 2) * sign R w r h := fun l hl h hh => by
    rw [Nat.mul_comm k, Nat.mul_comm l, sign_add R w i k l r h hr (Finset.mem_range.1 hh),
      sign_four R w i k l hi hk hl]
  have part : ∀ l < 4, ∑ h ∈ Finset.range (2 ^ i), sign R w (k * 2 ^ i + r) (l * 2 ^ i + h)
        * v (g * (4 * 2 ^ i) + (l * 2 ^ i + h))
      = sign2 R (k / 2) (l / 2) * sign2 R (k % 2) (l % 2)
        * ∑ h ∈ Finset.range (2 ^ i), sign R w r h * v (g * (4 * 2 ^ i) + l * 2 ^ i + h) := fun l hl => by
    rw [Finset.mul_sum]
    refine Finset.sum_congr rfl fun h hh => ?_
    rw [key l hl h hh, Nat.add_assoc]
    ring
  have p0 := part 0 (by decide)
  have p1 := part 1 (by decide)
  have p2 := part 2 (by decide)
  have p3 := part 3 (by decide)
  simp only [Nat.zero_mul, Nat.one_mul, Nat.zero_add] at p0 p1
  rw [show 4 * 2 ^ i = 2 ^ i + 2 ^ i + 2 ^ i + 2 ^ i by ring, Finset.sum_range_add, Finset.sum_range_add,
    Finset.sum_range_add, show 2 ^ i + 2 ^ i + 2 ^ i + 2 ^ i = 4 * 2 ^ i by ring,
    show 2 ^ i + 2 ^ i + 2 ^ i = 3 * 2 ^ i by ring, show 2 ^ i + 2 ^ i = 2 * 2 ^ i by ring, p0, p1, p2, p3]
  simp only [Finset.sum_range_succ, Finset.sum_range_zero, Nat.zero_mul, Nat.one_mul, Nat.add_zero]
  ring

end Sign

namespace GF

/-- The ring of log values, in which MOD is 0 and 2^w is 1. -/
abbrev Logs (f : GF) : Type := ZMod f.mod

theorem addmod_cast (f : GF) (a b : Nat) : ((f.addmod a b : Nat) : f.Logs) = a + b := by
  unfold GF.addmod
  split
  · push_cast; rfl
  · rw [Nat.cast_sub (by omega), ZMod.natCast_self]; push_cast; ring

theorem submod_cast (f : GF) (a b : Nat) (hb : b ≤ f.mod) : ((f.submod a b : Nat) : f.Logs) = a - b := by
  unfold GF.submod
  split
  · rw [Nat.cast_sub (by omega)]
  · rw [Nat.cast_sub (by omega), Nat.cast_add, ZMod.natCast_self]; ring

theorem order_cast (f : GF) : ((f.order : Nat) : f.Logs) = 1 := by
  rw [← f.mod_eq, Nat.cast_add, ZMod.natCast_self]; simp

/-- The log value at a position. -/
def logAt (f : GF) (V : Array Nat) (p : Nat) : f.Logs := ((V.getD p 0 : Nat) : f.Logs)

/-- One radix-4 step of FWHT, on log values. -/
theorem fwhtQuad_cast (f : GF) (b0 b1 b2 b3 : Nat) (h1 : b1 ≤ f.mod) (h2 : b2 ≤ f.mod) (h3 : b3 ≤ f.mod)
    (k : Nat) (hk : k < 4) :
    ((pick4 ((f.fwht2 (f.fwht2 b0 b1).1 (f.fwht2 b2 b3).1).1, (f.fwht2 (f.fwht2 b0 b1).2 (f.fwht2 b2 b3).2).1,
      (f.fwht2 (f.fwht2 b0 b1).1 (f.fwht2 b2 b3).1).2, (f.fwht2 (f.fwht2 b0 b1).2 (f.fwht2 b2 b3).2).2) k : Nat)
      : f.Logs)
      = sign2 f.Logs (k / 2) (0 / 2) * sign2 f.Logs (k % 2) (0 % 2) * b0
        + sign2 f.Logs (k / 2) (1 / 2) * sign2 f.Logs (k % 2) (1 % 2) * b1
        + sign2 f.Logs (k / 2) (2 / 2) * sign2 f.Logs (k % 2) (2 % 2) * b2
        + sign2 f.Logs (k / 2) (3 / 2) * sign2 f.Logs (k % 2) (3 % 2) * b3 := by
  have q2 := f.addmod_le _ _ h2 h3
  have q3 := f.submod_le _ b3 h2
  have hk' : k = 0 ∨ k = 1 ∨ k = 2 ∨ k = 3 := by omega
  rcases hk' with rfl | rfl | rfl | rfl
  · change ((f.addmod (f.addmod b0 b1) (f.addmod b2 b3) : Nat) : f.Logs) = _
    rw [addmod_cast, addmod_cast, addmod_cast]
    simp [sign2]; ring
  · change ((f.addmod (f.submod b0 b1) (f.submod b2 b3) : Nat) : f.Logs) = _
    rw [addmod_cast, f.submod_cast _ _ h1, f.submod_cast _ _ h3]
    simp [sign2]; ring
  · change ((f.submod (f.addmod b0 b1) (f.addmod b2 b3) : Nat) : f.Logs) = _
    rw [f.submod_cast _ _ q2, addmod_cast, addmod_cast]
    simp [sign2]; ring
  · change ((f.submod (f.submod b0 b1) (f.submod b2 b3) : Nat) : f.Logs) = _
    rw [f.submod_cast _ _ q3, f.submod_cast _ _ h1, f.submod_cast _ _ h3]
    simp [sign2]; ring

/-- One radix-4 level of FWHT. -/
theorem fwhtLevel_eval (f : GF) (N a mtrunc : Nat) (V : Array Nat) (hV : V.size = N) (hb : ∀ p, V.getD p 0 ≤ f.mod)
    (hN : ceilDiv mtrunc (4 * 2 ^ a) * (4 * 2 ^ a) ≤ N) (hw : a + 1 < f.width) (v : Nat → f.Logs)
    (hv : ∀ p, mtrunc ≤ p → v p = 0) (h : ∀ p, f.logAt V p = groupWalsh f.Logs f.width v a p) :
    (f.fwhtLevel mtrunc (2 ^ a) V).size = N ∧ (∀ p, (f.fwhtLevel mtrunc (2 ^ a) V).getD p 0 ≤ f.mod)
      ∧ ∀ p, f.logAt (f.fwhtLevel mtrunc (2 ^ a) V) p = groupWalsh f.Logs f.width v (a + 2) p := by
  have hd := Nat.two_pow_pos a
  obtain ⟨hs, hin, hout⟩ := getD_levelLoop (0 : Nat) (ceilDiv mtrunc (4 * 2 ^ a)) (2 ^ a) (fun _ b0 b1 b2 b3 =>
    ((f.fwht2 (f.fwht2 b0 b1).1 (f.fwht2 b2 b3).1).1, (f.fwht2 (f.fwht2 b0 b1).2 (f.fwht2 b2 b3).2).1,
      (f.fwht2 (f.fwht2 b0 b1).1 (f.fwht2 b2 b3).1).2, (f.fwht2 (f.fwht2 b0 b1).2 (f.fwht2 b2 b3).2).2))
    V N hV hd hN
  rw [← f.fwhtLevel_eq] at hs hin hout
  generalize f.fwhtLevel mtrunc (2 ^ a) V = W at *
  have hG := le_ceilDiv_mul mtrunc (4 * 2 ^ a) (by omega)
  generalize ceilDiv mtrunc (4 * 2 ^ a) = G at *
  have e4 : 2 ^ (a + 2) = 4 * 2 ^ a := by rw [Nat.pow_add]; ring
  have split : ∀ p, ∃ g k r, k < 4 ∧ r < 2 ^ a ∧ p = g * (4 * 2 ^ a) + (k * 2 ^ a + r) := fun p => by
    refine ⟨p / (4 * 2 ^ a), p % (4 * 2 ^ a) / 2 ^ a, p % (4 * 2 ^ a) % 2 ^ a, ?_, Nat.mod_lt _ hd, ?_⟩
    · rw [Nat.div_lt_iff_lt_mul hd]; exact Nat.mod_lt _ (by omega)
    · rw [Nat.mul_comm (p % (4 * 2 ^ a) / 2 ^ a), Nat.div_add_mod, Nat.mul_comm, Nat.div_add_mod]
  have bound : ∀ p, G * (4 * 2 ^ a) ≤ p → W.getD p 0 ≤ f.mod := fun p hp => by rw [hout p hp]; exact hb p
  refine ⟨hs, fun p => ?_, fun p => ?_⟩
  · obtain ⟨g, k, r, hk, hr, rfl⟩ := split p
    by_cases hg : g < G
    · rw [show g * (4 * 2 ^ a) + (k * 2 ^ a + r) = g * (4 * 2 ^ a) + r + k * 2 ^ a by ring, hin g hg r hr k hk]
      have h0 := hb (g * (4 * 2 ^ a) + r)
      have h1 := hb (g * (4 * 2 ^ a) + r + 2 ^ a)
      have h2 := hb (g * (4 * 2 ^ a) + r + 2 * 2 ^ a)
      have h3 := hb (g * (4 * 2 ^ a) + r + 3 * 2 ^ a)
      have q0 := f.addmod_le _ _ h0 h1
      have q1 := f.submod_le _ (V.getD (g * (4 * 2 ^ a) + r + 2 ^ a) 0) h0
      have q2 := f.addmod_le _ _ h2 h3
      have q3 := f.submod_le _ (V.getD (g * (4 * 2 ^ a) + r + 3 * 2 ^ a) 0) h2
      simp only [GF.fwht2, pick4]
      split
      · exact f.addmod_le _ _ q0 q2
      · split
        · exact f.addmod_le _ _ q1 q3
        · split
          · exact f.submod_le _ _ q0
          · exact f.submod_le _ _ q1
    · exact bound _ (le_trans (Nat.mul_le_mul_right _ (Nat.le_of_not_lt hg)) (Nat.le_add_right _ _))
  · obtain ⟨g, k, r, hk, hr, rfl⟩ := split p
    by_cases hg : g < G
    · rw [groupWalsh_four f.Logs f.width v a g k r hw hk hr]
      simp only [← h, Finset.sum_range_succ, Finset.sum_range_zero]
      have ek : ∀ k, g * (4 * 2 ^ a) + (k * 2 ^ a + r) = g * (4 * 2 ^ a) + r + k * 2 ^ a := fun k => by ring
      simp only [ek]
      unfold logAt
      rw [hin g hg r hr k hk]
      rw [fwhtQuad_cast f _ _ _ _ (hb _) (hb _) (hb _) k hk]
      simp only [Nat.zero_mul, Nat.one_mul, Nat.add_zero, zero_add]
    · have hge : G * (4 * 2 ^ a) ≤ g * (4 * 2 ^ a) := Nat.mul_le_mul_right _ (Nat.le_of_not_lt hg)
      have hq : k * 2 ^ a + r < 4 * 2 ^ a := by
        have : (k + 1) * 2 ^ a ≤ 4 * 2 ^ a := Nat.mul_le_mul_right _ hk
        rw [Nat.add_mul] at this
        omega
      have e : f.logAt W (g * (4 * 2 ^ a) + (k * 2 ^ a + r)) = f.logAt V (g * (4 * 2 ^ a) + (k * 2 ^ a + r)) := by
        unfold logAt; rw [hout _ (by omega)]
      rw [e, h]
      have z : ∀ i, i ≤ a + 2 → groupWalsh f.Logs f.width v i (g * (4 * 2 ^ a) + (k * 2 ^ a + r)) = 0 := by
        intro i hi
        refine Finset.sum_eq_zero fun x _ => ?_
        rw [hv, mul_zero]
        have : g * (4 * 2 ^ a) ≤ (g * (4 * 2 ^ a) + (k * 2 ^ a + r)) / 2 ^ i * 2 ^ i := by
          obtain ⟨c, hc⟩ : 2 ^ i ∣ g * (4 * 2 ^ a) := Dvd.dvd.mul_left (by rw [← e4]; exact pow_dvd_pow 2 hi) g
          rw [hc, Nat.mul_comm (2 ^ i) c]
          refine Nat.mul_le_mul_right _ ?_
          rw [Nat.le_div_iff_mul_le (Nat.two_pow_pos i)]
          omega
        omega
      rw [z a (by omega), z (a + 2) le_rfl]

theorem fwhtLevels_eval (f : GF) (mtrunc : Nat) (hm : mtrunc ≤ f.order) (v : Nat → f.Logs)
    (hv : ∀ p, mtrunc ≤ p → v p = 0) (fuel t : Nat) (V : Array Nat) (ht : 2 * t ≤ f.width)
    (hf : f.width ≤ 2 * t + 2 * fuel) (hV : V.size = f.order) (hb : ∀ p, V.getD p 0 ≤ f.mod)
    (h : ∀ p, f.logAt V p = groupWalsh f.Logs f.width v (2 * t) p) :
    (f.fwhtLevels f.order mtrunc fuel (2 ^ (2 * t)) V).1 = f.order
      ∧ (f.fwhtLevels f.order mtrunc fuel (2 ^ (2 * t)) V).2.size = f.order
      ∧ (∀ p, (f.fwhtLevels f.order mtrunc fuel (2 ^ (2 * t)) V).2.getD p 0 ≤ f.mod)
      ∧ ∀ p, f.logAt (f.fwhtLevels f.order mtrunc fuel (2 ^ (2 * t)) V).2 p
        = groupWalsh f.Logs f.width v f.width p := by
  have heven : ∃ s, f.width = 2 * s := by cases f; exacts [⟨4, rfl⟩, ⟨8, rfl⟩]
  obtain ⟨s, hs⟩ := heven
  induction fuel generalizing t V with
  | zero =>
    have e : 2 * t = f.width := by omega
    rw [e] at h ⊢
    exact ⟨f.order_eq.symm, hV, hb, h⟩
  | succ fuel ih =>
    unfold GF.fwhtLevels
    have e4 : 4 * 2 ^ (2 * t) = 2 ^ (2 * t + 2) := by rw [Nat.pow_add]; ring
    split
    · rename_i h4
      rw [f.order_eq, e4] at h4
      have h5 : 2 * t + 2 ≤ f.width := (Nat.pow_le_pow_iff_right (by decide)).1 h4
      have hdvd : 4 * 2 ^ (2 * t) ∣ f.order := by rw [e4, f.order_eq]; exact pow_dvd_pow 2 h5
      have hN := ceilDiv_mul_le_size mtrunc _ _ (by have := Nat.two_pow_pos (2 * t); omega) hdvd hm
      obtain ⟨h1, h2, h3⟩ := f.fwhtLevel_eval f.order (2 * t) mtrunc V hV hb hN (by omega) v hv h
      rw [e4]
      exact ih (t + 1) _ (by omega) (by omega) h1 h2 h3
    · rename_i h4
      have e : 2 * t = f.width := by
        by_contra hc
        exact h4 (by rw [e4, f.order_eq]; exact Nat.pow_le_pow_right (by decide) (by omega))
      rw [e] at h ⊢
      exact ⟨f.order_eq.symm, hV, hb, h⟩

/-- FWHT of all 2^w positions, modulo MOD: the transform of the Hadamard signs (41_field_tables.md R162). -/
theorem fwht_eval (f : GF) (V : Array Nat) (mtrunc : Nat) (hm : mtrunc ≤ f.order) (hV : V.size = f.order)
    (hb : ∀ p, V.getD p 0 ≤ f.mod) (hz : ∀ p, mtrunc ≤ p → V.getD p 0 = 0) :
    (f.fwht V f.order mtrunc).size = f.order ∧ (∀ p, (f.fwht V f.order mtrunc).getD p 0 ≤ f.mod)
      ∧ ∀ p < f.order, f.logAt (f.fwht V f.order mtrunc) p
        = ∑ h ∈ Finset.range f.order, sign f.Logs f.width p h * f.logAt V h := by
  obtain ⟨h1, h2, h3, h4⟩ := f.fwhtLevels_eval mtrunc hm (f.logAt V)
    (fun p hp => by unfold logAt; rw [hz p hp, Nat.cast_zero]) f.width 0 V (Nat.zero_le _) (by omega) hV hb
    (fun p => (groupWalsh_zero f.Logs f.width _ p).symm)
  simp only [Nat.mul_zero, Nat.pow_zero] at h1 h2 h3 h4
  unfold GF.fwht
  simp only [h1, lt_irrefl, if_false]
  refine ⟨h2, h3, fun p hp => (h4 p).trans ?_⟩
  unfold groupWalsh
  rw [← f.order_eq]
  refine Finset.sum_congr rfl fun x _ => ?_
  rw [Nat.mod_eq_of_lt hp, Nat.div_eq_of_lt hp, Nat.zero_mul, Nat.zero_add]

/-- The log of v, and 0 for the log of 0: the table that LOGWALSH is the transform of. -/
def logOf (f : GF) (v : Nat) : f.Logs := if v = 0 then 0 else ((f.log v : Nat) : f.Logs)

theorem getD_range_map (N : Nat) (g : Nat → Nat) (p : Nat) :
    ((List.range N).map g).toArray.getD p 0 = if p < N then g p else 0 := by
  by_cases hp : p < N <;> simp [Array.getD_eq_getD_getElem?, hp]

theorem logWalsh_eq (f : GF) (i : Nat) : f.logWalsh i = (f.fwht f.logTable f.order f.order).getD i 0 := by
  cases f <;> rfl

theorem logWalsh_cast (f : GF) (i : Nat) (hi : i < f.order) :
    ((f.logWalsh i : Nat) : f.Logs) = ∑ h ∈ Finset.range f.order, sign f.Logs f.width i h * f.logOf h := by
  have hg := getD_range_map f.order (fun v => if v = 0 then 0 else f.log v)
  obtain ⟨-, -, h⟩ := f.fwht_eval f.logTable f.order le_rfl (by simp [logTable])
    (fun p => by
      unfold logTable
      rw [hg]
      split
      · split
        · exact Nat.zero_le _
        · exact f.log_le _ (by assumption)
      · exact Nat.zero_le _)
    (fun p hp => by unfold logTable; rw [hg, if_neg (by omega)])
  rw [logWalsh_eq]
  refine (h i hi).trans (Finset.sum_congr rfl fun x hx => ?_)
  congr 1
  unfold logAt logOf logTable
  rw [hg, if_pos (Finset.mem_range.1 hx)]
  by_cases h0 : x = 0 <;> simp [h0]

/-- ERR_LOC (44_codec.md R266): at each position the sum, modulo MOD, of the logs of its differences to the erased
positions. -/
theorem errLoc_eval (f : GF) (k m M : Nat) (absent : Nat → Bool) (hle : M + k ≤ f.order) (hm : m ≤ M) (i : Nat)
    (hi : i < f.order) :
    (f.errLoc k m M absent).getD i 0 ≤ f.mod
      ∧ f.logAt (f.errLoc k m M absent) i
        = ∑ a ∈ Finset.range f.order, ((errMark k m M absent a : Nat) : f.Logs) * f.logOf (i ^^^ a) := by
  have hg := getD_range_map f.order (errMark k m M absent)
  have hmark : ∀ a, errMark k m M absent a ≤ f.mod := fun a => by
    have := f.mod_pos
    unfold errMark
    repeat' split
    all_goals omega
  obtain ⟨s1, b1, h1⟩ := f.fwht_eval ((List.range f.order).map (errMark k m M absent)).toArray (M + k) hle (by simp)
    (fun p => by rw [hg]; split; exacts [hmark p, Nat.zero_le _])
    (fun p hp => by
      rw [hg]
      split
      · unfold errMark
        rw [if_neg (by omega), if_neg (by omega), if_neg (by omega)]
      · rfl)
  unfold GF.errLoc
  simp only
  generalize f.fwht ((List.range f.order).map (errMark k m M absent)).toArray f.order (M + k) = W at *
  have hg2 : ∀ p, (W.mapIdx fun i e => e * f.logWalsh i % f.mod).getD p 0
      = if p < f.order then W.getD p 0 * f.logWalsh p % f.mod else 0 := fun p => by
    by_cases hp : p < f.order
    · have : p < W.size := by rw [s1]; exact hp
      simp [Array.getD_eq_getD_getElem?, hp, this]
    · have : ¬ p < W.size := by rw [s1]; exact hp
      simp [Array.getD_eq_getD_getElem?, hp, this]
  obtain ⟨-, b2, h2⟩ := f.fwht_eval (W.mapIdx fun i e => e * f.logWalsh i % f.mod) f.order le_rfl (by simp [s1])
    (fun p => by rw [hg2]; split; exacts [(Nat.mod_lt _ f.mod_pos).le, Nat.zero_le _])
    (fun p hp => by rw [hg2, if_neg (by omega)])
  refine ⟨b2 i, (h2 i hi).trans ?_⟩
  have e1 : ∀ j ∈ Finset.range f.order, sign f.Logs f.width i j
        * f.logAt (W.mapIdx fun i e => e * f.logWalsh i % f.mod) j
      = ∑ a ∈ Finset.range f.order, ∑ b ∈ Finset.range f.order,
          ((errMark k m M absent a : Nat) : f.Logs) * f.logOf b * sign f.Logs f.width j (i ^^^ a ^^^ b) := by
    intro j hj
    have hj' := Finset.mem_range.1 hj
    have hl : f.logAt (W.mapIdx fun i e => e * f.logWalsh i % f.mod) j = f.logAt W j * ((f.logWalsh j : Nat) : f.Logs) := by
      unfold logAt
      rw [hg2, if_pos hj', ZMod.natCast_mod, Nat.cast_mul]
    rw [hl, h1 j hj', f.logWalsh_cast j hj', Finset.sum_mul_sum, Finset.mul_sum]
    refine Finset.sum_congr rfl fun a ha => ?_
    rw [Finset.mul_sum]
    refine Finset.sum_congr rfl fun b _ => ?_
    have hma : f.logAt ((List.range f.order).map (errMark k m M absent)).toArray a
        = ((errMark k m M absent a : Nat) : f.Logs) := by
      unfold logAt; rw [hg, if_pos (Finset.mem_range.1 ha)]
    rw [hma, sign_xor, sign_xor, sign_swap f.Logs f.width i j]
    ring
  rw [Finset.sum_congr rfl e1, Finset.sum_comm]
  refine Finset.sum_congr rfl fun a ha => ?_
  have ha' := Finset.mem_range.1 ha
  have hx : i ^^^ a < f.order := f.xor_lt _ _ hi ha'
  rw [Finset.sum_comm, Finset.sum_eq_single (i ^^^ a)]
  · rw [← Finset.mul_sum, Nat.xor_self]
    have := sum_sign f.Logs f.width f.width 0 le_rfl (Nat.two_pow_pos _)
    rw [← f.order_eq, if_pos rfl] at this
    rw [this]
    have ho := f.order_cast
    rw [f.order_eq, Nat.cast_pow, Nat.cast_ofNat] at ho
    rw [ho, mul_one]
  · intro b hb hne
    have hb' := Finset.mem_range.1 hb
    rw [← Finset.mul_sum]
    have := sum_sign f.Logs f.width f.width (i ^^^ a ^^^ b) le_rfl (by rw [← f.order_eq]; exact f.xor_lt _ _ hx hb')
    rw [← f.order_eq, if_neg (fun h => hne ((xor_eq_zero_iff _ _).1 h).symm)] at this
    rw [this, mul_zero]
  · intro h
    exact absurd (Finset.mem_range.2 hx) h

end GF

end Sys2Proof
end

