-- ==== Sys2Proof/Laws/Recover.lean ====
section
/-! SUPPORT. The code corrects erasures: a codeword of ENC_PARITY is the values of one polynomial, ERR_LOC gives the
values and the derivatives of the locator polynomial, and DECODE recovers every absent shard when at most m are absent
(44_codec.md R260, R266, R267, R269). -/

namespace Sys2Proof

open Polynomial

namespace GF

theorem exp_log (f : GF) (v : Nat) (hv : v < f.order) (h0 : v ≠ 0) : f.exp (f.log v) = v := by
  apply f.cant_inj _ _ (f.exp_lt _) hv
  rw [f.cant_exp, f.run_log v hv h0]

theorem mul_exp (f : GF) (a b : Nat) : f.mul (f.exp a) (f.exp b) = f.exp (a + b) := by
  rw [← f.mulLog_eq_mul _ _ (f.exp_lt a)]
  apply f.cant_inj _ _ (f.mulLog_lt _ _) (f.exp_lt _)
  rw [f.mulLog_run _ _ (f.exp_lt a), f.cant_uncant _ (f.lfsrRun_lt _ _ (f.cant_lt _)), f.cant_exp, f.cant_exp,
    ← GF.lfsrRun_add, Nat.add_comm]

theorem exp_mod_eq (f : GF) (a : Nat) : f.exp (a % f.mod) = f.exp a := by
  have key : ∀ q r, f.lfsrRun (r + f.mod * q) 1 = f.lfsrRun r 1 := by
    intro q r
    induction q with
    | zero => rw [Nat.mul_zero, Nat.add_zero]
    | succ q ih =>
      rw [Nat.mul_succ, ← Nat.add_assoc, Nat.add_comm, GF.lfsrRun_add,
        f.lfsrRun_mod _ (f.lfsrRun_lt _ _ f.one_lt_order), ih]
  rw [f.exp_run, f.exp_run a]
  congr 1
  conv => rhs; rw [← Nat.mod_add_div a f.mod]
  rw [key]

theorem exp_mod_self (f : GF) : f.exp f.mod = 1 := by
  have h := f.uncant_cant 1 f.one_lt_order
  rw [f.cant_one] at h
  rw [f.exp_run, f.lfsrRun_mod 1 f.one_lt_order, h]

/-- The erased positions. -/
def erased (f : GF) (k m M : Nat) (absent : Nat → Bool) : Finset Nat :=
  (Finset.range f.order).filter fun a => errMark k m M absent a = 1

end GF

theorem errMark_zero_or_one (k m M : Nat) (absent : Nat → Bool) (a : Nat) :
    errMark k m M absent a = 0 ∨ errMark k m M absent a = 1 := by
  unfold errMark
  repeat' split
  all_goals omega

theorem GF.card_erased (f : GF) (k m M : Nat) (absent : Nat → Bool) (hm : m ≤ M)
    (hc : ((Finset.range (k + m)).filter fun i => absent i = true).card ≤ m) : (f.erased k m M absent).card ≤ M := by
  have hsub : f.erased k m M absent ⊆ Finset.Ico m M
      ∪ ((Finset.range (k + m)).filter fun i => absent i = true).image (shardPos k M) := by
    intro a ha
    have ha := (Finset.mem_filter.1 ha).2
    rw [Finset.mem_union, Finset.mem_Ico, Finset.mem_image]
    unfold errMark at ha
    split at ha
    · rename_i h1
      right
      refine ⟨k + a, Finset.mem_filter.2 ⟨Finset.mem_range.2 (by omega), ?_⟩, ?_⟩
      · by_contra hn; simp [hn] at ha
      · unfold shardPos; rw [if_neg (by omega)]; omega
    · split at ha
      · left; omega
      · split at ha
        · right
          refine ⟨a - M, Finset.mem_filter.2 ⟨Finset.mem_range.2 (by omega), ?_⟩, ?_⟩
          · by_contra hn; simp [hn] at ha
          · unfold shardPos; rw [if_pos (by omega)]; omega
        · omega
  have h1 := Finset.card_le_card hsub
  have h2 := Finset.card_union_le (Finset.Ico m M)
    (((Finset.range (k + m)).filter fun i => absent i = true).image (shardPos k M))
  have h3 := Finset.card_image_le (s := (Finset.range (k + m)).filter fun i => absent i = true) (f := shardPos k M)
  rw [Nat.card_Ico] at h2
  omega

theorem colAt_ofList {K : Type} (φ : Nat → K) (g : Nat → Row) (N j p : Nat) (hp : p < N) :
    colAt φ ((List.range N).map g).toArray j p = φ ((g p).getD j 0) := by
  unfold colAt
  congr 2
  simp [Array.getD_eq_getD_getElem?, hp]

namespace GF.Model

variable {f : GF} {K : Type} [Field K] {φ : Nat → K}

theorem exp_add (M : f.Model K φ) (a b : Nat) : φ (f.exp (a + b)) = φ (f.exp a) * φ (f.exp b) := by
  rw [← f.mul_exp, M.mul _ _ (f.exp_lt a) (f.exp_lt b)]

theorem exp_sum (M : f.Model K φ) (s : Finset Nat) (l : Nat → Nat) :
    φ (f.exp (∑ a ∈ s, l a)) = ∏ a ∈ s, φ (f.exp (l a)) := by
  induction s using Finset.induction_on with
  | empty =>
    rw [Finset.sum_empty, Finset.prod_empty, f.exp_run, GF.lfsrRun_zero, ← f.cant_one, f.uncant_cant 1 f.one_lt_order,
      M.one]
  | insert a s ha ih => rw [Finset.sum_insert ha, Finset.prod_insert ha, M.exp_add, ih]

theorem mulLog_col (M : f.Model K φ) (l x : Nat) (hx : x < f.order) : φ (f.mulLog x l) = φ x * φ (f.exp l) := by
  rw [f.mulLog_eq_mul x l hx, M.mul _ _ hx (f.exp_lt l)]

/-- ERR_LOC: the locator values (44_codec.md R266). -/
theorem errLoc_exp (M : f.Model K φ) (k m M' : Nat) (absent : Nat → Bool) (hle : M' + k ≤ f.order) (hm : m ≤ M')
    (i : Nat) (hi : i < f.order) :
    φ (f.exp ((f.errLoc k m M' absent).getD i 0))
      = ∏ a ∈ (f.erased k m M' absent).erase i, (φ i - φ a) := by
  have h := (f.errLoc_eval k m M' absent hle hm i hi).2
  have hsum : f.logAt (f.errLoc k m M' absent) i
      = ((∑ a ∈ (f.erased k m M' absent).erase i, f.log (i ^^^ a) : Nat) : f.Logs) := by
    rw [h, Nat.cast_sum]
    have hsub : (f.erased k m M' absent).erase i ⊆ Finset.range f.order :=
      (Finset.erase_subset _ _).trans (Finset.filter_subset _ _)
    rw [← Finset.sum_subset hsub]
    · refine Finset.sum_congr rfl fun a ha => ?_
      obtain ⟨hne, ha⟩ := Finset.mem_erase.1 ha
      rw [(Finset.mem_filter.1 ha).2, GF.logOf, if_neg (fun hx => hne ((xor_eq_zero_iff _ _).1 hx).symm), Nat.cast_one,
        one_mul]
    · intro a ha hn
      rcases errMark_zero_or_one k m M' absent a with h0 | h1
      · rw [h0, Nat.cast_zero, MulZeroClass.zero_mul]
      · have : a = i := by
          by_contra hne
          exact hn (Finset.mem_erase.2 ⟨hne, Finset.mem_filter.2 ⟨ha, h1⟩⟩)
        rw [this, Nat.xor_self, GF.logOf, if_pos rfl, MulZeroClass.mul_zero]
  have hmod := (ZMod.natCast_eq_natCast_iff' _ _ _).1 hsum
  rw [← f.exp_mod_eq, hmod, f.exp_mod_eq, M.exp_sum]
  refine Finset.prod_congr rfl fun a ha => ?_
  obtain ⟨hne, ha⟩ := Finset.mem_erase.1 ha
  have ha' := Finset.mem_range.1 (Finset.mem_filter.1 ha).1
  rw [M.sub_eq i a hi ha', f.exp_log _ (f.xor_lt _ _ hi ha') fun hx => hne ((xor_eq_zero_iff _ _).1 hx).symm]

theorem colAt_zipWith (M : f.Model K φ) (size n : Nat) (V W : Rows) (hV : f.Shaped size n V) (hW : f.Shaped size n W)
    (j p : Nat) (hj : j < n) (hp : p < size) :
    colAt φ (Array.zipWith xorRow V W) j p = colAt φ V j p + colAt φ W j p := by
  have h1 : p < V.size := by rw [hV.1]; exact hp
  have h2 : p < W.size := by rw [hW.1]; exact hp
  have hg : (Array.zipWith xorRow V W).getD p [] = xorRow (V.getD p []) (W.getD p []) := by
    simp [Array.getD_eq_getD_getElem?, h1, h2]
  have sv := hV.2 p hp
  have sw := hW.2 p hp
  unfold colAt
  rw [hg, xorRow, getD_zipWith _ _ _ n j sv.1 sw.1 hj, M.xor _ _ (sv.2.getD j) (sw.2.getD j)]

theorem getD_zeroRow (n j : Nat) : (zeroRow n).getD j 0 = 0 := by
  unfold zeroRow
  rw [List.getD_eq_getElem?_getD]
  by_cases h : j < n
  · simp [h]
  · simp [h]

/-- The coefficients of a chunk have the chunk's data as their values. -/
theorem encChunk_eval (M : f.Model K φ) (k e n c : Nat) (data : Nat → Row)
    (hd : ∀ d < k, (data d).length = n ∧ f.Bounded (data d)) (hC : (c + 1) * 2 ^ e + 2 ^ e ≤ f.order)
    (j : Nat) (hj : j < n) (q : Nat) (hq : q < 2 ^ e) :
    ∑ h ∈ Finset.range (2 ^ e), colAt φ (f.encChunk k (2 ^ e) n data c) j h
        * basisAt φ f.width h ((c + 1) * 2 ^ e + q)
      = if c * 2 ^ e + q < k then φ ((data (c * 2 ^ e + q)).getD j 0) else 0 := by
  rw [← groupEval_full φ f.width _ _ e q hq]
  unfold GF.encChunk
  simp only
  rw [Nat.mul_comm (2 ^ e) (c + 1)]
  have hcol : ∀ p < 2 ^ e, colAt φ ((List.range (2 ^ e)).map fun i =>
        if i < min (2 ^ e) (k - c * 2 ^ e) then data (c * 2 ^ e + i) else zeroRow n).toArray j p
      = if c * 2 ^ e + p < k then φ ((data (c * 2 ^ e + p)).getD j 0) else 0 := by
    intro p hp
    rw [colAt_ofList _ _ _ _ _ hp]
    by_cases h : c * 2 ^ e + p < k
    · rw [if_pos h, if_pos (by omega)]
    · rw [if_neg h, if_neg (by omega), getD_zeroRow, M.zero]
  rw [M.ifft_eval e n (c + 1) _ _ ?_ (Nat.min_le_left _ _) hC j hj ?_ q hq, hcol q hq]
  · apply f.shaped_ofList
    intro i _
    split
    · exact hd _ (by omega)
    · exact ⟨length_zeroRow n, f.bounded_zeroRow n⟩
  · intro p hp
    by_cases hpe : p < 2 ^ e
    · rw [hcol p hpe, if_neg (by omega)]
    · unfold colAt
      have : ((List.range (2 ^ e)).map fun i =>
          if i < min (2 ^ e) (k - c * 2 ^ e) then data (c * 2 ^ e + i) else zeroRow n).toArray.getD p [] = [] := by
        simp [Array.getD_eq_getD_getElem?, hpe]
      rw [this]
      simpa using M.zero

/-- A codeword of ENC_PARITY is the values of a polynomial (44_codec.md R242, R260). -/
theorem encParity_poly (M : f.Model K φ) (k m e n E : Nat) (data : Nat → Row) (hm : m ≤ 2 ^ e) (hk : 0 < k)
    (hE : 2 ^ e + k ≤ 2 ^ E) (hord : 2 ^ E ≤ f.order)
    (hd : ∀ d < k, (data d).length = n ∧ f.Bounded (data d)) (j : Nat) (hj : j < n) :
    ∃ F : K[X], F.degree < ((2 ^ E - 2 ^ e : Nat) : WithBot Nat)
      ∧ (∀ p < m, F.eval (φ p) = colAt φ (f.encParity k m (2 ^ e) n data) j p)
      ∧ (∀ d < k, F.eval (φ (2 ^ e + d)) = φ ((data d).getD j 0))
      ∧ ∀ p < 2 ^ E, 2 ^ e + k ≤ p → F.eval (φ p) = 0 := by
  have hpe := Nat.two_pow_pos e
  have heE : e < E := (Nat.pow_lt_pow_iff_right (a := 2) (by decide)).1 (by omega)
  obtain ⟨τ, rfl⟩ : ∃ τ, E = τ + e := ⟨E - e, by omega⟩
  have hEE : 2 ^ (τ + e) = 2 ^ τ * 2 ^ e := Nat.pow_add ..
  rw [hEE] at hE hord ⊢
  have hchunks : ceilDiv k (2 ^ e) + 1 ≤ 2 ^ τ := by
    have h1 : ceilDiv k (2 ^ e) * 2 ^ e ≤ (2 ^ τ - 1) * 2 ^ e :=
      ceilDiv_mul_le_size k _ _ hpe ⟨2 ^ τ - 1, Nat.mul_comm _ _⟩ (by rw [Nat.sub_mul, Nat.one_mul]; omega)
    have h2 := Nat.le_of_mul_le_mul_right h1 hpe
    have := Nat.two_pow_pos τ
    omega
  have hpos : 0 < ceilDiv k (2 ^ e) := (lt_ceilDiv_iff _ _ _ hpe).2 (by rw [Nat.zero_mul]; exact hk)
  generalize hcd : ceilDiv k (2 ^ e) = chunks at *
  -- the sum of the chunks
  have hsum := foldl_range_inv (fun t W => f.Shaped (2 ^ e) n W ∧ ∀ h < 2 ^ e, colAt φ W j h
      = ∑ c ∈ Finset.range (t + 1), colAt φ (f.encChunk k (2 ^ e) n data c) j h)
    (fun W c => Array.zipWith xorRow W (f.encChunk k (2 ^ e) n data (c + 1))) (chunks - 1)
    (f.encChunk k (2 ^ e) n data 0) ⟨f.shaped_encChunk k e n data 0 hd, fun h _ => by simp⟩
    (fun t _ W ⟨h1, h2⟩ => ⟨f.shaped_zipWith _ _ _ _ h1 (f.shaped_encChunk k e n data (t + 1) hd), fun h hh => by
      rw [M.colAt_zipWith _ n _ _ h1 (f.shaped_encChunk k e n data (t + 1) hd) j h hj hh, h2 h hh,
        Finset.sum_range_succ _ (t + 1)]⟩)
  rw [Nat.sub_add_cancel hpos] at hsum
  obtain ⟨F, hF, hev⟩ := M.exists_codeword e τ hord (by omega)
    (fun t h => if t = 0 then ∑ c ∈ Finset.range chunks, colAt φ (f.encChunk k (2 ^ e) n data c) j h
      else if t - 1 < chunks then colAt φ (f.encChunk k (2 ^ e) n data (t - 1)) j h else 0) (fun h => by
      obtain ⟨T, hT⟩ : ∃ T, 2 ^ τ = T + 1 := ⟨2 ^ τ - 1, by omega⟩
      rw [hT, Finset.sum_range_succ']
      simp only [Nat.succ_ne_zero, if_false, if_true, Nat.add_sub_cancel]
      rw [show T = chunks + (T - chunks) by omega, Finset.sum_range_add,
        Finset.sum_eq_zero (s := Finset.range (T - chunks)), add_zero]
      · rw [← Finset.sum_congr rfl fun c hc => (if_pos (Finset.mem_range.1 hc)).symm]
        exact M.add_self _
      · intro c _
        rw [if_neg (by omega)])
  have hblock : ∀ c q, c + 1 < 2 ^ τ → q < 2 ^ e → F.eval (φ ((c + 1) * 2 ^ e + q))
      = if c * 2 ^ e + q < k then φ ((data (c * 2 ^ e + q)).getD j 0) else 0 := by
    intro c q hc hq
    rw [hev (c + 1) hc q hq]
    simp only [Nat.succ_ne_zero, if_false, Nat.add_sub_cancel]
    by_cases hcc : c < chunks
    · simp only [if_pos hcc]
      refine M.encChunk_eval k e n c data hd ?_ j hj q hq
      have : (c + 1 + 1) * 2 ^ e ≤ 2 ^ τ * 2 ^ e := Nat.mul_le_mul_right _ hc
      rw [Nat.add_mul _ 1, Nat.one_mul] at this
      omega
    · simp only [if_neg hcc, MulZeroClass.zero_mul, Finset.sum_const_zero]
      rw [if_neg]
      have h1 : k ≤ chunks * 2 ^ e := by rw [← hcd]; exact le_ceilDiv_mul k _ hpe
      have h2 : chunks * 2 ^ e ≤ c * 2 ^ e := Nat.mul_le_mul_right _ (by omega)
      omega
  refine ⟨F, hF, fun p hp => ?_, fun d hdk => ?_, fun p hp hpk => ?_⟩
  · have h0 := hev 0 (by omega) p (by omega)
    rw [Nat.zero_mul, Nat.zero_add] at h0
    rw [h0]
    unfold GF.encParity
    have hfft := M.fft_eval e n 0 m _ hsum.1 hm (by
      rw [Nat.zero_mul, Nat.zero_add]
      exact le_trans (Nat.le_mul_of_pos_left _ (Nat.two_pow_pos τ)) hord) j hj p hp
    rw [Nat.zero_mul] at hfft
    simp only [hcd]
    rw [hfft, groupEval_full φ f.width _ _ e p (by omega)]
    refine Finset.sum_congr rfl fun h hh => ?_
    rw [if_pos trivial, hsum.2 h (Finset.mem_range.1 hh), Nat.zero_add]
  · have hc : d / 2 ^ e + 1 < 2 ^ τ := by
      have : d / 2 ^ e < chunks := by
        rw [← hcd, lt_ceilDiv_iff _ _ _ hpe]
        exact lt_of_le_of_lt (Nat.div_mul_le_self d _) hdk
      omega
    have hdm := Nat.div_add_mod d (2 ^ e)
    rw [Nat.mul_comm] at hdm
    have := hblock (d / 2 ^ e) (d % 2 ^ e) hc (Nat.mod_lt _ hpe)
    rw [hdm, if_pos hdk, Nat.add_mul, Nat.one_mul, Nat.add_right_comm, hdm, Nat.add_comm d] at this
    exact this
  · have hdm := Nat.div_add_mod (p - 2 ^ e) (2 ^ e)
    rw [Nat.mul_comm] at hdm
    have hc : (p - 2 ^ e) / 2 ^ e + 1 < 2 ^ τ := by
      by_contra hcon
      have : (2 ^ τ - 1) * 2 ^ e ≤ (p - 2 ^ e) / 2 ^ e * 2 ^ e := Nat.mul_le_mul_right _ (by omega)
      rw [Nat.sub_mul, Nat.one_mul] at this
      omega
    have := hblock _ _ hc (Nat.mod_lt (p - 2 ^ e) hpe)
    rw [hdm, if_neg (by omega), Nat.add_mul, Nat.one_mul, Nat.add_right_comm, hdm, Nat.sub_add_cancel (by omega)] at this
    exact this

/-- The recovered rows, column by column (44_codec.md R267). -/
theorem recovered_col (M : f.Model K φ) (k m e n E : Nat) (absent : Nat → Bool) (shard : Nat → Row) (hm : m ≤ 2 ^ e)
    (hE : decodeSize k (2 ^ e) = 2 ^ E) (hord : 2 ^ E ≤ f.order)
    (hs : ∀ i < k + m, absent i = false → (shard i).length = n ∧ f.Bounded (shard i))
    (hc : ((Finset.range (k + m)).filter fun i => absent i = true).card ≤ m) (j : Nat) (hj : j < n) (F : K[X])
    (hF : F.degree < ((2 ^ E - 2 ^ e : Nat) : WithBot Nat))
    (hpres : ∀ i < k + m, absent i = false → F.eval (φ (shardPos k (2 ^ e) i)) = φ ((shard i).getD j 0))
    (hzero : ∀ p < 2 ^ E, 2 ^ e + k ≤ p → F.eval (φ p) = 0) (i : Nat) (hi : i < k + m) (ha : absent i = true) :
    φ ((f.recovered k (2 ^ e) (f.decode k m (2 ^ e) n absent shard) i).getD j 0)
      = F.eval (φ (shardPos k (2 ^ e) i)) := by
  have hle : 2 ^ e + k ≤ 2 ^ E := by rw [← hE]; exact le_ceilPow2 _
  have hEw := width_of_room (f := f) E 0 (by omega)
  have hcard := f.card_erased k m (2 ^ e) absent hm hc
  generalize hX : f.erased k m (2 ^ e) absent = X at *
  have hmemX : ∀ p < f.order, p ∈ X ↔ errMark k m (2 ^ e) absent p = 1 := fun p hp => by
    rw [← hX, GF.erased, Finset.mem_filter, Finset.mem_range]
    exact ⟨fun h => h.2, fun h => ⟨hp, h⟩⟩
  have hloc := M.errLoc_exp k m (2 ^ e) absent (by omega) hm
  rw [hX] at hloc
  have hEle := fun p hp => (f.errLoc_eval k m (2 ^ e) absent (by omega) hm p hp).1
  -- the start rows are the values of F times the locator
  have hstart : ∀ p < 2 ^ E, colAt φ (f.decodeStart k m (2 ^ e) (2 ^ E) n absent shard (f.errLoc k m (2 ^ e) absent)) j p
      = (F * Lagrange.nodal X φ).eval (φ p) := by
    intro p hp
    unfold GF.decodeStart
    rw [colAt_ofList _ _ _ _ _ hp, eval_mul]
    have hin : errMark k m (2 ^ e) absent p = 1 → (Lagrange.nodal X φ).eval (φ p) = 0 := fun h =>
      Lagrange.eval_nodal_at_node ((hmemX p (by omega)).2 h)
    have hout : errMark k m (2 ^ e) absent p = 0 → (Lagrange.nodal X φ).eval (φ p)
        = φ (f.exp ((f.errLoc k m (2 ^ e) absent).getD p 0)) := fun h => by
      rw [hloc p (by omega), Lagrange.eval_nodal, Finset.erase_eq_of_notMem]
      rw [hmemX p (by omega), h]; decide
    have hmul : ∀ i l, i < k + m → absent i = false →
        φ ((f.mulRow l (shard i)).getD j 0) = φ ((shard i).getD j 0) * φ (f.exp l) := fun i l hi ha => by
      have h := hs i hi ha
      have : (f.mulRow l (shard i)).getD j 0 = f.mulLog ((shard i).getD j 0) l := by
        unfold GF.mulRow
        rw [List.getD_eq_getElem?_getD, List.getD_eq_getElem?_getD, List.getElem?_map,
          List.getElem?_eq_getElem (by omega)]
        rfl
      rw [this, M.mulLog_col _ _ (h.2.getD j)]
    unfold errMark at hin hout
    by_cases h1 : p < m
    · simp only [h1, if_true] at hin hout ⊢
      cases hab : absent (k + p)
      · have hpos : shardPos k (2 ^ e) (k + p) = p := by unfold shardPos; rw [if_neg (by omega)]; omega
        have := hpres (k + p) (by omega) hab
        rw [hpos] at this
        rw [if_neg (by decide), hmul _ _ (by omega) hab, this, hout (by rw [hab]; rfl)]
      · rw [if_pos rfl, getD_zeroRow, M.zero, hin (by rw [hab]; rfl), MulZeroClass.mul_zero]
    · simp only [h1, if_false] at hin hout ⊢
      by_cases h2 : p < 2 ^ e
      · simp only [h2, if_true] at hin ⊢
        rw [getD_zeroRow, M.zero, hin trivial, MulZeroClass.mul_zero]
      · simp only [h2, if_false] at hin hout ⊢
        by_cases h3 : p < 2 ^ e + k
        · simp only [h3, if_true] at hin hout ⊢
          cases hab : absent (p - 2 ^ e)
          · have hpos : shardPos k (2 ^ e) (p - 2 ^ e) = p := by unfold shardPos; rw [if_pos (by omega)]; omega
            have := hpres (p - 2 ^ e) (by omega) hab
            rw [hpos] at this
            rw [if_neg (by decide), hmul _ _ (by omega) hab, this, hout (by rw [hab]; rfl)]
          · rw [if_pos rfl, getD_zeroRow, M.zero, hin (by rw [hab]; rfl), MulZeroClass.mul_zero]
        · simp only [h3, if_false]
          rw [getD_zeroRow, M.zero, hzero p hp (by omega), MulZeroClass.zero_mul]
  have hsh := f.shaped_decodeStart k m (2 ^ e) (2 ^ E) n absent shard (f.errLoc k m (2 ^ e) absent)
    fun i hi ha => (hs i hi ha).1
  have hroom : 0 * 2 ^ E + 2 ^ E ≤ f.order := by omega
  have hsh1 := f.shaped_ifft E n _ (2 ^ e + k) 0 hle hsh
  have hifft := M.ifft_eval E n 0 (2 ^ e + k) _ hsh hle hroom j hj (fun p hp => by
    by_cases hpE : p < 2 ^ E
    · rw [hstart p hpE, eval_mul, hzero p hpE hp, MulZeroClass.zero_mul]
    · unfold colAt
      rw [Array.getD_eq_getD_getElem?, Array.getElem?_eq_none (by rw [hsh.1]; omega)]
      simpa using M.zero)
  rw [Nat.zero_mul] at hifft
  have hsh2 := f.shaped_derivRows _ _ _ hsh1 fun i h0 h => lowBit_add_le E i h0 h
  have hderiv := M.deriv_eval E n _ hsh1 j hj
  have hfft := M.fft_eval E n 0 (2 ^ e + k) _ hsh2 hle hroom j hj
  rw [Nat.zero_mul] at hfft
  have hsh3 := f.shaped_fft E n _ (2 ^ e + k) 0 hle hsh2
  unfold GF.recovered GF.decode
  simp only [hE]
  generalize f.decodeStart k m (2 ^ e) (2 ^ E) n absent shard (f.errLoc k m (2 ^ e) absent) = V0 at *
  generalize f.ifft V0 (2 ^ e + k) (2 ^ E) 0 = V1 at *
  generalize derivRows V1 (2 ^ E) = V2 at *
  generalize f.fft V2 (2 ^ e + k) (2 ^ E) 0 = V3 at *
  -- the coefficients are those of F times the locator
  have hdegG : (F * Lagrange.nodal X φ).degree < ((2 ^ E : Nat) : WithBot Nat) := by
    rw [degree_mul, Lagrange.degree_nodal]
    by_cases hF0 : F = 0
    · rw [hF0, degree_zero, WithBot.bot_add]; exact WithBot.bot_lt_coe _
    · rw [degree_eq_natDegree hF0] at hF ⊢
      rw [Nat.cast_lt] at hF
      rw [← Nat.cast_add, Nat.cast_lt]
      omega
  have hG : (∑ h ∈ Finset.range (2 ^ E), C (colAt φ V1 j h) * basisPoly K f.width h) = F * Lagrange.nodal X φ := by
    refine eq_of_degrees_lt_of_eval_index_eq (Finset.range (2 ^ E)) (M.injOn _ hord) ?_ ?_ fun p hp => ?_
    · rw [Finset.card_range]
      refine lt_of_le_of_lt (degree_sum_le _ _) ?_
      rw [Finset.sup_lt_iff (by exact WithBot.bot_lt_coe _)]
      intro h hh
      refine lt_of_le_of_lt degree_le_natDegree ?_
      rw [Nat.cast_lt]
      exact lt_of_le_of_lt ((natDegree_C_mul_le _ _).trans (natDegree_basisPoly K f.width h)) (Finset.mem_range.1 hh)
    · rw [Finset.card_range]; exact hdegG
    · have hp := Finset.mem_range.1 hp
      rw [← hstart p hp, ← hifft p hp, groupEval_full φ f.width _ _ E p hp, eval_finsetSum]
      refine Finset.sum_congr rfl fun h _ => ?_
      rw [eval_mul, eval_C, M.eval_basisPoly _ _ _ (by omega), Nat.zero_add]
  have hG' := derivative_sum_basisPoly K M.two f.width E hEw (colAt φ V1 j)
  rw [hG] at hG'
  -- the position of the absent shard
  have hpos : shardPos k (2 ^ e) i < 2 ^ e + k ∧ errMark k m (2 ^ e) absent (shardPos k (2 ^ e) i) = 1 := by
    unfold shardPos errMark
    by_cases hik : i < k
    · rw [if_pos hik, if_neg (by omega), if_neg (by omega), if_pos (by omega), Nat.add_sub_cancel_left, ha]
      exact ⟨by omega, rfl⟩
    · rw [if_neg hik, if_pos (by omega), show k + (i - k) = i by omega, ha]
      exact ⟨by omega, rfl⟩
  generalize shardPos k (2 ^ e) i = p at *
  have hpo : p < f.order := by omega
  have hpX : p ∈ X := (hmemX p hpo).2 hpos.2
  have hV3 : colAt φ V3 j p = F.eval (φ p) * φ (f.exp ((f.errLoc k m (2 ^ e) absent).getD p 0)) := by
    rw [hfft p hpos.1, groupEval_full φ f.width _ _ E p (by omega)]
    have e1 : ∑ h ∈ Finset.range (2 ^ E), colAt φ V2 j h * basisAt φ f.width h (0 + p)
        = (F * Lagrange.nodal X φ).eval (φ p) + (derivative (F * Lagrange.nodal X φ)).eval (φ p) := by
      rw [hG', ← hG, eval_finsetSum, eval_finsetSum, ← Finset.sum_add_distrib]
      refine Finset.sum_congr rfl fun h hh => ?_
      rw [hderiv h (Finset.mem_range.1 hh), eval_mul, eval_mul, eval_C, eval_C, M.eval_basisPoly _ _ _ hpo,
        Nat.zero_add]
      ring
    rw [e1, derivative_mul, eval_mul, eval_add, eval_mul, eval_mul, Lagrange.eval_nodal_at_node hpX,
      Lagrange.eval_nodal_derivative_eval_node_eq hpX, Lagrange.eval_nodal, hloc p hpo]
    ring
  have s3 := hsh3.2 p (by omega)
  have hget : (f.mulRow (f.mod - (f.errLoc k m (2 ^ e) absent).getD p 0) (V3.getD p [])).getD j 0
      = f.mulLog ((V3.getD p []).getD j 0) (f.mod - (f.errLoc k m (2 ^ e) absent).getD p 0) := by
    unfold GF.mulRow
    rw [List.getD_eq_getElem?_getD, List.getD_eq_getElem?_getD, List.getElem?_map,
      List.getElem?_eq_getElem (by omega)]
    rfl
  rw [hget, M.mulLog_col _ _ (s3.2.getD j)]
  change colAt φ V3 j p * _ = _
  rw [hV3, mul_assoc, ← M.exp_add, Nat.add_sub_cancel' (hEle p hpo), f.exp_mod_self, M.one, mul_one]

end GF.Model

theorem ceilPow2_le_pow (x w : Nat) (h : x ≤ 2 ^ w) : ceilPow2 x ≤ 2 ^ w := by
  unfold ceilPow2
  split
  · exact Nat.two_pow_pos w
  · rename_i hx
    refine Nat.pow_le_pow_right (by decide) ?_
    have h1 : 2 ^ (x - 1).log2 ≤ x - 1 := Nat.log2_self_le (by omega)
    have h2 : 2 ^ (x - 1).log2 < 2 ^ w := by omega
    exact (Nat.pow_lt_pow_iff_right (by decide)).1 h2

/-- DECODE recovers what ENC_PARITY made (44_codec.md R260, R267, R269): when at most m of the k + m shards of a
codeword are absent, every absent shard's recovered row is that shard's row. -/
theorem GF.recovered_encParity (f : GF) (k m e n : Nat) (data : Nat → Row) (absent : Nat → Bool) (shard : Nat → Row)
    (hm : m ≤ 2 ^ e) (hk : 0 < k) (hle : 2 ^ e + k ≤ f.order)
    (hd : ∀ d < k, (data d).length = n ∧ f.Bounded (data d))
    (hs : ∀ i < k + m, absent i = false →
      shard i = if i < k then data i else (f.encParity k m (2 ^ e) n data).getD (i - k) [])
    (hc : ((Finset.range (k + m)).filter fun i => absent i = true).card ≤ m) (i : Nat) (hi : i < k + m)
    (ha : absent i = true) :
    f.recovered k (2 ^ e) (f.decode k m (2 ^ e) n absent shard) i
      = if i < k then data i else (f.encParity k m (2 ^ e) n data).getD (i - k) [] := by
  obtain ⟨K, inst, φ, M⟩ := f.exists_model
  obtain ⟨E, hE⟩ := ceilPow2_eq (2 ^ e + k)
  have hEle : 2 ^ e + k ≤ 2 ^ E := by rw [← hE]; exact le_ceilPow2 _
  have hord : 2 ^ E ≤ f.order := by
    rw [← hE, f.order_eq]; exact ceilPow2_le_pow _ _ (by rw [← f.order_eq]; exact hle)
  have hpar := f.shaped_encParity k m e n data hm hd
  -- every shard of the codeword, present or not
  have hword : ∀ i < k + m, (if i < k then data i else (f.encParity k m (2 ^ e) n data).getD (i - k) []).length = n
      ∧ f.Bounded (if i < k then data i else (f.encParity k m (2 ^ e) n data).getD (i - k) []) := fun i hi => by
    split
    · exact hd i (by assumption)
    · exact hpar.2 _ (by omega)
  have hs' : ∀ i < k + m, absent i = false → (shard i).length = n ∧ f.Bounded (shard i) := fun i hi ha => by
    rw [hs i hi ha]; exact hword i hi
  have hrec := f.recovered_shape k m (2 ^ e) n absent shard (fun i hi ha => (hs' i hi ha).1) hm i hi
  have hwi := hword i hi
  refine List.ext_getElem (by rw [hrec.1, hwi.1]) fun j h1 h2 => ?_
  have hj : j < n := by rw [← hrec.1]; exact h1
  obtain ⟨F, hF, hp, hdat, hz⟩ := M.encParity_poly k m e n E data hm hk hEle hord hd j hj
  have hat : ∀ i < k + m, F.eval (φ (shardPos k (2 ^ e) i))
      = φ ((if i < k then data i else (f.encParity k m (2 ^ e) n data).getD (i - k) []).getD j 0) := fun i hi => by
    unfold shardPos
    by_cases hik : i < k
    · rw [if_pos hik, if_pos hik, hdat i hik]
    · rw [if_neg hik, if_neg hik, hp (i - k) (by omega)]; rfl
  have key := M.recovered_col k m e n E absent shard hm hE hord hs' hc j hj F hF
    (fun i hi ha => by rw [hat i hi, hs i hi ha]) hz i hi ha
  rw [hat i hi] at key
  have heq := M.inj _ _ (hrec.2.getD j) (hwi.2.getD j) key
  rwa [List.getD_eq_getElem?_getD, List.getD_eq_getElem?_getD, List.getElem?_eq_getElem h1,
    List.getElem?_eq_getElem h2] at heq

end Sys2Proof
end

