-- ==== Sys2Proof/Tests/Slice0.lean ====
section
/-! SUPPORT. Tests: the checks of WellFormed refuse ill-formed terms, the decoder reads words written out from the
opcode map, single steps give the values of spec/95_test_vectors.md, and for every obligation with hypotheses a
state and operands that meet them. Expected values come from the spec's vectors or from a hand calculation that
the docstring names. -/

namespace Sys2Proof.Tests

set_option Elab.async false

open Sys2Proof.Machine

/-! Well-formedness: one ill-formed term for each check, which that check refuses. -/

/-- RSV bit 9 set (30_encoding.md R123). -/
theorem test_rsv_refused : (CommandWord.mk 0x40 false 1).rsvOk = false := by decide

/-- OPC 0x15 is reserved (30_encoding.md R131). -/
theorem test_opc_refused : (CommandWord.mk 0x15 false 0).opcOk = false := by decide

/-- XOR_SLICE takes no W (30_encoding.md R122). -/
theorem test_width_refused : (CommandWord.mk 0x20 true 0).widthOk = false := by decide

/-- Each of the three makes the word ill-formed, and GF_MUL.16's word is well formed. -/
theorem test_word_wellFormed :
    (CommandWord.mk 0x40 false 1).wellFormed = false ∧ (CommandWord.mk 0x15 false 0).wellFormed = false
      ∧ (CommandWord.mk 0x20 true 0).wellFormed = false
      ∧ (CommandWord.mk 0x12 true 0).wellFormed = true := by decide

/-- A capacity of 0 and one of 96 are refused, 64 is not (92_eei_decisions.md §2). -/
theorem test_cap_refused : capOk 0 = false ∧ capOk 96 = false ∧ capOk 64 = true := by decide

/-- A data buffer that begins on the window's last byte is refused (20_memory.md R81). -/
theorem test_regions_refused : ({ Config.defaultParams with dbufBase := 4095 } : Params).regionsApart = false := by
  decide

/-- No work buffer at all is refused, and so is an ill-formed capacity (92_eei_decisions.md §2). -/
theorem test_params_refused :
    ({ Config.defaultParams with workBufs := 0 } : Params).wellFormed = false
      ∧ ({ Config.defaultParams with slotCap := 96 } : Params).wellFormed = false
      ∧ ({ Config.defaultParams with stgCap := 0 } : Params).wellFormed = false
      ∧ Config.defaultParams.wellFormed = true := by decide

/-! Decoding: words written out bit by bit, RSV | W | OPC (30_encoding.md R120, R124). -/

theorem test_decode_config : decode 0b00000000000000000000000_0_00000001 = .ok .config := by decide

theorem test_decode_queries :
    decode 0b00000000000000000000000_0_00010000 = .ok .gfLog8
      ∧ decode 0b00000000000000000000000_1_00010000 = .ok .gfLog16
      ∧ decode 0b00000000000000000000000_0_00010001 = .ok .gfExp8
      ∧ decode 0b00000000000000000000000_1_00010001 = .ok .gfExp16
      ∧ decode 0b00000000000000000000000_0_00010010 = .ok .gfMul8
      ∧ decode 0b00000000000000000000000_1_00010010 = .ok .gfMul16
      ∧ decode 0b00000000000000000000000_0_00010011 = .ok .gfMulLog8
      ∧ decode 0b00000000000000000000000_1_00010011 = .ok .gfMulLog16
      ∧ decode 0b00000000000000000000000_0_00010100 = .ok .skewRead8
      ∧ decode 0b00000000000000000000000_1_00010100 = .ok .skewRead16 := by decide

theorem test_decode_kernels :
    decode 0b00000000000000000000000_0_00100000 = .ok .xorSlice
      ∧ decode 0b00000000000000000000000_0_00100001 = .ok .mul8
      ∧ decode 0b00000000000000000000000_1_00100001 = .ok .mul16
      ∧ decode 0b00000000000000000000000_0_00100010 = .ok .mulAdd8
      ∧ decode 0b00000000000000000000000_1_00100010 = .ok .mulAdd16 := by decide

theorem test_decode_butterflies :
    decode 0b00000000000000000000000_0_00110000 = .ok .fftDit2x8
      ∧ decode 0b00000000000000000000000_1_00110000 = .ok .fftDit2x16
      ∧ decode 0b00000000000000000000000_0_00110001 = .ok .ifftDit2x8
      ∧ decode 0b00000000000000000000000_1_00110001 = .ok .ifftDit2x16
      ∧ decode 0b00000000000000000000000_0_00110010 = .ok .fftDit4x8
      ∧ decode 0b00000000000000000000000_1_00110010 = .ok .fftDit4x16
      ∧ decode 0b00000000000000000000000_0_00110011 = .ok .ifftDit4x8
      ∧ decode 0b00000000000000000000000_1_00110011 = .ok .ifftDit4x16 := by decide

theorem test_decode_codec :
    decode 0b00000000000000000000000_0_01000000 = .ok .encode
      ∧ decode 0b00000000000000000000000_0_01000001 = .ok .verify
      ∧ decode 0b00000000000000000000000_0_01000010 = .ok .reconstruct
      ∧ decode 0b00000000000000000000000_0_01000011 = .ok .reconstructData
      ∧ decode 0b00000000000000000000000_0_01000100 = .ok .split
      ∧ decode 0b00000000000000000000000_0_01000101 = .ok .join := by decide

theorem test_decode_streams :
    decode 0b00000000000000000000000_0_01010000 = .ok .streamEncode
      ∧ decode 0b00000000000000000000000_0_01010001 = .ok .streamVerify
      ∧ decode 0b00000000000000000000000_0_01010010 = .ok .streamReconstruct
      ∧ decode 0b00000000000000000000000_0_01010011 = .ok .streamReconstructData
      ∧ decode 0b00000000000000000000000_0_01010100 = .ok .streamSplit
      ∧ decode 0b00000000000000000000000_0_01010101 = .ok .streamJoin := by decide

/-- The table of 95_test_vectors.md §2.7. -/
theorem test_decode_illegal :
    decode 0x00000101 = .error .widthNotTaken ∧ decode 0x00000000 = .error .reservedOpcode
      ∧ decode 0x00000015 = .error .reservedOpcode ∧ decode 0x00000056 = .error .reservedOpcode
      ∧ decode 0x000000FF = .error .reservedOpcode ∧ decode 0x00000120 = .error .widthNotTaken
      ∧ decode 0x00000140 = .error .widthNotTaken ∧ decode 0x00000240 = .error .reservedBits
      ∧ decode 0x80000010 = .error .reservedBits := by decide

/-- The bytes of GF_MUL.16's word, lowest first, and bytes that are no word. -/
theorem test_decode_bytes :
    decodeBytes [0x12, 0x01, 0x00, 0x00] = .ok .gfMul16
      ∧ decodeBytes [0x12, 0x01, 0x00] = .error .notOneWord := by decide

/-! Builders of small states. -/

/-- `s` with ARG0, ARG1, … = `a`, the rest 0. -/
def withArgs (a : List Word) (s : State) : State :=
  { s with args := Vector.ofFn fun i => a.getD i 0 }

/-- `s` with the bytes `bs` in SLOT[i] and SLEN[i] their number. -/
def withSlot (i : Nat) (bs : List Byte) (s : State) : State :=
  (s.setSlotBytes i bs).setSlen i (BitVec.ofNat 32 bs.length)

/-- `s` with the reader IN[i] on `bytes`, ended by EOF. -/
def withIn (i : Nat) (bytes : List Byte) (s : State) : State :=
  s.setInPort i { conn := true, data := bytes, pos := 0, term := .eof }

/-- `s` with the writer OUT[j] connected and empty. -/
def withOut (j : Nat) (s : State) : State :=
  s.setOutPort j { conn := true, written := [] }

/-- `s` configured as (k, m) over GF(2^8), as CONFIG leaves it (95_test_vectors.md V-C0). -/
def withGeo (k m mpow : Word) (s : State) : State :=
  { s with
    geo := { k := k, m := m, n := k + m, mpow := mpow }
    status := { s.status with configured := true } }

/-- `o` is a next state that meets `p`. -/
def meets (o : Host.Outcome State Fault Refusal) (p : State → Bool) : Bool :=
  match o with
  | .next t => p t
  | _ => false

/-- The step of `s` with the command word `w` written to CMD gives a next state that meets `p`. -/
def after (w : Nat) (s : State) (p : State → Bool) : Bool :=
  meets (step (s.withFetchWord 32 w)) p

/-- The step of `s` with the input `x` as the oldest one gives a next state that meets `p`. -/
def afterInput (x : Input) (s : State) (p : State → Bool) : Bool :=
  meets (step { s with inputs := [x] }) p

theorem exists_next_of_meets {o : Host.Outcome State Fault Refusal} (p : State → Bool)
    (h : meets o p = true) : ∃ t, o = .next t ∧ p t = true := by
  cases o with
  | next t => exact ⟨t, rfl, h⟩
  | fault f => cases h
  | refused r => cases h

/-! Queries: V-T1 to V-T3 of 95_test_vectors.md §2.1. -/

theorem test_gfLog8 : after 0x010 (withArgs [3] State.reset) (fun t => t.result = 170 && t.statusWord = 2) := by
  decide +kernel

theorem test_gfLog8_range : after 0x010 (withArgs [256] State.reset)
    (fun t => t.result = 0 && t.statusWord = 0x2106) := by decide +kernel

/-- EXP[2] = 0x65D8 (V-T2), and LOG inverts EXP (41_field_tables.md R155). -/
theorem test_gfLog16 : after 0x110 (withArgs [0x65D8] State.reset) (fun t => t.result = 2) := by decide +kernel

theorem test_gfLog16_range : after 0x110 (withArgs [0x10000] State.reset) (fun t => t.statusWord = 0x2106) := by
  decide +kernel

theorem test_gfExp8 : after 0x011 (withArgs [254] State.reset) (fun t => t.result = 0x42) := by decide +kernel

theorem test_gfExp8_top : after 0x011 (withArgs [255] State.reset) (fun t => t.result = 1) := by decide +kernel

theorem test_gfExp16 : after 0x111 (withArgs [2] State.reset) (fun t => t.result = 0x65D8) := by decide +kernel

theorem test_gfExp16_top : after 0x111 (withArgs [65535] State.reset) (fun t => t.result = 1) := by
  decide +kernel

theorem test_gfMul8 : after 0x012 (withArgs [0x53, 0xCA] State.reset) (fun t => t.result = 2) := by
  decide +kernel

theorem test_gfMul8_top : after 0x012 (withArgs [0xFF, 0xFF] State.reset) (fun t => t.result = 0x80) := by
  decide +kernel

/-- EXP[1] = 0x4690 times itself is EXP[2] = 0x65D8 (V-T2, 41_field_tables.md R156). -/
theorem test_gfMul16 : after 0x112 (withArgs [0x4690, 0x4690] State.reset) (fun t => t.result = 0x65D8) := by
  decide +kernel

theorem test_gfMul16_zero : after 0x112 (withArgs [0, 5] State.reset) (fun t => t.result = 0) := by
  decide +kernel

theorem test_gfMulLog8 : after 0x013 (withArgs [7, 1] State.reset) (fun t => t.result = 0x30) := by
  decide +kernel

theorem test_gfMulLog8_top : after 0x013 (withArgs [7, 255] State.reset) (fun t => t.result = 7) := by
  decide +kernel

theorem test_gfMulLog16 : after 0x113 (withArgs [1, 5] State.reset) (fun t => t.result = 0x45F0) := by
  decide +kernel

theorem test_gfMulLog16_zero : after 0x113 (withArgs [0, 65535] State.reset) (fun t => t.result = 0) := by
  decide +kernel

theorem test_skewRead8 : after 0x014 (withArgs [254] State.reset) (fun t => t.result = 168) := by
  decide +kernel

theorem test_skewRead8_sentinel : after 0x014 (withArgs [7] State.reset) (fun t => t.result = 255) := by
  decide +kernel

theorem test_skewRead16_sentinel : after 0x114 (withArgs [3] State.reset) (fun t => t.result = 65535) := by
  decide +kernel

theorem test_skewRead16_range : after 0x114 (withArgs [65535] State.reset) (fun t => t.statusWord = 0x2106) := by
  decide +kernel

/-! Kernels: V-K1 to V-K5 of 95_test_vectors.md §2.2 and §2.3. -/

/-- The start state of V-K1. -/
def kernelStart (a : List Word) : State :=
  withArgs a (withSlot 1 [0xFF, 0x01, 0x03, 0x00, 0x01, 0x80, 0x0F, 0xAA]
    (withSlot 0 [0x00, 0x01, 0x02, 0x03, 0x10, 0x80, 0xFF, 0x55] State.reset))

/-- A SPLIT64 chunk whose element 1 is 0x0001 and whose other elements are 0 (V-K3). -/
def chunkOne : List Byte :=
  0 :: 1 :: List.replicate 62 0

/-- The chunk that multiplies it by EXP[1] = 0x4690: byte 1 is 0x90, byte 33 is 0x46 (V-K3, l = 1). -/
def chunkExp : List Byte :=
  [0x00, 0x90] ++ List.replicate 31 0 ++ [0x46] ++ List.replicate 30 0

theorem test_xorSlice : after 0x020 (kernelStart [0, 1, 8])
    (fun t => t.slotBytes 0 8 = [0xFF, 0x00, 0x01, 0x03, 0x11, 0x00, 0xF0, 0xFF]) := by decide +kernel

theorem test_xorSlice_itself : after 0x020 (kernelStart [0, 0, 8])
    (fun t => t.slotBytes 0 8 = List.replicate 8 0) := by decide +kernel

theorem test_mul8 : after 0x021 (kernelStart [0, 1, 8, 1])
    (fun t => t.slotBytes 0 8 = [0x81, 0x68, 0xF9, 0x00, 0x68, 0x37, 0xD7, 0x6A]) := by decide +kernel

theorem test_mul8_itself : after 0x021 (kernelStart [0, 0, 8, 1])
    (fun t => t.slotBytes 0 8 = [0x00, 0x68, 0x91, 0xF9, 0xDA, 0x37, 0x81, 0xEB]) := by decide +kernel

theorem test_mulAdd8 : after 0x022 (kernelStart [0, 1, 8, 1])
    (fun t => t.slotBytes 0 8 = [0x81, 0x69, 0xFB, 0x03, 0x78, 0xB7, 0x28, 0x3F]
      && t.slotBytes 1 8 = [0xFF, 0x01, 0x03, 0x00, 0x01, 0x80, 0x0F, 0xAA]) := by decide +kernel

theorem test_mulAdd8_long : after 0x022 (kernelStart [0, 1, 9, 1])
    (fun t => t.statusWord = 0x0506 && t.slots = (kernelStart [0, 1, 9, 1]).slots) := by decide +kernel

theorem test_mul16 : after 0x121
    (withArgs [0, 1, 64, 1] (withSlot 1 chunkOne (withSlot 0 (List.replicate 64 0xAA) State.reset)))
    (fun t => t.slotBytes 0 64 = chunkExp) := by decide +kernel

theorem test_mul16_unaligned : after 0x121
    (withArgs [0, 1, 32, 1] (withSlot 1 chunkOne (withSlot 0 (List.replicate 64 0xAA) State.reset)))
    (fun t => t.statusWord = 0x0506) := by decide +kernel

theorem test_mulAdd16 : after 0x122
    (withArgs [0, 1, 64, 1] (withSlot 1 chunkOne (withSlot 0 (List.replicate 64 0) State.reset)))
    (fun t => t.slotBytes 0 64 = chunkExp) := by decide +kernel

/-- LE16: element 1 lies in bytes 2 and 3 (V-K4, l = 1). -/
theorem test_mulAdd16_le16 : after 0x122
    (withArgs [0, 1, 4, 1] (withSlot 1 [0, 0, 1, 0] (withSlot 0 [0, 0, 0, 0]
      (State.resetWith { Config.defaultParams with layout := .le16 }))))
    (fun t => t.slotBytes 0 4 = [0, 0, 0x90, 0x46]) := by decide +kernel

/-! Butterflies: V-B1 to V-B4 of 95_test_vectors.md §2.4. -/

/-- V-B1's start (12, 34). -/
def pairStart (t : Word) : State :=
  withArgs [0, 1, 1, t] (withSlot 1 [0x34] (withSlot 0 [0x12] State.reset))

/-- V-B2's start 01 02 03 04. -/
def quadStart (a b c : Word) : State :=
  withArgs [0, 1, 1, a, b, c]
    (withSlot 3 [4] (withSlot 2 [3] (withSlot 1 [2] (withSlot 0 [1] State.reset))))

/-- V-B3's start, element 0 of each buffer. -/
def pairStart16 (t : Word) : State :=
  withArgs [0, 1, 64, t]
    (withSlot 1 ([0x78] ++ List.replicate 31 0 ++ [0x56] ++ List.replicate 31 0)
      (withSlot 0 ([0x34] ++ List.replicate 31 0 ++ [0x12] ++ List.replicate 31 0) State.reset))

/-- Four LE16 buffers of one element each: 1, 2, 3, 4. -/
def quadStart16 (a b c : Word) : State :=
  withArgs [0, 1, 2, a, b, c]
    (withSlot 3 [4, 0] (withSlot 2 [3, 0] (withSlot 1 [2, 0] (withSlot 0 [1, 0]
      (State.resetWith { Config.defaultParams with layout := .le16 })))))

theorem test_fftDit2x8 : after 0x030 (pairStart 100)
    (fun t => t.slotBytes 0 1 = [0x80] && t.slotBytes 1 1 = [0xB4]) := by decide +kernel

theorem test_fftDit2x8_sentinel : after 0x030 (pairStart 255)
    (fun t => t.slotBytes 0 1 = [0x12] && t.slotBytes 1 1 = [0x26]) := by decide +kernel

theorem test_ifftDit2x8 : after 0x031 (pairStart 100)
    (fun t => t.slotBytes 0 1 = [0x42] && t.slotBytes 1 1 = [0x26]) := by decide +kernel

theorem test_ifftDit2x8_zero : after 0x031 (pairStart 0)
    (fun t => t.slotBytes 0 1 = [0x34] && t.slotBytes 1 1 = [0x26]) := by decide +kernel

theorem test_fftDit2x16_sentinel : after 0x130 (pairStart16 0xFFFF)
    (fun t => t.slotBytes 0 33 = [0x34] ++ List.replicate 31 0 ++ [0x12]
      && t.slotBytes 1 33 = [0x4C] ++ List.replicate 31 0 ++ [0x44]) := by decide +kernel

/-- lo = 0 and hi = 1 with t = 1: lo becomes EXP[1] = 0x4690 and hi 0x4691 (43_butterflies.md R217, V-T2). -/
theorem test_fftDit2x16 : after 0x130 (withArgs [0, 1, 2, 1] (withSlot 1 [1, 0] (withSlot 0 [0, 0]
      (State.resetWith { Config.defaultParams with layout := .le16 }))))
    (fun t => t.slotBytes 0 2 = [0x90, 0x46] && t.slotBytes 1 2 = [0x91, 0x46]) := by decide +kernel

theorem test_ifftDit2x16_sentinel : after 0x131 (pairStart16 0xFFFF)
    (fun t => t.slotBytes 0 33 = [0x34] ++ List.replicate 31 0 ++ [0x12]
      && t.slotBytes 1 33 = [0x4C] ++ List.replicate 31 0 ++ [0x44]) := by decide +kernel

/-- lo = 0 and hi = 1 with t = 1: hi stays 1 and lo becomes EXP[1] (43_butterflies.md R217, V-T2). -/
theorem test_ifftDit2x16 : after 0x131 (withArgs [0, 1, 2, 1] (withSlot 1 [1, 0] (withSlot 0 [0, 0]
      (State.resetWith { Config.defaultParams with layout := .le16 }))))
    (fun t => t.slotBytes 0 2 = [0x90, 0x46] && t.slotBytes 1 2 = [1, 0]) := by decide +kernel

theorem test_fftDit4x8 : after 0x032 (quadStart 1 2 3)
    (fun t => (List.range 4).map (fun i => t.slotBytes i 1) = [[0xEB], [0x25], [0xE5], [0x2F]]) := by
  decide +kernel

theorem test_fftDit4x8_range : after 0x032 (withArgs [65530, 2, 1, 1, 1, 1] State.reset)
    (fun t => t.statusWord = 0x2106) := by decide +kernel

theorem test_ifftDit4x8 : after 0x033 (quadStart 1 2 3)
    (fun t => (List.range 4).map (fun i => t.slotBytes i 1) = [[0x86], [0xCF], [0x0A], [0x04]]) := by
  decide +kernel

theorem test_ifftDit4x8_sentinels : after 0x033 (quadStart 255 255 255)
    (fun t => (List.range 4).map (fun i => t.slotBytes i 1) = [[1], [3], [2], [4]]) := by decide +kernel

/-- The all-sentinel row (a, a⊕b, a⊕c, a⊕b⊕c⊕d) of 43_butterflies.md R218. -/
theorem test_fftDit4x16_sentinels : after 0x132 (quadStart16 0xFFFF 0xFFFF 0xFFFF)
    (fun t => (List.range 4).map (fun i => t.slotBytes i 2) = [[1, 0], [3, 0], [2, 0], [4, 0]]) := by
  decide +kernel

theorem test_ifftDit4x16_sentinels : after 0x133 (quadStart16 0xFFFF 0xFFFF 0xFFFF)
    (fun t => (List.range 4).map (fun i => t.slotBytes i 2) = [[1, 0], [3, 0], [2, 0], [4, 0]]) := by
  decide +kernel

/-! Configuration and codec: V-C0 to V-C8 of 95_test_vectors.md §2.5. -/

/-- CFG_K = `k` and CFG_M = `m`. -/
def cfgStart (k m : Word) : State :=
  { State.reset with cfg := { State.reset.cfg with k := k, m := m } }

/-- Slots `i` to `i` + 5 of 64 bytes each, over (4, 2), with ARG0 = 6 (V-C8). -/
def sixShards : State :=
  withArgs [6] ((List.range 6).foldl (fun s i => withSlot i (List.replicate 64 (BitVec.ofNat 8 i)) s)
    (withGeo 4 2 2 State.reset))

/-- V-C1 with the parity FF×64 in place, over (2, 1), with ARG0 = 3. -/
def codeword (d0 : List Byte) : State :=
  withArgs [3] (withSlot 2 (List.replicate 64 0xFF) (withSlot 1 (List.replicate 64 0xFF)
    (withSlot 0 d0 (withGeo 2 1 1 State.reset))))

theorem test_config : after 0x001 (cfgStart 1 255)
    (fun t => t.result = 16 && t.statusWord = 0x32 && t.geo = { k := 1, m := 255, n := 256, mpow := 256 }) := by
  decide +kernel

theorem test_config_fails : after 0x001 (withGeo 4 2 2 (cfgStart 32769 32767))
    (fun t => t.statusWord = 0x0206 && t.geo = { k := 0, m := 0, n := 0, mpow := 0 }) := by decide +kernel

/-- V-C3: k = 1, m = 3, D0 = A5×64. -/
theorem test_encode : after 0x040 (withArgs [4] (withSlot 0 (List.replicate 64 0xA5) (withGeo 1 3 4 State.reset)))
    (fun t => t.slotBytes 1 64 = List.replicate 64 0x2F && t.slotBytes 2 64 = List.replicate 64 0x67
      && t.slotBytes 3 64 = List.replicate 64 0x55 && t.slenAt 3 = 64 && t.statusWord = 0x12) := by
  decide +kernel

theorem test_encode_absent : after 0x040 (sixShards.setSlen 0 0)
    (fun t => t.statusWord = 0x0616 && t.slots = sixShards.slots) := by decide +kernel

theorem test_verify : after 0x041 (codeword (List.replicate 64 0))
    (fun t => t.statusWord = 0x1A && t.result = 1) := by decide +kernel

theorem test_verify_corrupt : after 0x041 (codeword (1 :: List.replicate 63 0))
    (fun t => t.statusWord = 0x12 && t.result = 0) := by decide +kernel

theorem test_reconstruct_many : after 0x042 (((sixShards.setSlen 0 0).setSlen 1 0).setSlen 4 0)
    (fun t => t.statusWord = 0x0316 && t.slots = sixShards.slots) := by decide +kernel

/-- V-C8: nothing absent, so no slot is written. -/
theorem test_reconstruct_none : after 0x042 sixShards
    (fun t => t.statusWord = 0x12 && t.slots = sixShards.slots && t.slen = sixShards.slen) := by decide +kernel

/-- FWHT on 1, 2, 3, 4, by hand from 41_field_tables.md R162 and R157: 3, 254 and 7, 254 first, then 10,
254 ⊞ 254 = 253, 3 ⊟ 7 = 251 and 254 ⊟ 254 = 0. -/
theorem test_fwht : GF.gf8.fwht #[1, 2, 3, 4] 4 4 = #[10, 253, 251, 0] := by decide

/-- DERIV on four rows of one element, by hand from 44_codec.md R268: i = 1 adds row 1 to row 0, i = 2 adds
rows 2 and 3 to rows 0 and 1, i = 3 adds row 3 to row 2. -/
theorem test_deriv : derivRows #[[1], [2], [4], [8]] 4 = #[[7], [10], [12], [8]] := by decide

theorem test_reconstructData_parity : after 0x043 (sixShards.setSlen 4 0)
    (fun t => t.statusWord = 0x12 && t.slots = sixShards.slots && t.slenAt 4 = 0) := by decide +kernel

theorem test_reconstructData_many : after 0x043 (((sixShards.setSlen 0 0).setSlen 1 0).setSlen 4 0)
    (fun t => t.statusWord = 0x0316) := by decide +kernel

/-! Split, join and streams: V-S1 to V-S6 of 95_test_vectors.md §2.6. -/

/-- The payload 00 01 02 … of `n` bytes. -/
def payload (n : Nat) : List Byte :=
  (List.range n).map (BitVec.ofNat 8)

/-- V-S1's first row: DLEN = 65 and DBUF[b] = b, over (4, 2). -/
def splitStart : State :=
  { withGeo 4 2 2 State.reset with dlen := 65, dbuf := State.reset.dbuf.writeBytes 0 (payload 65) }

/-- V-S2: the slots after that SPLIT, OUT[0] connected, ARG0 = 6 and the output size `n`. -/
def joinStart (n : Word) : State :=
  withArgs [6, n] (withOut 0 (withSlot 3 (List.replicate 64 0) (withSlot 2 (List.replicate 64 0)
    (withSlot 1 (0x40 :: List.replicate 63 0) (withSlot 0 (payload 64) (withGeo 4 2 2 State.reset))))))

/-- V-S4: two readers of 65 bytes, OUT[2] connected, CFG_BLOCK = 64, over (2, 1), with ARG0 = `a` and
ARG1 = `b`. -/
def streamStart (a b : Word) : State :=
  withArgs [a, b] (withOut 2 (withIn 1 (List.replicate 65 0xFF) (withIn 0 (payload 65)
    { withGeo 2 1 1 State.reset with cfg := { State.reset.cfg with block := 64 } })))

/-- The state `s` while the job `j` waits on a port. -/
def waits (j : Job) (s : State) : State :=
  { s with seq := .streamIo, job := some j }

theorem test_split : after 0x044 splitStart
    (fun t => t.result = 64 && t.slotBytes 0 64 = payload 64
      && t.slotBytes 1 64 = 0x40 :: List.replicate 63 0 && t.slotBytes 3 64 = List.replicate 64 0
      && (List.range 6).map t.slenAt = [64, 64, 64, 64, 0, 0]) := by decide +kernel

theorem test_split_empty : after 0x044 { splitStart with dlen := 0 }
    (fun t => t.statusWord = 0x0816 && t.slots = splitStart.slots) := by decide +kernel

theorem test_join_short : after 0x045 (joinStart 257)
    (fun t => t.statusWord = 0x0816 && t.outPorts = (joinStart 257).outPorts) := by decide +kernel

/-- The write from SLOT[1] of a JOIN of 65 bytes is its last byte, 40. -/
theorem test_join_last : afterInput (.reply .served) (waits (.joinWrite 1 1 65) (joinStart 65))
    (fun t => (t.outPort 0).written = [0x40] && t.result = 65 && t.statusWord = 0x12) := by decide +kernel

/-- V-S4, operations 2 and 3: the last read of the first block, and the write of its parity j ⊕ FF. -/
theorem test_streamEncode_block : afterInput (.reply .served)
    (waits (.readBlock .encode 0 [1] [(0, 64)] []) ((streamStart 2 1).setStgBytes 0 (payload 64)))
    (fun t => t.job = some (.writeBlock .encode 0 [(2, (payload 64).map (· ^^^ 0xFF))] [])
      && (t.inPort 1).pos = 64) := by decide +kernel

/-- V-S6: STREAM_ENCODE 2, 2. -/
theorem test_streamEncode_counts : after 0x050 (streamStart 2 2) (fun t => t.statusWord = 0x0716) := by
  decide +kernel

/-- A parity stream that differs ends STREAM_VERIFY with VERIFY_OK = 0 (45_stream.md R311). -/
theorem test_streamVerify_differs : afterInput (.reply .served)
    (waits (.readBlock .verify 0 [2] [(0, 64), (1, 64)] [])
      (withIn 2 (List.replicate 64 0) (((streamStart 3 0).setStgBytes 0 (payload 64)).setStgBytes 1
        (List.replicate 64 0xFF))))
    (fun t => t.statusWord = 0x12 && t.result = 0) := by decide +kernel

/-- IN[2] is disconnected (45_stream.md R311). -/
theorem test_streamVerify_absent : after 0x051 (streamStart 3 0) (fun t => t.statusWord = 0x0616) := by
  decide +kernel

/-- V-S6: a reader and a writer on one port. -/
theorem test_streamReconstruct_mismatch : after 0x052 (withOut 0 (streamStart 3 3))
    (fun t => t.statusWord = 0x0916) := by decide +kernel

/-- V-S6: two absent shards and m = 1. -/
theorem test_streamReconstruct_many : after 0x052
    (withOut 1 (withOut 0 (withArgs [3, 3] ({ streamStart 3 3 with inPorts := [] } : State))))
    (fun t => t.statusWord = 0x0316) := by decide +kernel

/-- Only the parity shard is absent, so there is no data shard to recover (45_stream.md R313). -/
theorem test_streamReconstructData_parity : after 0x053 (streamStart 3 3)
    (fun t => t.statusWord = 0x12 && t.result = 0 && t.inPorts = (streamStart 3 3).inPorts) := by decide +kernel

/-- V-S3: the payload of 65 bytes is read, and shard 1 is 40, 00×63. -/
theorem test_streamSplit_read : afterInput (.reply .served)
    (waits (.splitRead 65) (withIn 0 (payload 65) (withGeo 4 2 2 State.reset)))
    (fun t => t.job = some (.splitWrite 64 [(0, payload 64), (1, 0x40 :: List.replicate 63 0),
      (2, List.replicate 64 0), (3, List.replicate 64 0)] [])) := by decide +kernel

/-- V-S3: a reader of 65 bytes for a payload of 66. -/
theorem test_streamSplit_short : afterInput (.reply .served)
    (waits (.splitRead 66) (withIn 0 (payload 65) (withGeo 4 2 2 State.reset)))
    (fun t => t.statusWord = 0x0816) := by decide +kernel

/-- V-S3, operation 2: IN[0] is at EOF, and the next read is from IN[1]. -/
theorem test_streamJoin_next : afterInput (.reply .served)
    (waits (.streamJoinRead 0 1 64) (withIn 1 [0x40] (withIn 0 []
      { withGeo 4 2 2 State.reset with cfg := { State.reset.cfg with block := 64 } })))
    (fun t => t.job = some (.streamJoinRead 1 1 64)) := by decide +kernel

/-- V-S3, operation 3: the last byte is written. -/
theorem test_streamJoin_last : afterInput (.reply .served)
    (waits (.streamJoinWrite 1 1 64 [0x40]) (withOut 0 (withIn 1 [] (withGeo 4 2 2 State.reset))))
    (fun t => (t.outPort 0).written = [0x40] && t.result = 65 && t.statusWord = 0x12) := by decide +kernel

/-! The host interface: 95_test_vectors.md §2.7. -/

/-- The reset reads. -/
theorem test_reset_reads :
    [0x000, 0x00C, 0x028, 0x02C, 0x040].map State.reset.readReg = [0x52533136, 0, 1, 0x00400000, 64]
      ∧ (State.reset.readReg 0x004).extractLsb' 0 8 = 6
      ∧ (State.reset.readReg 0x004).extractLsb' 16 2 = 3 := by decide

/-- A CFG_CONC write of 0xFFFF_FFFF stores 1. -/
theorem test_conc : afterInput (.access (.write 0x028 4 0xFFFFFFFF)) State.reset (fun t => t.cfg.conc = 1) := by
  decide +kernel

/-- STATUS ← 0x42 clears DONE and leaves ERR. -/
theorem test_status_ack : afterInput (.access (.write 0x00C 4 0x42)) (State.reset.failed .shardSize)
    (fun t => t.statusWord = 0x0504) := by decide +kernel

/-- A CMD write while a command waits sets OVR and issues nothing. -/
theorem test_busy_cmd : afterInput (.access (.write 0x018 4 0x040)) (waits (.splitRead 65) State.reset)
    (fun t => t.status.ovr && t.job = some (.splitRead 65) && t.seq = .streamIo) := by decide +kernel

/-- Program 2's 8-byte store puts its lowest byte at the lowest address. -/
theorem test_slot_store : afterInput (.access (.write (Config.defaultParams.slotBase) 8 0x55FF801003020100))
    State.reset (fun t => t.slotBytes 0 8 = [0x00, 0x01, 0x02, 0x03, 0x10, 0x80, 0xFF, 0x55]) := by decide +kernel

/-! The end of a run: 70_reset_and_hazards.md R396. -/

/-- Six shards about to see a read of STATUS and then writes of 5 to the registers at `later`. -/
def runs (later : List Nat) : State :=
  { sixShards with inputs := sixShards.regRead 0x00C :: later.map fun off => .access (.write off 4 5) }

/-- A read of STATUS ends a run on an idle core with DONE = 1 and no CMD write to come, and only then. -/
theorem test_endsRun :
    ((runs [0x44]).succeeded 0).endsRun = true ∧ ((runs [0x18]).succeeded 0).endsRun = false
      ∧ (runs [0x44]).endsRun = false ∧ (waits (.splitRead 65) (runs [])).endsRun = false := by decide +kernel

/-- The run ends in the state after the read, which shows STATUS = 0x12. -/
theorem test_runEnd : (State.runEnd 1 ((runs [0x44]).succeeded 0)).map (fun t => t.readValue) = some 0x12 := by decide +kernel

/-- What is observed of a slot of 64 bytes and of a port that nothing is connected to. -/
theorem test_observe :
    sixShards.observeShard 5 = (64, List.replicate 64 5) ∧ sixShards.observePort 65535 = ([], 0) := by decide +kernel

/-! Witnesses: for every obligation with hypotheses, a state and operands that meet them, clause by clause and at
the ends of the ranges. -/

theorem tableGet_le (t : List (Nat × Word)) (cap i : Nat) (h : ∀ e ∈ t, e.2.toNat ≤ cap) :
    (tableGet 0 i t).toNat ≤ cap := by
  induction t with
  | nil => simp [tableGet]
  | cons e es ih =>
    rw [tableGet]
    split
    · exact h e (by simp)
    · exact ih fun x hx => h x (by simp [hx])

/-- The storage invariant of a concrete state, from what can be computed. -/
theorem storageInv_of (s : State)
    (h : (s.slots.wf && s.dbuf.wf && s.work.wf && s.stg.wf && tableWf 0 s.slen && tableWf InPort.empty s.inPorts
      && tableWf OutPort.empty s.outPorts && s.slen.all (fun e => e.2.toNat ≤ s.params.slotCap)
      && decide (s.dlen.toNat ≤ s.params.dbufCap)) = true) : s.StorageInv := by
  simp only [Bool.and_eq_true, List.all_eq_true, decide_eq_true_eq] at h
  obtain ⟨⟨⟨⟨⟨⟨⟨⟨h1, h2⟩, h3⟩, h4⟩, h5⟩, h6⟩, h7⟩, h8⟩, h9⟩ := h
  exact ⟨h1, h2, h3, h4, h5, h6, h7, fun i => tableGet_le _ _ i h8, h9⟩

/-- The capacities at their least: 64 bytes a slot, a staging buffer and the data buffer, one work buffer. -/
def tight : Params :=
  { Config.defaultParams with slotCap := 64, stgCap := 64, dbufCap := 64, workBufs := 1 }

/-- `s` with the inputs `l`. -/
def withInputs (l : List Input) (s : State) : State :=
  { s with inputs := l }

theorem sixShards_storage : sixShards.StorageInv := storageInv_of _ (by decide +kernel)

theorem sixShards_config : sixShards.ConfigInv := ⟨by decide, by decide, by decide, by decide, by decide⟩

theorem codeword_storage : (codeword (List.replicate 64 0)).StorageInv := storageInv_of _ (by decide +kernel)

theorem codeword_config : (codeword (List.replicate 64 0)).ConfigInv :=
  ⟨by decide, by decide, by decide, by decide, by decide⟩

/-- Both ends of each reserved range, a reserved OPC, the lowest and the highest RSV bit, and W on XOR_SLICE; an
idle state about to receive the last. -/
theorem witness_IllegalCommandsCompleteAtOnce :
    (∀ opc ∈ [0x00, 0x02, 0x0F, 0x15, 0x1F, 0x23, 0x2F, 0x34, 0x3F, 0x46, 0x4F, 0x56, 0xFF], reservedOpc opc)
      ∧ (IllegalWord 0x56 ∧ IllegalWord 0x201 ∧ IllegalWord 0x80000001 ∧ IllegalWord 0x120)
      ∧ (let s := withInputs [State.reset.cmdWrite 0x120] State.reset
         s.seq = .idle ∧ s.params.mmioBase % 4 = 0 ∧ s.inputs = s.cmdWrite 0x120 :: []) := by
  unfold IllegalWord reservedOpc takesWidth
  exact ⟨by decide, ⟨by decide, by decide, by decide, by decide⟩, rfl, rfl, rfl⟩

theorem witness_StepRunsTheDecodedCommand :
    (let s := withInputs [State.reset.cmdWrite 0x155] State.reset
     let u := withInputs [State.reset.cmdWrite 0x55] State.reset
     decode 0x55 = .ok .streamJoin ∧ s.seq = .idle ∧ s.params.mmioBase % 4 = 0
        ∧ u.inputs = u.cmdWrite 0x55 :: [] ∧ ∃ t, step s = .next t)
     ∧ State.reset.inputs = [] :=
  ⟨⟨by decide, rfl, rfl, rfl,
    (exists_next_of_meets (fun _ => true) (by decide +kernel)).imp fun _ h => h.1⟩, rfl⟩

theorem witness_ResetState : (withInputs [.reset] sixShards).inputs = .reset :: [] := rfl

/-- VERIFY about to be issued on a codeword. -/
def verifying : State :=
  withInputs [State.reset.cmdWrite 0x41] (codeword (List.replicate 64 0))

theorem verifying_steps : ∃ t, step verifying = .next t :=
  (exists_next_of_meets (fun _ => true) (by decide +kernel)).imp fun _ h => h.1

theorem witness_StepKeepsStorage : verifying.StorageInv ∧ ∃ t, step verifying = .next t :=
  ⟨storageInv_of _ (by decide +kernel), verifying_steps⟩

theorem witness_StepKeepsControl : verifying.ControlInv ∧ ∃ t, step verifying = .next t :=
  ⟨⟨by decide, by decide, by decide, by decide, by decide, by decide, by decide⟩, verifying_steps⟩

theorem witness_StepKeepsConfiguration : verifying.ConfigInv ∧ ∃ t, step verifying = .next t :=
  ⟨⟨by decide, by decide, by decide, by decide, by decide⟩, verifying_steps⟩

/-- The last slot, the last work buffer and the one past it, and butterfly operands that end on the last slot
and one past it. -/
theorem witness_BufferIds :
    (let s := State.resetWith tight
     s.buf 0x0000FFFF = some (.slot 65535) ∧ s.buf 0x80000000 = some (.work 0) ∧ s.buf 0x80000001 = none
        ∧ s.buf 0x00010000 = none ∧ s.bufs 65530 5 2 = some [.slot 65530, .slot 65535]
        ∧ s.bufs 65530 6 2 = none ∧ s.bufs 0 0 2 = none ∧ s.bufs 0x80000000 1 2 = none) := by decide +kernel

/-- The first and the last element of a chunk, in both layouts. -/
theorem witness_ElementLayout :
    (let bs := payload 128
     bs.length % 64 = 0 ∧ 64 * 1 + 64 ≤ bs.length ∧ (31 : Nat) < 32
        ∧ (elemsOfBytes .gf16 .split64 bs).getD (32 * 1 + 31) 0 = 95 + 256 * 127
        ∧ bs.length % 2 = 0 ∧ 2 * 63 + 2 ≤ bs.length
        ∧ (elemsOfBytes .gf16 .le16 bs).getD 63 0 = 126 + 256 * 127) := by decide +kernel

/-- MOD with MOD, 0 with MOD and MOD with 1, in log space, with the values of 41_field_tables.md R157. -/
theorem witness_LogArithmetic :
    (255 : Nat) ≤ GF.gf8.mod ∧ GF.gf8.addmod 255 255 = 255 ∧ GF.gf8.submod 255 255 = 0
      ∧ GF.gf8.submod 0 255 = 0 ∧ (65535 : Nat) ≤ GF.gf16.mod ∧ GF.gf16.addmod 65535 1 = 1 := by decide

theorem witness_LogExpBijection : ∀ f : GF, 1 ≤ f.mod ∧ (0 : Nat) ≤ f.mod - 1 := by
  intro f
  cases f <;> decide

theorem witness_FieldLaws : ∀ f : GF, f.mod < f.order ∧ (0 : Nat) < f.order ∧ f.mod ≤ f.mod ∧ f.mod ≠ 0 := by
  intro f
  cases f <;> decide

/-- The last position of each table, which holds no sentinel, and the last sentinel. -/
theorem witness_SkewSentinels : ∀ f : GF, f.mod - 1 < f.mod ∧ 2 ^ (f.width - 1) - 1 < f.mod
    ∧ ∀ i < f.width, f.mod - 1 ≠ 2 ^ i - 1 := by
  intro f
  cases f <;> decide

/-- Operands at the ends of the ranges of the five queries. -/
theorem witness_queries : ∀ f : GF,
    (let lo := withArgs [BitVec.ofNat 32 (f.order - 1), BitVec.ofNat 32 f.mod] State.reset
     let hi := withArgs [BitVec.ofNat 32 f.order, BitVec.ofNat 32 (f.mod + 1)] State.reset
     let last := withArgs [BitVec.ofNat 32 (f.mod - 1)] State.reset
     lo.argNat 0 < f.order ∧ lo.argNat 0 ≤ f.mod ∧ lo.argNat 1 < f.order ∧ lo.argNat 1 ≤ f.mod
        ∧ f.order ≤ hi.argNat 0 ∧ f.mod < hi.argNat 0 ∧ f.mod < hi.argNat 1 ∧ f.order ≤ hi.argNat 1
        ∧ last.argNat 0 < f.mod ∧ f.mod ≤ lo.argNat 0) := by
  intro f
  cases f <;> decide

/-- Two 8-byte slots with LEN = 8, an id with a reserved bit, and LEN = 9. -/
theorem witness_XorSliceXorsBytes :
    (let s := kernelStart [0, 1, 8]
     s.buf (s.arg 0) = some (.slot 0) ∧ s.buf (s.arg 1) = some (.slot 1)
        ∧ s.argNat 2 ≤ s.bufLen (.slot 0) ∧ s.argNat 2 ≤ s.bufLen (.slot 1))
     ∧ (let s := kernelStart [0x00010000, 1, 8]
        s.buf (s.arg 0) = none)
      ∧ (let s := kernelStart [0, 1, 9]
        s.buf (s.arg 0) = some (.slot 0) ∧ s.buf (s.arg 1) = some (.slot 1)
          ∧ s.bufLen (.slot 0) < s.argNat 2) := by decide +kernel

/-- The premises of MUL and MUL_ADD: all of two 64-byte buffers, one a work buffer, and the log MOD. -/
theorem witness_kernels : ∀ f : GF,
    (let s := withArgs [0x80000000, 1, 64, BitVec.ofNat 32 f.mod]
        (withSlot 1 (payload 64) (State.resetWith tight))
     s.buf (s.arg 0) = some (.work 0) ∧ s.buf (s.arg 1) = some (.slot 1) ∧ s.argNat 3 ≤ f.mod
        ∧ s.argNat 2 ≤ s.bufLen (.work 0) ∧ s.argNat 2 ≤ s.bufLen (.slot 1)
        ∧ lenAligned f s.params.layout (s.argNat 2) = true) := by
  intro f
  cases f <;> decide +kernel

/-- A log above MOD, a length above SLEN, and an unaligned length. -/
theorem witness_KernelErrors : ∀ f : GF,
    (let s := withArgs [0, 1, 64, BitVec.ofNat 32 (f.mod + 1)] State.reset
     f.mod < s.argNat 3)
     ∧ (let s := withArgs [0, 1, 65, BitVec.ofNat 32 f.mod] (withSlot 1 (payload 64) State.reset)
        s.buf (s.arg 0) = some (.slot 0) ∧ s.buf (s.arg 1) = some (.slot 1) ∧ s.argNat 3 ≤ f.mod
          ∧ s.bufLen (.slot 1) < s.argNat 2)
      ∧ lenAligned .gf16 .split64 63 = false ∧ lenAligned .gf16 .le16 63 = false := by
  intro f
  cases f <;> decide +kernel

theorem witness_ButterflyProcedures :
    (let lo : Row := [1, 2]
     let hi : Row := [3, 4]
     lo.length = hi.length ∧ 1 < lo.length) := by decide

theorem witness_RadixTwoCommands : ∀ f : GF,
    (let s := withArgs [0, 1, 64, BitVec.ofNat 32 f.mod]
        (withSlot 1 (payload 64) (withSlot 0 (payload 64) State.reset))
     s.StorageInv ∧ s.bufs (s.arg 0) (s.argNat 1) 2 = some [.slot 0, .slot 1] ∧ s.argNat 3 ≤ f.mod
        ∧ s.argNat 2 ≤ s.bufLen (.slot 0) ∧ s.argNat 2 ≤ s.bufLen (.slot 1)
        ∧ lenAligned f s.params.layout (s.argNat 2) = true) := by
  intro f
  cases f <;> exact ⟨storageInv_of _ (by decide +kernel), by decide +kernel⟩

theorem witness_RadixFourCommands : ∀ f : GF,
    (let s := withArgs [0x80000000, 3, 64, BitVec.ofNat 32 f.mod, 0, BitVec.ofNat 32 f.mod] State.reset
     s.StorageInv ∧ s.bufs (s.arg 0) (s.argNat 1) 4 = some [.work 0, .work 3, .work 6, .work 9]
        ∧ s.argNat 3 ≤ f.mod ∧ s.argNat 4 ≤ f.mod ∧ s.argNat 5 ≤ f.mod
        ∧ (∀ b ∈ [Buf.work 0, .work 3, .work 6, .work 9], s.argNat 2 ≤ s.bufLen b)
        ∧ lenAligned f s.params.layout (s.argNat 2) = true) := by
  intro f
  cases f <;> exact ⟨storageInv_of _ (by decide +kernel), by decide +kernel⟩

/-- A distance of 0, a twiddle above MOD, and a length above SLEN. -/
theorem witness_ButterflyErrors : ∀ f : GF,
    (let s := withArgs [0, 0, 1, 0] State.reset
     s.bufs (s.arg 0) (s.argNat 1) 2 = none)
     ∧ (let s := withArgs [0, 1, 1, 0, 0, BitVec.ofNat 32 (f.mod + 1)] State.reset
        ∃ t ∈ [s.argNat 3, s.argNat 4, s.argNat 5], f.mod < t)
      ∧ (let s := withArgs [0, 1, 1, BitVec.ofNat 32 f.mod] (withSlot 0 [1] State.reset)
        s.bufs (s.arg 0) (s.argNat 1) 2 = some [.slot 0, .slot 1] ∧ (∀ t ∈ [s.argNat 3], t ≤ f.mod)
          ∧ ∃ b ∈ [Buf.slot 0, .slot 1], s.bufLen b < s.argNat 2) := by
  intro f
  cases f <;> decide +kernel

theorem witness_ButterflyProceduresInvert :
    (let a : Row := [1]
     let b : Row := [2]
     a.length = 1 ∧ b.length = 1) := by decide

/-- FFT_DIT2.8 and FFT_DIT4.8 complete without error on V-B1 and V-B2. -/
theorem witness_ButterflyCommandsInvert :
    ((pairStart 100).StorageInv ∧ ∃ t, exec .fftDit2x8 (pairStart 100) = .next t ∧ t.status.err = false)
      ∧ ((quadStart 1 2 3).StorageInv
        ∧ ∃ t, exec .fftDit4x8 (quadStart 1 2 3) = .next t ∧ t.status.err = false) :=
  ⟨⟨storageInv_of _ (by decide +kernel), by
      simpa using exists_next_of_meets (o := exec .fftDit2x8 (pairStart 100)) (fun t => !t.status.err)
        (by decide +kernel)⟩,
    ⟨storageInv_of _ (by decide +kernel), by
      simpa using exists_next_of_meets (o := exec .fftDit4x8 (quadStart 1 2 3)) (fun t => !t.status.err)
        (by decide +kernel)⟩⟩

theorem witness_RoundingFunctions : (1 : Nat) ≤ 1 ∧ (5 : Nat) ≤ 2 ^ 3 ∧ (0 : Nat) < 64 ∧ ceilPow2 5 = 8
    ∧ roundUp 65 64 = 128 ∧ lowBit 12 = 4 := by decide +kernel

/-- Six shards for ENCODE, and a state for each error, in the order of 44_codec.md R250. -/
theorem witness_EncodeWritesParity :
    (sixShards.StorageInv ∧ sixShards.ConfigInv ∧ sixShards.encodeVerdict = none)
      ∧ State.reset.encodeVerdict = some .notConfigured
      ∧ (withArgs [5] sixShards).encodeVerdict = some .invalidShards
      ∧ ({ sixShards with slen := [(4, 64)] } : State).encodeVerdict = some .shardNoData
      ∧ (sixShards.setSlen 0 0).encodeVerdict = some .emptyShards
      ∧ (sixShards.setSlen 1 128).encodeVerdict = some .shardSize
      ∧ (sixShards.setSlen 4 128).encodeVerdict = some .shardSize
      ∧ ({ sixShards with slen := (List.range 6).map fun i => (i, 32) } : State).encodeVerdict
        = some .shardSize
      ∧ ({ sixShards with params := tight } : State).encodeVerdict = some .capacity :=
  ⟨⟨sixShards_storage, sixShards_config, by decide +kernel⟩, by decide +kernel⟩

/-- A codeword for VERIFY, and a state for each error, in the order of 44_codec.md R251. -/
theorem witness_VerifyComparesParity :
    (sixShards.StorageInv ∧ sixShards.ConfigInv ∧ sixShards.verifyVerdict = none)
      ∧ State.reset.verifyVerdict = some .notConfigured
      ∧ (withArgs [5] sixShards).verifyVerdict = some .invalidShards
      ∧ ({ sixShards with slen := [] } : State).verifyVerdict = some .shardNoData
      ∧ (sixShards.setSlen 5 0).verifyVerdict = some .emptyShards
      ∧ (sixShards.setSlen 5 128).verifyVerdict = some .shardSize
      ∧ ({ sixShards with params := tight } : State).verifyVerdict = some .capacity :=
  ⟨⟨sixShards_storage, sixShards_config, by decide +kernel⟩, by decide +kernel⟩

/-- As many absent shards as m admits, none, and one too many; with no shard the lowest present one is n. -/
theorem witness_ReconstructRecovers :
    (let s := (sixShards.setSlen 0 0).setSlen 5 0
     (s.StorageInv ∧ s.ConfigInv) ∧ (∀ i < 1, s.slenAt i = 0) ∧ s.slenAt 1 ≠ 0
        ∧ s.reconstructPlan false 64 = .recover 64 ∧ s.reconstructPlan true 64 = .recover 64)
     ∧ ((∀ i < 0, sixShards.slenAt i = 0) ∧ sixShards.slenAt 0 ≠ 0
        ∧ sixShards.reconstructPlan false 64 = .noWork
        ∧ (sixShards.setSlen 4 0).reconstructPlan true 64 = .noWork)
     ∧ ((((sixShards.setSlen 0 0).setSlen 1 0).setSlen 4 0).reconstructPlan false 64 = .fails .tooFewShards
        ∧ ({ sixShards with slen := [] } : State).reconstructPlan false 0 = .fails .shardNoData
        ∧ (∀ i < 6, ({ sixShards with slen := [] } : State).slenAt i = 0) ∧ sixShards.n = 6
        ∧ (sixShards.setSlen 2 128).reconstructPlan true 64 = .fails .shardSize
        ∧ State.reset.reconstructPlan true 0 = .fails .notConfigured
        ∧ (withArgs [5] sixShards).reconstructPlan true 64 = .fails .invalidShards
        ∧ ({ sixShards.setSlen 0 0 with params := tight } : State).reconstructPlan true 64
          = .fails .capacity) :=
  ⟨⟨⟨storageInv_of _ (by decide +kernel), ⟨by decide, by decide, by decide, by decide, by decide⟩⟩,
    by decide +kernel⟩, by decide +kernel, by decide +kernel⟩

theorem witness_EncodeThenVerify :
    sixShards.StorageInv ∧ sixShards.ConfigInv ∧ sixShards.encodeVerdict = none :=
  ⟨sixShards_storage, sixShards_config, by decide +kernel⟩

theorem witness_SingleParityIsXor :
    (let s := codeword (List.replicate 64 0)
     s.StorageInv ∧ s.ConfigInv ∧ s.encodeVerdict = none ∧ s.m = 1 ∧ 63 < s.slenAt 0) :=
  ⟨codeword_storage, codeword_config, by decide +kernel⟩

/-- A payload that fills every slot, and a state for each error, in the order of 45_stream.md R300. -/
theorem witness_SplitCutsPayload :
    (let s := { withGeo 4 2 2 (State.resetWith { tight with dbufCap := 256 }) with dlen := 256 }
     s.StorageInv ∧ s.ConfigInv ∧ s.splitVerdict = none)
     ∧ ({ State.reset with dlen := 1 } : State).splitVerdict = some .notConfigured
     ∧ (withGeo 4 2 2 State.reset).splitVerdict = some .shortData
     ∧ ({ withGeo 4 2 2 (State.resetWith tight) with dlen := 257 } : State).splitVerdict = some .capacity :=
  ⟨⟨storageInv_of _ (by decide +kernel), ⟨by decide, by decide, by decide, by decide, by decide⟩,
    by decide +kernel⟩, by decide +kernel⟩

/-- A JOIN of every byte, one of none, and a state for each error, in the order of 45_stream.md R301. -/
theorem witness_JoinStarts :
    (joinStart 256).ConfigInv ∧ (joinStart 256).joinVerdict = none ∧ (joinStart 256).size64 ≠ 0
      ∧ (joinStart 0).joinVerdict = none ∧ (joinStart 0).size64 = 0
      ∧ State.reset.joinVerdict = some .notConfigured
      ∧ (withArgs [6, 0, 0x80000000] (joinStart 0)).joinVerdict = some .size
      ∧ (withArgs [3, 65] (joinStart 0)).joinVerdict = some .tooFewShards
      ∧ (withArgs [7, 65] (joinStart 0)).joinVerdict = some .invalidShards
      ∧ ({ joinStart 65 with outPorts := [] } : State).joinVerdict = some .nilWriter
      ∧ (joinStart 257).joinVerdict = some .shortData :=
  ⟨⟨by decide, by decide, by decide, by decide, by decide⟩, by decide +kernel⟩

theorem witness_JoinEmitsOutSizeBytes : (joinStart 65).ConfigInv ∧ (joinStart 65).joinVerdict = none :=
  ⟨⟨by decide, by decide, by decide, by decide, by decide⟩, by decide +kernel⟩

/-- A read of all that is left, of one byte more with either ending, and the failing reader's word. -/
theorem witness_PortProtocol :
    (let p := (withIn 0 [7] State.reset).inPort 0
     1 ≤ p.data.length - p.pos ∧ p.data.length - p.pos < 2 ∧ p.term = .eof)
     ∧ (let p := (State.reset.setInPort 0 { conn := true, data := [], pos := 0, term := .err 0xDEAD }).inPort 0
        p.data.length - p.pos < 1 ∧ p.term = .err 0xDEAD) := by decide +kernel

/-- (2, 1) with blocks of 64 bytes, where IN[0] has 63 bytes and then the error 0xDEAD. -/
def failing (parIo : Bool) (j : Job) : State :=
  waits j { (streamStart 2 1).setInPort 0 { conn := true, data := payload 63, pos := 0, term := .err 0xDEAD } with
    parIoLatch := parIo }

/-- The read of a block's first and of its last reader, in both modes, failed by the environment and by the reader's
own error one byte before the block's end; and a last read of all 64 bytes after an earlier failure. -/
theorem witness_PortFailuresEndCommands :
    (∀ parIo, (failing parIo (.readBlock .encode 0 [0, 1] [] [])).job = some (.readBlock .encode 0 (0 :: [1]) [] [])
        ∧ (failing parIo (.readBlock .encode 0 [0, 1] [] [])).ReadFails (.failed 7 0) 0 64 7
        ∧ (failing parIo (.readBlock .encode 0 [0, 1] [] [])).ReadFails .served 0 64 0xDEAD
        ∧ (failing parIo (.splitRead 0)).blockSize = 64 ∧ (failing parIo (.splitRead 0)).parIoLatch = parIo)
      ∧ (let s := failing true (.readBlock .encode 0 [1] [] [(0, 0xDEAD)])
         s.job = some (.readBlock .encode 0 (1 :: []) [] [(0, 0xDEAD)]) ∧ [((0 : Nat), (0xDEAD : Word))] ≠ []
          ∧ s.ReadGives 1 s.blockSize (List.replicate 64 0xFF)) := by
  refine ⟨fun parIo => ⟨rfl, .inl ⟨0, rfl⟩, .inr ⟨rfl, ?_⟩, rfl, rfl⟩, rfl, by simp, ?_⟩
  · cases parIo <;> decide +kernel
  · unfold State.ReadGives; decide +kernel

/-- A block's write and one of STREAM_SPLIT that wait, with and without operations after them, in both modes. -/
theorem witness_PortFailuresEndCommands_writes : ∀ parIo,
    (let s := failing parIo (.writeBlock .encode 0 [(2, payload 64)] [])
     s.job = some (Job.writeBlock .encode 0 ((2, payload 64) :: []) []) ∧ s.parIoLatch = parIo)
     ∧ (let s := failing parIo (.splitWrite 64 [(0, payload 64), (1, payload 64)] [(3, 7)])
        s.job = some (Job.splitWrite 64 ((0, payload 64) :: [(1, payload 64)]) [(3, 7)]) ∧ s.parIoLatch = parIo) := by
  intro parIo
  cases parIo <;> exact ⟨⟨rfl, rfl⟩, rfl, rfl⟩

/-- STREAM_SPLIT's read one byte short, with either ending; a JOIN's write; STREAM_JOIN at its last reader, which has
nothing left, and its write of one byte fewer than were wanted. -/
theorem witness_PortFailuresEndCommands_bytes :
    (failing false (.splitRead 64)).ReadFails .served 0 64 0xDEAD
      ∧ ((waits (.splitRead 66) (streamStart 2 1)).ReadGives 0 66 (payload 65) ∧ (payload 65).length < 66)
      ∧ (waits (.joinWrite 0 65 65) (joinStart 65)).job = some (.joinWrite 0 65 65)
      ∧ (let s := waits (.streamJoinRead 1 1 64) (withIn 1 [] (streamStart 2 1))
         s.left 1 = [] ∧ (s.inPort 1).term = .eof ∧ 0 < min s.blockSize 1
          ∧ ¬ (1 + 1 < s.k ∧ (s.inPort (1 + 1)).conn = true))
      ∧ (let s := waits (.streamJoinWrite 1 64 0 (payload 63)) (streamStart 2 1)
         (payload 63).length < min s.blockSize 64 ∧ ¬ (1 + 1 < s.k ∧ (s.inPort (1 + 1)).conn = true)) := by
  refine ⟨.inr ⟨rfl, by decide +kernel⟩, ⟨?_, by decide⟩, rfl, by decide +kernel, by decide +kernel⟩
  unfold State.ReadGives
  decide +kernel

/-- A block of one byte that fills the staging buffer. -/
theorem witness_PadBlockPads :
    (let lens := [(0, 1), (1, 0), (2, 64)]
     (lens.map fun e => e.1).Nodup ∧ roundUp 1 64 ≤ tight.stgCap) := by decide +kernel

/-- The shards 1 and 2 of (2, 1) connected to readers of `n` bytes, and OUT[0] to a writer. -/
def reconStart (n : Nat) : State :=
  withArgs [3, 3] (withOut 0 (withIn 2 (payload n) (withIn 1 (payload n)
    { withGeo 2 1 1 State.reset with cfg := { State.reset.cfg with block := 64 } })))

/-- The three readers of (2, 1), the parity reader of 64 bytes. -/
def verifyStart : State :=
  withArgs [3, 0] (withIn 2 (payload 64) (streamStart 3 0))

theorem streamStart_config : (streamStart 2 1).ConfigInv := ⟨by decide, by decide, by decide, by decide, by decide⟩

/-- The four block commands that start, the one that has nothing to recover, and every error. -/
theorem witness_BlockCommandsStart :
    (streamStart 2 1).ConfigInv ∧ (streamStart 2 1).streamEncodeVerdict = none
      ∧ State.reset.streamEncodeVerdict = some .notConfigured
      ∧ ({ streamStart 2 1 with cfg := { State.reset.cfg with block := 100 } } : State).streamEncodeVerdict
        = some .size
      ∧ ({ streamStart 2 1 with cfg := { State.reset.cfg with block := 0 } } : State).streamEncodeVerdict
        = some .size
      ∧ ({ streamStart 2 1 with cfg := { State.reset.cfg with block := 0x400040 } } : State).streamEncodeVerdict
        = some .size
      ∧ (streamStart 2 2).streamEncodeVerdict = some .invalidShards
      ∧ ({ streamStart 2 1 with inPorts := [] } : State).streamEncodeVerdict = some .emptyShards
      ∧ ({ streamStart 2 1 with outPorts := [] } : State).streamEncodeVerdict = some .nilWriter
      ∧ (withArgs [2, 3] (withGeo 2 3 4 (withOut 3 (withOut 4
          { streamStart 2 1 with params := { tight with workBufs := 3 } })))).streamEncodeVerdict
        = some .capacity
      ∧ verifyStart.streamVerifyVerdict = none
      ∧ (streamStart 3 0).streamVerifyVerdict = some .emptyShards
      ∧ (reconStart 64).streamReconstructVerdict = none
      ∧ (streamStart 3 2).streamReconstructVerdict = some .invalidShards
      ∧ (withOut 0 (streamStart 3 3)).streamReconstructVerdict = some .reconstructMismatch
      ∧ (reconStart 64).streamDecodeVerdict = none
      ∧ (withArgs [3, 3] ({ streamStart 3 3 with inPorts := [] } : State)).streamDecodeVerdict
        = some .tooFewShards
      ∧ ({ reconStart 64 with params := tight } : State).streamDecodeVerdict = some .capacity :=
  ⟨streamStart_config, by decide +kernel⟩

theorem witness_BlockCommandsStart_work :
    ¬ (reconStart 64).NothingToRecover false ∧ ¬ (reconStart 64).NothingToRecover true
      ∧ verifyStart.NothingToRecover false ∧ (streamStart 3 3).NothingToRecover true := by
  unfold State.NothingToRecover
  decide +kernel

/-- The reader IN[0] of 65 bytes and the four writers, over (4, 2), with ARG0 = `a` and ARG1 = `n`. -/
def splitStreams (a n : Word) : State :=
  withArgs [a, n] (withOut 3 (withOut 2 (withOut 1 (withOut 0 (withIn 0 (payload 65) (withGeo 4 2 2
    State.reset))))))

/-- STREAM_JOIN of `n` bytes from the readers of 64 and 1 bytes, over (4, 2). -/
def joinStreams (n : Word) : State :=
  withArgs [4, n] (withOut 0 (withIn 3 [] (withIn 2 [] (withIn 1 [0x40] (withIn 0 (payload 64) (withGeo 4 2 2
    State.reset))))))

theorem witness_SplitAndJoinStreamsStart :
    (splitStreams 4 65).ConfigInv ∧ (splitStreams 4 65).streamSplitVerdict = none
      ∧ (splitStreams 3 65).streamSplitVerdict = some .invalidShards
      ∧ ({ splitStreams 4 65 with outPorts := [] } : State).streamSplitVerdict = some .nilWriter
      ∧ (splitStreams 4 0).streamSplitVerdict = some .shortData
      ∧ (splitStreams 4 0xFFFFFFFF).streamSplitVerdict = some .capacity
      ∧ ({ splitStreams 4 65 with inPorts := [] } : State).streamSplitVerdict = some .shortData
      ∧ (joinStreams 65).streamJoinVerdict = none ∧ (joinStreams 65).size64 ≠ 0
      ∧ ((joinStreams 65).inPort 0).conn = true
      ∧ (joinStreams 0).streamJoinVerdict = none ∧ (joinStreams 0).size64 = 0
      ∧ ({ joinStreams 65 with inPorts := [] } : State).streamJoinVerdict = none
      ∧ (withArgs [3, 65] (joinStreams 65)).streamJoinVerdict = some .tooFewShards
      ∧ (withArgs [7, 65] (joinStreams 65)).streamJoinVerdict = some .invalidShards
      ∧ (withArgs [4, 0, 0x80000000] (joinStreams 65)).streamJoinVerdict = some .size
      ∧ ({ joinStreams 65 with outPorts := [] } : State).streamJoinVerdict = some .nilWriter :=
  ⟨⟨by decide, by decide, by decide, by decide, by decide⟩, by decide +kernel⟩

/-- A block of one byte, and one that fills the block size. -/
theorem witness_StreamEncodeOneBlock : ∀ L ∈ [1, 64],
    (let s := withIn 1 (payload L) (withIn 0 (payload L) (streamStart 2 1))
     (s.StorageInv ∧ s.ConfigInv) ∧ s.streamEncodeVerdict = none ∧ 0 < L ∧ L ≤ s.blockSize
        ∧ ∀ i < s.k, s.Reader i L) := by
  simp only [List.mem_cons, List.not_mem_nil, or_false, forall_eq_or_imp, forall_eq]
  exact ⟨⟨⟨storageInv_of _ (by decide +kernel), ⟨by decide, by decide, by decide, by decide, by decide⟩⟩,
      by unfold State.Reader; decide +kernel⟩,
    ⟨⟨storageInv_of _ (by decide +kernel), ⟨by decide, by decide, by decide, by decide, by decide⟩⟩,
      by unfold State.Reader; decide +kernel⟩⟩

theorem witness_StreamVerifyOneBlock :
    (let s := withIn 1 [0xFF] (withIn 0 [1] verifyStart)
     (s.StorageInv ∧ s.ConfigInv) ∧ s.streamVerifyVerdict = none ∧ 1 ≤ s.blockSize
        ∧ (∀ i < s.k, s.Reader i 1) ∧ ∀ p < s.m, s.Reader (s.k + p) (roundUp 1 64)) :=
  ⟨⟨storageInv_of _ (by decide +kernel), ⟨by decide, by decide, by decide, by decide, by decide⟩⟩,
    by unfold State.Reader; decide +kernel⟩

/-- Data readers of one byte and of a whole block, with parity readers of 64; every data shard of (1, 1) absent. -/
theorem witness_StreamReconstructOneBlock :
    (∀ L ∈ [1, 64],
      (let s := withIn 1 (payload L) (reconStart 64)
       (s.StorageInv ∧ s.ConfigInv) ∧ s.streamReconstructVerdict = none ∧ s.streamDecodeVerdict = none
        ∧ 0 < L ∧ L ≤ s.blockSize ∧ (∀ i < s.k, (s.inPort i).conn = true → s.Reader i L)
        ∧ ∀ i < s.n, s.k ≤ i → (s.inPort i).conn = true → s.Reader i (roundUp L 64)))
      ∧ (let s := withArgs [2, 2] (withOut 0 (withIn 1 (payload 64)
          { withGeo 1 1 1 State.reset with cfg := { State.reset.cfg with block := 64 } }))
         s.streamReconstructVerdict = none ∧ ¬ s.NothingToRecover true ∧ s.streamDecodeVerdict = none
          ∧ (∀ i < s.k, (s.inPort i).conn = false) ∧ s.Reader 1 (roundUp 33 64)) := by
  refine ⟨?_, ?_⟩
  · simp only [List.mem_cons, List.not_mem_nil, or_false, forall_eq_or_imp, forall_eq]
    exact ⟨⟨⟨storageInv_of _ (by decide +kernel), ⟨by decide, by decide, by decide, by decide, by decide⟩⟩,
        by unfold State.Reader; decide +kernel⟩,
      ⟨⟨storageInv_of _ (by decide +kernel), ⟨by decide, by decide, by decide, by decide, by decide⟩⟩,
        by unfold State.Reader; decide +kernel⟩⟩
  · unfold State.NothingToRecover State.Reader
    decide +kernel

theorem witness_StreamSplitEmitsShards :
    (let s := splitStreams 4 65
     (s.StorageInv ∧ s.ConfigInv) ∧ s.streamSplitVerdict = none ∧ s.size64 ≤ (s.left 0).length) :=
  ⟨⟨storageInv_of _ (by decide +kernel), ⟨by decide, by decide, by decide, by decide, by decide⟩⟩,
    by decide +kernel⟩

theorem witness_StreamJoinEmitsOutSizeBytes :
    (let s := joinStreams 65
     s.ConfigInv ∧ s.streamJoinVerdict = none ∧ (∀ j < s.k, s.Reader j (s.left j).length)
        ∧ s.size64 ≤ ((List.range s.k).flatMap s.left).length) :=
  ⟨⟨by decide, by decide, by decide, by decide, by decide⟩, by unfold State.Reader; decide +kernel⟩

/-- (2, 1) with blocks of 64 bytes and the rows of 63 and 65 bytes, IN[0]'s first 63 bytes read into staging. -/
def uneven (kind : BlockKind) (i : Nat) (bytes : List Byte) : State :=
  waits (.readBlock kind 0 [i] [(0, 63)] [])
    { withIn i bytes (streamStart 2 1) with stg := State.reset.stg.writeBytes 0 (payload 63) }

/-- A read with another one after it; a last read with 0, 1, 64 and 65 bytes left, after a row of 63. -/
theorem witness_BlocksRunInSequence :
    (let s := waits (.readBlock .encode 0 [0, 1] [] []) (streamStart 2 1)
     s.job = some (.readBlock .encode 0 (0 :: [1]) [] []) ∧ s.ReadGives 0 s.blockSize (payload 64))
     ∧ ∀ bytes ∈ [[], [0xFF], payload 64, payload 65],
      (let s := uneven .encode 1 bytes
       let data := fun i => if i = 0 then payload 63 else bytes.take 64
       s.ConfigInv ∧ s.status.configured = true ∧ s.blockOk = true
        ∧ s.job = some (.readBlock .encode 0 [1] [(0, 63)] [])
        ∧ (([(0, 63)] : List (Nat × Nat)).map (fun e : Nat × Nat => e.1) ++ [1]).Perm (s.readers .encode)
        ∧ (∀ e ∈ ([(0, 63)] : List (Nat × Nat)),
          e.2 = (data e.1).length ∧ e.2 ≤ s.blockSize ∧ s.stgBytes e.1 e.2 = data e.1)
        ∧ s.ReadGives 1 s.blockSize (data 1)) := by
  refine ⟨⟨rfl, by unfold State.ReadGives; decide +kernel⟩, ?_⟩
  simp only [List.mem_cons, List.not_mem_nil, or_false, forall_eq_or_imp, forall_eq]
  have hc : ∀ bytes, (uneven .encode 1 bytes).ConfigInv := fun _ =>
    ⟨streamStart_config.1, streamStart_config.2, streamStart_config.3, streamStart_config.4, streamStart_config.5⟩
  refine ⟨⟨hc _, ?_⟩, ⟨hc _, ?_⟩, ⟨hc _, ?_⟩, ⟨hc _, ?_⟩⟩ <;> unfold State.ReadGives <;> decide +kernel

/-- A block's write and one of STREAM_SPLIT with another one after it, and a block's last write. -/
theorem witness_BlocksRunInSequence_writes :
    (waits (.writeBlock .encode 0 [(2, payload 64), (3, payload 64)] []) (streamStart 2 1)).job
        = some (Job.writeBlock .encode 0 ((2, payload 64) :: [(3, payload 64)]) [])
      ∧ (waits (.splitWrite 64 [(0, payload 64), (1, payload 64)] []) (streamStart 2 1)).job
        = some (Job.splitWrite 64 ((0, payload 64) :: [(1, payload 64)]) [])
      ∧ (let s := waits (.writeBlock .encode 0 [(2, payload 64)] []) (streamStart 2 1)
         s.job = some (.writeBlock .encode 0 [(2, payload 64)] []) ∧ s.readers .encode ≠ []) :=
  ⟨rfl, rfl, rfl, by decide +kernel⟩

/-- ENCODE on six shards, and STREAM_JOIN, have next states, and so has an answer to STREAM_SPLIT. -/
theorem witness_CommandsLeaveTheRest : (∃ t, exec .encode sixShards = .next t)
    ∧ (∃ t, exec .streamJoin (joinStreams 65) = .next t)
    ∧ ∃ t, (waits (.splitRead 65) (splitStreams 4 65)).answer .served = .next t :=
  ⟨(exists_next_of_meets (fun _ => true) (by decide +kernel)).imp fun _ h => h.1,
    (exists_next_of_meets (fun _ => true) (by decide +kernel)).imp fun _ h => h.1,
    (exists_next_of_meets (fun _ => true) (by decide +kernel)).imp fun _ h => h.1⟩

/-- `t` with the lengths of the shards `l` set to 0. -/
def erase (l : List Nat) (t : State) : State :=
  { t with slen := l.foldl (fun slen i => tableSet 0 i 0 slen) t.slen }

/-- No shard erased, as many as m admits, and both parity shards. -/
theorem witness_EncodeThenReconstruct :
    sixShards.StorageInv ∧ sixShards.ConfigInv ∧ sixShards.encodeVerdict = none
      ∧ ceilPow2 (sixShards.mpow + sixShards.k) ≤ sixShards.params.workBufs
      ∧ ∃ t, exec .encode sixShards = .next t ∧ ∀ erased ∈ ([[], [0, 3], [4, 5]] : List (List Nat)),
        erased.Nodup ∧ (∀ i ∈ erased, i < sixShards.n) ∧ erased.length ≤ sixShards.m
          ∧ ∀ i < sixShards.n, (erase erased t).slenAt i = if i ∈ erased then 0 else t.slenAt i := by
  obtain ⟨t, ht, hp⟩ := exists_next_of_meets (o := exec .encode sixShards)
    (fun t => decide (∀ erased ∈ ([[], [0, 3], [4, 5]] : List (List Nat)),
        erased.Nodup ∧ (∀ i ∈ erased, i < sixShards.n) ∧ erased.length ≤ sixShards.m
          ∧ ∀ i < sixShards.n, (erase erased t).slenAt i = if i ∈ erased then 0 else t.slenAt i))
    (by decide +kernel)
  exact ⟨sixShards_storage, sixShards_config, by decide +kernel, by decide +kernel, t, ht, of_decide_eq_true hp⟩

/-- A completed command about to see a read of STATUS, with a write of DLEN to come; one that waits; and two states
that differ in the latched PAR_IO and in what is not observed of DBUF. -/
theorem witness_CompletionRaisesInterrupt : (∃ t, exec .encode (runs [0x44]) = .next t ∧ t.busy = false
      ∧ t.params.mmioBase % 4 = 0 ∧ t.inputs = t.regRead 0x00C :: [.access (.write 0x44 4 5)]
      ∧ ∀ y ∈ [Input.access (.write 0x44 4 5)], y.writesCmd t.params = false)
    ∧ (∃ t, exec .streamJoin (joinStreams 65) = .next t ∧ t.busy = true)
    ∧ ∀ a < State.reset.dlen.toNat,
      ({ State.reset with dbuf := State.reset.dbuf.writeBytes 0 [1], parIoLatch := true } : State).dbuf.read a
        = State.reset.dbuf.read a :=
  ⟨by simpa using exists_next_of_meets (o := exec .encode (runs [0x44])) (fun t => decide (t.busy = false
      ∧ t.params.mmioBase % 4 = 0 ∧ t.inputs = t.regRead 0x00C :: [.access (.write 0x44 4 5)]
      ∧ ∀ y ∈ [Input.access (.write 0x44 4 5)], y.writesCmd t.params = false)) (by decide +kernel),
    exists_next_of_meets State.busy (by decide +kernel), fun a h => absurd h (Nat.not_lt_zero a)⟩

theorem witness_StatusRegister :
    (let s := withInputs [State.reset.regWrite 0x00C 0x42] sixShards
     s.params.mmioBase % 4 = 0 ∧ s.inputs = s.regWrite 0x00C 0x42 :: []) := ⟨rfl, rfl⟩

/-- An idle state and a busy one about to see a write to the first and the last register, a reserved offset, and
a read of the last word of the window; CTRL's bits where CAPS and CTRL are not 0. -/
theorem witness_WindowAccess :
    State.reset.params.mmioBase % 4 = 0 ∧ State.reset.seq = .idle
      ∧ (waits (.splitRead 1) State.reset).seq ≠ .idle
      ∧ (withInputs [State.reset.regWrite 0x064 5] State.reset).inputs
        = State.reset.regWrite (0x048 + 4 * (7 : Fin 8)) 5 :: []
      ∧ (withInputs [State.reset.regRead 0xFFC] State.reset).inputs = State.reset.regRead 0xFFC :: []
      ∧ (0xFFC : Nat) < 4096 ∧ 0xFFC % 4 = 0 ∧ (0x068 : Nat) ≤ 0xFFC := by decide

/-- The last slot's length, at SLOT_CAP and one above. -/
theorem witness_SlenAccess :
    Config.defaultParams.wellFormed = true ∧ Config.defaultParams.slenBase % 4 = 0 ∧ (65535 : Nat) < 65536
      ∧ (0x400000 : Word).toNat ≤ Config.defaultParams.slotCap
      ∧ ¬ (0x400001 : Word).toNat ≤ Config.defaultParams.slotCap := by decide

/-- The last byte and the last 8 bytes of the last slot and of the data buffer. -/
theorem witness_StorageAccess :
    (let p := Config.defaultParams
     p.wellFormed = true ∧ 65535 < 65536 ∧ (p.slotCap - 1) + 1 ≤ p.slotCap ∧ (p.slotCap - 8) + 8 ≤ p.slotCap
        ∧ (p.slotBase + 65535 * p.slotCap + (p.slotCap - 8)) % 8 = 0
        ∧ (p.dbufCap - 8) + 8 ≤ p.dbufCap ∧ (p.dbufBase + (p.dbufCap - 8)) % 8 = 0
        ∧ p.slotBase ≤ p.slotBase + 65536 * p.slotCap - 8
        ∧ p.slotBase + 65536 * p.slotCap - 8 + 8 ≤ p.slotBase + 65536 * p.slotCap) := by decide

/-- A byte access to the window, a misaligned one to the SLEN table, a 3-byte one to a slot and a misaligned one
to the data buffer. -/
theorem witness_RefusedAccesses :
    (let p := Config.defaultParams
     p.wellFormed = true ∧ p.mmioBase ≤ p.mmioBase + 4095 ∧ p.mmioBase + 4095 < p.mmioBase + 4096
        ∧ (1 : Nat) ≠ 4 ∧ (p.slenBase + 2) % 4 ≠ 0 ∧ ¬ 3 ∈ [1, 2, 4, 8]
        ∧ (p.dbufBase + p.dbufCap - 1) % 2 ≠ 0 ∧ p.dbufBase + p.dbufCap - 1 < p.dbufBase + p.dbufCap) := by
  decide

end Sys2Proof.Tests
end

section
/-! The rounding functions of the notation (00_scope.md R9): `roundUp` and `lowBit` beside the facts about
`ceilPow2` that Laws/ already holds. -/

namespace Sys2Proof

theorem dvd_roundUp (a b : Nat) : b ∣ roundUp a b :=
  Nat.dvd_mul_left b (ceilDiv a b)

theorem le_roundUp (a b : Nat) (hb : 0 < b) : a ≤ roundUp a b :=
  le_ceilDiv_mul a b hb

theorem roundUp_lt (a b : Nat) (hb : 0 < b) : roundUp a b < a + b :=
  calc roundUp a b ≤ a + b - 1 := Nat.div_mul_le_self (a + b - 1) b
    _ < a + b := by omega

/-- Written as 2^b times an odd number, i has bit b set and no bit below it. -/
theorem exists_lowBit_eq (i : Nat) (hi : 0 < i) :
    ∃ e, lowBit i = 2 ^ e ∧ i.testBit e = true ∧ ∀ j < e, i.testBit j = false := by
  obtain ⟨b, c, rfl⟩ := exists_odd_part i hi
  refine ⟨b, lowBit_mul b c, ?_, fun j hj => ?_⟩
  · rw [Nat.testBit_two_pow_mul, Nat.sub_self, Nat.testBit_zero]
    simp
  · rw [Nat.testBit_two_pow_mul, decide_eq_false (by omega), Bool.false_and]

/-- Settles O33, one conjunct for each function, from the lemmas about it. -/
theorem roundingFunctions : Obligations.RoundingFunctions :=
  ⟨fun x _ => ⟨ceilPow2_eq x, le_ceilPow2 x, fun e => ceilPow2_le_pow x e⟩,
    fun a b hb => ⟨dvd_roundUp a b, le_roundUp a b hb, roundUp_lt a b hb⟩,
    exists_lowBit_eq⟩

end Sys2Proof
end

section
/-! SUPPORT. What the writes of commands and of answered port operations keep, the CONFIG command apart, and what a
command leaves in the sequencer and in STATUS. -/

namespace Sys2Proof.Machine

/-- What the admitted writes, a completion and a wait keep, a command keeps. -/
theorem State.Ends.keeps {A W : Prim → Prop} (P : State → Prop)
    (hrun : ∀ p s, A p ∨ W p ∨ p.Cleanup → P s → P (p.run s))
    (hcomplete : ∀ s e, P s → P (s.complete e)) (hwait : ∀ s j, P s → P (s.waitOn j)) {s t : State}
    (h : s.Ends A W t) (hs : P s) : P t := by
  rcases h with ⟨u, e, hu, ht⟩ | ⟨u, j, hu, rfl⟩
  · have hP : P u := hu.keeps P (fun p v hp => hrun p v (.inl hp)) hs
    exact ht.keeps P (fun p v hp => hrun p v (.inr (.inr hp))) (hcomplete u e hP)
  · exact hwait u j (hu.keeps P (fun p v hp => hrun p v (.inr (.inl hp))) hs)

/-! Which pieces of state a write touches. -/

/-- The write stores no shard length above `cap`. -/
def Prim.LenBound (cap : Nat) : Prim → Prop
  | .slen _ v => v.toNat ≤ cap
  | _ => True

/-- The write leaves slot memory and the shard lengths as they are. -/
def Prim.SparesShards : Prim → Prop
  | .slot _ _ | .slen _ _ => False
  | _ => True

/-- The write leaves the ports as they are. -/
def Prim.SparesPorts : Prim → Prop
  | .inPort _ _ | .outPort _ _ => False
  | _ => True

/-- The write leaves VERIFY_OK as it is. -/
def Prim.SparesVerify : Prim → Prop
  | .verify _ => False
  | _ => True

/-- The write leaves STATUS and RESULT as they are, and, as every write does, the error registers. -/
def Prim.SparesResult : Prim → Prop
  | .verify _ | .result _ => False
  | _ => True

theorem Prim.SparesShards.lenBound (cap : Nat) : ∀ {p : Prim}, p.SparesShards → p.LenBound cap
  | .work _ _, _ | .stg _ _, _ | .stgAt _ _, _ | .result _, _ | .seq _, _ | .verify _, _ | .draw _, _
  | .inPort _ _, _ | .outPort _ _, _ | .spoilWork _, _ | .spoilStg, _ => trivial

theorem Prim.SparesShards.run (s : State) : ∀ {p : Prim}, p.SparesShards →
    (p.run s).slots = s.slots ∧ (p.run s).slen = s.slen
  | .work _ _, _ | .stg _ _, _ | .stgAt _ _, _ | .result _, _ | .seq _, _ | .verify _, _ | .draw _, _
  | .inPort _ _, _ | .outPort _ _, _ | .spoilWork _, _ | .spoilStg, _ => ⟨rfl, rfl⟩

theorem Prim.SparesPorts.run (s : State) : ∀ {p : Prim}, p.SparesPorts →
    (p.run s).inPorts = s.inPorts ∧ (p.run s).outPorts = s.outPorts
  | .slot _ _, _ | .work _ _, _ | .slen _ _, _ | .stg _ _, _ | .stgAt _ _, _ | .result _, _ | .seq _, _
  | .verify _, _ | .draw _, _ | .spoilWork _, _ | .spoilStg, _ => ⟨rfl, rfl⟩

theorem Prim.SparesVerify.run (s : State) : ∀ {p : Prim}, p.SparesVerify →
    (p.run s).status.verifyOk = s.status.verifyOk
  | .slot _ _, _ | .work _ _, _ | .slen _ _, _ | .stg _ _, _ | .stgAt _ _, _ | .result _, _ | .seq _, _
  | .draw _, _ | .inPort _ _, _ | .outPort _ _, _ | .spoilWork _, _ | .spoilStg, _ => rfl

/-! The writes of a command, and those of an answered port operation. -/

/-- The writes of VERIFY, of the commands with ports, and of all the others. -/
theorem Prim.of_cases {cap : Nat} {i : Instr} {p : Prim} (h : p.Of cap i) :
    i = .verify ∧ p.Verdict ∨ p.Entry ∨ p.Memory cap := by
  unfold Prim.Of at h
  split at h
  case h_1 => exact .inl ⟨rfl, h⟩
  case h_9 => exact .inr (.inr h)
  all_goals exact .inr (.inl h)

theorem Prim.Verdict.sparesShards : ∀ {p : Prim}, p.Verdict → p.SparesShards
  | .seq _, _ | .verify _, _ => trivial

theorem Prim.Verdict.sparesPorts : ∀ {p : Prim}, p.Verdict → p.SparesPorts
  | .seq _, _ | .verify _, _ => trivial

theorem Prim.Entry.sparesShards : ∀ {p : Prim}, p.Entry → p.SparesShards
  | .draw _, _ | .result _, _ => trivial

theorem Prim.Entry.sparesPorts : ∀ {p : Prim}, p.Entry → p.SparesPorts
  | .draw _, _ | .result _, _ => trivial

theorem Prim.Entry.sparesVerify : ∀ {p : Prim}, p.Entry → p.SparesVerify
  | .draw _, _ | .result _, _ => trivial

theorem Prim.Memory.lenBound {cap : Nat} : ∀ {p : Prim}, p.Memory cap → p.LenBound cap
  | .slen _ _, h => h
  | .slot _ _, _ | .work _ _, _ | .result _, _ | .seq _, _ => trivial

theorem Prim.Memory.sparesPorts {cap : Nat} : ∀ {p : Prim}, p.Memory cap → p.SparesPorts
  | .slot _ _, _ | .work _ _, _ | .slen _ _, _ | .result _, _ | .seq _, _ => trivial

theorem Prim.Memory.sparesVerify {cap : Nat} : ∀ {p : Prim}, p.Memory cap → p.SparesVerify
  | .slot _ _, _ | .work _ _, _ | .slen _ _, _ | .result _, _ | .seq _, _ => trivial

theorem Prim.Draw.sparesResult : ∀ {p : Prim}, p.Draw → p.SparesResult
  | .draw _, _ => trivial

theorem Prim.Port.sparesResult : ∀ {p : Prim}, p.Port → p.SparesResult
  | .stg _ _, _ | .stgAt _ _, _ | .draw _, _ | .inPort _ _, _ | .outPort _ _, _ => trivial

theorem Prim.PortEnd.sparesShards : ∀ {p : Prim}, p.PortEnd → p.SparesShards
  | .stg _ _, _ | .stgAt _ _, _ | .draw _, _ | .inPort _ _, _ | .outPort _ _, _ | .result _, _
  | .verify _, _ => trivial

theorem Prim.Cleanup.sparesShards : ∀ {p : Prim}, p.Cleanup → p.SparesShards
  | .spoilWork _, _ | .spoilStg, _ => trivial

theorem Prim.Cleanup.sparesPorts : ∀ {p : Prim}, p.Cleanup → p.SparesPorts
  | .spoilWork _, _ | .spoilStg, _ => trivial

theorem Prim.Cleanup.sparesVerify : ∀ {p : Prim}, p.Cleanup → p.SparesVerify
  | .spoilWork _, _ | .spoilStg, _ => trivial

/-- A command stores no shard length above the bound. -/
theorem Prim.command_lenBound {cap : Nat} {i : Instr} {p : Prim} (h : p.Of cap i ∨ p.Draw ∨ p.Cleanup) :
    p.LenBound cap := by
  rcases h with h | h | h
  · rcases Prim.of_cases h with ⟨-, h⟩ | h | h
    · exact h.sparesShards.lenBound cap
    · exact h.sparesShards.lenBound cap
    · exact h.lenBound
  · exact (p.draw_entry h).sparesShards.lenBound cap
  · exact h.sparesShards.lenBound cap

/-- A command moves no port before it waits on one. -/
theorem Prim.command_sparesPorts {cap : Nat} {i : Instr} {p : Prim} (h : p.Of cap i ∨ p.Draw ∨ p.Cleanup) :
    p.SparesPorts := by
  rcases h with h | h | h
  · rcases Prim.of_cases h with ⟨-, h⟩ | h | h
    · exact h.sparesPorts
    · exact h.sparesPorts
    · exact h.sparesPorts
  · exact (p.draw_entry h).sparesPorts
  · exact h.sparesPorts

/-- Only VERIFY writes VERIFY_OK when it is issued. -/
theorem Prim.command_sparesVerify {cap : Nat} {i : Instr} (hi : i ≠ .verify) {p : Prim}
    (h : p.Of cap i ∨ p.Draw ∨ p.Cleanup) : p.SparesVerify := by
  rcases h with h | h | h
  · rcases Prim.of_cases h with ⟨hv, -⟩ | h | h
    · exact absurd hv hi
    · exact h.sparesVerify
    · exact h.sparesVerify
  · exact (p.draw_entry h).sparesVerify
  · exact h.sparesVerify

/-- A command with ports touches no shard when it is issued. -/
theorem Prim.entry_sparesShards {p : Prim} (h : p.Entry ∨ p.Draw ∨ p.Cleanup) : p.SparesShards := by
  rcases h with h | h | h
  · exact h.sparesShards
  · exact (p.draw_entry h).sparesShards
  · exact h.sparesShards

/-- An answered port operation touches no shard. -/
theorem Prim.answer_sparesShards {p : Prim} (h : p.PortEnd ∨ p.Port ∨ p.Cleanup) : p.SparesShards := by
  rcases h with h | h | h
  · exact h.sparesShards
  · exact (p.port_portEnd h).sparesShards
  · exact h.sparesShards

/-! Completion. -/

theorem Err.codeDefined_code (e : Err) : codeDefined e.code = true := by
  cases e <;> rfl

theorem Err.code_ne_zero (e : Err) : e.code ≠ 0 := by
  cases e <;> simp [Err.code]

theorem State.complete_some_status (s : State) (e : Err) : (s.complete (some e)).status
    = { s.status with done := true, err := true, errCode := e.code, verifyOk := false } := by
  cases e <;> rfl

theorem State.complete_some_result (s : State) (e : Err) : (s.complete (some e)).result = 0 := by
  cases e <;> rfl

/-! CONFIG. -/

/-- What CONFIG leaves: the configuration of CFG_K and CFG_M, or none and an error (44_codec.md R230). -/
theorem exec_config_cases {s t : State} (h : exec .config s = .next t) :
    (∃ geo f, configOf s.cfg = .ok (geo, f)
        ∧ t = ((s.accept.setConfig geo f).setResult f.width).complete none)
      ∨ ∃ e, t = s.accept.clearConfig.complete (some e) := by
  change execConfig s = .next t at h
  unfold execConfig at h
  split at h
  case h_1 geo f hc => exact .inl ⟨geo, f, hc, (Host.Outcome.next.inj h).symm⟩
  case h_2 e _ => exact .inr ⟨e, (Host.Outcome.next.inj h).symm⟩

/-- What every other command can do, whatever the shard lengths it finds. -/
theorem exec_ends_any {i : Instr} {s t : State} (hi : i ≠ .config) (h : exec i s = .next t) :
    ∃ cap, s.accept.Ends (Prim.Of cap i) Prim.Draw t :=
  ⟨max (2 ^ 32) s.params.slotCap, exec_ends _ i s t hi
    (fun _ => (BitVec.isLt _).le.trans (le_max_left _ _)) (le_max_right _ _) h⟩

/-! What the host wrote. -/

/-- The operand registers, the registers that the host writes, the data buffer, OVR, the parameters, and what the
host does next are the same in `s` and `t`. -/
def State.KeepsHostSide (s t : State) : Prop :=
  t.args = s.args ∧ t.cfg = s.cfg ∧ t.ctrl = s.ctrl ∧ t.dlen = s.dlen ∧ t.dbuf = s.dbuf ∧ t.params = s.params
    ∧ t.status.ovr = s.status.ovr ∧ t.inputs = s.inputs ∧ t.readValue = s.readValue

/-- GEO, CONFIGURED and FIELD16 are the same in `s` and `t`. -/
def State.KeepsConfig (s t : State) : Prop :=
  t.geo = s.geo ∧ t.status.configured = s.status.configured ∧ t.status.field16 = s.status.field16

theorem State.KeepsHostSide.refl (s : State) : s.KeepsHostSide s :=
  ⟨rfl, rfl, rfl, rfl, rfl, rfl, rfl, rfl, rfl⟩

theorem State.KeepsHostSide.params {s t : State} (h : s.KeepsHostSide t) : t.params = s.params := by
  obtain ⟨-, -, -, -, -, hparams, -⟩ := h
  exact hparams

theorem State.KeepsHostSide.run {s u : State} (h : s.KeepsHostSide u) (p : Prim) : s.KeepsHostSide (p.run u) := by
  cases p <;> exact h

theorem State.KeepsHostSide.complete {s u : State} (h : s.KeepsHostSide u) (e : Option Err) :
    s.KeepsHostSide (u.complete e) := by
  cases e with
  | none => exact h
  | some e => cases e <;> exact h

theorem State.KeepsConfig.refl (s : State) : s.KeepsConfig s := ⟨rfl, rfl, rfl⟩

theorem State.KeepsConfig.run {s u : State} (h : s.KeepsConfig u) (p : Prim) : s.KeepsConfig (p.run u) := by
  cases p <;> exact h

theorem State.KeepsConfig.complete {s u : State} (h : s.KeepsConfig u) (e : Option Err) :
    s.KeepsConfig (u.complete e) := by
  cases e with
  | none => exact h
  | some e => cases e <;> exact h

theorem State.Ends.keepsHostSide {A W : Prim → Prop} {s t : State} (h : s.Ends A W t) : s.KeepsHostSide t :=
  h.keeps s.KeepsHostSide (fun p _ _ hu => hu.run p) (fun _ e hu => hu.complete e) (fun _ _ hu => hu)
    (.refl s)

theorem State.Ends.keepsConfig {A W : Prim → Prop} {s t : State} (h : s.Ends A W t) : s.KeepsConfig t :=
  h.keeps s.KeepsConfig (fun p _ _ hu => hu.run p) (fun _ e hu => hu.complete e) (fun _ _ hu => hu)
    (.refl s)

theorem exec_keepsHostSide {i : Instr} {s t : State} (h : exec i s = .next t) : s.KeepsHostSide t := by
  by_cases hi : i = .config
  · subst hi
    rcases exec_config_cases h with ⟨geo, f, -, rfl⟩ | ⟨e, rfl⟩
    · exact State.KeepsHostSide.refl s
    · exact State.KeepsHostSide.complete (u := s.accept.clearConfig) (.refl s) _
  · obtain ⟨cap, he⟩ := exec_ends_any hi h
    exact he.keepsHostSide

theorem exec_keepsConfig {i : Instr} {s t : State} (hi : i ≠ .config) (h : exec i s = .next t) :
    s.KeepsConfig t := by
  obtain ⟨cap, he⟩ := exec_ends_any hi h
  exact he.keepsConfig

theorem exec_keepsPorts {i : Instr} {s t : State} (h : exec i s = .next t) :
    t.inPorts = s.inPorts ∧ t.outPorts = s.outPorts := by
  by_cases hi : i = .config
  · subst hi
    rcases exec_config_cases h with ⟨geo, f, -, rfl⟩ | ⟨e, rfl⟩
    · exact ⟨rfl, rfl⟩
    · simp
  · obtain ⟨cap, he⟩ := exec_ends_any hi h
    refine he.keeps (fun u => u.inPorts = s.inPorts ∧ u.outPorts = s.outPorts) (fun p u hp hu => ?_)
      (fun u e hu => by simpa using hu) (fun _ _ hu => hu) ⟨rfl, rfl⟩
    obtain ⟨hin, hout⟩ := (Prim.command_sparesPorts hp).run u
    exact ⟨hin.trans hu.1, hout.trans hu.2⟩

/-- Only VERIFY leaves VERIFY_OK set when it is issued (10_state.md R40). -/
theorem exec_verifyOk {i : Instr} {s t : State} (hi : i ≠ .verify) (h : exec i s = .next t) :
    t.status.verifyOk = false := by
  by_cases hc : i = .config
  · subst hc
    rcases exec_config_cases h with ⟨geo, f, -, rfl⟩ | ⟨e, rfl⟩
    · rfl
    · rw [State.complete_some_status]
  · obtain ⟨cap, he⟩ := exec_ends_any hc h
    refine he.keeps (fun u => u.status.verifyOk = false) (fun p u hp hu => ?_) (fun u e hu => ?_)
      (fun _ _ hu => hu) rfl
    · exact ((Prim.command_sparesVerify hi hp).run u).trans hu
    · cases e with
      | none => exact hu
      | some e => rw [State.complete_some_status]

/-- A command that writes no shard leaves slot memory and the shard lengths as before. -/
theorem State.Ends.keepsShards {A W : Prim → Prop} {s t : State} (h : s.Ends A W t)
    (hp : ∀ p, A p ∨ W p ∨ p.Cleanup → p.SparesShards) : t.slots = s.slots ∧ t.slen = s.slen := by
  refine h.keeps (fun u => u.slots = s.slots ∧ u.slen = s.slen) (fun p u hpu hu => ?_)
    (fun u e hu => by simpa using hu) (fun _ _ hu => hu) ⟨rfl, rfl⟩
  obtain ⟨hslots, hslen⟩ := (hp p hpu).run u
  exact ⟨hslots.trans hu.1, hslen.trans hu.2⟩

/-- A stream command touches no shard when it is issued (10_state.md R57). -/
theorem stream_keepsShards {i : Instr} {s t : State}
    (hi : i ∈ [.streamEncode, .streamVerify, .streamReconstruct, .streamReconstructData, .streamSplit, .streamJoin])
    (h : exec i s = .next t) : t.slots = s.slots ∧ t.slen = s.slen := by
  have hentry : ∀ cap, Prim.Of cap i = Prim.Entry := by
    simp only [List.mem_cons, List.not_mem_nil, or_false] at hi
    rcases hi with rfl | rfl | rfl | rfl | rfl | rfl <;> exact fun _ => rfl
  obtain ⟨cap, he⟩ := exec_ends_any (by rintro rfl; simp at hi) h
  rw [hentry] at he
  exact he.keepsShards fun _ hp => Prim.entry_sparesShards hp

/-! What a command leaves in the sequencer and in STATUS. -/

/-- What acceptance leaves in STATUS, RESULT and the error registers, and a running command shows
(60_exceptions.md R343, 70_reset_and_hazards.md R390). -/
structure State.Quiet (s : State) : Prop where
  done : s.status.done = false
  err : s.status.err = false
  errCode : s.status.errCode = 0
  verifyOk : s.status.verifyOk = false
  result : s.result = 0
  errStream : s.errStream = 0
  errInner : s.errInner = 0

/-- What completion leaves (60_exceptions.md R344). -/
structure State.Completed (s : State) : Prop where
  seq : s.seq = .idle
  job : s.job = none
  done : s.status.done = true
  code : codeDefined s.status.errCode = true
  err : s.status.err = true ↔ s.status.errCode ≠ 0
  errResult : s.status.err = true → s.result = 0 ∧ s.status.verifyOk = false

/-- A command waits on a port (45_stream.md R297). -/
structure State.Waits (s : State) : Prop where
  seq : s.seq = .streamIo
  job : s.job.isSome = true
  quiet : s.Quiet

theorem State.quiet_accept (s : State) : s.accept.Quiet := ⟨rfl, rfl, rfl, rfl, rfl, rfl, rfl⟩

theorem State.Quiet.run {s : State} (h : s.Quiet) : ∀ {p : Prim}, p.SparesResult → (p.run s).Quiet
  | .slot _ _, _ | .work _ _, _ | .slen _ _, _ | .stg _ _, _ | .stgAt _ _, _ | .seq _, _ | .draw _, _
  | .inPort _ _, _ | .outPort _ _, _ | .spoilWork _, _ | .spoilStg, _ => { h with }

/-- No error is recorded in STATUS. -/
def State.NoError (s : State) : Prop :=
  s.status.err = false ∧ s.status.errCode = 0

theorem State.Quiet.noError {s : State} (h : s.Quiet) : s.NoError := ⟨h.err, h.errCode⟩

theorem State.NoError.run {s : State} (h : s.NoError) (p : Prim) : (p.run s).NoError := by
  cases p <;> exact h

theorem State.NoError.completed {s : State} (h : s.NoError) (e : Option Err) : (s.complete e).Completed := by
  obtain ⟨herr, hcode⟩ := h
  cases e with
  | none => exact
    { seq := rfl, job := rfl, done := rfl
      code := by simp [State.complete_none, hcode, codeDefined]
      err := by simp [State.complete_none, herr, hcode]
      errResult := by simp [State.complete_none, herr] }
  | some e => exact
    { seq := by simp, job := by simp
      done := by rw [State.complete_some_status]
      code := by rw [State.complete_some_status]; exact e.codeDefined_code
      err := by rw [State.complete_some_status]; exact ⟨fun _ => e.code_ne_zero, fun _ => rfl⟩
      errResult := fun _ => ⟨s.complete_some_result e, by rw [State.complete_some_status]⟩ }

theorem State.Completed.cleanup {s : State} (h : s.Completed) : ∀ {p : Prim}, p.Cleanup → (p.run s).Completed
  | .spoilWork _, _ | .spoilStg, _ => { h with }

/-- A command completes, or it waits and shows no result. -/
theorem State.Ends.settles {A W : Prim → Prop} (hW : ∀ p, W p → p.SparesResult) {s t : State} (hs : s.Quiet)
    (h : s.Ends A W t) : t.Completed ∨ t.Waits := by
  rcases h with ⟨u, e, hu, ht⟩ | ⟨u, j, hu, rfl⟩
  · have hno : u.NoError := hu.keeps State.NoError (fun p _ _ hv => hv.run p) hs.noError
    exact .inl (ht.keeps State.Completed (fun _ _ hp hv => hv.cleanup hp) (hno.completed e))
  · have hq : u.Quiet := hu.keeps State.Quiet (fun p _ hp hv => hv.run (hW p hp)) hs
    exact .inr ⟨rfl, rfl, { hq with }⟩

/-- What an issued command leaves (60_exceptions.md R343, R344). -/
theorem exec_settles {i : Instr} {s t : State} (h : exec i s = .next t) : t.Completed ∨ t.Waits := by
  by_cases hi : i = .config
  · subst hi
    rcases exec_config_cases h with ⟨geo, f, -, rfl⟩ | ⟨e, rfl⟩
    · exact .inl (State.NoError.completed ⟨rfl, rfl⟩ _)
    · exact .inl (State.NoError.completed ⟨rfl, rfl⟩ _)
  · obtain ⟨cap, he⟩ := exec_ends_any hi h
    exact he.settles (fun _ hp => hp.sparesResult) s.quiet_accept

/-- What an answer of the port environment leaves of a command that shows no result. -/
theorem State.answer_settles {s t : State} {r : Reply} (hs : s.Quiet) (h : s.answer r = .next t) :
    t.Completed ∨ t.Waits :=
  (s.answer_ends t r h).settles (fun _ hp => hp.sparesResult) hs

end Sys2Proof.Machine
end

section
/-! SUPPORT. The three invariants over every step: storage, control, configuration. A write of a field that no clause
of an invariant reads keeps each clause as it stands: the proof is then `{ h with }`, the clauses taken over. -/

namespace Sys2Proof.Machine

/-! Storage. -/

theorem State.slenAt_setSlen (s : State) (i : Nat) (v : Word) (j : Nat) :
    (s.setSlen i v).slenAt j = if j = i then v.toNat else s.slenAt j := by
  unfold State.slenAt State.slenWord
  rw [State.setSlen_slen, tableGet_tableSet]
  split <;> rfl

theorem State.StorageInv.setSlen {s : State} (h : s.StorageInv) (i : Nat) (v : Word)
    (hv : v.toNat ≤ s.params.slotCap) : (s.setSlen i v).StorageInv :=
  { h with
    slen := tableWf_tableSet _ _ _ _ h.slen
    slenBound := fun j => by
      rw [State.slenAt_setSlen]
      split
      · exact hv
      · exact h.slenBound j }

theorem State.StorageInv.setInPort {s : State} (h : s.StorageInv) (i : Nat) (p : InPort) :
    (s.setInPort i p).StorageInv :=
  { h with inPorts := tableWf_tableSet _ _ _ _ h.inPorts }

theorem State.StorageInv.setOutPort {s : State} (h : s.StorageInv) (j : Nat) (p : OutPort) :
    (s.setOutPort j p).StorageInv :=
  { h with outPorts := tableWf_tableSet _ _ _ _ h.outPorts }

/-- A write that stores no length above SLOT_CAP keeps the storage invariant. -/
theorem State.StorageInv.run {s : State} (h : s.StorageInv) (p : Prim) (hp : p.LenBound s.params.slotCap) :
    (p.run s).StorageInv := by
  cases p with
  | slot i bs => exact { h with slots := Memory.wf_writeBytes _ _ _ h.slots }
  | work i bs => exact { h with work := Memory.wf_writeBytes _ _ _ h.work }
  | slen i v => exact h.setSlen i v hp
  | stg i bs => exact { h with stg := Memory.wf_writeBytes _ _ _ h.stg }
  | stgAt a bs => exact { h with stg := Memory.wf_writeBytes _ _ _ h.stg }
  | inPort i p => exact h.setInPort i p
  | outPort j p => exact h.setOutPort j p
  | spoilWork need => exact { h with work := Memory.wf_spoil _ _ _ h.work }
  | spoilStg => exact { h with stg := Memory.wf_drawn _ }
  | result | seq | verify | draw => exact { h with }

theorem State.StorageInv.complete {s : State} (h : s.StorageInv) (e : Option Err) :
    (s.complete e).StorageInv := by
  cases e with
  | none => exact { h with }
  | some e => cases e <;> exact { h with }

theorem State.StorageInv.assertReset {s : State} (h : s.StorageInv) : s.assertReset.StorageInv where
  slots := Memory.wf_drawn _
  dbuf := Memory.wf_drawn _
  work := Memory.wf_drawn _
  stg := Memory.wf_drawn _
  slen := rfl
  inPorts := h.inPorts
  outPorts := h.outPorts
  slenBound := fun _ => Nat.zero_le _
  dlenBound := Nat.zero_le _

/-- A command whose writes store no length above SLOT_CAP keeps the storage invariant. -/
theorem State.Ends.storageInv {A W : Prim → Prop} {s t : State} (h : s.Ends A W t)
    (hp : ∀ p, A p ∨ W p ∨ p.Cleanup → p.LenBound s.params.slotCap) (hs : s.StorageInv) : t.StorageInv :=
  (h.keeps (fun u => u.StorageInv ∧ s.KeepsHostSide u)
    (fun p u hpu hu => by
      obtain ⟨hinv, hk⟩ := hu
      exact ⟨hinv.run p (hk.params ▸ hp p hpu), hk.run p⟩)
    (fun _ e hu => ⟨hu.1.complete e, hu.2.complete e⟩) (fun _ _ hu => ⟨{ hu.1 with }, hu.2⟩)
    ⟨hs, .refl s⟩).1

theorem State.StorageInv.exec {i : Instr} {s t : State} (h : s.StorageInv) (ht : exec i s = .next t) :
    t.StorageInv := by
  by_cases hi : i = .config
  · subst hi
    rcases exec_config_cases ht with ⟨geo, f, -, rfl⟩ | ⟨e, rfl⟩
    · exact { h with }
    · exact State.StorageInv.complete (s := s.accept.clearConfig) { h with } _
  · have he := exec_ends s.params.slotCap i s t hi h.slenBound le_rfl ht
    exact he.storageInv (fun _ hp => Prim.command_lenBound hp) { h with }

theorem State.StorageInv.answer {s t : State} {r : Reply} (h : s.StorageInv) (ht : s.answer r = .next t) :
    t.StorageInv :=
  (s.answer_ends t r ht).storageInv (fun _ hp => (Prim.answer_sparesShards hp).lenBound _) h

/-- An illegal command word leaves what acceptance and completion with an error leave. -/
theorem State.command_illegal (s : State) :
    (s.command fun _ => .error .illegalCommand) = s.failed .illegalCommand :=
  s.command_error _ _ rfl rfl

/-! Control. -/

theorem concOfWrite_pos (v : Word) : 0 < (concOfWrite v).toInt := by
  unfold concOfWrite
  split
  · decide
  · omega

theorem State.Completed.controlInv {s : State} (h : s.Completed) (hc : 0 < s.cfg.conc.toInt) : s.ControlInv where
  seq := .inl h.seq
  job := by simp [h.job, State.busy, h.seq]
  code := h.code
  err := h.err
  errResult := h.errResult
  running := fun hb => by simp [State.busy, h.seq] at hb
  conc := hc

theorem State.Waits.controlInv {s : State} (h : s.Waits) (hc : 0 < s.cfg.conc.toInt) : s.ControlInv where
  seq := .inr h.seq
  job := by simp [h.job, State.busy, h.seq]
  code := by rw [h.quiet.errCode]; rfl
  err := by simp [h.quiet.err, h.quiet.errCode]
  errResult := fun he => by simp [h.quiet.err] at he
  running := fun _ => ⟨h.quiet.result, h.quiet.errStream, h.quiet.errInner, h.quiet.done, h.quiet.err,
    h.quiet.verifyOk⟩
  conc := hc

/-- While a command runs, STATUS and RESULT show nothing. -/
theorem State.ControlInv.quiet {s : State} (h : s.ControlInv) (hb : s.busy = true) : s.Quiet := by
  obtain ⟨hresult, hstream, hinner, hdone, herr, hverify⟩ := h.running hb
  have hcode : s.status.errCode = 0 := by simpa [herr] using h.err
  exact ⟨hdone, herr, hcode, hverify, hresult, hstream, hinner⟩

theorem State.ControlInv.of_settles {s t : State} (h : s.ControlInv) (hk : s.KeepsHostSide t)
    (ht : t.Completed ∨ t.Waits) : t.ControlInv := by
  have hc : 0 < t.cfg.conc.toInt := by
    obtain ⟨-, hcfg, -⟩ := hk
    rw [hcfg]
    exact h.conc
  rcases ht with ht | ht
  · exact ht.controlInv hc
  · exact ht.controlInv hc

theorem State.ControlInv.answer {s t : State} {r : Reply} (h : s.ControlInv) (ht : s.answer r = .next t) :
    t.ControlInv := by
  have hb : s.busy = true := by
    rw [← h.job]
    cases hj : s.job with
    | none => rw [State.answer, hj] at ht; cases ht
    | some j => rfl
  exact h.of_settles (s.answer_ends t r ht).keepsHostSide (State.answer_settles (h.quiet hb) ht)

/-- A host write to STATUS can only clear DONE and OVR. -/
theorem State.ControlInv.writeOneToClear {s : State} (h : s.ControlInv) (v : Word) :
    ({ s with status := s.status.writeOneToClear v } : State).ControlInv := by
  refine { h with running := fun hb => ?_ }
  obtain ⟨hresult, hstream, hinner, hdone, herr, hverify⟩ := h.running hb
  exact ⟨hresult, hstream, hinner, by simp [Status.writeOneToClear, hdone], herr, hverify⟩

theorem State.ControlInv.assertReset (s : State) : s.assertReset.ControlInv where
  seq := .inl rfl
  job := rfl
  code := rfl
  err := by simp [State.assertReset, State.resetWith]
  errResult := fun he => by cases he
  running := fun hb => by cases hb
  conc := by simp [State.assertReset, State.resetWith]

/-! Configuration. -/

theorem State.ConfigInv.congr {s t : State} (h : s.ConfigInv) (hk : s.KeepsConfig t) : t.ConfigInv := by
  obtain ⟨hgeo, hconf, hfield⟩ := hk
  have hk : t.k = s.k := by unfold State.k; rw [hgeo]
  have hm : t.m = s.m := by unfold State.m; rw [hgeo]
  have hn : t.n = s.n := by unfold State.n; rw [hgeo]
  have hp : t.mpow = s.mpow := by unfold State.mpow; rw [hgeo]
  have hf : t.field = s.field := by unfold State.field; rw [hfield]
  constructor
  · rw [hconf, hgeo, hfield]; exact h.cleared
  · rw [hconf, hk, hm]; exact h.positive
  · rw [hconf, hn, hk, hm]; exact h.total
  · rw [hconf, hp, hm]; exact h.power
  · rw [hconf, hk, hm, hp, hf]; exact h.fits

/-- What CONFIG admits (44_codec.md R230, R231). -/
theorem configOf_ok {cfg : Cfg} {geo : Geo} {f : GF} (h : configOf cfg = .ok (geo, f)) :
    0 < cfg.k.toInt ∧ 0 < cfg.m.toInt ∧ cfg.k.toNat + cfg.m.toNat ≤ 65536
      ∧ selectField cfg.k.toNat cfg.m.toNat (ceilPow2 cfg.m.toNat) = some f
      ∧ geo = { k := cfg.k, m := cfg.m, n := BitVec.ofNat 32 (cfg.k.toNat + cfg.m.toNat)
                mpow := BitVec.ofNat 32 (ceilPow2 cfg.m.toNat) } := by
  unfold configOf at h
  simp only [check_bind] at h
  split at h
  case isFalse => cases h
  case isTrue hpos =>
    split at h
    case isFalse => cases h
    case isTrue hsum =>
      split at h
      case h_1 => cases h
      case h_2 hsel =>
        cases h
        simp only [Bool.and_eq_true, decide_eq_true_eq] at hpos hsum
        exact ⟨hpos.1, hpos.2, hsum, hsel, rfl⟩

theorem toNat_pos_of_toInt_pos {v : Word} (h : 0 < v.toInt) : 0 < v.toNat := by
  rw [Nat.pos_iff_ne_zero]
  intro hv
  rw [BitVec.toInt_eq_toNat_cond, hv] at h
  simp at h

theorem State.field_setConfig (s : State) (geo : Geo) (f : GF) : (s.setConfig geo f).field = f := by
  cases f <;> rfl

/-- A configuration that CONFIG admits is one of the invariant. -/
theorem State.ConfigInv.setConfig (s : State) {cfg : Cfg} {geo : Geo} {f : GF}
    (h : configOf cfg = .ok (geo, f)) : (s.setConfig geo f).ConfigInv := by
  obtain ⟨hk, hm, hsum, hsel, rfl⟩ := configOf_ok h
  have hM : ceilPow2 cfg.m.toNat ≤ 2 ^ 16 := ceilPow2_le_pow _ 16 (by omega)
  have hmpow : (BitVec.ofNat 32 (ceilPow2 cfg.m.toNat)).toNat = ceilPow2 cfg.m.toNat :=
    Nat.mod_eq_of_lt (by omega)
  have hn : (BitVec.ofNat 32 (cfg.k.toNat + cfg.m.toNat)).toNat = cfg.k.toNat + cfg.m.toNat :=
    Nat.mod_eq_of_lt (by omega)
  refine ⟨fun hc => (by cases hc), fun _ => ⟨toNat_pos_of_toInt_pos hk, toNat_pos_of_toInt_pos hm⟩,
    fun _ => ⟨hn, hn.trans_le hsum⟩, fun _ => hmpow, fun _ => ?_⟩
  rw [State.field_setConfig]
  unfold State.mpow
  rw [State.setConfig_geo, hmpow]
  exact hsel

theorem State.ConfigInv.clearConfig (s : State) : s.clearConfig.ConfigInv := by
  constructor
  case cleared => exact fun _ => ⟨rfl, rfl⟩
  all_goals exact fun hc => by cases hc

theorem State.ConfigInv.exec {i : Instr} {s t : State} (h : s.ConfigInv) (ht : exec i s = .next t) :
    t.ConfigInv := by
  by_cases hi : i = .config
  · subst hi
    rcases exec_config_cases ht with ⟨geo, f, hc, rfl⟩ | ⟨e, rfl⟩
    · exact (State.ConfigInv.setConfig s.accept hc).congr (.refl _)
    · exact (State.ConfigInv.clearConfig s.accept).congr (State.KeepsConfig.complete (.refl _) _)
  · exact h.congr (exec_keepsConfig hi ht)

end Sys2Proof.Machine

namespace Sys2Proof

open Machine

/-- Settles O8: each thing that a step can do keeps the one form of what it writes. -/
theorem stepKeepsStorage : Obligations.StepKeepsStorage := fun s t hs h =>
  step_keeps State.StorageInv
    (hin := fun _ _ h => { h with })
    (hrd := fun _ _ h => { h with })
    (hovr := fun _ h => { h with })
    (hslots := fun _ _ _ h => { h with slots := Memory.wf_writeBytes _ _ _ h.slots })
    (hdbuf := fun _ _ _ h => { h with dbuf := Memory.wf_writeBytes _ _ _ h.dbuf })
    (hslen := fun _ i v hv h => h.setSlen i v hv)
    (hctrl := fun _ _ h => { h with })
    (hst := fun _ _ h => { h with })
    (hk := fun _ _ h => { h with })
    (hm := fun _ _ h => { h with })
    (hb := fun _ _ h => { h with })
    (hc := fun _ _ h => { h with })
    (hd := fun _ _ hv h => { h with dlenBound := hv })
    (ha := fun _ _ _ h => { h with })
    (hexec := fun _ _ _ _ h ht => h.exec ht)
    (hill := fun u _ h => u.command_illegal ▸ { h with })
    (hans := fun _ _ _ h ht => h.answer ht)
    (hreset := fun _ h => h.assertReset)
    (hsi := fun _ i p h => h.setInPort i p)
    (hso := fun _ j p h => h.setOutPort j p) s t hs h

/-- Settles O9: a command leaves a completed or a waiting core, and a host write to STATUS or to a configuration
register leaves the sequencer alone. -/
theorem stepKeepsControl : Obligations.StepKeepsControl := fun s t hs h =>
  step_keeps State.ControlInv
    (hin := fun _ _ h => { h with })
    (hrd := fun _ _ h => { h with })
    (hovr := fun _ h => { h with })
    (hslots := fun _ _ _ h => { h with })
    (hdbuf := fun _ _ _ h => { h with })
    (hslen := fun _ _ _ _ h => { h with })
    (hctrl := fun _ _ h => { h with })
    (hst := fun _ v h => h.writeOneToClear v)
    (hk := fun _ _ h => { h with })
    (hm := fun _ _ h => { h with })
    (hb := fun _ _ h => { h with })
    (hc := fun _ v h => { h with conc := concOfWrite_pos v })
    (hd := fun _ _ _ h => { h with })
    (ha := fun _ _ _ h => { h with })
    (hexec := fun _ _ _ _ h ht => h.of_settles (exec_keepsHostSide ht) (exec_settles ht))
    (hill := fun u _ h => (u.accept.quiet_accept.noError.completed (some .illegalCommand)).controlInv h.conc)
    (hans := fun _ _ _ h ht => h.answer ht)
    (hreset := fun u _ => .assertReset u)
    (hsi := fun _ _ _ h => { h with })
    (hso := fun _ _ _ h => { h with }) s t hs h

/-- Settles O10: only CONFIG and reset write GEO, CONFIGURED or FIELD16. -/
theorem stepKeepsConfiguration : Obligations.StepKeepsConfiguration := fun s t hs h =>
  step_keeps State.ConfigInv
    (hin := fun _ _ h => { h with })
    (hrd := fun _ _ h => { h with })
    (hovr := fun _ h => { h with })
    (hslots := fun _ _ _ h => { h with })
    (hdbuf := fun _ _ _ h => { h with })
    (hslen := fun _ _ _ _ h => { h with })
    (hctrl := fun _ _ h => { h with })
    (hst := fun _ _ h => { h with })
    (hk := fun _ _ h => { h with })
    (hm := fun _ _ h => { h with })
    (hb := fun _ _ h => { h with })
    (hc := fun _ _ h => { h with })
    (hd := fun _ _ _ h => { h with })
    (ha := fun _ _ _ h => { h with })
    (hexec := fun _ _ _ _ h ht => h.exec ht)
    (hill := fun u _ h => u.command_illegal ▸ { h with })
    (hans := fun u t r h ht => h.congr (u.answer_ends t r ht).keepsConfig)
    (hreset := fun u _ => (State.ConfigInv.clearConfig u).congr ⟨rfl, rfl, rfl⟩)
    (hsi := fun _ _ _ h => { h with })
    (hso := fun _ _ _ h => { h with }) s t hs h

end Sys2Proof
end

section
/-! SUPPORT. The end of a run, and what is observed there (70_reset_and_hazards.md R396). -/

namespace Sys2Proof.Machine

/-- A read of a register is answered with its word. -/
theorem State.setRead_word (s : State) (w : Word) : s.setRead w.toNat = { s with readValue := w.setWidth 64 } := by
  rw [State.setRead, BitVec.ofNat_toNat]

theorem readsStatus_regRead (s : State) (hb : s.params.mmioBase % 4 = 0) :
    (s.regRead 0x00C).readsStatus s.params = true := by
  simp [State.regRead, Input.readsStatus, placeOf_window, wordAccessOk_aligned, hb]

/-- A completed core with a read of STATUS before it and no CMD write to come is at the end of a run. -/
theorem State.Completed.endsRun {t : State} (h : t.Completed) (rest : List Input) (hb : t.params.mmioBase % 4 = 0)
    (hi : t.inputs = t.regRead 0x00C :: rest) (hcmd : ∀ y ∈ rest, y.writesCmd t.params = false) :
    t.endsRun = true := by
  have hrest : (rest.all fun y => !y.writesCmd t.params) = true := by
    rw [List.all_eq_true]
    exact fun y hy => by rw [hcmd y hy]; rfl
  simp [State.endsRun, hi, readsStatus_regRead t hb, State.busy, h.seq, h.done, hrest]

/-- The observation of the run that such a core ends: STATUS has been read, nothing else has changed. -/
theorem State.Completed.observeRun {t : State} (h : t.Completed) (rest : List Input)
    (hb : t.params.mmioBase % 4 = 0) (hi : t.inputs = t.regRead 0x00C :: rest)
    (hcmd : ∀ y ∈ rest, y.writesCmd t.params = false) (n : Nat) :
    State.observeRun (n + 1) t
      = some ({ t with inputs := rest, readValue := t.statusWord.setWidth 64 } : State).observe := by
  have hstep : step t = .next { t with inputs := rest, readValue := t.statusWord.setWidth 64 } := by
    rw [step_regRead t 0x00C rest hb (by decide) rfl hi, State.setRead_word]
    rfl
  rw [State.observeRun, State.runEnd, hstep]
  simp [h.endsRun rest hb hi hcmd]

/-- A shard is observed up to its length (70_reset_and_hazards.md R396). -/
theorem State.observeShard_congr {s t : State} {i : Nat} (hparams : t.params = s.params) (hslen : t.slen = s.slen)
    (hbytes : ∀ j < s.slenAt i, t.bufByte (.slot i) j = s.bufByte (.slot i) j) :
    t.observeShard i = s.observeShard i := by
  have haddr : t.slotAddr i = s.slotAddr i := by unfold State.slotAddr; rw [hparams]
  have hword : t.slenWord i = s.slenWord i := by unfold State.slenWord; rw [hslen]
  have hlen : t.slenAt i = s.slenAt i := by unfold State.slenAt; rw [hword]
  unfold State.observeShard State.slotBytes
  rw [hword, hlen, haddr]
  congr 1
  refine Memory.readBytes_congr _ _ _ _ fun j hj => ?_
  have hbyte := hbytes j hj
  unfold State.bufByte at hbyte
  simp only [Buf.inWork, Buf.index, State.memByte, Bool.false_eq_true, if_false, haddr] at hbyte
  exact hbyte

/-- An observation reads no work or staging buffer, no byte at or beyond a length, and not how a command ran
(70_reset_and_hazards.md R396). -/
theorem State.observe_congr {s t : State}
    (h : t = { s with
      work := t.work, stg := t.stg, slots := t.slots, dbuf := t.dbuf, parIoLatch := t.parIoLatch, job := t.job,
      draws := t.draws, inputs := t.inputs, readValue := t.readValue })
    (hslots : ∀ i < 65536, ∀ j < s.slenAt i, t.bufByte (.slot i) j = s.bufByte (.slot i) j)
    (hdbuf : ∀ a < s.dlen.toNat, t.dbuf.read a = s.dbuf.read a) : t.observe = s.observe := by
  have hreg : t.readReg = s.readReg := by rw [h]; rfl
  have hport : t.observePort = s.observePort := by rw [h]; rfl
  have hdlen : t.dlen = s.dlen := by rw [h]
  have hbytes : t.dbuf.readBytes 0 s.dlen.toNat = s.dbuf.readBytes 0 s.dlen.toNat :=
    Memory.readBytes_congr _ _ _ _ fun a ha => by rw [Nat.zero_add]; exact hdbuf a ha
  have hshards : (List.range Config.nslot).map t.observeShard = (List.range Config.nslot).map s.observeShard :=
    List.map_congr_left fun i hi =>
      State.observeShard_congr (by rw [h]) (by rw [h]) (hslots i (List.mem_range.1 hi))
  unfold State.observe
  rw [hreg, hport, hdlen, hbytes, hshards]

end Sys2Proof.Machine

namespace Sys2Proof

open Machine

/-- Settles O53: the writes that a command and an answer are made of, sorted by what they touch. -/
theorem commandsLeaveTheRest : Obligations.CommandsLeaveTheRest := by
  refine ⟨fun i s t h => ?_, fun s t r h => ?_⟩
  · obtain ⟨hin, hout⟩ := exec_keepsPorts h
    exact ⟨exec_keepsHostSide h, hin, hout, fun hi => exec_keepsConfig hi h,
      fun hi => exec_verifyOk hi h, fun hi => stream_keepsShards hi h⟩
  · have he := s.answer_ends t r h
    exact ⟨he.keepsHostSide, he.keepsConfig,
      he.keepsShards fun p hp => Prim.answer_sparesShards hp⟩

/-- Settles O55: an issued command leaves a completed core, which the next STATUS read shows, or a waiting one. -/
theorem completionRaisesInterrupt : Obligations.CompletionRaisesInterrupt := by
  refine ⟨fun i s t h => ?_, fun s t h hslots hdbuf => State.observe_congr h hslots hdbuf⟩
  obtain ⟨-, -, hctrl, -⟩ := exec_keepsHostSide h
  rcases exec_settles h with ht | ht
  · refine .inl ⟨by simp [State.busy, ht.seq], ht.done, by simp [State.irq, ht.done, hctrl], fun herr => ?_,
      fun herr => (ht.errResult herr).1, fun rest hb hi hcmd n => ht.observeRun rest hb hi hcmd n⟩
    by_contra hcode
    rw [ht.err.2 hcode] at herr
    cases herr
  · obtain ⟨hdone, herr, hcode, -, hresult, -, -⟩ := ht.quiet
    exact .inr ⟨by simp [State.busy, ht.seq], hdone, herr, hcode, hresult, by simp [State.irq, hdone]⟩

end Sys2Proof
end

section
/-! SUPPORT. The host's accesses to the register window and to the SLEN table: the fields of the STATUS, CTRL and CAPS
words, and a step on an access (10_state.md R32 to R63). -/

namespace Sys2Proof.Machine

/-! Words with fields. -/

/-- A bit of the STATUS word: one of the seven flags, bit 7, a bit of ERRCODE, or 0 (10_state.md R36). -/
theorem State.getLsbD_statusWord (s : State) (i : Nat) :
    s.statusWord.getLsbD i
      = [s.busy, s.status.done, s.status.err, s.status.verifyOk, s.status.configured, s.status.field16,
          s.status.ovr, false].getD i (decide (i < 16) && s.status.errCode.getLsbD (i - 8)) := by
  unfold State.statusWord
  match i with
  | 0 | 1 | 2 | 3 | 4 | 5 | 6 | 7 =>
    repeat rw [BitVec.getLsbD_append]
    simp [-BitVec.getLsbD_eq_getElem]
  | i + 8 =>
    have hi : decide (i < 8) = decide (i + 8 < 16) := decide_eq_decide.2 (by omega)
    repeat rw [BitVec.getLsbD_append]
    simpa [-BitVec.getLsbD_eq_getElem] using congrArg (· && s.status.errCode.getLsbD i) hi

/-- A bit of the STATUS word above the flags. -/
theorem State.getLsbD_statusWord_high (s : State) (i : Nat) :
    s.statusWord.getLsbD (8 + i) = (decide (i < 8) && s.status.errCode.getLsbD i) := by
  have hi : decide (8 + i < 16) = decide (i < 8) := decide_eq_decide.2 (by omega)
  rw [State.getLsbD_statusWord, List.getD_eq_default _ _ (by simp), hi, Nat.add_sub_cancel_left]

theorem State.errCode_statusWord (s : State) : s.statusWord.extractLsb' 8 8 = s.status.errCode := by
  ext i hi
  rw [BitVec.getElem_extractLsb', State.getLsbD_statusWord_high, decide_eq_true hi, Bool.true_and,
    BitVec.getLsbD_eq_getElem hi]

theorem State.reserved_statusWord (s : State) : s.statusWord.extractLsb' 16 16 = 0 := by
  ext i hi
  rw [BitVec.getElem_extractLsb', show 16 + i = 8 + (8 + i) by omega, State.getLsbD_statusWord_high,
    decide_eq_false (by omega), Bool.false_and]
  exact (BitVec.getElem_zero hi).symm

/-- The fields of the CTRL word (10_state.md R35). -/
theorem Ctrl.toWord_fields (c : Ctrl) : c.toWord.getLsbD 0 = c.irqEn ∧ c.toWord.getLsbD 1 = c.parIo
    ∧ c.toWord.extractLsb' 2 30 = 0 := by
  obtain ⟨irqEn, parIo⟩ := c
  cases irqEn <;> cases parIo <;> decide

/-- The fields of the CAPS word (10_state.md R34). -/
theorem capsWord_fields (p : Params) :
    (capsWord p).extractLsb' 0 8 = 6
      ∧ (capsWord p).extractLsb' 8 8
        = (match p.vecW with | .scalar => 0 | .bytes16 => 1 | .bytes32 => 2 | .bytes64 => 4)
      ∧ (capsWord p).getLsbD 16 = true ∧ (capsWord p).getLsbD 17 = true
      ∧ (capsWord p).getLsbD 18 = decide (p.layout = .le16) ∧ (capsWord p).extractLsb' 19 13 = 0 := by
  unfold capsWord
  cases p.vecW <;> cases p.layout <;> decide

/-- A write to STATUS clears DONE and OVR where its bit is 1 (10_state.md R36). -/
theorem Status.writeOneToClear_eq (st : Status) (v : Word) :
    st.writeOneToClear v
      = { st with
          done := if v.getLsbD 1 then false else st.done
          ovr := if v.getLsbD 6 then false else st.ovr } := by
  unfold Status.writeOneToClear
  cases v.getLsbD 1 <;> cases v.getLsbD 6 <;> simp

/-! The register window. -/

theorem State.busy_eq_false {s : State} (h : s.seq = .idle) : s.busy = false := by simp [State.busy, h]

theorem State.busy_eq_true {s : State} (h : s.seq ≠ .idle) : s.busy = true := by simp [State.busy, h]

theorem State.unlessBusy_idle {s : State} (h : s.seq = .idle) (t : State) : s.unlessBusy t = t := by
  simp [State.unlessBusy, State.busy_eq_false h]

theorem State.unlessBusy_busy {s : State} (h : s.seq ≠ .idle) (t : State) : s.unlessBusy t = s.setOvr := by
  simp [State.unlessBusy, State.busy_eq_true h]

/-- The registers whose writes are dropped while BUSY = 1 (10_state.md R63). -/
def droppedOffsets : List Nat :=
  [0x008, 0x018, 0x020, 0x024, 0x028, 0x02C, 0x044, 0x048, 0x04C, 0x050, 0x054, 0x058, 0x05C, 0x060, 0x064]

theorem State.writeReg_busy {s : State} (h : s.seq ≠ .idle) {off : Nat} (ho : off ∈ droppedOffsets) (v : Word) :
    s.writeReg off v = .next s.setOvr := by
  simp only [droppedOffsets, List.mem_cons, List.not_mem_nil, or_false] at ho
  rcases ho with rfl | rfl | rfl | rfl | rfl | rfl | rfl | rfl | rfl | rfl | rfl | rfl | rfl | rfl | rfl
  case inr.inl => exact if_pos (State.busy_eq_true h)
  all_goals exact congrArg _ (s.unlessBusy_busy h _)

/-- The read-only registers and the reserved offsets (10_state.md R32, R62). -/
def IgnoredOffset (off : Nat) : Prop :=
  off ∈ [0x000, 0x004, 0x010, 0x014, 0x01C, 0x030, 0x034, 0x038, 0x03C, 0x040] ∨ 0x068 ≤ off

theorem State.writeReg_ignored (s : State) {off : Nat} (ho : IgnoredOffset off) (v : Word) :
    s.writeReg off v = .next s := by
  unfold IgnoredOffset at ho
  simp only [List.mem_cons, List.not_mem_nil, or_false] at ho
  unfold State.writeReg
  split
  case h_17 => rfl
  all_goals omega

theorem State.readReg_reserved (s : State) {off : Nat} (ho : off = 0x018 ∨ 0x068 ≤ off) : s.readReg off = 0 := by
  rcases ho with rfl | ho
  · rfl
  · unfold State.readReg
    split
    case h_27 => rfl
    all_goals omega

theorem State.writeReg_arg (s : State) (i : Fin 8) (v : Word) :
    s.writeReg (0x048 + 4 * i) v = .next (s.unlessBusy (s.setArg i v)) := by
  fin_cases i <;> rfl

theorem State.readReg_arg (s : State) (i : Fin 8) : s.readReg (0x048 + 4 * i) = s.args[i] := by
  fin_cases i <;> rfl

/-- A step on an idle core's write to a register that is dropped while BUSY = 1. -/
theorem step_regWrite_idle {s t : State} {off : Nat} {v : Word} {rest : List Input} (hidle : s.seq = .idle)
    (hb : s.params.mmioBase % 4 = 0) (h : off < 4096) (ho : off % 4 = 0)
    (hw : State.writeReg { s with inputs := rest } off v = .next (State.unlessBusy { s with inputs := rest } t))
    (hi : s.inputs = s.regWrite off v :: rest) : step s = .next t :=
  calc step s = State.writeReg { s with inputs := rest } off v := step_regWrite s off v rest hb h ho hi
    _ = .next (State.unlessBusy { s with inputs := rest } t) := hw
    _ = .next t := congrArg _ (State.unlessBusy_idle (s := { s with inputs := rest }) hidle t)

/-- A step on a host read of a register: the register's value, and nothing else changes. -/
theorem step_regRead_eq (s : State) (off : Nat) (rest : List Input) (hb : s.params.mmioBase % 4 = 0)
    (h : off < 4096) (ho : off % 4 = 0) (hi : s.inputs = s.regRead off :: rest) :
    step s = .next { s with inputs := rest, readValue := (s.readReg off).setWidth 64 } := by
  rw [step_regRead s off rest hb h ho hi, State.setRead_word]
  rfl

/-! The SLEN table. -/

theorem State.slenWord_setSlen (s : State) (i : Nat) (v : Word) (j : Nat) :
    (s.setSlen i v).slenWord j = if j = i then v else s.slenWord j :=
  tableGet_tableSet _ _ _ _ _

/-- A step on a host write to SLEN[i]. -/
theorem step_slenWrite (s : State) (i : Nat) (v : Word) (rest : List Input) (hp : s.params.wellFormed = true)
    (hb : s.params.slenBase % 4 = 0) (h : i < 65536)
    (hi : s.inputs = .access (.write (s.params.slenBase + 4 * i) 4 (v.setWidth 64)) :: rest) :
    step s = .next (State.writeSlen { s with inputs := rest } i v) := by
  have hv : BitVec.setWidth 32 (BitVec.setWidth 64 v) = v := by simp
  have hoff : 4 * i < 4 * Config.nslot := (Nat.mul_lt_mul_left (by decide)).2 h
  rw [step_cons s _ rest hi]
  simp only [State.handle, State.serve, State.hostWrite, placeOf_slen _ hp (4 * i) hoff,
    wordAccessOk_aligned _ (4 * i) hb (by omega), if_true, hv, Nat.mul_div_cancel_left i (by decide : 0 < 4)]

/-- A step on a host read of SLEN[i]. -/
theorem step_slenRead (s : State) (i : Nat) (rest : List Input) (hp : s.params.wellFormed = true)
    (hb : s.params.slenBase % 4 = 0) (h : i < 65536)
    (hi : s.inputs = .access (.read (s.params.slenBase + 4 * i) 4) :: rest) :
    step s = .next (State.storageRead { s with inputs := rest } (s.slenAt i)) := by
  have hoff : 4 * i < 4 * Config.nslot := (Nat.mul_lt_mul_left (by decide)).2 h
  rw [step_cons s _ rest hi]
  simp only [State.handle, State.serve, State.hostRead, placeOf_slen _ hp (4 * i) hoff,
    wordAccessOk_aligned _ (4 * i) hb (by omega), if_true, Nat.mul_div_cancel_left i (by decide : 0 < 4)]
  rfl

theorem State.storageRead_idle {s : State} (h : s.seq = .idle) (v : Nat) : s.storageRead v = s.setRead v := by
  simp [State.storageRead, State.busy_eq_false h]

theorem State.storageRead_busy {s : State} (h : s.seq ≠ .idle) (v : Nat) :
    s.storageRead v = s.setOvr.setRead 0 := by
  simp [State.storageRead, State.busy_eq_true h]

/-- A length of at most SLOT_CAP is stored, any other one is ignored (10_state.md R53). -/
theorem State.writeSlen_idle {s : State} (h : s.seq = .idle) (i : Nat) (v : Word) :
    { s.writeSlen i v with slen := s.slen } = s
      ∧ (s.writeSlen i v).slenWord i = (if v.toNat ≤ s.params.slotCap then v else s.slenWord i)
      ∧ ∀ j, j ≠ i → (s.writeSlen i v).slenWord j = s.slenWord j := by
  unfold State.writeSlen
  rw [State.unlessBusy_idle h]
  split
  · exact ⟨rfl, by rw [State.slenWord_setSlen, if_pos rfl],
      fun j hj => by rw [State.slenWord_setSlen, if_neg hj]⟩
  · exact ⟨rfl, rfl, fun _ _ => rfl⟩

end Sys2Proof.Machine

namespace Sys2Proof

open Machine

/-- Settles O56: the word bit by bit, and a step on a write of it. -/
theorem statusRegister : Obligations.StatusRegister := by
  refine fun s => ⟨⟨?_, s.getLsbD_statusWord 1, s.getLsbD_statusWord 2, s.getLsbD_statusWord 3,
    s.getLsbD_statusWord 4, s.getLsbD_statusWord 5, s.getLsbD_statusWord 6, s.getLsbD_statusWord 7,
    s.errCode_statusWord, s.reserved_statusWord⟩, fun v rest hb hi => ?_⟩
  · exact s.getLsbD_statusWord 0
  · rw [step_regWrite s 0x00C v rest hb (by decide) rfl hi, ← Status.writeOneToClear_eq]
    rfl

/-- Settles O57: a step on an access is the register's read or write. -/
theorem windowAccess : Obligations.WindowAccess := by
  intro s v rest hb
  refine ⟨fun hidle => ?_, fun off hoff halign => ⟨fun hbusy hi hmem => ?_, fun hi hro => ?_,
    fun hi => ⟨step_regRead_eq s off rest hb hoff halign hi, s.readReg_reserved⟩,
    ⟨rfl, rfl, rfl, rfl, rfl, rfl, rfl, rfl, rfl, rfl, rfl, rfl, rfl, rfl, rfl, s.readReg_arg⟩,
    capsWord_fields s.params, s.ctrl.toWord_fields⟩⟩
  · have hw := fun off t => step_regWrite_idle (off := off) (v := v) (rest := rest) (t := t) hidle hb
    refine ⟨hw _ _ (by decide) rfl rfl, hw _ _ (by decide) rfl rfl, hw _ _ (by decide) rfl rfl,
      hw _ _ (by decide) rfl rfl, hw _ _ (by decide) rfl rfl, hw _ _ (by decide) rfl ?_, fun i =>
      hw _ _ (by omega) (by omega) (State.writeReg_arg _ i v)⟩
    change Host.Outcome.next (State.unlessBusy _ (if v.toNat ≤ s.params.dbufCap then _ else _)) = _
    split <;> rfl
  · exact (step_regWrite s off v rest hb hoff halign hi).trans
      (State.writeReg_busy (s := { s with inputs := rest }) hbusy hmem v)
  · rw [step_regWrite s off v rest hb hoff halign hi, State.writeReg_ignored _ hro]

/-- Settles O58: a step on an access to SLEN[i] writes or reads the table's entry, or is dropped. -/
theorem slenAccess : Obligations.SlenAccess := by
  intro s i v rest hp hb h
  refine ⟨fun hi => ⟨fun hidle => ?_, fun hbusy => ?_⟩, fun hi => ⟨fun hidle => ?_, fun hbusy => ?_⟩⟩
  · exact ⟨_, step_slenWrite s i v rest hp hb h hi,
      State.writeSlen_idle (s := { s with inputs := rest }) hidle i v⟩
  · rw [step_slenWrite s i v rest hp hb h hi]
    exact congrArg _ (State.unlessBusy_busy (s := { s with inputs := rest }) hbusy _)
  · rw [step_slenRead s i rest hp hb h hi, State.storageRead_idle (s := { s with inputs := rest }) hidle]
    exact congrArg _ (State.setRead_word _ (s.slenWord i))
  · rw [step_slenRead s i rest hp hb h hi, State.storageRead_busy (s := { s with inputs := rest }) hbusy]
    rfl

end Sys2Proof
end

section
/-! SUPPORT. Port operations that fail, and readers that run out of bytes, one waiting job at a time (45_stream.md R290,
R291, R296, R299). -/

namespace Sys2Proof.Machine

/-! The ends that draw staging afresh only. -/

theorem State.spoilStg_keeps (t : State) (e : Option Err) :
    (t.complete e).spoilStg.inPorts = t.inPorts ∧ (t.complete e).spoilStg.outPorts = t.outPorts
      ∧ (t.complete e).spoilStg.work = t.work := by
  simp

theorem State.MovesIn.spoilStg {s t : State} {i : Nat} (h : s.MovesIn t i) (e : Option Err) :
    s.MovesIn (t.complete e).spoilStg i := by
  obtain ⟨hin, hout, -⟩ := t.spoilStg_keeps e
  refine ⟨hout.trans h.1, fun j hj => ?_⟩
  unfold State.inPort
  rw [hin]
  exact h.2 j hj

theorem State.MovesOut.spoilStg {s t : State} {j : Nat} {bytes : List Byte} (h : s.MovesOut t j bytes)
    (e : Option Err) : s.MovesOut (t.complete e).spoilStg j bytes := by
  obtain ⟨hin, hout, -⟩ := t.spoilStg_keeps e
  unfold State.MovesOut State.Wrote State.outPort at *
  rw [hin, hout]
  exact h

theorem State.SameButPorts.spoilStg_work {s t : State} (h : s.SameButPorts t) (e : Option Err) :
    (t.complete e).spoilStg.work = s.work := by
  rw [(t.spoilStg_keeps e).2.2, h]

/-- A stream command without work buffers that fails on a port or runs out of bytes. -/
theorem State.SameButPorts.spoilStg_fails {s t : State} (h : s.SameButPorts t) :
    (∀ (e : Err) (i : Nat) (c : Word), e.ioInfo = some (i, c) →
        (t.complete (some e)).spoilStg.EndsAs (s.portFailed e.code i c))
      ∧ ((t.complete (some .shortData)).spoilStg.EndsAs (s.aborted .shortData)) :=
  ⟨fun e i c he => (State.endsAs_failed h 0 e i c he).2, (State.endsAs_aborted h 0 .shortData rfl).2⟩

/-! Reads of a block. -/

theorem State.readStep_fails {s : State} {r : Reply} {i : Nat} {c : Word} {p : InPort}
    (hr : s.portRead r i s.blockSize = (.error c, s.setInPort i p)) (kind : BlockKind) (blocks : Nat)
    (rest : List Nat) (lens : List (Nat × Nat)) (fails : List (Nat × Word)) :
    s.readStep r kind blocks (i :: rest) lens fails
      = if s.parIoLatch then
          if rest.isEmpty then
            (s.setInPort i p).afterBatch .streamReadError (fails ++ [(i, c)]) (State.settleBlock kind blocks lens)
          else .wait ((s.setInPort i p).waitOn (.readBlock kind blocks rest lens (fails ++ [(i, c)])))
        else .fail (.streamReadError i c) (s.setInPort i p) := by
  simp only [State.readStep, hr]
  cases hp : s.parIoLatch with
  | false => rw [(s.setInPort i p).noteFail_sequential _ _ _ _ hp]; rfl
  | true => rw [(s.setInPort i p).noteFail_concurrent _ _ _ _ hp]; rfl

theorem State.readStep_gives {s : State} {i : Nat} {bytes : List Byte} {p : InPort}
    (hr : s.portRead .served i s.blockSize = (.ok bytes, s.setInPort i p)) (kind : BlockKind) (blocks : Nat)
    (lens : List (Nat × Nat)) (fails : List (Nat × Word)) :
    s.readStep .served kind blocks [i] lens fails
      = ((s.setInPort i p).setStgBytes i bytes).afterBatch .streamReadError fails
          (State.settleBlock kind blocks (lens ++ [(i, bytes.length)])) := by
  simp only [State.readStep, hr]
  rfl

theorem State.answer_readBlock {s : State} (r : Reply) {kind : BlockKind} {blocks : Nat} {todo : List Nat}
    {lens : List (Nat × Nat)} {fails : List (Nat × Word)}
    (hj : s.job = some (.readBlock kind blocks todo lens fails)) :
    s.answer r = .next (s.blockReply kind (s.readStep r kind blocks todo lens fails)) := by
  rw [State.answer, hj]

/-- A block's read that ends the command with a port's failure. -/
theorem State.read_ends {s t : State} {r : Reply} {kind : BlockKind} {blocks i : Nat} {rest : List Nat}
    {lens : List (Nat × Nat)} {fails : List (Nat × Word)} {e : Nat × Word}
    (hj : s.job = some (.readBlock kind blocks (i :: rest) lens fails))
    (hf : s.readStep r kind blocks (i :: rest) lens fails = .fail (.streamReadError e.1 e.2) t)
    (hs : s.SameButPorts t) (hm : s.MovesIn t i) :
    ∃ u, s.answer r = .next u ∧ u.EndsAs (s.portFailed 12 e.1 e.2) ∧ s.MovesIn u i
      ∧ s.KeepsWorkFrom u (s.blockNeed kind) := by
  refine ⟨State.endBlockCommand (s.blockNeed kind) (t.complete (some (.streamReadError e.1 e.2))), ?_,
    (State.endsAs_failed hs _ _ _ _ rfl).1, hm.endBlockCommand _ _, hs.keepsWork _ _⟩
  rw [State.answer_readBlock r hj, hf]
  rfl

/-! Writes of a block, and of STREAM_SPLIT. -/

theorem State.writeStep_fails (s : State) (c : Word) (n j : Nat) (bytes : List Byte)
    (rest : List (Nat × List Byte)) (fails : List (Nat × Word))
    (again : List (Nat × List Byte) → List (Nat × Word) → Job) (next : State → Flow) :
    s.writeStep (.failed c n) ((j, bytes) :: rest) fails again next
      = if s.parIoLatch then
          if rest.isEmpty then
            (s.portWrite (.failed c n) j bytes).2.afterBatch .streamWriteError (fails ++ [(j, c)]) next
          else .wait ((s.portWrite (.failed c n) j bytes).2.waitOn (again rest (fails ++ [(j, c)])))
        else .fail (.streamWriteError j c) (s.portWrite (.failed c n) j bytes).2 := by
  obtain ⟨p, hr⟩ := s.portWrite_failed c n j bytes
  simp only [State.writeStep, hr]
  cases hp : s.parIoLatch with
  | false => rw [(s.setOutPort j p).noteFail_sequential _ _ _ _ hp]; rfl
  | true => rw [(s.setOutPort j p).noteFail_concurrent _ _ _ _ hp]; rfl

/-- The jobs that write a list of blocks: again with what is left to write, and the work buffers that their end may
leave UNSPECIFIED. -/
def State.WriteJob (s : State) (again : List (Nat × List Byte) → List (Nat × Word) → Job) (need : Nat) : Prop :=
  (∃ kind blocks, again = .writeBlock kind blocks ∧ need = s.blockNeed kind)
    ∨ ∃ per, again = .splitWrite per ∧ need = 0

/-- The answer to a write, and how such a command ends. -/
theorem State.WriteJob.answer {s : State} {again : List (Nat × List Byte) → List (Nat × Word) → Job} {need : Nat}
    (h : s.WriteJob again need) {todo : List (Nat × List Byte)} {fails : List (Nat × Word)}
    (hj : s.job = some (again todo fails)) :
    ∃ cleanup next, (∀ r, s.answer r = .next ((s.writeStep r todo fails again next).settleWith cleanup))
      ∧ (cleanup = State.endBlockCommand need ∨ cleanup = State.spoilStg) := by
  rcases h with ⟨kind, blocks, rfl, rfl⟩ | ⟨per, rfl, -⟩
  · exact ⟨_, _, fun r => by rw [State.answer, hj]; rfl, .inl rfl⟩
  · exact ⟨_, _, fun r => by rw [State.answer, hj], .inr rfl⟩

/-- A write that ends the command with a port's failure. -/
theorem State.write_ends {s t : State} {cleanup : State → State} {need j : Nat} {taken : List Byte} {e : Nat × Word}
    (hc : cleanup = State.endBlockCommand need ∨ cleanup = State.spoilStg) (hs : s.SameButPorts t)
    (hm : s.MovesOut t j taken) :
    (cleanup (t.complete (some (.streamWriteError e.1 e.2)))).EndsAs (s.portFailed 13 e.1 e.2)
      ∧ s.MovesOut (cleanup (t.complete (some (.streamWriteError e.1 e.2)))) j taken
      ∧ s.KeepsWorkFrom (cleanup (t.complete (some (.streamWriteError e.1 e.2)))) need := by
  rcases hc with rfl | rfl
  · exact ⟨(State.endsAs_failed hs _ _ _ _ rfl).1, hm.endBlockCommand _ _, hs.keepsWork _ _⟩
  · exact ⟨hs.spoilStg_fails.1 _ _ _ rfl, hm.spoilStg _, fun a _ => by rw [hs.spoilStg_work]⟩

/-- A port's write moves that port only. -/
theorem State.sameButPorts_portWrite (s : State) (r : Reply) (j : Nat) (bytes : List Byte) :
    s.SameButPorts (s.portWrite r j bytes).2 := by
  cases r <;> rfl

/-! The six kinds of waiting jobs. -/

theorem readBlock_failures (s : State) (r : Reply) (kind : BlockKind) (blocks i : Nat) (rest : List Nat)
    (lens : List (Nat × Nat)) (fails : List (Nat × Word))
    (hj : s.job = some (.readBlock kind blocks (i :: rest) lens fails)) :
    let ends := fun (e : Nat × Word) => ∃ t, s.answer r = .next t ∧ t.EndsAs (s.portFailed 12 e.1 e.2)
      ∧ s.MovesIn t i ∧ s.KeepsWorkFrom t (s.blockNeed kind)
    (∀ c, s.ReadFails r i s.blockSize c →
      (s.parIoLatch = false → ends (i, c))
      ∧ (s.parIoLatch = true → rest ≠ [] → ∃ t, s.answer r = .next t ∧ s.MovesIn t i
        ∧ s.WaitsOn t (.readBlock kind blocks rest lens (fails ++ [(i, c)])))
      ∧ (s.parIoLatch = true → rest = [] → ∃ e ∈ fails ++ [(i, c)], ends e))
    ∧ ∀ bytes, r = .served → s.ReadGives i s.blockSize bytes → rest = [] → fails ≠ [] →
        ∃ e ∈ fails, ends e := by
  intro ends
  refine ⟨fun c hfail => ?_, fun bytes hr hgives hrest hne => ?_⟩
  · obtain ⟨p, hread⟩ := s.portRead_fails r i s.blockSize c hfail
    have hm := s.movesIn_setInPort i p
    have hstep := State.readStep_fails hread kind blocks rest lens fails
    refine ⟨fun hp => ?_, fun hp hrest => ?_, fun hp hrest => ?_⟩
    · simp only [hp, Bool.false_eq_true, if_false] at hstep
      exact State.read_ends (e := (i, c)) hj hstep rfl hm
    · simp only [hp, if_true, List.isEmpty_iff, hrest, if_false] at hstep
      refine ⟨(s.setInPort i p).waitOn (.readBlock kind blocks rest lens (fails ++ [(i, c)])), ?_, hm, rfl⟩
      rw [State.answer_readBlock r hj, hstep]
      rfl
    · subst hrest
      simp only [hp, if_true, List.isEmpty_nil] at hstep
      obtain ⟨e, he, d, hb⟩ := (s.setInPort i p).afterBatch_fails .streamReadError (fails ++ [(i, c)])
        (State.settleBlock kind blocks lens) (by simp)
      exact ⟨e, he, State.read_ends hj (hstep.trans hb) rfl hm⟩
  · subst hr hrest
    obtain ⟨p, hread, -⟩ := s.portRead_gives i s.blockSize bytes hgives
    have hstep := State.readStep_gives hread kind blocks lens fails
    obtain ⟨e, he, d, hb⟩ := ((s.setInPort i p).setStgBytes i bytes).afterBatch_fails .streamReadError fails
      (State.settleBlock kind blocks (lens ++ [(i, bytes.length)])) hne
    exact ⟨e, he, State.read_ends hj (hstep.trans hb) rfl (s.movesIn_setInPort i p)⟩

theorem writes_failures (s : State) (r : Reply) (again : List (Nat × List Byte) → List (Nat × Word) → Job)
    (need j : Nat) (bytes : List Byte) (rest : List (Nat × List Byte)) (fails : List (Nat × Word))
    (hw : s.WriteJob again need) (hj : s.job = some (again ((j, bytes) :: rest) fails)) :
    let ends := fun (e : Nat × Word) (taken : List Byte) => ∃ t, s.answer r = .next t
      ∧ t.EndsAs (s.portFailed 13 e.1 e.2) ∧ s.MovesOut t j taken ∧ s.KeepsWorkFrom t need
    (∀ c n, r = .failed c n →
      (s.parIoLatch = false → ends (j, c) (bytes.take n))
      ∧ (s.parIoLatch = true → rest ≠ [] → ∃ t, s.answer r = .next t ∧ s.MovesOut t j (bytes.take n)
        ∧ s.WaitsOn t (again rest (fails ++ [(j, c)])))
      ∧ (s.parIoLatch = true → rest = [] → ∃ e ∈ fails ++ [(j, c)], ends e (bytes.take n)))
    ∧ (r = .served → rest = [] → fails ≠ [] → ∃ e ∈ fails, ends e bytes) := by
  intro ends
  obtain ⟨cleanup, next, hans, hc⟩ := hw.answer hj
  have hends : ∀ (e : Nat × Word) (taken : List Byte) (t : State), s.SameButPorts t → s.MovesOut t j taken →
      s.writeStep r ((j, bytes) :: rest) fails again next = .fail (.streamWriteError e.1 e.2) t → ends e taken :=
    fun e taken t hs hm hf => ⟨_, (hans r).trans (by rw [hf]; rfl), State.write_ends hc hs hm⟩
  have hs := s.sameButPorts_portWrite r j bytes
  have hm := s.portWrite_movesOut r j bytes
  refine ⟨fun c n hr => ?_, fun hr hrest hne => ?_⟩
  · subst hr
    have hstep := s.writeStep_fails c n j bytes rest fails again next
    refine ⟨fun hp => ?_, fun hp hrest => ?_, fun hp hrest => ?_⟩
    · simp only [hp, Bool.false_eq_true, if_false] at hstep
      exact hends (j, c) _ _ hs hm hstep
    · simp only [hp, if_true, List.isEmpty_iff, hrest, if_false] at hstep
      exact ⟨(s.portWrite (.failed c n) j bytes).2.waitOn (again rest (fails ++ [(j, c)])),
        (hans _).trans (by rw [hstep]; rfl), hm, rfl⟩
    · subst hrest
      simp only [hp, if_true, List.isEmpty_nil] at hstep
      obtain ⟨e, he, d, hb⟩ := (s.portWrite (.failed c n) j bytes).2.afterBatch_fails .streamWriteError
        (fails ++ [(j, c)]) next (by simp)
      exact ⟨e, he, hends e _ { (s.portWrite (.failed c n) j bytes).2 with draws := d } rfl hm (hstep.trans hb)⟩
  · subst hr hrest
    obtain ⟨e, he, d, hb⟩ := (s.portWrite .served j bytes).2.afterBatch_fails .streamWriteError fails next hne
    exact ⟨e, he, hends e _ { (s.portWrite .served j bytes).2 with draws := d } rfl hm hb⟩

/-- STREAM_SPLIT or STREAM_JOIN ends with a read's failure. -/
theorem read_fails_spoilStg {s : State} {r : Reply} {i : Nat} {c : Word} {p : InPort} {f : Flow}
    (hf : f = .fail (.streamReadError i c) (s.setInPort i p))
    (hans : s.answer r = .next (f.settleWith State.spoilStg)) :
    ∃ t, s.answer r = .next t ∧ t.EndsAs (s.portFailed 12 i c) ∧ s.MovesIn t i ∧ t.work = s.work := by
  have hs : s.SameButPorts (s.setInPort i p) := rfl
  subst hf
  exact ⟨_, hans, hs.spoilStg_fails.1 _ _ _ rfl, (s.movesIn_setInPort i p).spoilStg _, hs.spoilStg_work _⟩

/-- STREAM_SPLIT or STREAM_JOIN ends because its reader has too few bytes. -/
theorem read_short_spoilStg {s : State} {r : Reply} {i : Nat} {p : InPort} {f : Flow}
    (hf : f = .fail .shortData (s.setInPort i p)) (hans : s.answer r = .next (f.settleWith State.spoilStg)) :
    ∃ t, s.answer r = .next t ∧ t.EndsAs (s.aborted .shortData) ∧ s.MovesIn t i ∧ t.work = s.work := by
  have hs : s.SameButPorts (s.setInPort i p) := rfl
  subst hf
  exact ⟨_, hans, hs.spoilStg_fails.2, (s.movesIn_setInPort i p).spoilStg _, hs.spoilStg_work _⟩

theorem splitRead_failures (s : State) (r : Reply) (size : Nat) (hj : s.job = some (.splitRead size)) :
    (∀ c, s.ReadFails r 0 size c → ∃ t, s.answer r = .next t ∧ t.EndsAs (s.portFailed 12 0 c)
      ∧ s.MovesIn t 0 ∧ t.work = s.work)
    ∧ ∀ bytes, r = .served → s.ReadGives 0 size bytes → bytes.length < size → ∃ t, s.answer r = .next t
      ∧ t.EndsAs (s.aborted .shortData) ∧ s.MovesIn t 0 ∧ t.work = s.work := by
  have hans : s.answer r = .next ((s.splitReadReply r size).settleWith State.spoilStg) := by
    rw [State.answer, hj]
  refine ⟨fun c hfail => ?_, fun bytes hr hgives hlen => ?_⟩
  · obtain ⟨p, hread⟩ := s.portRead_fails r 0 size c hfail
    exact read_fails_spoilStg (by simp only [State.splitReadReply, hread]; rfl) hans
  · subst hr
    obtain ⟨p, hread, -⟩ := s.portRead_gives 0 size bytes hgives
    exact read_short_spoilStg (by simp only [State.splitReadReply, hread, hlen, if_true]; rfl) hans

theorem joinWrite_failures (s : State) (j rem outSize n : Nat) (c : Word)
    (hj : s.job = some (.joinWrite j rem outSize)) :
    ∃ t, s.answer (.failed c n) = .next t ∧ t = { s.portFailed 13 0 c with outPorts := t.outPorts }
      ∧ s.MovesOut t 0 ((s.joinBytes j rem).take n) := by
  refine ⟨(s.portWrite (.failed c n) 0 (s.joinBytes j rem)).2.portFailed 13 0 c, ?_, rfl,
    s.portWrite_movesOut (.failed c n) 0 (s.joinBytes j rem)⟩
  rw [State.answer, hj]
  rfl

/-- STREAM_JOIN has no bytes left to give (45_stream.md R315). -/
theorem State.streamJoinAdvance_short {s : State} {j rem total got : Nat} (hgot : got < min s.blockSize rem)
    (hlast : ¬ (j + 1 < s.k ∧ (s.inPort (j + 1)).conn = true)) :
    s.streamJoinAdvance j rem total got = .fail .shortData s := by
  have hrem : ¬ rem - got = 0 := by omega
  unfold State.streamJoinAdvance State.streamJoinNext State.inConn
  rw [if_pos hgot, if_neg hrem, if_neg hlast]

theorem streamJoinRead_failures (s : State) (r : Reply) (j rem total : Nat)
    (hj : s.job = some (.streamJoinRead j rem total)) :
    (∀ c, s.ReadFails r j (min s.blockSize rem) c → ∃ t, s.answer r = .next t
      ∧ t.EndsAs (s.portFailed 12 j c) ∧ s.MovesIn t j ∧ t.work = s.work)
    ∧ (r = .served → s.left j = [] → (s.inPort j).term = .eof → 0 < min s.blockSize rem →
      ¬ (j + 1 < s.k ∧ (s.inPort (j + 1)).conn = true) → ∃ t, s.answer r = .next t
        ∧ t.EndsAs (s.aborted .shortData) ∧ s.MovesIn t j ∧ t.work = s.work) := by
  have hans : s.answer r = .next ((s.streamJoinReadReply r j rem total).settleWith State.spoilStg) := by
    rw [State.answer, hj]
  refine ⟨fun c hfail => ?_, fun hr hleft hterm hpos hlast => ?_⟩
  · obtain ⟨p, hread⟩ := s.portRead_fails r j _ c hfail
    exact read_fails_spoilStg (by simp only [State.streamJoinReadReply, hread]; rfl) hans
  · subst hr
    have hgives : s.ReadGives j (min s.blockSize rem) [] := ⟨by rw [hleft, List.take_nil], fun _ => hterm⟩
    obtain ⟨p, hread, -⟩ := s.portRead_gives j _ [] hgives
    have hnext : (s.setInPort j p).inPort (j + 1) = s.inPort (j + 1) :=
      (s.movesIn_setInPort j p).2 (j + 1) (by omega)
    have hshort := State.streamJoinAdvance_short (s := s.setInPort j p) (j := j) (total := total) hpos
      (by rw [hnext]; exact hlast)
    exact read_short_spoilStg (by simp only [State.streamJoinReadReply, hread]; exact hshort) hans

theorem streamJoinWrite_failures (s : State) (j rem total : Nat) (bytes : List Byte)
    (hj : s.job = some (.streamJoinWrite j rem total bytes)) :
    (∀ c n, ∃ t, s.answer (.failed c n) = .next t ∧ t.EndsAs (s.portFailed 13 0 c)
      ∧ s.MovesOut t 0 (bytes.take n) ∧ t.work = s.work)
    ∧ (bytes.length < min s.blockSize rem → ¬ (j + 1 < s.k ∧ (s.inPort (j + 1)).conn = true) →
      ∃ t, s.answer .served = .next t ∧ t.EndsAs (s.aborted .shortData) ∧ s.MovesOut t 0 bytes
        ∧ t.work = s.work) := by
  have hans : ∀ r, s.answer r = .next ((s.streamJoinWriteReply r j rem total bytes).settleWith State.spoilStg) :=
    fun r => by rw [State.answer, hj]
  refine ⟨fun c n => ?_, fun hgot hlast => ?_⟩
  · have hs := s.sameButPorts_portWrite (.failed c n) 0 bytes
    have hm := s.portWrite_movesOut (.failed c n) 0 bytes
    exact ⟨_, hans _, hs.spoilStg_fails.1 (.streamWriteError 0 c) 0 c rfl, hm.spoilStg _, hs.spoilStg_work _⟩
  · have hs := s.sameButPorts_portWrite .served 0 bytes
    have hm := s.portWrite_movesOut .served 0 bytes
    have hshort : s.streamJoinWriteReply .served j rem total bytes
        = .fail .shortData (s.portWrite .served 0 bytes).2 :=
      State.streamJoinAdvance_short (s := (s.portWrite .served 0 bytes).2) hgot hlast
    exact ⟨_, (hans .served).trans (by rw [hshort]; rfl), hs.spoilStg_fails.2, hm.spoilStg _, hs.spoilStg_work _⟩

end Sys2Proof.Machine

namespace Sys2Proof

open Machine

/-- Settles O43, one conjunct for each kind of waiting job. -/
theorem portFailuresEndCommands : Obligations.PortFailuresEndCommands :=
  ⟨readBlock_failures, writes_failures, splitRead_failures, joinWrite_failures, streamJoinRead_failures,
    streamJoinWrite_failures⟩

end Sys2Proof
end

section
/-! SUPPORT. Host accesses to shard storage and the elements that bytes hold (20_memory.md R81 to R92). -/

namespace Sys2Proof.Machine

/-! Elements. -/

/-- The 16-bit element of a low and a high byte, as a number (20_memory.md R84, R85). -/
theorem byte_join_eq (lo hi : Byte) : lo.toNat ||| hi.toNat <<< 8 = lo.toNat + 256 * hi.toNat := by
  rw [Nat.or_comm, ← Nat.shiftLeft_add_eq_or_of_lt lo.isLt, Nat.shiftLeft_eq]
  omega

theorem getD_drop (bs : List Byte) (n j : Nat) : (bs.drop n).getD j 0 = bs.getD (n + j) 0 := by
  simp [List.getD_eq_getElem?_getD]

/-- Element c·32 + i of 64-byte chunks (20_memory.md R84). -/
theorem getD_split64Elems {n c i : Nat} (bs : List Byte) (hlen : 64 * n ≤ bs.length) (hc : c < n) (hi : i < 32) :
    (split64Elems n bs).getD (32 * c + i) 0
      = (bs.getD (64 * c + i) 0).toNat + 256 * (bs.getD (64 * c + 32 + i) 0).toNat := by
  induction n generalizing c bs with
  | zero => omega
  | succ n ih =>
    have hchunk : (List.zipWith (fun lo hi : Byte => lo.toNat ||| hi.toNat <<< 8) (bs.take 32)
        ((bs.drop 32).take 32)).length = 32 := by simp; omega
    rw [split64Elems]
    cases c with
    | zero =>
      have hlo : i < bs.length := by omega
      have hhi : 32 + i < bs.length := by omega
      rw [List.getD_append _ _ _ _ (by omega), List.getD_eq_getElem _ _ (by omega), List.getElem_zipWith,
        byte_join_eq]
      simp [hlo, hhi]
    | succ c =>
      rw [List.getD_append_right _ _ _ _ (by omega), hchunk, show 32 * (c + 1) + i - 32 = 32 * c + i by omega,
        ih (bs.drop 64) (by simp; omega) (by omega), getD_drop, getD_drop,
        show 64 + (64 * c + i) = 64 * (c + 1) + i by omega,
        show 64 + (64 * c + 32 + i) = 64 * (c + 1) + 32 + i by omega]

/-- Element j of little-endian 16-bit words (20_memory.md R85). -/
theorem getD_le16Elems {n j : Nat} (bs : List Byte) (h : j < n) :
    (le16Elems n bs).getD j 0 = (bs.getD (2 * j) 0).toNat + 256 * (bs.getD (2 * j + 1) 0).toNat := by
  induction n generalizing j bs with
  | zero => omega
  | succ n ih =>
    cases j with
    | zero => exact byte_join_eq _ _
    | succ j =>
      rw [le16Elems, List.getD_cons_succ, ih (bs.drop 2) (by omega), getD_drop, getD_drop,
        show 2 + 2 * j = 2 * (j + 1) by omega, show 2 + (2 * j + 1) = 2 * (j + 1) + 1 by omega]

/-! Little-endian bytes in a memory. -/

theorem Memory.read_writeBytes_leBytes (m : Memory) (off width : Nat) (v : DWord) {b : Nat} (h : b < width) :
    (m.writeBytes off (leBytes width v.toNat)).read (off + b) = v.extractLsb' (8 * b) 8 := by
  rw [Memory.read_writeBytes, length_leBytes, if_pos (by omega), Nat.add_sub_cancel_left, getD_leBytes _ _ _ h]
  apply BitVec.eq_of_toNat_eq
  rw [BitVec.toNat_ofNat, BitVec.extractLsb'_toNat, Nat.shiftRight_eq_div_pow, Nat.pow_mul]

theorem Memory.read_writeBytes_leBytes_apart (m : Memory) (off width v : Nat) {a : Nat}
    (h : a < off ∨ off + width ≤ a) : (m.writeBytes off (leBytes width v)).read a = m.read a := by
  rw [Memory.read_writeBytes, length_leBytes, if_neg (by omega)]

/-- Reading back the value that was written. -/
theorem Memory.leValue_readBytes_writeBytes (m : Memory) (off width v : Nat) :
    leValue ((m.writeBytes off (leBytes width v)).readBytes off width) = v % 2 ^ (8 * width) := by
  have hread := m.readBytes_writeBytes_same off (leBytes width v)
  rw [length_leBytes] at hread
  rw [hread, leValue_leBytes, Nat.pow_mul]

/-! Accesses to slot data and the data buffer. -/

theorem dataAccessOk_iff {addr width : Nat} :
    dataAccessOk addr width = true ↔ width ∈ [1, 2, 4, 8] ∧ addr % width = 0 := by
  simp [dataAccessOk, or_assoc]

theorem wordAccessOk_eq_false {addr off width : Nat} (h : width ≠ 4 ∨ addr % 4 ≠ 0) :
    wordAccessOk addr off width = false := by
  rcases h with h | h <;> simp [wordAccessOk, h]

theorem pos_of_dataAccessOk {addr width : Nat} (h : dataAccessOk addr width = true) : 0 < width :=
  Nat.pos_of_ne_zero fun h0 => by simp [h0, dataAccessOk] at h

section Storage

variable {s : State} {width : Nat}

/-- A permitted access at offset `off` of slot data. -/
theorem State.access_slots (s : State) {off : Nat} (hp : s.params.wellFormed = true)
    (hok : dataAccessOk (s.params.slotBase + off) width = true)
    (hfit : off + width ≤ Config.nslot * s.params.slotCap) :
    (∀ v, s.hostWrite (s.params.slotBase + off) width v
      = .next (s.unlessBusy { s with slots := s.slots.writeBytes off (leBytes width v.toNat) }))
    ∧ s.hostRead (s.params.slotBase + off) width
      = .next (s.storageRead (leValue (s.slots.readBytes off width))) := by
  have hpos := pos_of_dataAccessOk hok
  simp [State.hostWrite, State.hostRead, placeOf_slots _ hp off (by omega), hok, hfit]

/-- A permitted access at offset `off` of the data buffer. -/
theorem State.access_dbuf (s : State) {off : Nat} (hp : s.params.wellFormed = true)
    (hok : dataAccessOk (s.params.dbufBase + off) width = true) (hfit : off + width ≤ s.params.dbufCap) :
    (∀ v, s.hostWrite (s.params.dbufBase + off) width v
      = .next (s.unlessBusy { s with dbuf := s.dbuf.writeBytes off (leBytes width v.toNat) }))
    ∧ s.hostRead (s.params.dbufBase + off) width
      = .next (s.storageRead (leValue (s.dbuf.readBytes off width))) := by
  have hpos := pos_of_dataAccessOk hok
  simp [State.hostWrite, State.hostRead, placeOf_dbuf _ hp off (by omega), hok, hfit]

/-- A step on an idle core's write of shard storage that leaves `t`. -/
theorem step_write_idle {t : State} {addr : Nat} {v : DWord} {rest : List Input}
    (hin : s.inputs = .access (.write addr width v) :: rest) (hidle : s.seq = .idle)
    (h : State.hostWrite { s with inputs := rest } addr width v
      = .next (State.unlessBusy { s with inputs := rest } t)) : step s = .next t := by
  rw [State.unlessBusy_idle (s := { s with inputs := rest }) hidle] at h
  exact (step_cons s _ rest hin).trans h

/-- A step on an idle core's read of shard storage that gives `n`. -/
theorem step_read_idle {addr n : Nat} {rest : List Input}
    (hin : s.inputs = .access (.read addr width) :: rest) (hidle : s.seq = .idle)
    (h : State.hostRead { s with inputs := rest } addr width
      = .next (State.storageRead { s with inputs := rest } n)) :
    step s = .next { s with inputs := rest, readValue := BitVec.ofNat 64 n } := by
  rw [State.storageRead_idle (s := { s with inputs := rest }) hidle] at h
  exact (step_cons s _ rest hin).trans h

/-- While BUSY = 1 a permitted access to slot data or the data buffer is dropped (20_memory.md R92). -/
theorem State.storage_busy (hp : s.params.wellFormed = true) (hbusy : s.seq ≠ .idle) {addr : Nat}
    (hok : dataAccessOk addr width = true)
    (hin : s.params.slotBase ≤ addr ∧ addr + width ≤ s.params.slotBase + Config.nslot * s.params.slotCap
      ∨ s.params.dbufBase ≤ addr ∧ addr + width ≤ s.params.dbufBase + s.params.dbufCap) :
    (∀ v, s.hostWrite addr width v = .next s.setOvr)
      ∧ s.hostRead addr width = .next (s.setOvr.setRead 0) := by
  rcases hin with ⟨hle, hfit⟩ | ⟨hle, hfit⟩
  all_goals
    obtain ⟨off, rfl⟩ := Nat.exists_eq_add_of_le hle
    rw [Nat.add_assoc, Nat.add_le_add_iff_left] at hfit
  · obtain ⟨hwrite, hread⟩ := s.access_slots hp hok hfit
    exact ⟨fun v => by rw [hwrite, State.unlessBusy_busy hbusy], by rw [hread, State.storageRead_busy hbusy]⟩
  · obtain ⟨hwrite, hread⟩ := s.access_dbuf hp hok hfit
    exact ⟨fun v => by rw [hwrite, State.unlessBusy_busy hbusy], by rw [hread, State.storageRead_busy hbusy]⟩

end Storage

/-- Byte j of slot i lies in slot data. -/
theorem slot_fits {i j width cap : Nat} (hi : i < 65536) (hj : j + width ≤ cap) :
    i * cap + j + width ≤ Config.nslot * cap :=
  calc i * cap + j + width ≤ (i + 1) * cap := by rw [Nat.add_mul, Nat.one_mul]; omega
    _ ≤ Config.nslot * cap := Nat.mul_le_mul_right _ hi

/-! Refused accesses. -/

theorem State.access_refused_word {s : State} {addr off width : Nat}
    (hplace : placeOf s.params addr = some (.window off) ∨ placeOf s.params addr = some (.slen off))
    (hbad : wordAccessOk addr off width = false) :
    s.hostRead addr width = .refused (.badAccess addr width)
      ∧ ∀ v, s.hostWrite addr width v = .refused (.badAccess addr width) := by
  rcases hplace with h | h <;> simp [State.hostRead, State.hostWrite, h, hbad]

theorem State.access_refused_data {s : State} {addr off width : Nat}
    (hplace : placeOf s.params addr = some (.slots off) ∨ placeOf s.params addr = some (.dbuf off))
    (hbad : dataAccessOk addr width = false) :
    s.hostRead addr width = .refused (.badAccess addr width)
      ∧ ∀ v, s.hostWrite addr width v = .refused (.badAccess addr width) := by
  rcases hplace with h | h <;> simp [State.hostRead, State.hostWrite, h, hbad]

/-- A step on an access that is refused whether it reads or writes. -/
theorem step_access_refused {s : State} {addr width : Nat} {v : DWord} {rest : List Input} {write : Bool}
    (hi : s.inputs = .access (if write then .write addr width v else .read addr width) :: rest)
    (h : State.hostRead { s with inputs := rest } addr width = .refused (.badAccess addr width)
      ∧ ∀ v, State.hostWrite { s with inputs := rest } addr width v = .refused (.badAccess addr width)) :
    step s = .refused (.badAccess addr width) := by
  rw [step_cons s _ rest hi]
  cases write with
  | false => exact h.1
  | true => exact h.2 v

/-! What a step leaves of the inputs. -/

theorem State.unlessBusy_inputs {s t : State} (h : t.inputs = s.inputs) : (s.unlessBusy t).inputs = s.inputs := by
  unfold State.unlessBusy
  split
  · rfl
  · exact h

theorem State.storageRead_inputs (s : State) (v : Nat) : (s.storageRead v).inputs = s.inputs := by
  unfold State.storageRead
  split <;> rfl

theorem State.writeSlen_inputs (s : State) (i : Nat) (v : Word) : (s.writeSlen i v).inputs = s.inputs :=
  State.unlessBusy_inputs (by split <;> rfl)

theorem exec_inputs {i : Instr} {s t : State} (h : exec i s = .next t) : t.inputs = s.inputs := by
  obtain ⟨-, -, -, -, -, -, -, hinputs, -⟩ := exec_keepsHostSide h
  exact hinputs

theorem State.answer_inputs {s t : State} {r : Reply} (h : s.answer r = .next t) : t.inputs = s.inputs := by
  obtain ⟨-, -, -, -, -, -, -, hinputs, -⟩ := (s.answer_ends t r h).keepsHostSide
  exact hinputs

theorem State.issue_inputs {s t : State} {v : Word} (h : s.issue v = .next t) : t.inputs = s.inputs := by
  unfold State.issue at h
  split at h
  · exact exec_inputs h
  · obtain rfl := Host.Outcome.next.inj h
    rw [State.command_illegal]
    rfl

theorem State.writeReg_inputs {s t : State} {off : Nat} {v : Word} (h : s.writeReg off v = .next t) :
    t.inputs = s.inputs := by
  unfold State.writeReg at h
  split at h
  case h_3 =>
    split at h
    · obtain rfl := Host.Outcome.next.inj h
      rfl
    · exact State.issue_inputs h
  case h_8 =>
    obtain rfl := Host.Outcome.next.inj h
    exact State.unlessBusy_inputs (by split <;> rfl)
  case h_2 | h_17 =>
    obtain rfl := Host.Outcome.next.inj h
    rfl
  all_goals
    obtain rfl := Host.Outcome.next.inj h
    exact State.unlessBusy_inputs rfl

theorem State.hostRead_inputs {s t : State} {addr width : Nat} (h : s.hostRead addr width = .next t) :
    t.inputs = s.inputs := by
  unfold State.hostRead at h
  repeat' split at h
  all_goals cases h
  case h_2.isTrue => rfl
  all_goals exact State.storageRead_inputs _ _

theorem State.hostWrite_inputs {s t : State} {addr width : Nat} {v : DWord}
    (h : s.hostWrite addr width v = .next t) : t.inputs = s.inputs := by
  unfold State.hostWrite at h
  split at h
  case h_2 =>
    split at h
    · exact State.writeReg_inputs h
    · cases h
  all_goals repeat' split at h
  all_goals cases h
  case h_3.isTrue => exact State.writeSlen_inputs _ _ _
  all_goals exact State.unlessBusy_inputs rfl

theorem State.changePort_inputs {s t u : State} {i : Nat} (hu : u.inputs = s.inputs)
    (h : s.changePort i u = .next t) : t.inputs = s.inputs := by
  unfold State.changePort at h
  repeat' split at h
  all_goals cases h
  exact hu

theorem State.handle_inputs {s t : State} {x : Input} (h : s.handle x = .next t) : t.inputs = s.inputs := by
  cases x with
  | access a =>
    cases a with
    | read addr width => exact State.hostRead_inputs h
    | write addr width v => exact State.hostWrite_inputs h
  | reply r => exact State.answer_inputs h
  | reset =>
    obtain rfl := Host.Outcome.next.inj h
    rfl
  | setIn i p => exact State.changePort_inputs (u := s.setInPort i p) rfl h
  | setOut j p => exact State.changePort_inputs (u := s.setOutPort j p) rfl h

/-- A write of a legal word to CMD on an idle core runs its command. -/
theorem State.writeReg_cmd {s : State} (hidle : s.seq = .idle) {w : Word} {i : Instr} (hw : decode w = .ok i) :
    s.writeReg 0x018 w = exec i s := by
  simp [State.writeReg, State.busy_eq_false hidle, State.issue, hw]

end Sys2Proof.Machine

namespace Sys2Proof

open Machine

/-- Settles O12: the three layouts, element by element. -/
theorem elementLayout : Obligations.ElementLayout := by
  refine fun bs => ⟨fun layout => ⟨by simp [elemsOfBytes], fun j hj => ?_⟩, fun h64 => ⟨?_, fun c i hc hi => ?_⟩,
    fun h2 => ⟨length_elemsOfBytes .gf16 .le16 bs (by simpa [lenAligned] using h2), fun j hj => ?_⟩⟩
  · simp [elemsOfBytes, List.getD_eq_getElem?_getD, hj]
  · exact length_elemsOfBytes .gf16 .split64 bs (by simpa [lenAligned] using h64)
  · exact getD_split64Elems bs (by omega) (by omega) hi
  · exact getD_le16Elems bs (by omega)

/-- Settles O59: a step on an access writes or reads the little-endian bytes, or is dropped. -/
theorem storageAccess : Obligations.StorageAccess := by
  intro s width v rest hp hw both value
  refine ⟨fun i j hi hj halign hidle hin => ?_, fun j hj halign hidle hin => ?_,
    fun addr halign hbusy hregion => ?_⟩
  · have hok := dataAccessOk_iff.2 ⟨hw, halign⟩
    have hfit := slot_fits hi hj
    rw [Nat.add_assoc] at hok hin
    let t : State := { s with
      inputs := s.inputs.drop 1
      slots := s.slots.writeBytes (i * s.params.slotCap + j) (leBytes width v.toNat) }
    have hrest : t.inputs = .access (.read _ width) :: rest := congrArg (List.drop 1) hin
    have hwrite : step s = .next t := step_write_idle (hrest ▸ hin) hidle
      ((State.access_slots { s with inputs := t.inputs } hp hok hfit).1 v)
    refine ⟨t, hwrite, rfl, fun a ha => Memory.read_writeBytes_leBytes_apart _ _ _ _ ha, fun b hb => ?_, ?_⟩
    · exact (congrArg t.slots.read (Nat.add_assoc _ j b).symm).trans (Memory.read_writeBytes_leBytes _ _ _ v hb)
    · rw [step_read_idle hrest hidle (State.access_slots { t with inputs := rest } hp hok hfit).2,
        Memory.leValue_readBytes_writeBytes]
  · have hok := dataAccessOk_iff.2 ⟨hw, halign⟩
    let t : State := { s with
      inputs := s.inputs.drop 1
      dbuf := s.dbuf.writeBytes j (leBytes width v.toNat) }
    have hrest : t.inputs = .access (.read _ width) :: rest := congrArg (List.drop 1) hin
    have hwrite : step s = .next t := step_write_idle (hrest ▸ hin) hidle
      ((State.access_dbuf { s with inputs := t.inputs } hp hok hj).1 v)
    refine ⟨t, hwrite, rfl, fun a ha => Memory.read_writeBytes_leBytes_apart _ _ _ _ ha,
      fun b hb => Memory.read_writeBytes_leBytes _ _ _ v hb, ?_⟩
    rw [step_read_idle hrest hidle (State.access_dbuf { t with inputs := rest } hp hok hj).2,
      Memory.leValue_readBytes_writeBytes]
  · obtain ⟨hwrite, hread⟩ := State.storage_busy (s := { s with inputs := rest }) hp hbusy
      (dataAccessOk_iff.2 ⟨hw, halign⟩) hregion
    exact ⟨fun hin => (step_cons s _ rest hin).trans (hwrite v), fun hin => (step_cons s _ rest hin).trans hread⟩

/-- Settles O60: the place of the address decides which check fails. -/
theorem refusedAccesses : Obligations.RefusedAccesses := by
  intro s addr width v rest write hp hi inRegion
  refine ⟨fun hin hbad => step_access_refused hi ?_, fun hin hbad => step_access_refused hi ?_⟩
  · have hword := fun off => wordAccessOk_eq_false (off := off) hbad
    rcases hin with ⟨hle, hlt⟩ | ⟨hle, hlt⟩ <;> obtain ⟨off, rfl⟩ := Nat.exists_eq_add_of_le hle
    · exact State.access_refused_word (.inl (placeOf_window _ off (Nat.add_lt_add_iff_left.1 hlt))) (hword off)
    · exact State.access_refused_word (.inr (placeOf_slen _ hp off (Nat.add_lt_add_iff_left.1 hlt))) (hword off)
  · have hdata : dataAccessOk addr width = false := by
      rw [Bool.eq_false_iff, ne_eq, dataAccessOk_iff, not_and_or]
      exact hbad
    rcases hin with ⟨hle, hlt⟩ | ⟨hle, hlt⟩ <;> obtain ⟨off, rfl⟩ := Nat.exists_eq_add_of_le hle
    · exact State.access_refused_data (.inl (placeOf_slots _ hp off (Nat.add_lt_add_iff_left.1 hlt))) hdata
    · exact State.access_refused_data (.inr (placeOf_dbuf _ hp off (Nat.add_lt_add_iff_left.1 hlt))) hdata

/-- Settles O5: a CMD write issues the decoded command, and nothing that a step does touches the inputs left. -/
theorem stepRunsTheDecodedCommand : Obligations.StepRunsTheDecodedCommand := by
  refine ⟨fun s w i rest hw hidle hb hi => ?_, fun s t x rest hi h => ?_, step_nil⟩
  · rw [step_regWrite s 0x018 w rest hb (by decide) rfl hi]
    exact State.writeReg_cmd (s := { s with inputs := rest }) hidle hw
  · rw [step_cons s x rest hi] at h
    exact ⟨State.handle_inputs h, h⟩

end Sys2Proof
end

section
/-! SUPPORT. The opcode map, row by row, what the decoder reads from fields, from a word and from bytes (30_encoding.md
R120 to R132), what an illegal word does (R131) and which buffers an id names (R126, R127). -/

namespace Sys2Proof

/-! Words, their fields and their bytes. -/

theorem CommandWord.toWord_ofWord (v : Word) : (CommandWord.ofWord v).toWord = v := by
  have hw : BitVec.ofBool (v.getLsbD 8) = v.extractLsb' 8 1 := by
    ext j hj
    obtain rfl : j = 0 := by omega
    simp
  have hhigh : v.extractLsb' 9 23 ++ v.extractLsb' 8 1 = v.extractLsb' 8 24 :=
    BitVec.extractLsb'_append_extractLsb'_eq_extractLsb' rfl
  simp only [CommandWord.toWord, CommandWord.ofWord]
  rw [hw, hhigh]
  exact BitVec.extractLsb'_append_extractLsb' (w := 24) (len := 8)

theorem CommandWord.ofWord_toWord (c : CommandWord) : CommandWord.ofWord c.toWord = c := by
  obtain ⟨opc, w, rsv⟩ := c
  have hopc : (rsv ++ BitVec.ofBool w ++ opc).extractLsb' 0 8 = opc := BitVec.extractLsb'_append_eq_right
  have hw : (rsv ++ BitVec.ofBool w ++ opc).getLsbD 8 = w := by
    rw [BitVec.getLsbD_append, BitVec.getLsbD_append]
    simp
  have hrsv : (rsv ++ BitVec.ofBool w ++ opc).extractLsb' 9 23 = rsv :=
    (BitVec.extractLsb'_append_eq_of_le (by decide)).trans BitVec.extractLsb'_append_eq_left
  simp only [CommandWord.ofWord, CommandWord.toWord]
  exact congr (congr (congrArg _ hopc) hw) hrsv

/-- Reading fields from a word and writing them to one are inverse. -/
theorem CommandWord.ofWord_eq_iff (v : Word) (c : CommandWord) : CommandWord.ofWord v = c ↔ v = c.toWord :=
  ⟨fun h => h ▸ (toWord_ofWord v).symm, fun h => h ▸ ofWord_toWord c⟩

theorem wordOfBytes_bytesOfWord (v : Word) : wordOfBytes (bytesOfWord v) = some v := by
  have h16 : v.extractLsb' 24 8 ++ v.extractLsb' 16 8 = v.extractLsb' 16 16 :=
    BitVec.extractLsb'_append_extractLsb'_eq_extractLsb' rfl
  have h8 : v.extractLsb' 16 16 ++ v.extractLsb' 8 8 = v.extractLsb' 8 24 :=
    BitVec.extractLsb'_append_extractLsb'_eq_extractLsb' rfl
  have h0 : v.extractLsb' 8 24 ++ v.extractLsb' 0 8 = v :=
    BitVec.extractLsb'_append_extractLsb' (w := 24) (len := 8)
  exact congrArg some (by rw [h16, h8, h0])

theorem bytesOfWord_append (b0 b1 b2 b3 : Byte) : bytesOfWord (b3 ++ b2 ++ b1 ++ b0) = [b0, b1, b2, b3] := by
  have h0 : (b3 ++ b2 ++ b1 ++ b0).extractLsb' 0 8 = b0 := BitVec.extractLsb'_append_eq_right
  have h1 : (b3 ++ b2 ++ b1 ++ b0).extractLsb' 8 8 = b1 :=
    (BitVec.extractLsb'_append_eq_of_le (by decide)).trans BitVec.extractLsb'_append_eq_right
  have h2 : (b3 ++ b2 ++ b1 ++ b0).extractLsb' 16 8 = b2 :=
    (BitVec.extractLsb'_append_eq_of_le (by decide)).trans
      ((BitVec.extractLsb'_append_eq_of_le (by decide)).trans BitVec.extractLsb'_append_eq_right)
  have h3 : (b3 ++ b2 ++ b1 ++ b0).extractLsb' 24 8 = b3 :=
    (BitVec.extractLsb'_append_eq_of_le (by decide)).trans
      ((BitVec.extractLsb'_append_eq_of_le (by decide)).trans BitVec.extractLsb'_append_eq_left)
  rw [bytesOfWord, h0, h1, h2, h3]

/-- Four bytes, lowest first, are a word, and no other number of bytes is one. -/
theorem wordOfBytes_eq_some_iff (bs : List Byte) (v : Word) : wordOfBytes bs = some v ↔ bs = bytesOfWord v := by
  refine ⟨fun h => ?_, fun h => h ▸ wordOfBytes_bytesOfWord v⟩
  unfold wordOfBytes at h
  split at h
  · obtain rfl := Option.some.inj h
    exact (bytesOfWord_append ..).symm
  · cases h

/-! The opcode map. -/

/-- What a row of the map says: R124 for the commands in it, R122 for its OPC. -/
theorem opcodeRow_some {opc : BitVec 8} {narrow : Instr} {wide : Option Instr}
    (h : opcodeRow opc = some (narrow, wide)) :
    narrow.fields = ⟨opc, false, 0⟩ ∧ (∀ i, wide = some i → i.fields = ⟨opc, true, 0⟩)
      ∧ ¬ reservedOpc opc.toNat ∧ (takesWidth opc.toNat ↔ wide ≠ none) := by
  unfold opcodeRow at h
  split at h
  case h_26 => cases h
  all_goals
    rename_i hopc
    obtain ⟨-, rfl⟩ := BitVec.toNat_eq_nat.1 hopc
    cases h
    simp [Instr.fields, Instr.opc, Instr.wbit, reservedOpc, takesWidth]

/-- The OPC values without a row are the reserved ones. -/
theorem reservedOpc_of_opcodeRow_eq_none {opc : BitVec 8} (h : opcodeRow opc = none) : reservedOpc opc.toNat := by
  have hlt := opc.isLt
  unfold opcodeRow at h
  split at h
  case h_26 =>
    -- The catch-all branch of the map excludes each row as an implication to False, which omega does not read.
    simp only [imp_false] at *
    unfold reservedOpc
    omega
  all_goals cases h

/-! The decoder. -/

theorem Instr.decode_fields (i : Instr) : i.fields.decode = .ok i := by
  cases i <;> rfl

/-- Each row answers with the command whose OPC and W were read. -/
theorem CommandWord.decode_eq_ok_iff (c : CommandWord) (i : Instr) : c.decode = .ok i ↔ c = i.fields := by
  refine ⟨fun h => ?_, fun h => h ▸ i.decode_fields⟩
  obtain ⟨opc, w, rsv⟩ := c
  unfold CommandWord.decode at h
  split at h
  case isTrue => cases h
  case isFalse hrsv =>
    obtain rfl : rsv = 0 := not_not.1 hrsv
    split at h
    case h_1 => cases h
    case h_2 narrow wide hrow =>
      obtain ⟨hnarrow, hwide, -⟩ := opcodeRow_some hrow
      cases w
      · cases h
        exact hnarrow.symm
      · cases wide with
        | none => cases h
        | some j =>
          cases h
          exact (hwide _ rfl).symm

theorem decode_eq_ok_iff (w : Word) (i : Instr) : decode w = .ok i ↔ w = encode i :=
  ((CommandWord.ofWord w).decode_eq_ok_iff i).trans (CommandWord.ofWord_eq_iff w i.fields)

theorem encode_eq_tableWord (i : Instr) : encode i = tableWord i := by
  cases i <;> rfl

theorem decodeBytes_eq_ok_iff (bs : List Byte) (i : Instr) :
    decodeBytes bs = .ok i ↔ ∃ w, wordOfBytes bs = some w ∧ decode w = .ok i := by
  unfold decodeBytes
  cases wordOfBytes bs <;> simp

/-- The fields that no command decodes from. -/
theorem CommandWord.decode_ne_ok_iff (c : CommandWord) :
    (∀ i, c.decode ≠ .ok i) ↔
      c.rsv ≠ 0 ∨ reservedOpc c.opc.toNat ∨ (c.w = true ∧ ¬ takesWidth c.opc.toNat) := by
  unfold CommandWord.decode
  split
  case isTrue hrsv => exact ⟨fun _ => .inl hrsv, fun _ _ h => nomatch h⟩
  case isFalse hrsv =>
    have hrsv : c.rsv = 0 := not_not.1 hrsv
    split
    case h_1 hrow => simp [reservedOpc_of_opcodeRow_eq_none hrow]
    case h_2 narrow wide hrow =>
      obtain ⟨-, -, hopc, hwidth⟩ := opcodeRow_some hrow
      cases c.w <;> cases wide <;> simp [hrsv, hopc, hwidth]

/-- R131's illegal words are those that the decoder rejects. -/
theorem illegalWord_iff (w : Word) : IllegalWord w ↔ ∀ i, decode w ≠ .ok i :=
  (CommandWord.ofWord w).decode_ne_ok_iff.symm

/-! Issuing an illegal word. -/

namespace Machine

theorem State.issue_illegal (s : State) {w : Word} (hw : IllegalWord w) :
    s.issue w = .next (s.failed .illegalCommand) := by
  unfold State.issue
  split
  case h_1 i hi => exact absurd hi ((illegalWord_iff w).1 hw i)
  case h_2 => rw [State.command_illegal]

theorem State.writeReg_cmd_illegal {s : State} (hidle : s.seq = .idle) {w : Word} (hw : IllegalWord w) :
    s.writeReg 0x018 w = .next (s.failed .illegalCommand) := by
  simp [State.writeReg, State.busy_eq_false hidle, State.issue_illegal s hw]

/-! Lists of answers, each of which may be missing. -/

theorem mapM_eq_some_iff {α β : Type} (f : α → Option β) (l : List α) (bs : List β) :
    l.mapM f = some bs ↔ l.map f = bs.map some := by
  induction l generalizing bs with
  | nil => cases bs <;> simp
  | cons a l ih => cases bs <;> simp [List.mapM_cons, Option.bind_eq_some_iff, ih]

theorem mapM_range_eq_some_iff {β : Type} (f : Nat → Option β) (r : Nat) (bs : List β) :
    (List.range r).mapM f = some bs ↔ bs.length = r ∧ ∀ j < r, f j = bs[j]? := by
  rw [mapM_eq_some_iff]
  constructor
  · intro h
    have hlen : r = bs.length := by simpa using congrArg List.length h
    refine ⟨hlen.symm, fun j hj => ?_⟩
    have hat := congrArg (·[j]?) h
    simpa [hj, hlen ▸ hj] using hat
  · rintro ⟨rfl, h⟩
    refine List.ext_getElem (by simp) fun j _ hj => ?_
    rw [List.length_map] at hj
    simpa [hj] using h j hj

/-! Buffer ids (30_encoding.md R126, R127). -/

theorem State.bufAt_eq_some_iff (s : State) (isWork : Bool) (index : Nat) (b : Buf) :
    s.bufAt isWork index = some b ↔
      isWork = false ∧ index < 65536 ∧ b = .slot index
        ∨ isWork = true ∧ index < s.params.workBufs ∧ b = .work index := by
  unfold State.bufAt
  cases isWork <;> simp [Config.nslot, eq_comm]

theorem State.buf_eq_some_iff (s : State) (id : Word) (b : Buf) :
    s.buf id = some b ↔
      id.extractLsb' 16 15 = 0 ∧ s.bufAt (id.getLsbD 31) (id.extractLsb' 0 16).toNat = some b := by
  simp [State.buf]

theorem State.bufs_eq_some_iff (s : State) (base : Word) (dist r : Nat) (bs : List Buf) :
    s.bufs base dist r = some bs ↔
      base.extractLsb' 16 15 = 0 ∧ dist ≠ 0 ∧ bs.length = r
        ∧ ∀ j < r, s.bufAt (base.getLsbD 31) ((base.extractLsb' 0 16).toNat + j * dist) = bs[j]? := by
  rw [← mapM_range_eq_some_iff]
  simp [State.bufs, and_assoc]

end Machine

open Machine

/-- Settles O1, word by word. -/
theorem commandWordsDecode : Obligations.CommandWordsDecode := by
  unfold Obligations.CommandWordsDecode
  decide

/-- Settles O2: reading the fields loses nothing, and fields decode to a command only when they are its own. -/
theorem decodeIsTheOpcodeMap : Obligations.DecodeIsTheOpcodeMap := fun w i =>
  encode_eq_tableWord i ▸ decode_eq_ok_iff w i

/-- Settles O3: bytes are one word exactly when they are its four bytes, and only `encode i` decodes to i. -/
theorem decoderAcceptsExactlyEncodings : Obligations.DecoderAcceptsExactlyEncodings := by
  intro bs i
  simp only [decodeBytes_eq_ok_iff, wordOfBytes_eq_some_iff, decode_eq_ok_iff, exists_eq_right]

/-- Settles O4: a step on a CMD write issues the word, which no command decodes from. -/
theorem illegalCommandsCompleteAtOnce : Obligations.IllegalCommandsCompleteAtOnce := by
  refine ⟨illegalWord_iff, fun s w rest hw hidle hb hi => ?_⟩
  rw [step_regWrite s 0x018 w rest hb (by decide) rfl hi]
  exact State.writeReg_cmd_illegal (s := { s with inputs := rest }) hidle hw

/-- Settles O11: an index names a buffer of its space exactly when it is in range. -/
theorem bufferIds : Obligations.BufferIds := by
  refine ⟨fun s id b => ?_, fun s base dist r bs => ?_⟩
  · have hlt : (id.extractLsb' 0 16).toNat < 65536 := (id.extractLsb' 0 16).isLt
    rw [State.buf_eq_some_iff, State.bufAt_eq_some_iff]
    simp only [hlt, true_and, and_comm]
  · rw [State.bufs_eq_some_iff]
    refine and_congr_right fun _ => and_congr_right fun _ => and_congr_right fun hlen =>
      forall₂_congr fun j hj => ?_
    rw [List.getElem?_eq_getElem (hlen ▸ hj), State.bufAt_eq_some_iff]
    simp only [Option.some.injEq]

end Sys2Proof
end

section
/-! SUPPORT. The laws of the field tables: addition and subtraction of logs bit by bit (41_field_tables.md R157), the
values at the ends of LOG and EXP (R155), the sentinels of SKEW (R161), and what a table query does (R170 to R174). -/

namespace Sys2Proof

/-! Log arithmetic (41_field_tables.md R157). -/

/-- A shift by w and a mask of w bits are division by and remainder modulo 2^w. -/
theorem GF.shift_and_mask (f : GF) (x : Nat) :
    (x + x >>> f.width) &&& (f.order - 1) = (x + x / f.order) % f.order := by
  rw [f.order_eq, Nat.and_two_pow_sub_one_eq_mod, Nat.shiftRight_eq_div_pow]

/-- The carry out of w bits, added back in at the bottom, is a subtraction of MOD. -/
theorem GF.addmod_eq_shift_and_mask (f : GF) {a b : Nat} (ha : a ≤ f.mod) (hb : b ≤ f.mod) :
    f.addmod a b = ((a + b) + ((a + b) >>> f.width)) &&& (f.order - 1) := by
  have hmod := f.mod_eq
  rw [f.shift_and_mask, GF.addmod]
  split
  · rw [Nat.div_eq_of_lt (by omega), Nat.add_zero, Nat.mod_eq_of_lt (by omega)]
  · have hcarry : (a + b) / f.order = 1 := Nat.div_eq_of_lt_le (by omega) (by omega)
    rw [hcarry, Nat.mod_eq_sub_mod (by omega), Nat.mod_eq_of_lt (by omega)]
    omega

/-- A borrow fills the bits of the 32-bit difference above w with ones, which add up to MOD in the low w bits. -/
theorem GF.submod_eq_shift_and_mask (f : GF) {a b : Nat} (ha : a ≤ f.mod) (hb : b ≤ f.mod) :
    f.submod a b = (let d := (2 ^ 32 + a - b) % 2 ^ 32
      (d + (d >>> f.width)) &&& (f.order - 1)) := by
  rw [f.shift_and_mask, GF.submod]
  cases f <;> simp only [GF.mod, GF.order] at * <;> split <;> omega

theorem GF.addmod_mod (f : GF) (a b : Nat) : f.addmod a b % f.mod = (a + b) % f.mod := by
  unfold GF.addmod
  split
  · rfl
  · exact (Nat.mod_eq_sub_mod (by omega)).symm

theorem GF.submod_add_mod (f : GF) {a b : Nat} (hb : b ≤ f.mod) : (f.submod a b + b) % f.mod = a % f.mod := by
  unfold GF.submod
  split
  · rw [Nat.sub_add_cancel ‹_›]
  · rw [Nat.sub_add_cancel (by omega), Nat.add_mod_right]

theorem GF.addmod_eq_mod_iff (f : GF) (a b : Nat) : f.addmod a b = f.mod ↔ a + b = f.mod ∨ a + b = 2 * f.mod := by
  have := f.mod_pos
  unfold GF.addmod
  split <;> omega

/-! The ends of LOG and EXP (41_field_tables.md R155). -/

theorem GF.log_exp (f : GF) {i : Nat} (hi : i < f.mod) : f.log (f.exp i) = i := by
  rw [f.log_eq, f.cant_exp, f.lfsr_run i hi]

theorem GF.exp_zero (f : GF) : f.exp 0 = 1 := by
  rw [← f.exp_mod_self, ← f.exp_mod_eq f.mod, Nat.mod_self]

theorem GF.log_one (f : GF) : f.log 1 = 0 := by
  rw [← f.exp_zero, f.log_exp f.mod_pos]

/-! Multiplication (41_field_tables.md R156, R158). -/

theorem GF.mul_one_left (f : GF) {a : Nat} (ha : a < f.order) : f.mul 1 a = a := by
  rw [f.mul_swap, f.mul_one_right a ha]

theorem GF.mul_xor_right (f : GF) {a b c : Nat} (hb : b < f.order) (hc : c < f.order) :
    f.mul a (b ^^^ c) = f.mul a b ^^^ f.mul a c := by
  rw [f.mul_swap, f.mul_xor_left b c a hb hc, f.mul_swap b, f.mul_swap c]

/-- The log 0 multiplies by one. -/
theorem GF.mulLog_by_zero (f : GF) {a : Nat} (ha : a < f.order) : f.mulLog a 0 = a := by
  rw [f.mulLog_eq_mul a 0 ha, f.exp_zero, f.mul_one_right a ha]

/-- The log MOD multiplies by one too. -/
theorem GF.mulLog_by_mod (f : GF) {a : Nat} (ha : a < f.order) : f.mulLog a f.mod = a := by
  rw [f.mulLog_eq_mul a f.mod ha, f.exp_mod_self, f.mul_one_right a ha]

/-! The sentinels of SKEW (41_field_tables.md R161). -/

/-- At 2^i − 1, in the first group of level i, the element is 0. -/
theorem GF.skew_two_pow_sub_one (f : GF) {i : Nat} (hi : i < f.width) : f.skew (2 ^ i - 1) = f.mod := by
  have hlt : 2 ^ i < f.order := f.order_eq ▸ Nat.pow_lt_pow_right (by decide) hi
  have hpos := Nat.two_pow_pos i
  have hmod := f.mod_eq
  have h := GF.Model.skew_group (f := f) i 0 (by omega)
  rwa [Nat.zero_mul, Nat.zero_add, Nat.mul_zero, f.log_zero] at h

/-- Anywhere else the group is not the first of its level, so its element is not 0. -/
theorem GF.skew_lt_mod (f : GF) {j : Nat} (hj : j < f.mod) (hne : ∀ i < f.width, j ≠ 2 ^ i - 1) :
    f.skew j < f.mod := by
  obtain ⟨i, c, hodd⟩ := exists_odd_part (j + 1) (by omega)
  have hmod := f.mod_eq
  have hsplit : 2 ^ i * (2 * c + 1) = c * 2 ^ (i + 1) + 2 ^ i := by ring
  have hle : 2 * c + 1 ≤ 2 ^ i * (2 * c + 1) := Nat.le_mul_of_pos_left _ (Nat.two_pow_pos i)
  have hc : c ≠ 0 := by
    rintro rfl
    have hi : 2 ^ i < 2 ^ f.width := by rw [← f.order_eq]; omega
    exact hne i ((Nat.pow_lt_pow_iff_right (by decide)).1 hi) (by omega)
  have hskew := GF.Model.skew_group (f := f) i c (by omega)
  rw [show c * 2 ^ (i + 1) + 2 ^ i - 1 = j by omega] at hskew
  rw [hskew]
  exact f.log_lt _ (by omega) (by omega)

theorem GF.skew_eq_mod_iff (f : GF) {j : Nat} (hj : j < f.mod) :
    f.skew j = f.mod ↔ ∃ i < f.width, j = 2 ^ i - 1 := by
  constructor
  · intro h
    by_contra hne
    push Not at hne
    exact (f.skew_lt_mod hj hne).ne h
  · rintro ⟨i, hi, rfl⟩
    exact f.skew_two_pow_sub_one hi

/-! Single entries and products that the spec gives. -/

theorem GF.log_gf8_two : GF.gf8.log 2 = 85 := by decide +kernel

theorem GF.exp_gf16_one : GF.gf16.exp 1 = 0x4690 := by decide

/-- Position 2 is in the second group of level 0, whose element is 2. -/
theorem GF.skew_gf8_two : GF.gf8.skew 2 = 85 :=
  (GF.Model.skew_group 0 1 (by decide)).trans GF.log_gf8_two

theorem GF.mulLog_gf8_seven_one : GF.gf8.mulLog 7 1 = 0x30 := by
  rw [GF.mulLog_run _ _ _ (by decide)]
  decide

theorem GF.mul_gf8_ff_ff : GF.gf8.mul 0xFF 0xFF = 0x80 := by
  rw [GF.mul_poly _ _ _ (by decide) (by decide)]
  decide

theorem GF.mul_gf8_inverses : GF.gf8.mul 0x1D 0x50 = 1 := by
  rw [GF.mul_poly _ _ _ (by decide) (by decide)]
  decide

theorem GF.mul_gf16_inverses : GF.gf16.mul 0x1234 0x371E = 1 := by
  rw [GF.mul_poly _ _ _ (by decide) (by decide)]
  decide

namespace Machine

/-! Table queries (41_field_tables.md R170 to R174). -/

theorem State.query_inRange (s : State) {ok : Bool} (v : Nat) (h : ok = true) :
    s.query ok v = .next (s.succeeded (BitVec.ofNat 32 v)) := by
  subst h
  unfold State.query
  exact congrArg _ (s.command_ok _ (s.accept.setResult v) rfl)

theorem State.query_outOfRange (s : State) {ok : Bool} (v : Nat) (h : ¬ ok = true) :
    s.query ok v = .next (s.failed .illegalOperand) := by
  obtain rfl := Bool.eq_false_of_not_eq_true h
  unfold State.query
  exact congrArg _ (s.command_error _ .illegalOperand rfl rfl)

theorem elemOk_iff (f : GF) (x : Nat) : elemOk f x = true ↔ x < f.order := by simp [elemOk]

theorem logOk_iff (f : GF) (l : Nat) : logOk f l = true ↔ l ≤ f.mod := by simp [logOk]

theorem exec_gfLog (f : GF) (s : State) : exec (byField f .gfLog8 .gfLog16) s = s.gfLog f := by
  cases f <;> rfl

theorem exec_gfExp (f : GF) (s : State) : exec (byField f .gfExp8 .gfExp16) s = s.gfExp f := by
  cases f <;> rfl

theorem exec_gfMul (f : GF) (s : State) : exec (byField f .gfMul8 .gfMul16) s = s.gfMul f := by
  cases f <;> rfl

theorem exec_gfMulLog (f : GF) (s : State) : exec (byField f .gfMulLog8 .gfMulLog16) s = s.gfMulLog f := by
  cases f <;> rfl

theorem exec_skewRead (f : GF) (s : State) : exec (byField f .skewRead8 .skewRead16) s = s.skewRead f := by
  cases f <;> rfl

end Machine

open Machine

/-- Settles O13: one lemma for each part. -/
theorem logArithmetic : Obligations.LogArithmetic := fun f a b ha hb =>
  ⟨f.addmod_eq_shift_and_mask ha hb, rfl, f.submod_eq_shift_and_mask ha hb, rfl, f.addmod_le a b ha hb,
    f.submod_le a b ha, f.addmod_mod a b, f.submod_add_mod hb, f.addmod_eq_mod_iff a b⟩

/-- Settles O14: x has order MOD, so its powers pass every nonzero element once. -/
theorem logExpBijection : Obligations.LogExpBijection := by
  intro f
  have hmod := f.mod_eq
  have hpos := f.mod_pos
  refine ⟨f.log_zero, f.log_one, f.exp_zero, f.exp_mod_self, fun v h1 hv => ?_, fun i hi => ?_, ?_⟩
  · have hlt : v < f.order := by omega
    have h0 : v ≠ 0 := by omega
    exact ⟨Nat.le_sub_one_of_lt (f.log_lt v hlt h0), f.exp_log v hlt h0⟩
  · have hlt := f.exp_lt i
    exact ⟨Nat.pos_of_ne_zero (f.exp_ne_zero i), by omega, f.log_exp (by omega)⟩
  · cases f <;> decide

/-- Settles O15: a product adds logs, which the Cantor map turns into a product of polynomials modulo P_w. -/
theorem fieldLaws : Obligations.FieldLaws :=
  ⟨fun f a _ l ha _ _ => ⟨rfl, rfl, f.mulLog_eq_mul a l ha, f.mulLog_by_mod ha, f.mulLog_by_zero ha⟩,
    fun f a b c ha hb hc => ⟨f.mul_lt_order a b, f.mul_swap a b, f.mul_reassoc a b c hb, f.mul_xor_right hb hc,
      f.mul_one_left ha, f.mul_zero_left a, f.mul_inverse a ha⟩,
    GF.mul_gf8_inverses, GF.mul_gf16_inverses⟩

/-- Settles O16: the element of a position is 0 exactly in the first group of its level. -/
theorem skewSentinels : Obligations.SkewSentinels := fun f _ hj =>
  ⟨f.skew_eq_mod_iff hj, f.skew_lt_mod hj⟩

/-- Settles O17. -/
theorem gfLogReadsLog : Obligations.GfLogReadsLog := by
  refine ⟨fun s f => ?_, GF.log_gf8_two, fun f => ⟨f.log_zero, f.log_one⟩⟩
  rw [exec_gfLog]
  exact ⟨fun h => s.query_inRange _ ((elemOk_iff f _).2 h),
    fun h => s.query_outOfRange _ (mt (elemOk_iff f _).1 h.not_gt)⟩

/-- Settles O18. -/
theorem gfExpReadsExp : Obligations.GfExpReadsExp := by
  refine ⟨fun s f => ?_, GF.exp_gf16_one, fun f => ⟨f.exp_zero, f.exp_mod_self⟩⟩
  rw [exec_gfExp]
  exact ⟨fun h => s.query_inRange _ ((logOk_iff f _).2 h),
    fun h => s.query_outOfRange _ (mt (logOk_iff f _).1 h.not_ge)⟩

/-- Settles O19: the query's range is that of both operands. -/
theorem gfMulMultiplies : Obligations.GfMulMultiplies := by
  refine ⟨fun s f => ?_, GF.mul_gf8_ff_ff, fun f a ha =>
    ⟨f.mul_zero_left a, f.mul_zero_right a, f.mul_one_left ha, f.mul_one_right a ha⟩⟩
  have hrange : (elemOk f (s.argNat 0) && elemOk f (s.argNat 1)) = true ↔
      s.argNat 0 < f.order ∧ s.argNat 1 < f.order := by
    rw [Bool.and_eq_true, elemOk_iff, elemOk_iff]
  rw [exec_gfMul]
  exact ⟨fun ha hb => s.query_inRange _ (hrange.2 ⟨ha, hb⟩),
    fun h => s.query_outOfRange _ (mt hrange.1 (by omega))⟩

/-- Settles O20: the query's range is that of both operands. -/
theorem gfMulLogMultipliesByLog : Obligations.GfMulLogMultipliesByLog := by
  refine ⟨fun s f => ?_, GF.mulLog_gf8_seven_one, fun f a l ha =>
    ⟨f.mulLog_by_zero ha, f.mulLog_by_mod ha, f.mulLog_zero l⟩⟩
  have hrange : (elemOk f (s.argNat 0) && logOk f (s.argNat 1)) = true ↔
      s.argNat 0 < f.order ∧ s.argNat 1 ≤ f.mod := by
    rw [Bool.and_eq_true, elemOk_iff, logOk_iff]
  rw [exec_gfMulLog]
  exact ⟨fun ha hl => s.query_inRange _ (hrange.2 ⟨ha, hl⟩),
    fun h => s.query_outOfRange _ (mt hrange.1 (by omega))⟩

/-- Settles O21. -/
theorem skewReadReadsSkew : Obligations.SkewReadReadsSkew := by
  refine ⟨fun s f => ?_, GF.skew_gf8_two, fun f i hi => f.skew_two_pow_sub_one hi⟩
  rw [exec_skewRead]
  exact ⟨fun h => s.query_inRange _ (decide_eq_true h),
    fun h => s.query_outOfRange _ (mt of_decide_eq_true h.not_gt)⟩

end Sys2Proof
end

section
/-! SUPPORT. The slice kernels XOR_SLICE, MUL and MUL_ADD (42_kernels.md R190 to R198): a command that writes the start
of one buffer and nothing else, and the checks that MUL and MUL_ADD share. -/

namespace Sys2Proof

namespace Machine

/-! A command that writes one buffer. -/

theorem State.bufByte_setBufBytes_same (s : State) (b : Buf) {bs : List Byte} {j : Nat} (hj : j < bs.length) :
    (s.setBufBytes b bs).bufByte b j = bs.getD j 0 := by
  unfold State.bufByte
  rw [State.setBufBytes_slotAddr, State.memByte_setBufBytes, if_pos ⟨rfl, by omega, by omega⟩,
    Nat.add_sub_cancel_left]

/-- A command whose rule writes `len` bytes to one buffer: its frame (42_kernels.md R198), and the bytes read back. -/
theorem State.command_setBufBytes {s : State} {rule : State → Except Err State} {b : Buf} {bs : List Byte} {len : Nat}
    (h : rule s.accept = .ok (s.accept.setBufBytes b bs)) (hlen : bs.length = len) :
    (s.command rule).SameButMemory (s.succeeded 0) ∧ s.KeepsBytesBut (s.command rule) [b] len
      ∧ ∀ j < len, (s.command rule).bufByte b j = bs.getD j 0 := by
  subst hlen
  refine ⟨s.sameButMemory_command rule _ h (State.sameButMemory_setBufBytes (.refl _) b bs),
    fun inWork a ha => ?_, fun j hj => ?_⟩
  · rw [s.memByte_command rule _ h]
    exact s.accept.keepsBytesBut_setBufBytes b bs inWork a ha
  · rw [s.command_ok rule _ h]
    exact s.accept.bufByte_setBufBytes_same b hj

/-- A command whose rule writes a row of `len` bytes to one buffer: its frame, and the row read back. -/
theorem State.command_setBufRow {s : State} {rule : State → Except Err State} {f : GF} {b : Buf} {len : Nat} {r : Row}
    (h : rule s.accept = .ok (s.accept.setBufRow f b r)) (hr : s.RowFits f len r) :
    (s.command rule).SameButMemory (s.succeeded 0) ∧ s.KeepsBytesBut (s.command rule) [b] len
      ∧ (s.command rule).bufRow f b len = r := by
  obtain ⟨hsame, hkeeps, -⟩ := State.command_setBufBytes h hr.length
  exact ⟨hsame, hkeeps, (s.bufRow_command rule _ h f b len).trans (s.accept.bufRow_setBufRow_same f b len r hr)⟩

/-! XOR_SLICE. -/

/-- The rule of XOR_SLICE in terms of its checks. -/
theorem State.xorSlice_eq (s : State) : s.xorSlice = (s.kernelBufs true true).map fun b =>
    s.setBufBytes b.1 (List.zipWith (· ^^^ ·) (s.bufBytes b.1 (s.argNat 2)) (s.bufBytes b.2 (s.argNat 2))) := by
  unfold State.xorSlice
  cases s.kernelBufs true true <;> rfl

/-- XOR_SLICE whose checks fail. -/
theorem exec_xorSlice_error {s : State} {e : Err} (h : s.accept.kernelBufs true true = .error e)
    (he : e.ioInfo = none) : exec .xorSlice s = .next (s.failed e) :=
  congrArg _ (s.command_error State.xorSlice e (by rw [State.xorSlice_eq, h]; rfl) he)

/-- Byte j of the XOR of two buffers. -/
theorem State.getD_xor_bufBytes (s : State) (b c : Buf) {n j : Nat} (hj : j < n) :
    (List.zipWith (· ^^^ ·) (s.bufBytes b n) (s.bufBytes c n)).getD j 0 = s.bufByte b j ^^^ s.bufByte c j := by
  simp [State.bufBytes_eq, hj]

/-! MUL and MUL_ADD. -/

/-- The buffers of MUL.w and MUL_ADD.w, when the checks that the two share pass (42_kernels.md R190). -/
def State.mulBufs (f : GF) (s : State) : Except Err (Buf × Buf) :=
  s.kernelBufs (logOk f (s.argNat 3)) (lenAligned f s.params.layout (s.argNat 2))

/-- The rule of MUL in terms of its checks. -/
theorem State.mul_eq (f : GF) (s : State) : State.mul f s = (s.mulBufs f).map fun b =>
    s.setBufRow f b.1 (f.mulRow (s.argNat 3) (s.bufRow f b.2 (s.argNat 2))) := by
  unfold State.mul State.mulBufs
  dsimp only
  cases s.kernelBufs _ _ <;> rfl

/-- The rule of MUL_ADD in terms of its checks. -/
theorem State.mulAdd_eq (f : GF) (s : State) : State.mulAdd f s = (s.mulBufs f).map fun b =>
    s.setBufRow f b.1
      (f.mulAddRow (s.argNat 3) (s.bufRow f b.1 (s.argNat 2)) (s.bufRow f b.2 (s.argNat 2))) := by
  unfold State.mulAdd State.mulBufs
  dsimp only
  cases s.kernelBufs _ _ <;> rfl

theorem exec_mul (f : GF) (s : State) : exec (byField f .mul8 .mul16) s = .next (s.command (State.mul f)) := by
  cases f <;> rfl

theorem exec_mulAdd (f : GF) (s : State) :
    exec (byField f .mulAdd8 .mulAdd16) s = .next (s.command (State.mulAdd f)) := by
  cases f <;> rfl

section Checks

variable {f : GF} {s : State}

theorem State.mulBufs_illegalOperand
    (h : s.buf (s.arg 0) = none ∨ s.buf (s.arg 1) = none ∨ f.mod < s.argNat 3) :
    s.mulBufs f = .error .illegalOperand := by
  unfold State.mulBufs
  cases h0 : s.buf (s.arg 0) with
  | none => exact s.kernelBufs_none _ _ (.inl h0)
  | some b0 =>
    cases h1 : s.buf (s.arg 1) with
    | none => exact s.kernelBufs_none _ _ (.inr h1)
    | some b1 =>
      have hlog : logOk f (s.argNat 3) = false := by simpa [logOk, h0, h1] using h
      rw [s.kernelBufs_some _ _ b0 b1 h0 h1, if_pos hlog]

variable {b0 b1 : Buf}

/-- What the length decides once the ids and the log are in range. -/
theorem State.mulBufs_some (h0 : s.buf (s.arg 0) = some b0) (h1 : s.buf (s.arg 1) = some b1)
    (hl : s.argNat 3 ≤ f.mod) :
    s.mulBufs f = if s.bufLen b0 < s.argNat 2 ∨ s.bufLen b1 < s.argNat 2
        ∨ lenAligned f s.params.layout (s.argNat 2) = false then .error .shardSize else .ok (b0, b1) := by
  unfold State.mulBufs
  rw [s.kernelBufs_some _ _ b0 b1 h0 h1, (logOk_iff f _).2 hl]
  rfl

theorem State.mulBufs_ok (h0 : s.buf (s.arg 0) = some b0) (h1 : s.buf (s.arg 1) = some b1)
    (hl : s.argNat 3 ≤ f.mod) (hlen0 : s.argNat 2 ≤ s.bufLen b0) (hlen1 : s.argNat 2 ≤ s.bufLen b1)
    (halign : lenAligned f s.params.layout (s.argNat 2) = true) : s.mulBufs f = .ok (b0, b1) := by
  rw [State.mulBufs_some h0 h1 hl, if_neg]
  simp [halign, hlen0, hlen1]

theorem State.accept_mulBufs (f : GF) (s : State) : s.accept.mulBufs f = s.mulBufs f := rfl

/-- MUL and MUL_ADD whose checks fail. -/
theorem exec_mulKernel_error {i : Instr} {e : Err}
    (hi : i = byField f .mul8 .mul16 ∨ i = byField f .mulAdd8 .mulAdd16) (h : s.mulBufs f = .error e)
    (he : e.ioInfo = none) : exec i s = .next (s.failed e) := by
  rw [← State.accept_mulBufs] at h
  rcases hi with rfl | rfl
  · rw [exec_mul, s.command_error _ e (by rw [State.mul_eq, h]; rfl) he]
  · rw [exec_mulAdd, s.command_error _ e (by rw [State.mulAdd_eq, h]; rfl) he]

theorem State.rowFits_mulRow {len : Nat} (l : Nat) {r : Row} (h : s.RowFits f len r) :
    s.RowFits f len (f.mulRow l r) := by
  obtain ⟨halign, hlen, -⟩ := h
  exact ⟨halign, (f.length_mulRow l r).trans hlen, f.bounded_mulRow l r⟩

theorem State.rowFits_mulAddRow {len : Nat} (l : Nat) {x y : Row} (hx : s.RowFits f len x)
    (hy : s.RowFits f len y) : s.RowFits f len (f.mulAddRow l x y) := by
  obtain ⟨halign, hlenx, hbound⟩ := hx
  obtain ⟨-, hleny, -⟩ := hy
  exact ⟨halign, by rw [GF.length_mulAddRow, hlenx, hleny, Nat.min_self], f.bounded_mulAddRow l x y hbound⟩

end Checks

/-- The length alignment, layout by layout (42_kernels.md R190). -/
theorem lenAligned_iff (layout : Elem16Layout) (len : Nat) :
    lenAligned .gf8 layout len = true ∧ (lenAligned .gf16 .split64 len = true ↔ len % 64 = 0)
      ∧ (lenAligned .gf16 .le16 len = true ↔ len % 2 = 0) :=
  ⟨rfl, decide_eq_true_iff, decide_eq_true_iff⟩

end Machine

open Machine

/-- Settles O22: both operands are read before x is written, so byte j of x is the XOR also when y is x. -/
theorem xorSliceXorsBytes : Obligations.XorSliceXorsBytes := by
  refine fun s bx bY => ⟨fun hx hy hlenx hleny => ?_, fun h => ?_, fun hx hy hlen => ?_⟩
  · have hchecks : s.accept.kernelBufs true true = .ok (bx, bY) := by
      rw [s.accept.kernelBufs_some true true bx bY hx hy]
      simp [hlenx, hleny]
    have hrule := s.accept.xorSlice_eq
    rw [hchecks] at hrule
    obtain ⟨hsame, hkeeps, hbytes⟩ := State.command_setBufBytes hrule (len := s.argNat 2) (by simp)
    exact ⟨_, rfl, hsame, hkeeps, fun j hj => (hbytes j hj).trans (s.getD_xor_bufBytes bx bY hj)⟩
  · exact exec_xorSlice_error (s.accept.kernelBufs_none true true h) rfl
  · refine exec_xorSlice_error ?_ rfl
    rw [s.accept.kernelBufs_some true true bx bY hx hy]
    simp [hlen]

/-- Settles O23: the product row fits LEN bytes, so it is read back as it was written. -/
theorem mulMultipliesRow : Obligations.MulMultipliesRow := by
  intro s f bd bs hd hs hl hlend hlens halign
  have hrule := State.mul_eq f s.accept
  rw [State.accept_mulBufs, State.mulBufs_ok hd hs hl hlend hlens halign] at hrule
  exact ⟨_, exec_mul f s,
    State.command_setBufRow hrule (State.rowFits_mulRow _ (s.rowFits_bufRow f bs _ halign))⟩

/-- Settles O24: the sum row fits LEN bytes, so it is read back as it was written. -/
theorem mulAddAddsMultipliedRow : Obligations.MulAddAddsMultipliedRow := by
  intro s f bx bY hx hy hl hlenx hleny halign
  have hrule := State.mulAdd_eq f s.accept
  rw [State.accept_mulBufs, State.mulBufs_ok hx hy hl hlenx hleny halign] at hrule
  exact ⟨_, exec_mulAdd f s, State.command_setBufRow hrule
    (State.rowFits_mulAddRow _ (s.rowFits_bufRow f bx _ halign) (s.rowFits_bufRow f bY _ halign))⟩

/-- Settles O25: MUL and MUL_ADD make the same checks, and the first that fails names the error. -/
theorem kernelErrors : Obligations.KernelErrors := by
  refine ⟨lenAligned_iff, fun s f i hi => ⟨fun h => ?_, fun b0 b1 h0 h1 hl hlen => ?_⟩⟩
  · exact exec_mulKernel_error hi (State.mulBufs_illegalOperand h) rfl
  · exact exec_mulKernel_error hi ((State.mulBufs_some h0 h1 hl).trans (if_pos hlen)) rfl

end Sys2Proof
end

section
/-! SUPPORT. The butterflies (43_butterflies.md R210 to R218): what the four procedures give and that they invert each
other, the checks of a butterfly command, and a command that writes rows to several distinct buffers. -/

namespace Sys2Proof

/-! The procedures on rows. -/

theorem getD_xorRow {x y : Row} {j : Nat} (h : x.length = y.length) (hj : j < x.length) :
    (xorRow x y).getD j 0 = x.getD j 0 ^^^ y.getD j 0 :=
  getD_zipWith _ x y x.length j rfl h.symm hj

theorem GF.getD_mulAddRow (f : GF) (l : Nat) {x y : Row} {j : Nat} (h : x.length = y.length) (hj : j < x.length) :
    (f.mulAddRow l x y).getD j 0 = x.getD j 0 ^^^ f.mulLog (y.getD j 0) l :=
  getD_zipWith _ x y x.length j rfl h.symm hj

/-- The sum of four rows does not depend on how they are paired. -/
theorem xorRow_interchange (a b c d : Row) :
    xorRow (xorRow a b) (xorRow c d) = xorRow (xorRow a c) (xorRow b d) := by
  unfold xorRow
  refine List.ext_getElem (by simp only [List.length_zipWith]; omega) fun j _ _ => ?_
  simp only [List.getElem_zipWith, Nat.xor_assoc, Nat.xor_left_comm]

/-- The row `lo` with `hi` times the twiddle added, or left alone when the twiddle is MOD (43_butterflies.md R211). -/
def GF.twiddled (f : GF) (t : Nat) (lo hi : Row) : Row :=
  if t = f.mod then lo else f.mulAddRow t lo hi

theorem GF.fft2_eq (f : GF) (lo hi : Row) (t : Nat) :
    f.fft2 lo hi t = (f.twiddled t lo hi, xorRow hi (f.twiddled t lo hi)) := rfl

theorem GF.ifft2_eq (f : GF) (lo hi : Row) (t : Nat) :
    f.ifft2 lo hi t = (f.twiddled t lo (xorRow hi lo), xorRow hi lo) := rfl

theorem GF.twiddled_mod (f : GF) (lo hi : Row) : f.twiddled f.mod lo hi = lo := if_pos rfl

theorem GF.length_twiddled (f : GF) (t : Nat) {lo hi : Row} (h : lo.length = hi.length) :
    (f.twiddled t lo hi).length = hi.length := by
  unfold GF.twiddled
  split <;> simp [h]

theorem GF.getD_twiddled (f : GF) (t : Nat) {lo hi : Row} {j : Nat} (h : lo.length = hi.length)
    (hj : j < lo.length) : (f.twiddled t lo hi).getD j 0
      = if t ≠ f.mod then lo.getD j 0 ^^^ f.mulLog (hi.getD j 0) t else lo.getD j 0 := by
  by_cases ht : t = f.mod
  · rw [if_neg (not_not.2 ht), ht, f.twiddled_mod]
  · rw [if_pos ht, GF.twiddled, if_neg ht, f.getD_mulAddRow t h hj]

theorem GF.twiddled_twiddled (f : GF) (t : Nat) {lo hi : Row} (h : lo.length = hi.length) :
    f.twiddled t (f.twiddled t lo hi) hi = lo := by
  unfold GF.twiddled
  split
  · rfl
  · exact f.mulAddRow_cancel t lo hi h

/-- IFFT2 undoes FFT2: the same row is XORed into hi twice, and the same multiple of hi is added to lo twice. -/
theorem GF.ifft2_fft2 (f : GF) {lo hi : Row} (t : Nat) (h : lo.length = hi.length) :
    f.ifft2 (f.fft2 lo hi t).1 (f.fft2 lo hi t).2 t = (lo, hi) := by
  rw [f.fft2_eq, f.ifft2_eq, xorRow_cancel _ _ (f.length_twiddled t h).symm, f.twiddled_twiddled t h]

theorem GF.fft2_mod (f : GF) (lo hi : Row) : f.fft2 lo hi f.mod = (lo, xorRow hi lo) := by
  rw [f.fft2_eq, f.twiddled_mod]

theorem GF.ifft2_mod (f : GF) (lo hi : Row) : f.ifft2 lo hi f.mod = (lo, xorRow hi lo) := by
  rw [f.ifft2_eq, f.twiddled_mod]

/-- FFT4 as the composition that the rule gives (43_butterflies.md R217). -/
theorem GF.fft4_eq (f : GF) (b0 b1 b2 b3 : Row) (t01 t23 t02 : Nat) :
    f.fft4 b0 b1 b2 b3 t01 t23 t02 =
      (let p := f.fft2 b0 b2 t02
       let q := f.fft2 b1 b3 t02
       let u := f.fft2 p.1 q.1 t01
       let v := f.fft2 p.2 q.2 t23
       (u.1, u.2, v.1, v.2)) := rfl

/-- IFFT4 as the composition that the rule gives (43_butterflies.md R217). -/
theorem GF.ifft4_eq (f : GF) (b0 b1 b2 b3 : Row) (t01 t23 t02 : Nat) :
    f.ifft4 b0 b1 b2 b3 t01 t23 t02 =
      (let p := f.ifft2 b0 b1 t01
       let q := f.ifft2 b2 b3 t23
       let u := f.ifft2 p.1 q.1 t02
       let v := f.ifft2 p.2 q.2 t02
       (u.1, v.1, u.2, v.2)) := rfl

/-- IFFT4 undoes FFT4: it undoes the four radix-2 butterflies, the last ones first. -/
theorem GF.ifft4_fft4 (f : GF) {n : Nat} {a b c d : Row} (t01 t23 t02 : Nat) (ha : a.length = n)
    (hb : b.length = n) (hc : c.length = n) (hd : d.length = n) :
    (let r := f.fft4 a b c d t01 t23 t02
     f.ifft4 r.1 r.2.1 r.2.2.1 r.2.2.2 t01 t23 t02) = (a, b, c, d) := by
  obtain ⟨hp1, hp2⟩ := f.fft2_length a c t02 n ha hc
  obtain ⟨hq1, hq2⟩ := f.fft2_length b d t02 n hb hd
  simp only [f.fft4_eq, f.ifft4_eq, f.ifft2_fft2 t01 (hp1.trans hq1.symm), f.ifft2_fft2 t23 (hp2.trans hq2.symm),
    f.ifft2_fft2 t02 (ha.trans hc.symm), f.ifft2_fft2 t02 (hb.trans hd.symm)]

/-- FFT4 with every twiddle MOD (43_butterflies.md R218). -/
theorem GF.fft4_mod (f : GF) (a b c d : Row) : f.fft4 a b c d f.mod f.mod f.mod
    = (a, xorRow a b, xorRow a c, xorRow (xorRow a b) (xorRow c d)) := by
  simp only [f.fft4_eq, f.fft2_mod]
  rw [xorRow_interchange d b c a, xorRow_comm (xorRow d c), xorRow_comm b a, xorRow_comm c a, xorRow_comm d c]

/-- IFFT4 with every twiddle MOD (43_butterflies.md R218). -/
theorem GF.ifft4_mod (f : GF) (a b c d : Row) : f.ifft4 a b c d f.mod f.mod f.mod
    = (a, xorRow a b, xorRow a c, xorRow (xorRow a b) (xorRow c d)) := by
  simp only [f.ifft4_eq, f.ifft2_mod]
  rw [xorRow_comm (xorRow d c), xorRow_comm b a, xorRow_comm c a, xorRow_comm d c]

namespace Machine

/-! Writing rows to several buffers. -/

/-- Each row stored at the start of its buffer, one after the other. -/
def State.setBufRows (f : GF) (s : State) (ws : List (Buf × Row)) : State :=
  ws.foldl (fun s w => s.setBufRow f w.1 w.2) s

theorem State.setBufRows_cons (f : GF) (s : State) (w : Buf × Row) (ws : List (Buf × Row)) :
    s.setBufRows f (w :: ws) = (s.setBufRow f w.1 w.2).setBufRows f ws := rfl

theorem State.RowFits.setBufRow {s : State} {f : GF} {len : Nat} {r : Row} (h : s.RowFits f len r) (b : Buf)
    (r' : Row) : (s.setBufRow f b r').RowFits f len r := by
  unfold State.RowFits at h ⊢
  rwa [State.setBufRow_params]

theorem State.sameButMemory_setBufRows {t u : State} (f : GF) (ws : List (Buf × Row)) (h : t.SameButMemory u) :
    (t.setBufRows f ws).SameButMemory u := by
  induction ws generalizing t with
  | nil => exact h
  | cons w ws ih => exact ih (State.sameButMemory_setBufBytes h w.1 _)

section Writes

variable {f : GF} {len : Nat} {ws : List (Buf × Row)}

theorem State.keepsBytesBut_setBufRows {s : State} (hfit : ∀ w ∈ ws, s.RowFits f len w.2) :
    s.KeepsBytesBut (s.setBufRows f ws) (ws.map (·.1)) len := by
  induction ws generalizing s with
  | nil => exact fun _ _ _ => rfl
  | cons w ws ih =>
    obtain ⟨hw, hws⟩ := List.forall_mem_cons.1 hfit
    exact (s.keepsBytesBut_setBufRow f w.1 len w.2 hw).trans
      (ih fun w' hw' => (hws w' hw').setBufRow w.1 w.2) (s.setBufRow_params f w.1 w.2)

/-- Writes to other buffers leave a buffer's row alone. -/
theorem State.bufRow_setBufRows_apart {s : State} {c : Buf} (hfit : ∀ w ∈ ws, s.RowFits f len w.2)
    (hcap : len ≤ s.params.slotCap) (hc : c ∉ ws.map (·.1)) :
    (s.setBufRows f ws).bufRow f c len = s.bufRow f c len := by
  induction ws generalizing s with
  | nil => rfl
  | cons w ws ih =>
    obtain ⟨hw, hws⟩ := List.forall_mem_cons.1 hfit
    rw [List.map_cons, List.mem_cons, not_or] at hc
    obtain ⟨hne, hc⟩ := hc
    rw [State.setBufRows_cons, ih (fun w' hw' => (hws w' hw').setBufRow w.1 w.2) (by simpa using hcap) hc]
    exact s.bufRow_setBufRow_apart f w.1 c len w.2 hw (Ne.symm hne) hcap

/-- Rows written to distinct buffers are read back. -/
theorem State.bufRow_setBufRows {s : State} (hfit : ∀ w ∈ ws, s.RowFits f len w.2)
    (hcap : len ≤ s.params.slotCap) (hbufs : (ws.map (·.1)).Nodup) :
    ∀ w ∈ ws, (s.setBufRows f ws).bufRow f w.1 len = w.2 := by
  induction ws generalizing s with
  | nil => exact fun _ h => absurd h List.not_mem_nil
  | cons w ws ih =>
    obtain ⟨hw, hws⟩ := List.forall_mem_cons.1 hfit
    rw [List.map_cons, List.nodup_cons] at hbufs
    obtain ⟨hfresh, hbufs⟩ := hbufs
    have hws' : ∀ w' ∈ ws, (s.setBufRow f w.1 w.2).RowFits f len w'.2 :=
      fun w' hw' => (hws w' hw').setBufRow w.1 w.2
    have hcap' : len ≤ (s.setBufRow f w.1 w.2).params.slotCap := by simpa using hcap
    refine List.forall_mem_cons.2 ⟨?_, ih hws' hcap' hbufs⟩
    exact (State.bufRow_setBufRows_apart hws' hcap' hfresh).trans (s.bufRow_setBufRow_same f w.1 len w.2 hw)

end Writes

/-- What a command leaves that writes the rows `ws` over `len` bytes of distinct buffers, and nothing else. -/
structure State.WritesRows (s t : State) (f : GF) (len : Nat) (ws : List (Buf × Row)) : Prop where
  same : t.SameButMemory (s.succeeded 0)
  keeps : s.KeepsBytesBut t (ws.map (·.1)) len
  rows : ∀ w ∈ ws, t.bufRow f w.1 len = w.2

theorem State.writesRows_command {s : State} {rule : State → Except Err State} {f : GF} {len : Nat}
    {ws : List (Buf × Row)} (h : rule s.accept = .ok (s.accept.setBufRows f ws))
    (hfit : ∀ w ∈ ws, s.RowFits f len w.2) (hcap : len ≤ s.params.slotCap) (hbufs : (ws.map (·.1)).Nodup) :
    s.WritesRows (s.command rule) f len ws where
  same := s.sameButMemory_command rule _ h (State.sameButMemory_setBufRows f ws (.refl _))
  keeps inWork a ha := by
    rw [s.memByte_command rule _ h]
    exact State.keepsBytesBut_setBufRows (s := s.accept) hfit inWork a ha
  rows w hw := by
    rw [s.bufRow_command rule _ h]
    exact State.bufRow_setBufRows (s := s.accept) hfit hcap hbufs w hw

theorem State.SameButMemory.eq {t u : State} (h : t.SameButMemory u) :
    { t with slots := u.slots, work := u.work } = u := h

/-- Aligned buffers that hold the same row hold the same bytes. -/
theorem State.bufBytes_eq_of_bufRow_eq {s t : State} {f : GF} {b : Buf} {len : Nat} (hp : t.params = s.params)
    (halign : lenAligned f s.params.layout len = true) (h : t.bufRow f b len = s.bufRow f b len) :
    t.bufBytes b len = s.bufBytes b len := by
  have hbytes := congrArg (bytesOfElems f s.params.layout) h
  unfold State.bufRow at hbytes
  rwa [hp, bytesOfElems_elemsOfBytes _ _ _ (by simpa using halign),
    bytesOfElems_elemsOfBytes _ _ _ (by simpa using halign)] at hbytes

theorem State.bufByte_eq_of_bufBytes_eq {s t : State} {b : Buf} {len j : Nat}
    (h : t.bufBytes b len = s.bufBytes b len) (hj : j < len) : t.bufByte b j = s.bufByte b j := by
  rw [State.bufBytes_eq, State.bufBytes_eq] at h
  exact List.map_inj_left.1 h j (List.mem_range.2 hj)

/-- When the rows of the buffers are as before, and every byte outside them, memory is as before. -/
theorem State.KeepsBytesBut.memByte_eq {s t : State} {f : GF} {bs : List Buf} {len : Nat}
    (h : s.KeepsBytesBut t bs len) (hp : t.params = s.params) (halign : lenAligned f s.params.layout len = true)
    (hrows : ∀ b ∈ bs, t.bufRow f b len = s.bufRow f b len) (inWork : Bool) (a : Nat) :
    t.memByte inWork a = s.memByte inWork a := by
  by_cases hin : ∃ b ∈ bs, s.InBuf b len inWork a
  · obtain ⟨b, hb, rfl, hlo, hhi⟩ := hin
    have hbyte := State.bufByte_eq_of_bufBytes_eq (State.bufBytes_eq_of_bufRow_eq hp halign (hrows b hb))
      (Nat.sub_lt_left_of_lt_add hlo hhi)
    have haddr : t.slotAddr b.index = s.slotAddr b.index := congrArg (b.index * ·.slotCap) hp
    simpa only [State.bufByte, haddr, Nat.add_sub_cancel' hlo] using hbyte
  · push Not at hin
    exact h inWork a hin

section WritesRows

variable {s t u : State} {f : GF} {len : Nat} {ws : List (Buf × Row)}

theorem State.WritesRows.params (h : s.WritesRows t f len ws) : t.params = s.params :=
  (congrArg State.params h.same.eq :)

theorem State.WritesRows.err_eq_false (h : s.WritesRows t f len ws) : t.status.err = false :=
  (congrArg (·.status.err) h.same.eq :)

theorem State.WritesRows.argNat (h : s.WritesRows t f len ws) (i : Fin 8) : t.argNat i = s.argNat i :=
  (congrArg (State.argNat · i) h.same.eq :)

/-- A command that writes rows changes nothing that the checks of a butterfly read. -/
theorem State.WritesRows.butterflyBufs (h : s.WritesRows t f len ws) (g : GF) (r : Nat) (twiddles : List Nat) :
    t.butterflyBufs g r twiddles = s.butterflyBufs g r twiddles :=
  (congrArg (State.butterflyBufs · g r twiddles) h.same.eq :)

/-- A second command that writes the rows that the buffers of the first held at first restores memory. -/
theorem State.WritesRows.restores (h₁ : s.WritesRows t f len ws)
    (h₂ : t.WritesRows u f len (ws.map fun w => (w.1, s.bufRow f w.1 len)))
    (halign : lenAligned f s.params.layout len = true) (inWork : Bool) (a : Nat) :
    u.memByte inWork a = s.memByte inWork a := by
  have hkeeps := h₁.keeps.trans h₂.keeps h₁.params
  have hbufs : (ws.map fun w => (w.1, s.bufRow f w.1 len)).map (·.1) = ws.map (·.1) := by simp
  rw [hbufs] at hkeeps
  refine hkeeps.memByte_eq (h₂.params.trans h₁.params) halign (fun b hb => ?_) inWork a
  obtain ⟨w, hw, rfl⟩ := List.mem_map.1 ((List.mem_append.1 hb).elim id id)
  exact h₂.rows _ (List.mem_map_of_mem hw)

end WritesRows

/-! The checks of a butterfly command (43_butterflies.md R210). -/

theorem State.StorageInv.bufLen_le {s : State} (h : s.StorageInv) (b : Buf) : s.bufLen b ≤ s.params.slotCap := by
  cases b with
  | slot i => exact h.slenBound i
  | work i => exact le_rfl

section Checks

variable {s : State} {f : GF} {r : Nat} {twiddles : List Nat}

/-- The checks pass exactly when the buffers exist, the twiddles are in range, and the length is within every buffer
and aligned. -/
theorem State.butterflyBufs_eq_ok_iff {bs : List Buf} : s.butterflyBufs f r twiddles = .ok bs ↔
    s.bufs (s.arg 0) (s.argNat 1) r = some bs ∧ (∀ t ∈ twiddles, t ≤ f.mod)
      ∧ (∀ b ∈ bs, s.argNat 2 ≤ s.bufLen b) ∧ lenAligned f s.params.layout (s.argNat 2) = true := by
  cases h : s.bufs (s.arg 0) (s.argNat 1) r with
  | none => simp [s.butterflyBufs_none f r twiddles h]
  | some cs =>
    rw [s.butterflyBufs_some f r twiddles cs h]
    constructor
    · intro hok
      split_ifs at hok with ht hlen
      push Not at ht hlen
      obtain ⟨hlen, halign⟩ := hlen
      exact ⟨congrArg some (Except.ok.inj hok), ht, Except.ok.inj hok ▸ hlen, by simpa using halign⟩
    · rintro ⟨hcs, ht, hlen, halign⟩
      obtain rfl := Option.some.inj hcs
      rw [if_neg (by simpa using ht), if_neg (by simpa [halign] using hlen)]

/-- The error of a failing check names no port. -/
theorem State.butterflyBufs_error {e : Err} (h : s.butterflyBufs f r twiddles = .error e) : e.ioInfo = none := by
  cases hbufs : s.bufs (s.arg 0) (s.argNat 1) r with
  | none =>
    rw [s.butterflyBufs_none f r twiddles hbufs] at h
    obtain rfl := Except.error.inj h
    rfl
  | some bs =>
    rw [s.butterflyBufs_some f r twiddles bs hbufs] at h
    split_ifs at h <;> (obtain rfl := Except.error.inj h; rfl)

theorem State.butterflyBufs_illegalOperand
    (h : s.bufs (s.arg 0) (s.argNat 1) r = none ∨ ∃ t ∈ twiddles, f.mod < t) :
    s.butterflyBufs f r twiddles = .error .illegalOperand := by
  cases hbufs : s.bufs (s.arg 0) (s.argNat 1) r with
  | none => exact s.butterflyBufs_none f r twiddles hbufs
  | some bs =>
    have ht := h.resolve_left (by simp [hbufs])
    rw [s.butterflyBufs_some f r twiddles bs hbufs, if_pos ht]

theorem State.butterflyBufs_shardSize {bs : List Buf} (hbufs : s.bufs (s.arg 0) (s.argNat 1) r = some bs)
    (ht : ∀ t ∈ twiddles, t ≤ f.mod)
    (hlen : (∃ b ∈ bs, s.bufLen b < s.argNat 2) ∨ lenAligned f s.params.layout (s.argNat 2) = false) :
    s.butterflyBufs f r twiddles = .error .shardSize := by
  rw [s.butterflyBufs_some f r twiddles bs hbufs, if_neg (by simpa using ht), if_pos hlen]

/-- What passing the checks says of the buffers and the length, for the rows that are then written. -/
theorem State.butterflyBufs_ok {bs : List Buf} (h : s.butterflyBufs f r twiddles = .ok bs) (hs : s.StorageInv)
    (hr : 0 < r) : bs.length = r ∧ bs.Nodup ∧ s.argNat 2 ≤ s.params.slotCap
      ∧ lenAligned f s.params.layout (s.argNat 2) = true := by
  obtain ⟨hbufs, -, hlen, halign⟩ := State.butterflyBufs_eq_ok_iff.1 h
  obtain ⟨-, -, hlength, -⟩ := (s.bufs_eq_some_iff _ _ _ _).1 hbufs
  obtain ⟨b, hb⟩ := List.exists_mem_of_length_pos (hlength ▸ hr)
  exact ⟨hlength, s.bufs_apart _ _ _ _ hbufs, (hlen b hb).trans (hs.bufLen_le b), halign⟩

end Checks

/-! The radix-2 commands (43_butterflies.md R213, R214). -/

section Radix2

variable {s t : State} {f : GF} {b0 b1 : Buf} {op : Row → Row → Nat → Row × Row}

theorem State.radix2_error {e : Err} (h : s.butterflyBufs f 2 [s.argNat 3] = .error e) :
    State.radix2 f op s = .error e := by
  unfold State.radix2
  dsimp only
  rw [h]
  rfl

/-- The rows that a radix-2 command writes, each with its buffer. -/
def State.radix2Writes (s : State) (f : GF) (op : Row → Row → Nat → Row × Row) (b0 b1 : Buf) : List (Buf × Row) :=
  let r := op (s.bufRow f b0 (s.argNat 2)) (s.bufRow f b1 (s.argNat 2)) (s.argNat 3)
  [(b0, r.1), (b1, r.2)]

theorem State.radix2_ok (h : s.butterflyBufs f 2 [s.argNat 3] = .ok [b0, b1]) :
    State.radix2 f op s = .ok (s.setBufRows f (s.radix2Writes f op b0 b1)) := by
  unfold State.radix2
  dsimp only
  rw [h]
  rfl

theorem State.writesRows_radix2 (hop : ∀ t, f.Keeps2 (op · · t)) (hs : s.StorageInv)
    (h : s.butterflyBufs f 2 [s.argNat 3] = .ok [b0, b1]) :
    s.WritesRows (s.command (State.radix2 f op)) f (s.argNat 2) (s.radix2Writes f op b0 b1) := by
  obtain ⟨-, hnodup, hcap, halign⟩ := State.butterflyBufs_ok h hs (by decide)
  have hfit := hop (s.argNat 3) _ _ _ (s.length_bufRow f b0 _ halign) (s.length_bufRow f b1 _ halign)
    (s.bounded_bufRow f b0 _) (s.bounded_bufRow f b1 _)
  refine State.writesRows_command (State.radix2_ok (s := s.accept) h) ?_ hcap hnodup
  simpa [State.radix2Writes, State.RowFits, halign] using hfit

theorem State.WritesRows.radix2_rows (h : s.WritesRows t f (s.argNat 2) (s.radix2Writes f op b0 b1)) :
    (t.bufRow f b0 (s.argNat 2), t.bufRow f b1 (s.argNat 2))
      = op (s.bufRow f b0 (s.argNat 2)) (s.bufRow f b1 (s.argNat 2)) (s.argNat 3) := by
  have hrows := h.rows
  simp only [State.radix2Writes, List.forall_mem_cons] at hrows
  obtain ⟨h0, h1, -⟩ := hrows
  exact Prod.ext h0 h1

/-- IFFT_DIT2 after FFT_DIT2 passes the same checks and writes the rows from before. -/
theorem State.WritesRows.ifft2_after_fft2 (hfwd : s.WritesRows t f (s.argNat 2) (s.radix2Writes f f.fft2 b0 b1))
    (hs : s.StorageInv) (ht : t.StorageInv) (hchk : s.butterflyBufs f 2 [s.argNat 3] = .ok [b0, b1]) :
    t.WritesRows (t.command (State.radix2 f f.ifft2)) f (s.argNat 2)
      ((s.radix2Writes f f.fft2 b0 b1).map fun w => (w.1, s.bufRow f w.1 (s.argNat 2))) := by
  obtain ⟨-, -, -, halign⟩ := State.butterflyBufs_ok hchk hs (by decide)
  have hback := f.ifft2_fft2 (s.argNat 3)
    ((s.length_bufRow f b0 _ halign).trans (s.length_bufRow f b1 _ halign).symm)
  rw [← hfwd.radix2_rows] at hback
  have hinv := State.writesRows_radix2 f.keeps2_ifft2 ht
    (show t.butterflyBufs f 2 [t.argNat 3] = .ok [b0, b1] by rw [hfwd.argNat, hfwd.butterflyBufs, hchk])
  simpa only [State.radix2Writes, hfwd.argNat, hback, List.map_cons, List.map_nil] using hinv

end Radix2

/-! The radix-4 commands (43_butterflies.md R215, R216). -/

section Radix4

variable {s t : State} {f : GF} {b0 b1 b2 b3 : Buf}
  {op : Row → Row → Row → Row → Nat → Nat → Nat → Row × Row × Row × Row}

theorem State.radix4_error {e : Err}
    (h : s.butterflyBufs f 4 [s.argNat 3, s.argNat 4, s.argNat 5] = .error e) : State.radix4 f op s = .error e := by
  unfold State.radix4
  dsimp only
  rw [h]
  rfl

/-- The rows that a radix-4 command writes, each with its buffer. -/
def State.radix4Writes (s : State) (f : GF)
    (op : Row → Row → Row → Row → Nat → Nat → Nat → Row × Row × Row × Row) (b0 b1 b2 b3 : Buf) :
    List (Buf × Row) :=
  let row := fun b => s.bufRow f b (s.argNat 2)
  let r := op (row b0) (row b1) (row b2) (row b3) (s.argNat 3) (s.argNat 4) (s.argNat 5)
  [(b0, r.1), (b1, r.2.1), (b2, r.2.2.1), (b3, r.2.2.2)]

theorem State.radix4_ok
    (h : s.butterflyBufs f 4 [s.argNat 3, s.argNat 4, s.argNat 5] = .ok [b0, b1, b2, b3]) :
    State.radix4 f op s = .ok (s.setBufRows f (s.radix4Writes f op b0 b1 b2 b3)) := by
  unfold State.radix4
  dsimp only
  rw [h]
  rfl

theorem State.writesRows_radix4 (hop : ∀ t01 t23 t02, f.Keeps4 (op · · · · t01 t23 t02)) (hs : s.StorageInv)
    (h : s.butterflyBufs f 4 [s.argNat 3, s.argNat 4, s.argNat 5] = .ok [b0, b1, b2, b3]) :
    s.WritesRows (s.command (State.radix4 f op)) f (s.argNat 2) (s.radix4Writes f op b0 b1 b2 b3) := by
  obtain ⟨-, hnodup, hcap, halign⟩ := State.butterflyBufs_ok h hs (by decide)
  have hlen := fun b => s.length_bufRow f b _ halign
  have hbound := fun b => s.bounded_bufRow f b (s.argNat 2)
  have hfit := hop (s.argNat 3) (s.argNat 4) (s.argNat 5) _ _ _ _ _ (hlen b0) (hlen b1) (hlen b2) (hlen b3)
    (hbound b0) (hbound b1) (hbound b2) (hbound b3)
  refine State.writesRows_command (State.radix4_ok (s := s.accept) h) ?_ hcap hnodup
  simpa [State.radix4Writes, State.RowFits, halign] using hfit

theorem State.WritesRows.radix4_rows (h : s.WritesRows t f (s.argNat 2) (s.radix4Writes f op b0 b1 b2 b3)) :
    (t.bufRow f b0 (s.argNat 2), t.bufRow f b1 (s.argNat 2), t.bufRow f b2 (s.argNat 2), t.bufRow f b3 (s.argNat 2))
      = op (s.bufRow f b0 (s.argNat 2)) (s.bufRow f b1 (s.argNat 2)) (s.bufRow f b2 (s.argNat 2))
          (s.bufRow f b3 (s.argNat 2)) (s.argNat 3) (s.argNat 4) (s.argNat 5) := by
  have hrows := h.rows
  simp only [State.radix4Writes, List.forall_mem_cons] at hrows
  obtain ⟨h0, h1, h2, h3, -⟩ := hrows
  exact Prod.ext h0 (Prod.ext h1 (Prod.ext h2 h3))

/-- IFFT_DIT4 after FFT_DIT4 passes the same checks and writes the rows from before. -/
theorem State.WritesRows.ifft4_after_fft4
    (hfwd : s.WritesRows t f (s.argNat 2) (s.radix4Writes f f.fft4 b0 b1 b2 b3)) (hs : s.StorageInv)
    (ht : t.StorageInv)
    (hchk : s.butterflyBufs f 4 [s.argNat 3, s.argNat 4, s.argNat 5] = .ok [b0, b1, b2, b3]) :
    t.WritesRows (t.command (State.radix4 f f.ifft4)) f (s.argNat 2)
      ((s.radix4Writes f f.fft4 b0 b1 b2 b3).map fun w => (w.1, s.bufRow f w.1 (s.argNat 2))) := by
  obtain ⟨-, -, -, halign⟩ := State.butterflyBufs_ok hchk hs (by decide)
  have hlen := fun b => s.length_bufRow f b _ halign
  have hback := f.ifft4_fft4 (s.argNat 3) (s.argNat 4) (s.argNat 5) (hlen b0) (hlen b1) (hlen b2) (hlen b3)
  rw [← hfwd.radix4_rows] at hback
  have hinv := State.writesRows_radix4 f.keeps4_ifft4 ht
    (show t.butterflyBufs f 4 [t.argNat 3, t.argNat 4, t.argNat 5] = .ok [b0, b1, b2, b3] by
      rw [hfwd.argNat, hfwd.argNat, hfwd.argNat, hfwd.butterflyBufs, hchk])
  simpa only [State.radix4Writes, hfwd.argNat, hback, List.map_cons, List.map_nil] using hinv

end Radix4

/-! The four commands of both fields. -/

theorem exec_fftDit2 (f : GF) (s : State) :
    exec (byField f .fftDit2x8 .fftDit2x16) s = .next (s.command (State.radix2 f f.fft2)) := by
  cases f <;> rfl

theorem exec_ifftDit2 (f : GF) (s : State) :
    exec (byField f .ifftDit2x8 .ifftDit2x16) s = .next (s.command (State.radix2 f f.ifft2)) := by
  cases f <;> rfl

theorem exec_fftDit4 (f : GF) (s : State) :
    exec (byField f .fftDit4x8 .fftDit4x16) s = .next (s.command (State.radix4 f f.fft4)) := by
  cases f <;> rfl

theorem exec_ifftDit4 (f : GF) (s : State) :
    exec (byField f .ifftDit4x8 .ifftDit4x16) s = .next (s.command (State.radix4 f f.ifft4)) := by
  cases f <;> rfl

section Commands

variable {s t : State} {f : GF} {i : Instr} {r : Nat} {twiddles : List Nat}

/-- `i` is a butterfly of the field on `r` buffers, and the twiddles are its operands (43_butterflies.md R213 to
R216). -/
def IsButterfly (f : GF) (s : State) (i : Instr) (r : Nat) (twiddles : List Nat) : Prop :=
  (i = byField f .fftDit2x8 .fftDit2x16 ∨ i = byField f .ifftDit2x8 .ifftDit2x16)
      ∧ r = 2 ∧ twiddles = [s.argNat 3]
    ∨ (i = byField f .fftDit4x8 .fftDit4x16 ∨ i = byField f .ifftDit4x8 .ifftDit4x16)
      ∧ r = 4 ∧ twiddles = [s.argNat 3, s.argNat 4, s.argNat 5]

/-- A butterfly whose checks fail. -/
theorem IsButterfly.exec_error {e : Err} (hi : IsButterfly f s i r twiddles)
    (h : s.butterflyBufs f r twiddles = .error e) : exec i s = .next (s.failed e) := by
  have he := State.butterflyBufs_error h
  rcases hi with ⟨rfl | rfl, rfl, rfl⟩ | ⟨rfl | rfl, rfl, rfl⟩
  · rw [exec_fftDit2, s.command_error _ e (State.radix2_error (s := s.accept) h) he]
  · rw [exec_ifftDit2, s.command_error _ e (State.radix2_error (s := s.accept) h) he]
  · rw [exec_fftDit4, s.command_error _ e (State.radix4_error (s := s.accept) h) he]
  · rw [exec_ifftDit4, s.command_error _ e (State.radix4_error (s := s.accept) h) he]

/-- A butterfly that ends without error has passed its checks. -/
theorem IsButterfly.checks_pass (hi : IsButterfly f s i r twiddles) (hexec : exec i s = .next t)
    (herr : t.status.err = false) : ∃ bs, s.butterflyBufs f r twiddles = .ok bs := by
  cases h : s.butterflyBufs f r twiddles with
  | ok bs => exact ⟨bs, rfl⟩
  | error e =>
    rw [hi.exec_error h] at hexec
    obtain rfl := Host.Outcome.next.inj hexec
    exact absurd herr (by simp [State.failed])

end Commands

end Machine

open Machine

/-- Settles O27: the checks pass, and the two rows that the procedure gives are read back as they were written. -/
theorem radixTwoCommands : Obligations.RadixTwoCommands := by
  intro s f b0 b1 hs hbufs ht hlen0 hlen1 halign
  have hchk : s.butterflyBufs f 2 [s.argNat 3] = .ok [b0, b1] :=
    State.butterflyBufs_eq_ok_iff.2 ⟨hbufs, by simpa using ht, by simp [hlen0, hlen1], halign⟩
  have hfwd := State.writesRows_radix2 f.keeps2_fft2 hs hchk
  have hinv := State.writesRows_radix2 f.keeps2_ifft2 hs hchk
  exact ⟨⟨_, exec_fftDit2 f s, hfwd.same, hfwd.keeps, hfwd.radix2_rows⟩,
    ⟨_, exec_ifftDit2 f s, hinv.same, hinv.keeps, hinv.radix2_rows⟩⟩

/-- Settles O28: the checks pass, and the four rows that the procedure gives are read back as they were written. -/
theorem radixFourCommands : Obligations.RadixFourCommands := by
  intro s f b0 b1 b2 b3 hs hbufs ht01 ht23 ht02 hlen halign
  have hchk : s.butterflyBufs f 4 [s.argNat 3, s.argNat 4, s.argNat 5] = .ok [b0, b1, b2, b3] :=
    State.butterflyBufs_eq_ok_iff.2 ⟨hbufs, by simp [ht01, ht23, ht02], hlen, halign⟩
  have hfwd := State.writesRows_radix4 f.keeps4_fft4 hs hchk
  have hinv := State.writesRows_radix4 f.keeps4_ifft4 hs hchk
  exact ⟨⟨_, exec_fftDit4 f s, hfwd.same, hfwd.keeps, hfwd.radix4_rows⟩,
    ⟨_, exec_ifftDit4 f s, hinv.same, hinv.keeps, hinv.radix4_rows⟩⟩

/-- Settles O29: the four commands make the same checks, and the first that fails names the error. -/
theorem butterflyErrors : Obligations.ButterflyErrors := by
  refine ⟨fun s base dist r bs h => s.bufs_apart base dist r bs h, fun s f i r twiddles hi =>
    ⟨fun h => ?_, fun bs hbufs ht hlen => ?_⟩⟩
  · exact IsButterfly.exec_error hi (State.butterflyBufs_illegalOperand h)
  · exact IsButterfly.exec_error hi (State.butterflyBufs_shardSize hbufs ht hlen)

/-- Settles O30, one lemma for each property. -/
theorem butterflyProceduresInvert : Obligations.ButterflyProceduresInvert := fun f _ a b c d ha hb hc hd =>
  ⟨fun t => f.ifft2_fft2 t (ha.trans hb.symm), fun t01 t23 t02 => f.ifft4_fft4 t01 t23 t02 ha hb hc hd,
    f.fft2_mod a b, f.ifft2_mod a b, f.fft4_mod a b c d, f.ifft4_mod a b c d⟩

/-- Settles O31: the inverse command passes the checks that the forward one passed, and writes back the rows from
before, which are the bytes from before. -/
theorem butterflyCommandsInvert : Obligations.ButterflyCommandsInvert := by
  intro s t f fwd inv hs hi hexec herr
  have ht : t.StorageInv := hs.exec hexec
  rcases hi with ⟨rfl, rfl⟩ | ⟨rfl, rfl⟩
  · obtain ⟨bs, hchk⟩ := IsButterfly.checks_pass (.inl ⟨.inl rfl, rfl, rfl⟩) hexec herr
    obtain ⟨hlen, -, -, halign⟩ := State.butterflyBufs_ok hchk hs (by decide)
    obtain ⟨b0, b1, rfl⟩ := List.length_eq_two.1 hlen
    obtain rfl := Host.Outcome.next.inj ((exec_fftDit2 f s).symm.trans hexec)
    have hfwd := State.writesRows_radix2 f.keeps2_fft2 hs hchk
    have hinv := hfwd.ifft2_after_fft2 hs ht hchk
    exact ⟨_, exec_ifftDit2 f _, hinv.err_eq_false, hfwd.restores hinv halign⟩
  · obtain ⟨bs, hchk⟩ := IsButterfly.checks_pass (.inr ⟨.inl rfl, rfl, rfl⟩) hexec herr
    obtain ⟨hlen, -, -, halign⟩ := State.butterflyBufs_ok hchk hs (by decide)
    obtain ⟨b0, b1, b2, b3, rfl⟩ := List.length_eq_four.1 hlen
    obtain rfl := Host.Outcome.next.inj ((exec_fftDit4 f s).symm.trans hexec)
    have hfwd := State.writesRows_radix4 f.keeps4_fft4 hs hchk
    have hinv := hfwd.ifft4_after_fft4 hs ht hchk
    exact ⟨_, exec_ifftDit4 f _, hinv.err_eq_false, hfwd.restores hinv halign⟩

/-- Settles O26: element j of a row that adds two rows adds their elements j. -/
theorem butterflyProcedures : Obligations.ButterflyProcedures := by
  refine fun f => ⟨fun lo hi t j hlen hj => ?_, fun b0 b1 b2 b3 t01 t23 t02 =>
    ⟨f.fft4_eq b0 b1 b2 b3 t01 t23 t02, f.ifft4_eq b0 b1 b2 b3 t01 t23 t02⟩⟩
  have hlen' : lo.length = (xorRow hi lo).length := by simp [hlen]
  rw [f.fft2_eq, f.ifft2_eq]
  exact ⟨f.getD_twiddled t hlen hj, getD_xorRow (f.length_twiddled t hlen).symm (hlen ▸ hj),
    getD_xorRow hlen.symm (hlen ▸ hj), f.getD_twiddled t hlen' hj⟩

end Sys2Proof
end

section
/-! SUPPORT. CONFIG (44_codec.md R230, R231): what it makes of CFG_K and CFG_M, case by case, and the two states that it
can leave. -/

namespace Sys2Proof

namespace Machine

/-- A positive signed word is its unsigned value. -/
theorem toInt_eq_toNat_of_pos {v : Word} (h : 0 < v.toInt) : v.toInt = v.toNat := by
  have hlt := v.isLt
  rw [BitVec.toInt_eq_toNat_cond] at h ⊢
  omega

/-- CONFIG with a count that is not positive. -/
theorem configOf_invalidShardNum {cfg : Cfg} (h : cfg.k.toInt ≤ 0 ∨ cfg.m.toInt ≤ 0) :
    configOf cfg = .error .invalidShardNum := by
  unfold configOf
  rw [check_bind, if_neg]
  simp only [Bool.and_eq_true, decide_eq_true_eq]
  omega

section Positive

variable {cfg : Cfg} (hk : 0 < cfg.k.toInt) (hm : 0 < cfg.m.toInt)

include hk hm

/-- CONFIG of positive counts whose sum is admitted and for which SELECT finds a field (44_codec.md R231). -/
theorem configOf_of_selectField {f : GF} (hsum : cfg.k.toNat + cfg.m.toNat ≤ 65536)
    (hsel : selectField cfg.k.toNat cfg.m.toNat (ceilPow2 cfg.m.toNat) = some f) :
    configOf cfg = .ok ({ k := cfg.k, m := cfg.m, n := BitVec.ofNat 32 (cfg.k.toNat + cfg.m.toNat)
                          mpow := BitVec.ofNat 32 (ceilPow2 cfg.m.toNat) }, f) := by
  unfold configOf
  simp only [check_bind, hk, hm, decide_true, Bool.and_self, if_true, hsum, hsel]
  rfl

/-- CONFIG of positive counts that are too many, or that fit no field. -/
theorem configOf_maxShardNum (h : 65536 < cfg.k.toNat + cfg.m.toNat
      ∨ selectField cfg.k.toNat cfg.m.toNat (ceilPow2 cfg.m.toNat) = none) :
    configOf cfg = .error .maxShardNum := by
  unfold configOf
  simp only [check_bind, hk, hm, decide_true, Bool.and_self, if_true]
  split
  case isFalse => rfl
  case isTrue hsum => rw [h.resolve_left (of_decide_eq_true hsum).not_gt]

end Positive

/-- CONFIG that configures the core: nothing but GEO, CONFIGURED and FIELD16 changes besides completion. -/
theorem exec_config_ok {s : State} {geo : Geo} {f : GF} (h : configOf s.cfg = .ok (geo, f)) :
    exec .config s = .next ((s.setConfig geo f).succeeded (BitVec.ofNat 32 f.width)) := by
  change execConfig s = _
  unfold execConfig
  rw [h]
  rfl

/-- CONFIG that fails: GEO, CONFIGURED and FIELD16 are cleared. -/
theorem exec_config_error {s : State} {e : Err} (h : configOf s.cfg = .error e) (he : e.ioInfo = none) :
    exec .config s = .next (s.clearConfig.failed e) := by
  change execConfig s = _
  unfold execConfig
  rw [h]
  exact congrArg _ (s.clearConfig.accept_complete_some e he)

end Machine

open Machine

/-- Settles O32: a positive signed word is its unsigned value, so the model's chain of checks is the statement's. -/
theorem configConfigures : Obligations.ConfigConfigures := by
  intro s
  dsimp only
  by_cases hneg : s.cfg.k.toInt ≤ 0 ∨ s.cfg.m.toInt ≤ 0
  · rw [if_pos hneg]
    exact exec_config_error (configOf_invalidShardNum hneg) rfl
  obtain ⟨hk, hm⟩ : 0 < s.cfg.k.toInt ∧ 0 < s.cfg.m.toInt := by omega
  rw [if_neg hneg, toInt_eq_toNat_of_pos hk, toInt_eq_toNat_of_pos hm, Int.toNat_natCast, ← Int.natCast_add,
    BitVec.ofInt_natCast]
  by_cases hsum : 65536 < s.cfg.k.toNat + s.cfg.m.toNat
  · rw [if_pos (by omega)]
    exact exec_config_error (configOf_maxShardNum hk hm (.inl hsum)) rfl
  rw [if_neg (by omega)]
  have hok := fun f => configOf_of_selectField (f := f) hk hm (not_lt.1 hsum)
  have hnone := fun h => configOf_maxShardNum hk hm (.inr h)
  generalize ceilPow2 s.cfg.m.toNat = M at *
  by_cases h8 : s.cfg.k.toNat + s.cfg.m.toNat ≤ 256 ∧ M + s.cfg.k.toNat ≤ 256
  · rw [if_pos (by omega)]
    exact exec_config_ok (hok .gf8 (by rw [selectField, if_pos h8]))
  rw [if_neg (by omega)]
  by_cases h16 : M + s.cfg.k.toNat ≤ 65536
  · rw [if_pos (by omega)]
    exact exec_config_ok (hok .gf16 (by rw [selectField, if_neg h8, if_pos h16]))
  · rw [if_neg (by omega)]
    exact exec_config_error (hnone (by rw [selectField, if_neg h8, if_neg h16])) rfl

end Sys2Proof
end

section
/-! SUPPORT. ENCODE, VERIFY, RECONSTRUCT and RECONSTRUCT_DATA (44_codec.md R240 to R255): what a codec command leaves
that writes shards or none, the verdict of each command's checks, and the codeword that ENCODE leaves in the slots. -/

namespace Sys2Proof

namespace Machine

/-! What the codec reads besides slots and lengths. -/

/-- `t` has the parameters, the operands and the configuration of `s`. -/
structure State.SameSetting (s t : State) : Prop where
  params : t.params = s.params
  args : t.args = s.args
  geo : t.geo = s.geo
  configured : t.status.configured = s.status.configured
  field16 : t.status.field16 = s.status.field16

namespace State.SameSetting

variable {s t u : State}

theorem trans (h₁ : s.SameSetting t) (h₂ : t.SameSetting u) : s.SameSetting u where
  params := h₂.params.trans h₁.params
  args := h₂.args.trans h₁.args
  geo := h₂.geo.trans h₁.geo
  configured := h₂.configured.trans h₁.configured
  field16 := h₂.field16.trans h₁.field16

theorem k (h : s.SameSetting t) : t.k = s.k := congrArg (·.k.toNat) h.geo
theorem m (h : s.SameSetting t) : t.m = s.m := congrArg (·.m.toNat) h.geo
theorem n (h : s.SameSetting t) : t.n = s.n := congrArg (·.n.toNat) h.geo
theorem mpow (h : s.SameSetting t) : t.mpow = s.mpow := congrArg (·.mpow.toNat) h.geo
theorem field (h : s.SameSetting t) : t.field = s.field := congrArg (if · then GF.gf16 else .gf8) h.field16
theorem argNat (h : s.SameSetting t) (i : Fin 8) : t.argNat i = s.argNat i := congrArg (·[i].toNat) h.args
theorem slotAddr (h : s.SameSetting t) (i : Nat) : t.slotAddr i = s.slotAddr i := congrArg (i * ·.slotCap) h.params

theorem parityBytes (h : s.SameSetting t) (rows : Rows) (p : Nat) : t.parityBytes rows p = s.parityBytes rows p := by
  unfold State.parityBytes
  rw [h.field, h.params]

theorem slotRow (h : s.SameSetting t) {S i : Nat} (hb : t.slotBytes i S = s.slotBytes i S) :
    t.slotRow S i = s.slotRow S i := by
  unfold State.slotRow
  rw [hb, h.field, h.params]

/-- ENC_PARITY reads the data shards only. -/
theorem slotParity (h : s.SameSetting t) {S : Nat} (hb : ∀ d < s.k, t.slotBytes d S = s.slotBytes d S) :
    t.slotParity S = s.slotParity S := by
  unfold State.slotParity
  rw [h.field, h.k, h.m, h.mpow]
  exact GF.encParity_congr _ _ _ _ _ _ _ fun d hd => h.slotRow (hb d hd)

end State.SameSetting

/-! What a codec command leaves. -/

/-- A command that ends in `u`, which holds the work memory of `s`, before the work buffers become UNSPECIFIED. -/
theorem State.spoilWork_leaves {s u : State} (hp : u.params = s.params) (hw : u.work = s.work) (need : Nat) :
    (u.spoilWork need).SameButWork u ∧ s.KeepsWorkFrom (u.spoilWork need) need := by
  refine ⟨rfl, fun a ha => (u.read_spoilWork need a ?_).trans (by rw [hw])⟩
  exact (congrArg (need * ·.slotCap) hp).trans_le ha

/-- A codec command that fails at entry. -/
theorem State.codec_fails {s : State} {rule : State → Except Err State} {e : Err} (need : Nat)
    (h : rule s.accept = .error e) (he : e.ioInfo = none) :
    ∃ t, s.codec need rule = .next t ∧ t.SameButWork (s.failed e) ∧ s.KeepsWorkFrom t need :=
  ⟨_, s.codec_error need rule e h he, State.spoilWork_leaves rfl rfl need⟩

/-- What a codec command leaves that writes the shards `l` of length `S` and nothing else: completion, and the work
buffers below `need` UNSPECIFIED. -/
structure State.WritesShards (s t : State) (need S : Nat) (l : List (Nat × List Byte)) : Prop where
  same : t.SameButShards (s.succeeded 0)
  work : s.KeepsWorkFrom t need
  slen : ∀ j, t.slenAt j = if j ∈ l.map (·.1) then S else s.slenAt j
  written : ∀ e ∈ l, t.slotBytes e.1 S = e.2
  kept : ∀ a, (∀ e ∈ l, ¬ s.InBuf (.slot e.1) S false a) → t.slots.read a = s.slots.read a

/-- A codec command whose rule writes the shards `l`, none of them twice. -/
theorem State.codec_writesShards {s : State} {rule : State → Except Err State} {S : Nat} {l : List (Nat × List Byte)}
    (need : Nat) (h : rule s.accept = .ok ((s.accept.setSeq .writeResults).putAll S l)) (hcap : S ≤ s.params.slotCap)
    (hword : S < 2 ^ 32) (hlen : ∀ e ∈ l, e.2.length = S) (hnodup : (l.map (·.1)).Nodup) :
    ∃ t, s.codec need rule = .next t ∧ s.WritesShards t need S l := by
  let u := (s.accept.setSeq .writeResults).putAll S l
  have hleaves : (u.complete none |>.spoilWork need).SameButWork (u.complete none)
      ∧ s.KeepsWorkFrom (u.complete none |>.spoilWork need) need :=
    State.spoilWork_leaves (by simp [u]) (by simp [u]) need
  refine ⟨_, s.codec_ok need rule u h, ?_, hleaves.2, fun j => ?_, fun e he => ?_, fun a ha => ?_⟩
  · rw [show u = _ from State.putAll_rest _ S l]
    rfl
  · have hj : u.slenWord j = if j ∈ l.map (·.1) then BitVec.ofNat 32 S else s.slenWord j :=
      State.slenWord_putAll _ S l j
    change (u.slenWord j).toNat = _
    rw [hj]
    split
    · exact Nat.mod_eq_of_lt hword
    · rfl
  · have he : u.slotBytes e.1 S = e.2 :=
      State.slotBytes_putAll (s.accept.setSeq .writeResults) S l hlen hcap hnodup e he
    simpa [State.slotBytes, State.slotAddr] using he
  · exact State.read_putAll (s.accept.setSeq .writeResults) S l hlen a ha

section WritesShards

variable {s t : State} {need S : Nat} {l : List (Nat × List Byte)}

theorem State.WritesShards.setting (h : s.WritesShards t need S l) : s.SameSetting t where
  params := (congrArg State.params h.same :)
  args := (congrArg State.args h.same :)
  geo := (congrArg State.geo h.same :)
  configured := (congrArg (·.status.configured) h.same :)
  field16 := (congrArg (·.status.field16) h.same :)

theorem State.WritesShards.err (h : s.WritesShards t need S l) : t.status.err = false :=
  (congrArg (·.status.err) h.same :)

/-- A shard that is not written keeps its bytes. -/
theorem State.WritesShards.slotBytes_kept (h : s.WritesShards t need S l) (hcap : S ≤ s.params.slotCap) {j : Nat}
    (hj : j ∉ l.map (·.1)) : t.slotBytes j S = s.slotBytes j S := by
  unfold State.slotBytes
  rw [h.setting.slotAddr]
  refine Memory.readBytes_congr _ _ _ _ fun i hi => h.kept _ fun e he hin => hj ?_
  have hje : Buf.slot j = .slot e.1 :=
    s.inBuf_unique _ _ S hcap false _ ⟨rfl, Nat.le_add_right _ i, Nat.add_lt_add_left hi _⟩ hin
  rw [Buf.slot.inj hje]
  exact List.mem_map_of_mem he

end WritesShards

/-! The verdicts. -/

/-- A list of checks gives what its first one does not give only when that one passes. -/
theorem ite_eq_iff_of_ne {α : Type} {p : Prop} [Decidable p] {a b c : α} (h : a ≠ c) :
    (if p then a else b) = c ↔ ¬ p ∧ b = c := by
  by_cases hp : p <;> simp [hp, h]

/-- What both branches of a check give, the check gives. -/
theorem of_ite_eq {α : Type} {p : Prop} [Decidable p] {a b c : α} {Q : Prop} (ha : a = c → Q) (hb : b = c → Q)
    (h : (if p then a else b) = c) : Q := by
  by_cases hp : p
  · exact ha ((if_pos hp).symm.trans h)
  · exact hb ((if_neg hp).symm.trans h)

theorem State.ioInfo_encodeVerdict {s : State} {e : Err} : s.encodeVerdict = some e → e.ioInfo = none := by
  unfold State.encodeVerdict
  repeat' refine of_ite_eq ?_ ?_
  all_goals rintro ⟨⟩ <;> rfl

theorem State.ioInfo_verifyVerdict {s : State} {e : Err} : s.verifyVerdict = some e → e.ioInfo = none := by
  unfold State.verifyVerdict
  repeat' refine of_ite_eq ?_ ?_
  all_goals rintro ⟨⟩ <;> rfl

theorem State.ioInfo_reconstructPlan {s : State} {dataOnly : Bool} {S : Nat} {e : Err} :
    s.reconstructPlan dataOnly S = .fails e → e.ioInfo = none := by
  unfold State.reconstructPlan
  repeat' refine of_ite_eq ?_ ?_
  all_goals rintro ⟨⟩ <;> rfl

/-- What the passed checks of ENCODE say (44_codec.md R250). -/
structure State.Encodable (s : State) : Prop where
  configured : s.status.configured = true
  shards : s.argNat 0 = s.n
  present : ∀ d < s.k, s.slenAt d ≠ 0
  equal : ∀ d < s.k, s.slenAt d = s.slenAt 0
  aligned : s.slenAt 0 % 64 = 0
  room : s.encodeNeed ≤ s.params.workBufs

theorem State.encodable_of_verdict {s : State} (h : s.encodeVerdict = none) : s.Encodable := by
  simp only [State.encodeVerdict, ite_eq_iff_of_ne, ne_eq, reduceCtorEq, not_false_eq_true] at h
  obtain ⟨hconf, hshards, -, hpresent, hequal, -, haligned, hroom, -⟩ := h
  push Not at hpresent hequal
  exact ⟨by simpa using hconf, not_not.1 hshards, hpresent, hequal, not_not.1 haligned, not_lt.1 hroom⟩

/-- VERIFY's checks pass on n > 0 shards of one nonzero aligned length (44_codec.md R251). -/
theorem State.verifyVerdict_eq_none {s : State} {S : Nat} (hconf : s.status.configured = true)
    (hshards : s.argNat 0 = s.n) (hn : 0 < s.n) (hlen : ∀ i < s.n, s.slenAt i = S) (hS : S ≠ 0) (h64 : S % 64 = 0)
    (hroom : s.encodeNeed ≤ s.params.workBufs) : s.verifyVerdict = none := by
  simp only [State.verifyVerdict, ite_eq_iff_of_ne, ne_eq, reduceCtorEq, not_false_eq_true, hlen 0 hn]
  push Not
  exact ⟨by simpa using hconf, hshards, ⟨0, hn, by rwa [hlen 0 hn]⟩, fun i hi => by rwa [hlen i hi], hlen, h64, hroom,
    trivial⟩

/-! ENCODE. -/

/-- The m parity shards that ENCODE writes (44_codec.md R250). -/
def State.parityShards (s : State) (S : Nat) : List (Nat × List Byte) :=
  (List.range s.m).map fun p => (s.k + p, s.parityBytes (s.slotParity S) p)

theorem State.mem_parityShards (s : State) (S : Nat) (e : Nat × List Byte) :
    e ∈ s.parityShards S ↔ ∃ p < s.m, e = (s.k + p, s.parityBytes (s.slotParity S) p) := by
  simp [State.parityShards, eq_comm]

theorem State.mem_keys_parityShards (s : State) (S j : Nat) :
    j ∈ (s.parityShards S).map (·.1) ↔ s.k ≤ j ∧ j < s.k + s.m := by
  simp only [State.parityShards, List.map_map, List.mem_map, List.mem_range, Function.comp]
  exact ⟨fun ⟨p, hp, hj⟩ => by omega, fun ⟨hk, hj⟩ => ⟨j - s.k, by omega, by omega⟩⟩

theorem State.nodup_keys_parityShards (s : State) (S : Nat) : ((s.parityShards S).map (·.1)).Nodup := by
  simp only [State.parityShards, List.map_map]
  exact List.nodup_range.map fun p q h => Nat.add_left_cancel h

theorem exec_encode_eq (s : State) : exec .encode s = s.codec s.encodeNeed State.encodeRule := rfl

/-- ENCODE's rule: its verdict, else its writes. -/
theorem State.encodeRule_eq (s : State) : s.encodeRule = (answerOf s.encodeVerdict (s.slenAt 0)).map fun S =>
    (s.setSeq .writeResults).putAll S (s.parityShards S) := by
  unfold State.encodeRule
  rw [State.encodeChecks_eq]
  cases s.encodeVerdict with
  | some e => rfl
  | none => exact congrArg Except.ok (State.putParity_eq _ _ _)

/-- An ENCODE whose checks pass writes the parity shards. -/
theorem State.encode_writesShards {s : State} (hs : s.StorageInv) (hc : s.ConfigInv) (h : s.encodeVerdict = none) :
    ∃ t, exec .encode s = .next t ∧ s.WritesShards t s.encodeNeed (s.slenAt 0) (s.parityShards (s.slenAt 0)) := by
  have hok := State.encodable_of_verdict h
  refine State.codec_writesShards (rule := State.encodeRule) s.encodeNeed ?_ (hs.slenBound 0) (BitVec.isLt _)
    (fun e he => ?_) (s.nodup_keys_parityShards _)
  · rw [State.encodeRule_eq, show s.accept.encodeVerdict = none from h]
    rfl
  · obtain ⟨p, hp, rfl⟩ := (s.mem_parityShards _ e).1 he
    exact s.length_parityBytes _ _ hc hok.configured hok.aligned (fun d _ => s.slotRow_shape _ d hok.aligned) p hp

/-! VERIFY. -/

/-- The state after a VERIFY that answers `ok`, but for work memory (44_codec.md R251). -/
def State.verified (s : State) (ok : Bool) : State :=
  { s.succeeded (if ok then 1 else 0) with status := { (s.succeeded 0).status with verifyOk := ok } }

/-- A VERIFY whose checks pass. -/
theorem exec_verify_ok {s : State} (h : s.verifyVerdict = none) :
    exec .verify s = .next ((s.verified (s.parityEqual (s.slenAt 0))).spoilWork s.encodeNeed) := by
  refine s.codec_ok s.encodeNeed State.verifyRule
    ((s.accept.setSeq .runFfts).setVerify (s.parityEqual (s.slenAt 0))) ?_
  unfold State.verifyRule
  rw [State.verifyChecks_eq, show s.accept.verifyVerdict = none from h]
  rfl

/-- A VERIFY with a check that fails. -/
theorem exec_verify_fails {s : State} {e : Err} (h : s.verifyVerdict = some e) :
    ∃ t, exec .verify s = .next t ∧ t.SameButWork (s.failed e) ∧ s.KeepsWorkFrom t s.encodeNeed := by
  refine State.codec_fails (rule := State.verifyRule) s.encodeNeed ?_ (State.ioInfo_verifyVerdict h)
  unfold State.verifyRule
  rw [State.verifyChecks_eq, show s.accept.verifyVerdict = some e from h]
  rfl

theorem State.parityEqual_eq (s : State) (S : Nat) : s.parityEqual S
    = decide (∀ p < s.m, s.parityBytes (s.slotParity S) p = s.slotBytes (s.k + p) S) := by
  rw [Bool.eq_iff_iff, decide_eq_true_iff]
  simp [State.parityEqual, allShards_iff]

/-! RECONSTRUCT and RECONSTRUCT_DATA. -/

/-- The shards that a reconstruction writes: the absent ones, or the absent data shards, as DECODE gives them
(44_codec.md R252, R253, R267). -/
def State.recoveredShards (s : State) (dataOnly : Bool) (S : Nat) : List (Nat × List Byte) :=
  ((List.range (if dataOnly then s.k else s.k + s.m)).filter s.absent).map fun i =>
    (i, bytesOfElems s.field s.params.layout (s.field.recovered s.k s.mpow
      (s.field.decode s.k s.m s.mpow (elemCount s.field S) s.absent (s.slotRow S)) i))

theorem State.mem_recoveredShards (s : State) (dataOnly : Bool) (S : Nat) (e : Nat × List Byte) :
    e ∈ s.recoveredShards dataOnly S ↔ ∃ j, (s.slenAt j = 0 ∧ j < if dataOnly then s.k else s.k + s.m)
      ∧ e = (j, bytesOfElems s.field s.params.layout (s.field.recovered s.k s.mpow
        (s.field.decode s.k s.m s.mpow (elemCount s.field S) s.absent (s.slotRow S)) j)) := by
  simp only [State.recoveredShards, List.mem_map, List.mem_filter, List.mem_range, State.absent_iff]
  exact exists_congr fun j => and_congr and_comm eq_comm

theorem State.keys_recoveredShards (s : State) (dataOnly : Bool) (S : Nat) : (s.recoveredShards dataOnly S).map (·.1)
    = (List.range (if dataOnly then s.k else s.k + s.m)).filter s.absent := by
  simp [State.recoveredShards, Function.comp_def]

theorem State.mem_keys_recoveredShards (s : State) (dataOnly : Bool) (S j : Nat) :
    j ∈ (s.recoveredShards dataOnly S).map (·.1) ↔ s.slenAt j = 0 ∧ j < if dataOnly then s.k else s.k + s.m := by
  rw [State.keys_recoveredShards, List.mem_filter, List.mem_range, State.absent_iff, and_comm]

theorem exec_reconstruct_eq (s : State) (dataOnly : Bool) :
    exec (if dataOnly then .reconstructData else .reconstruct) s
      = s.codec s.decodeNeed (State.reconstructRule dataOnly) := by
  cases dataOnly <;> rfl

/-- What a plan of a reconstruction makes its rule do. -/
def State.follow (s : State) (dataOnly : Bool) : Plan → Except Err State
  | .fails e => .error e
  | .noWork => .ok s
  | .recover S => .ok ((s.setSeq .writeResults).putAll S (s.recoveredShards dataOnly S))

theorem State.reconstructRule_eq (s : State) (dataOnly : Bool) :
    s.reconstructRule dataOnly = s.follow dataOnly (s.reconstructPlan dataOnly s.presentLen) := by
  unfold State.reconstructRule
  rw [State.reconstructChecks_eq]
  cases s.reconstructPlan dataOnly s.presentLen with
  | fails e => rfl
  | noWork => rfl
  | recover S => exact congrArg Except.ok (State.putRecovered_eq _ S dataOnly)

/-- What the checks of a reconstruction say that recovers shards (44_codec.md R252). -/
theorem State.reconstructPlan_recover {s : State} {dataOnly : Bool} {S S' : Nat}
    (h : s.reconstructPlan dataOnly S = .recover S') :
    s.status.configured = true ∧ S = S' ∧ S % 64 = 0 := by
  simp only [State.reconstructPlan, ite_eq_iff_of_ne, ne_eq, reduceCtorEq, not_false_eq_true, Plan.recover.injEq] at h
  obtain ⟨hconf, -, -, -, h64, -, -, -, -, hS⟩ := h
  exact ⟨by simpa using hconf, hS, not_not.1 h64⟩

/-- The plan of a reconstruction whose checks pass. -/
theorem State.reconstructPlan_eq {s : State} {S : Nat} (dataOnly : Bool) (hconf : s.status.configured = true)
    (hshards : s.argNat 0 = s.n) (hpresent : ∃ i < s.n, s.slenAt i ≠ 0)
    (hlen : ∀ i < s.n, s.slenAt i ≠ 0 → s.slenAt i = S) (h64 : S % 64 = 0) (hkn : s.k ≤ s.n)
    (habsent : ((List.range s.n).filter fun i => s.slenAt i = 0).length ≤ s.m)
    (hroom : ceilPow2 (s.mpow + s.k) ≤ s.params.workBufs) :
    s.reconstructPlan dataOnly S
      = if ∀ i < (if dataOnly then s.k else s.n), s.slenAt i ≠ 0 then .noWork else .recover S := by
  unfold State.reconstructPlan
  rw [if_neg (by simp [hconf]), if_neg (not_not.2 hshards), if_neg (by push Not; exact hpresent),
    if_neg (by push Not; exact hlen), if_neg (not_not.2 h64), if_neg habsent.not_gt, if_neg hroom.not_gt]
  by_cases hall : ∀ i < s.n, s.slenAt i ≠ 0
  · rw [if_pos hall, if_pos]
    intro i hi
    exact hall i (by cases dataOnly <;> simp at hi <;> omega)
  · rw [if_neg hall]
    cases dataOnly <;> simp [hall]

/-- S of a reconstruction, when the present shards have one length. -/
theorem State.presentLen_of_common {s : State} {S : Nat} (hpresent : ∃ i < s.n, s.slenAt i ≠ 0)
    (hlen : ∀ i < s.n, s.slenAt i ≠ 0 → s.slenAt i = S) : s.presentLen = S := by
  obtain ⟨hn, h0⟩ := Nat.find_spec hpresent
  rw [s.presentLen_eq (Nat.find hpresent) (fun i hi => ?_) h0 hn, hlen _ hn h0]
  by_contra h
  exact Nat.find_min hpresent hi ⟨hi.trans hn, h⟩

/-- A plan depends on S only when some shard is present. -/
theorem State.reconstructPlan_presentLen {s : State} (dataOnly : Bool) {i0 : Nat} (hlow : ∀ i < i0, s.slenAt i = 0)
    (h0 : s.slenAt i0 ≠ 0 ∨ i0 = s.n) :
    s.reconstructPlan dataOnly s.presentLen = s.reconstructPlan dataOnly (s.slenAt i0) := by
  by_cases hi : i0 < s.n
  · rw [s.presentLen_eq i0 hlow (h0.resolve_right hi.ne) hi]
  · have hall : ∀ i < s.n, s.slenAt i = 0 := fun i hin => hlow i (by omega)
    unfold State.reconstructPlan
    rw [if_pos hall, if_pos hall]

/-- A reconstruction that recovers shards writes them. -/
theorem State.reconstruct_writesShards {s : State} {dataOnly : Bool} {S : Nat} (hc : s.ConfigInv)
    (hcap : S ≤ s.params.slotCap) (hword : S < 2 ^ 32)
    (h : s.reconstructPlan dataOnly s.presentLen = .recover S) :
    ∃ t, exec (if dataOnly then .reconstructData else .reconstruct) s = .next t
      ∧ s.WritesShards t s.decodeNeed S (s.recoveredShards dataOnly S) := by
  obtain ⟨hconf, hlen, h64⟩ := State.reconstructPlan_recover h
  rw [hlen] at h64
  rw [exec_reconstruct_eq]
  refine State.codec_writesShards (rule := State.reconstructRule dataOnly) s.decodeNeed ?_ hcap hword
    (fun e he => ?_) ?_
  · rw [State.reconstructRule_eq, show s.accept.reconstructPlan dataOnly s.accept.presentLen = .recover S from h]
    rfl
  · obtain ⟨j, ⟨-, hj⟩, rfl⟩ := (s.mem_recoveredShards dataOnly S e).1 he
    exact s.length_recovered _ _ _ hc hconf h64 (fun i _ _ => (s.slotRow_shape _ i h64).1) j
      (hj.trans_le (by split <;> omega))
  · rw [State.keys_recoveredShards]
    exact List.nodup_range.filter _

end Machine

open Machine

/-- Settles O34: ENCODE writes the list of parity shards, or fails with its verdict. -/
theorem encodeWritesParity : Obligations.EncodeWritesParity := by
  intro s hs hc
  refine ⟨fun h => ?_, fun e h => ?_⟩
  · obtain ⟨t, ht, hw⟩ := State.encode_writesShards hs hc h
    have hn := (hc.total (State.encodable_of_verdict h).configured).1
    refine ⟨t, ht, hw.same, hw.work, fun p hp => ⟨?_, ?_⟩, fun i hi => ?_, fun a ha => hw.kept a fun e he => ?_⟩
    · rw [hw.slen, if_pos ((s.mem_keys_parityShards _ _).2 (by omega))]
    · exact hw.written _ ((s.mem_parityShards _ _).2 ⟨p, hp, rfl⟩)
    · rw [hw.slen, if_neg (mt (s.mem_keys_parityShards _ _).1 (by omega))]
    · obtain ⟨p, hp, rfl⟩ := (s.mem_parityShards _ e).1 he
      exact ha p hp
  · exact State.codec_fails (rule := State.encodeRule) s.encodeNeed
      (by rw [State.encodeRule_eq, show s.accept.encodeVerdict = some e from h]; rfl) (State.ioInfo_encodeVerdict h)

/-- Settles O35: VERIFY answers the comparison of all parity shards, or fails with its verdict. -/
theorem verifyComparesParity : Obligations.VerifyComparesParity := by
  intro s _ _
  dsimp only
  rw [← s.parityEqual_eq]
  exact ⟨fun h => ⟨_, exec_verify_ok h, State.spoilWork_leaves rfl rfl _⟩, fun e h => exec_verify_fails h⟩

/-- Settles O36: the plan of the checks is followed, and it is that of the lowest present shard's length. -/
theorem reconstructRecovers : Obligations.ReconstructRecovers := by
  intro s dataOnly i0 hs hc hlow h0
  have hplan := State.reconstructPlan_presentLen dataOnly hlow h0
  have hrule : ∀ plan, s.reconstructPlan dataOnly (s.slenAt i0) = plan →
      State.reconstructRule dataOnly s.accept = s.accept.follow dataOnly plan := by
    rintro _ rfl
    rw [State.reconstructRule_eq, ← hplan]
    rfl
  refine ⟨fun h => ?_, fun h => ?_, fun e h => ?_⟩
  · obtain ⟨t, ht, hw⟩ := State.reconstruct_writesShards hc (hs.slenBound i0) (BitVec.isLt _) (hplan.trans h)
    rw [(hc.total (State.reconstructPlan_recover h).1).1]
    refine ⟨t, ht, hw.same, hw.work, fun j hj => ⟨?_, ?_⟩, fun j hj => ?_, fun a ha => hw.kept a fun e he => ?_⟩
    · rw [hw.slen, if_pos ((s.mem_keys_recoveredShards _ _ j).2 hj)]
    · exact hw.written _ ((s.mem_recoveredShards _ _ _).2 ⟨j, hj, rfl⟩)
    · rw [hw.slen, if_neg (mt (s.mem_keys_recoveredShards _ _ j).1 hj)]
    · obtain ⟨j, hj, rfl⟩ := (s.mem_recoveredShards _ _ e).1 he
      exact ha j hj
  all_goals rw [exec_reconstruct_eq]
  · exact ⟨_, s.codec_ok s.decodeNeed _ _ (hrule _ h), State.spoilWork_leaves rfl rfl s.decodeNeed⟩
  · exact State.codec_fails s.decodeNeed (hrule _ h) (State.ioInfo_reconstructPlan h)

end Sys2Proof
end

section
/-! SUPPORT. The codeword that ENCODE leaves in the slots, which VERIFY confirms and RECONSTRUCT restores
(44_codec.md R269). -/

namespace Sys2Proof

namespace Machine

/-- The row of shard i in the codeword of the data slots: its own row, or its row of ENC_PARITY (44_codec.md R260). -/
def State.codeRow (s : State) (S i : Nat) : Row :=
  if i < s.k then s.slotRow S i else (s.slotParity S).getD (i - s.k) []

/-- The bytes of a slot's row are the slot's bytes. -/
theorem State.bytesOfElems_slotRow (s : State) {S : Nat} (i : Nat) (h64 : S % 64 = 0) :
    bytesOfElems s.field s.params.layout (s.slotRow S i) = s.slotBytes i S :=
  bytesOfElems_elemsOfBytes _ _ _ (by simpa [State.slotBytes] using lenAligned_of_mod _ _ S h64)

/-- The bytes of shard i in the codeword. -/
def State.codeBytes (s : State) (S i : Nat) : List Byte :=
  bytesOfElems s.field s.params.layout (s.codeRow S i)

theorem State.codeBytes_data (s : State) {S i : Nat} (h64 : S % 64 = 0) (hi : i < s.k) :
    s.codeBytes S i = s.slotBytes i S := by
  unfold State.codeBytes State.codeRow
  rw [if_pos hi, s.bytesOfElems_slotRow i h64]

theorem State.codeBytes_parity (s : State) (S p : Nat) :
    s.codeBytes S (s.k + p) = s.parityBytes (s.slotParity S) p := by
  unfold State.codeBytes State.codeRow
  rw [if_neg (by omega), Nat.add_sub_cancel_left]
  rfl

/-- Every row of the codeword has the data's shape. -/
theorem State.codeRow_shape {s : State} {S i : Nat} (hc : s.ConfigInv) (hconf : s.status.configured = true)
    (h64 : S % 64 = 0) (hi : i < s.k + s.m) :
    (s.codeRow S i).length = elemCount s.field S ∧ s.field.Bounded (s.codeRow S i) := by
  unfold State.codeRow
  split
  · exact s.slotRow_shape S i h64
  · have hm : s.m ≤ s.mpow := by rw [hc.power hconf]; exact le_ceilPow2 _
    exact (s.shaped_encParity S _ hc hconf fun d _ => s.slotRow_shape S d h64).2 _ (by omega)

/-- A configuration fits its field (44_codec.md R231). -/
theorem State.ConfigInv.fits_order {s : State} (hc : s.ConfigInv) (hconf : s.status.configured = true) :
    s.mpow + s.k ≤ s.field.order := by
  have h := hc.fits hconf
  unfold selectField at h
  split_ifs at h with h8 h16
  · rw [← Option.some.inj h]; exact h8.2
  · rw [← Option.some.inj h]; exact h16

/-- A slot that holds its bytes of the codeword holds its row. -/
theorem State.SameSetting.slotRow_eq_codeRow {s t : State} (h : s.SameSetting t) {S i : Nat} (hc : s.ConfigInv)
    (hconf : s.status.configured = true) (h64 : S % 64 = 0) (hi : i < s.k + s.m)
    (hb : t.slotBytes i S = s.codeBytes S i) : t.slotRow S i = s.codeRow S i := by
  obtain ⟨hlen, hbound⟩ := State.codeRow_shape hc hconf h64 hi
  unfold State.slotRow
  rw [hb, h.field, h.params]
  exact elemsOfBytes_bytesOfElems _ _ _ S (lenAligned_of_mod _ _ S h64) hlen hbound

/-- What a state holds whose `n` shards are the codeword of the data slots of `s`. -/
structure State.Encoded (s t : State) : Prop where
  setting : s.SameSetting t
  slen : ∀ i < s.n, t.slenAt i = s.slenAt 0
  bytes : ∀ i < s.n, t.slotBytes i (s.slenAt 0) = s.codeBytes (s.slenAt 0) i

/-- A successful ENCODE leaves the codeword in the slots. -/
theorem State.WritesShards.encoded {s t : State} (hs : s.StorageInv) (hc : s.ConfigInv) (hok : s.Encodable)
    (hw : s.WritesShards t s.encodeNeed (s.slenAt 0) (s.parityShards (s.slenAt 0))) : s.Encoded t := by
  have hn := (hc.total hok.configured).1
  refine ⟨hw.setting, fun i hi => ?_, fun i hi => ?_⟩
  · rw [hw.slen]
    split
    · rfl
    · rename_i hkey
      rw [State.mem_keys_parityShards] at hkey
      exact hok.equal i (by omega)
  · by_cases hik : i < s.k
    · rw [hw.slotBytes_kept (hs.slenBound 0) (mt (s.mem_keys_parityShards _ i).1 (by omega)),
        s.codeBytes_data hok.aligned hik]
    · obtain ⟨p, rfl⟩ := Nat.exists_eq_add_of_le (not_lt.1 hik)
      rw [s.codeBytes_parity]
      exact hw.written _ ((s.mem_parityShards _ _).2 ⟨p, by omega, rfl⟩)

/-- A codeword passes VERIFY's checks and its comparison (44_codec.md R251). -/
theorem State.Encoded.verifies {s t : State} (h : s.Encoded t) (hc : s.ConfigInv) (hok : s.Encodable) :
    t.verifyVerdict = none ∧ t.parityEqual (t.slenAt 0) = true := by
  have hset := h.setting
  have hn := (hc.total hok.configured).1
  obtain ⟨hk, hm⟩ := hc.positive hok.configured
  have hS : t.slenAt 0 = s.slenAt 0 := h.slen 0 (by omega)
  constructor
  · refine State.verifyVerdict_eq_none (S := s.slenAt 0) (hset.configured.trans hok.configured) ?_ ?_ ?_
      (hok.present 0 hk) hok.aligned ?_
    · rw [hset.argNat, hset.n, hok.shards]
    · rw [hset.n]; omega
    · rw [hset.n]; exact h.slen
    · unfold State.encodeNeed
      rw [hset.k, hset.mpow, hset.params]
      exact hok.room
  · rw [State.parityEqual_eq, decide_eq_true_iff, hset.m, hset.k, hS]
    intro p hp
    rw [hset.slotParity fun d hd => (h.bytes d (by omega)).trans (s.codeBytes_data hok.aligned hd),
      hset.parityBytes, h.bytes (s.k + p) (by omega), s.codeBytes_parity]

/-- `e` is a codeword of which the shards in `erased`, at most m, are absent. -/
structure State.Erased (s e : State) (erased : List Nat) : Prop where
  setting : s.SameSetting e
  nodup : erased.Nodup
  few : erased.length ≤ s.m
  slen : ∀ i < s.n, e.slenAt i = if i ∈ erased then 0 else s.slenAt 0
  bytes : ∀ i < s.n, i ∉ erased → e.slotBytes i (s.slenAt 0) = s.codeBytes (s.slenAt 0) i

section Erased

variable {s e : State} {erased : List Nat}

theorem State.Erased.absent_iff (h : s.Erased e erased) (hk : 0 < s.k) (hok : s.Encodable) {i : Nat} (hi : i < s.n) :
    e.slenAt i = 0 ↔ i ∈ erased := by
  rw [h.slen i hi]
  simp [hok.present 0 hk]

theorem State.Erased.slenAt_eq (h : s.Erased e erased) {i : Nat} (hi : i < s.n) (hne : e.slenAt i ≠ 0) :
    e.slenAt i = s.slenAt 0 := by
  rw [h.slen i hi] at hne ⊢
  exact if_neg fun hie => hne (if_pos hie)

/-- At most m shards are absent. -/
theorem State.Erased.absent_le (h : s.Erased e erased) (hk : 0 < s.k) (hok : s.Encodable) :
    ((List.range s.n).filter fun i => e.slenAt i = 0).length ≤ s.m := by
  refine ((List.nodup_range.filter _).subperm fun i hi => ?_).length_le.trans h.few
  simp only [List.mem_filter, List.mem_range, decide_eq_true_eq] at hi
  exact (h.absent_iff hk hok hi.1).1 hi.2

/-- Not every shard is absent. -/
theorem State.Erased.exists_present (h : s.Erased e erased) (hk : 0 < s.k) (hok : s.Encodable) (hmn : s.m < s.n) :
    ∃ i < s.n, e.slenAt i ≠ 0 := by
  by_contra hall
  push Not at hall
  have hle := h.absent_le hk hok
  rw [List.filter_eq_self.2 fun i hi => by simpa using hall i (List.mem_range.1 hi), List.length_range] at hle
  omega

/-- DECODE gives the erased rows of the codeword (44_codec.md R267, R269). -/
theorem State.Erased.recovered (h : s.Erased e erased) (hc : s.ConfigInv) (hok : s.Encodable) {i : Nat}
    (hi : i ∈ erased) (hin : i < s.n) :
    e.field.recovered e.k e.mpow (e.field.decode e.k e.m e.mpow (elemCount e.field (s.slenAt 0)) e.absent
      (e.slotRow (s.slenAt 0))) i = s.codeRow (s.slenAt 0) i := by
  have hset := h.setting
  have hn := (hc.total hok.configured).1
  have hk := (hc.positive hok.configured).1
  obtain ⟨d, hd⟩ := ceilPow2_eq s.m
  have hM : s.mpow = 2 ^ d := (hc.power hok.configured).trans hd
  have habsent : ∀ j < s.k + s.m, e.absent j = true ↔ j ∈ erased := fun j hj =>
    (e.absent_iff j).trans (h.absent_iff hk hok (hn ▸ hj))
  have hrow : ∀ j < s.k + s.m, e.absent j = false → e.slotRow (s.slenAt 0) j = s.codeRow (s.slenAt 0) j :=
    fun j hj hj' => hset.slotRow_eq_codeRow hc hok.configured hok.aligned hj
      (h.bytes j (hn ▸ hj) fun hm => by simp [(habsent j hj).2 hm] at hj')
  have hcard : ((Finset.range (s.k + s.m)).filter fun j => e.absent j = true).card ≤ s.m := by
    refine (Finset.card_le_card fun j hj => ?_).trans (erased.toFinset_card_le.trans h.few)
    rw [Finset.mem_filter, Finset.mem_range] at hj
    exact List.mem_toFinset.2 ((habsent j hj.1).1 hj.2)
  unfold State.codeRow State.slotParity at *
  rw [hset.field, hset.k, hset.m, hset.mpow]
  rw [hM] at hrow ⊢
  exact GF.recovered_encParity s.field s.k s.m d _ _ e.absent _ (hd ▸ le_ceilPow2 s.m) hk
    (hM ▸ hc.fits_order hok.configured) (fun j _ => s.slotRow_shape _ j hok.aligned) hrow hcard i (hn ▸ hin)
    ((habsent i (hn ▸ hin)).2 hi)

/-- The plan of a reconstruction of the codeword: its checks pass. -/
theorem State.Erased.reconstructPlan (h : s.Erased e erased) (hc : s.ConfigInv) (hok : s.Encodable)
    (hroom : ceilPow2 (s.mpow + s.k) ≤ s.params.workBufs) (dataOnly : Bool) :
    e.reconstructPlan dataOnly e.presentLen
      = if ∀ i < (if dataOnly then s.k else s.n), e.slenAt i ≠ 0 then .noWork else .recover (s.slenAt 0) := by
  have hset := h.setting
  have hn := (hc.total hok.configured).1
  obtain ⟨hk, hm⟩ := hc.positive hok.configured
  have hpresent : ∃ i < e.n, e.slenAt i ≠ 0 := hset.n ▸ h.exists_present hk hok (by omega)
  have hlen : ∀ i < e.n, e.slenAt i ≠ 0 → e.slenAt i = s.slenAt 0 := hset.n ▸ fun i hi => h.slenAt_eq hi
  rw [State.presentLen_of_common hpresent hlen, ← hset.k, ← hset.n]
  refine State.reconstructPlan_eq dataOnly (hset.configured.trans hok.configured) ?_ hpresent hlen hok.aligned ?_ ?_ ?_
  · rw [hset.argNat, hset.n, hok.shards]
  · rw [hset.k, hset.n]; omega
  · rw [hset.n, hset.m]; exact h.absent_le hk hok
  · rw [hset.mpow, hset.k, hset.params]; exact hroom

/-- A shard is as it was in the codeword once the erased ones are written: it is one of them, or was not erased. -/
theorem State.Erased.restored {u : State} {need i : Nat} {dataOnly : Bool} (h : s.Erased e erased) (hs : s.StorageInv)
    (hc : s.ConfigInv) (hok : s.Encodable)
    (hw : e.WritesShards u need (s.slenAt 0) (e.recoveredShards dataOnly (s.slenAt 0)))
    (hi : i < if dataOnly then s.k else s.n) (hin : i < s.n) :
    u.slenAt i = s.slenAt 0 ∧ u.slotBytes i (s.slenAt 0) = s.codeBytes (s.slenAt 0) i := by
  have hset := h.setting
  have hkey : i ∈ (e.recoveredShards dataOnly (s.slenAt 0)).map (·.1) ↔ i ∈ erased := by
    rw [State.mem_keys_recoveredShards, h.absent_iff (hc.positive hok.configured).1 hok hin, hset.k, hset.m,
      ← (hc.total hok.configured).1]
    exact and_iff_left hi
  by_cases hie : i ∈ erased
  · refine ⟨(hw.slen i).trans (if_pos (hkey.2 hie)), ?_⟩
    refine (hw.written _ ((e.mem_recoveredShards _ _ _).2
      ⟨i, (e.mem_keys_recoveredShards _ _ i).1 (hkey.2 hie), rfl⟩)).trans ?_
    rw [h.recovered hc hok hie hin, hset.field, hset.params]
    rfl
  · rw [hw.slen, if_neg (mt hkey.1 hie), h.slen i hin, if_neg hie,
      hw.slotBytes_kept (hset.params ▸ hs.slenBound 0) (mt hkey.1 hie)]
    exact ⟨rfl, h.bytes i hin hie⟩

/-- A reconstruction of a codeword with at most m erased shards restores it (44_codec.md R252, R253, R269). -/
theorem State.Erased.reconstruct (h : s.Erased e erased) (hs : s.StorageInv) (hc : s.ConfigInv) (hok : s.Encodable)
    (hroom : ceilPow2 (s.mpow + s.k) ≤ s.params.workBufs) (dataOnly : Bool) :
    ∃ u, exec (if dataOnly then .reconstructData else .reconstruct) e = .next u ∧ u.status.err = false
      ∧ ∀ i < (if dataOnly then s.k else s.n), i < s.n → u.slenAt i = s.slenAt 0
        ∧ u.slotBytes i (s.slenAt 0) = s.codeBytes (s.slenAt 0) i := by
  have hset := h.setting
  have hplan := h.reconstructPlan hc hok hroom dataOnly
  by_cases hall : ∀ i < (if dataOnly then s.k else s.n), e.slenAt i ≠ 0
  · rw [if_pos hall] at hplan
    refine ⟨_, (exec_reconstruct_eq e dataOnly).trans (e.codec_ok e.decodeNeed _ e.accept ?_), rfl,
      fun i hi hin => ⟨h.slenAt_eq hin (hall i hi), h.bytes i hin ?_⟩⟩
    · rw [State.reconstructRule_eq, show e.accept.reconstructPlan dataOnly e.accept.presentLen = .noWork from hplan]
      rfl
    · exact mt (h.absent_iff (hc.positive hok.configured).1 hok hin).2 (hall i hi)
  · rw [if_neg hall] at hplan
    obtain ⟨u, hu, hw⟩ := State.reconstruct_writesShards
      (hc.congr ⟨hset.geo, hset.configured, hset.field16⟩) (hset.params ▸ hs.slenBound 0) (BitVec.isLt _) hplan
    exact ⟨u, hu, hw.err, fun i hi hin => h.restored hs hc hok hw hi hin⟩

end Erased

end Machine

open Machine

/-- Settles O37: ENCODE leaves a codeword, whose parity VERIFY computes again. -/
theorem encodeThenVerify : Obligations.EncodeThenVerify := by
  intro s hs hc h
  have hok := State.encodable_of_verdict h
  obtain ⟨t, ht, hw⟩ := State.encode_writesShards hs hc h
  obtain ⟨hverdict, hequal⟩ := (hw.encoded hs hc hok).verifies hc hok
  have hu := exec_verify_ok hverdict
  rw [hequal] at hu
  exact ⟨t, ht, _, hu, rfl, rfl, rfl, rfl⟩

/-- Settles O54: what is left of the codeword determines it. -/
theorem encodeThenReconstruct : Obligations.EncodeThenReconstruct := by
  intro s hs hc h hroom
  have hok := State.encodable_of_verdict h
  obtain ⟨t, ht, hw⟩ := State.encode_writesShards hs hc h
  have henc := hw.encoded hs hc hok
  refine ⟨t, ht, fun e dataOnly erased he hnodup _ hfew hslen hbytes => ?_⟩
  have hset : t.SameSetting e := by rw [he]; exact ⟨rfl, rfl, rfl, rfl, rfl⟩
  have herased : s.Erased e erased :=
    { setting := henc.setting.trans hset
      nodup := hnodup
      few := hfew
      slen := fun i hi => by rw [hslen i hi, henc.slen i hi]
      bytes := fun i hi hie => (hbytes i hi hie).trans (henc.bytes i hi) }
  obtain ⟨u, hu, herr, hrestored⟩ := herased.reconstruct hs hc hok hroom dataOnly
  refine ⟨u, hu, herr, fun i hi => ?_⟩
  have hin : i < s.n := by
    have hn := (hc.total hok.configured).1
    split at hi <;> omega
  rw [henc.bytes i hin]
  exact hrestored i hi hin

end Sys2Proof
end

section
/-! SUPPORT. ENCODE with one parity shard (44_codec.md R260 with m = M = 1): every transform has one position and does
nothing, so the parity is the XOR of the data shards. -/

namespace Sys2Proof

/-! ENC_PARITY with one parity row. -/

theorem GF.ifft_size_one (f : GF) (V : Rows) (mtrunc off : Nat) : f.ifft V mtrunc 1 off = V := by
  have hlevels : ∀ fuel, f.ifftLevels mtrunc 1 off fuel 1 V = (1, V) := fun fuel => by cases fuel <;> rfl
  unfold GF.ifft
  rw [hlevels]
  rfl

theorem GF.fft_size_one (f : GF) (V : Rows) (mtrunc off : Nat) : f.fft V mtrunc 1 off = V := by
  have hlevels : ∀ fuel, f.fftLevels mtrunc off fuel 1 V = (1, V) := fun fuel => by cases fuel <;> rfl
  unfold GF.fft
  rw [hlevels]
  rfl

/-- A chunk of one position is its data row. -/
theorem GF.encChunk_one (f : GF) (k n : Nat) (data : Nat → Row) {j : Nat} (hj : j < k) :
    f.encChunk k 1 n data j = #[data j] := by
  unfold GF.encChunk
  rw [GF.ifft_size_one]
  simp [hj.not_ge]

/-- The XOR of rows added one by one to the first. -/
def xorRows (data : Nat → Row) (k : Nat) : Row :=
  (List.range k).foldl (fun r j => xorRow r (data (j + 1))) (data 0)

theorem xorRows_succ (data : Nat → Row) (k : Nat) : xorRows data (k + 1) = xorRow (xorRows data k) (data (k + 1)) := by
  simp [xorRows, List.range_succ]

theorem GF.encParity_one (f : GF) (k n : Nat) (data : Nat → Row) :
    f.encParity (k + 1) 1 1 n data = #[xorRows data k] := by
  have hsum : ∀ c ≤ k, (List.range c).foldl (init := f.encChunk (k + 1) 1 n data 0)
      (fun W j => Array.zipWith xorRow W (f.encChunk (k + 1) 1 n data (j + 1))) = #[xorRows data c] := by
    intro c hc
    induction c with
    | zero => exact f.encChunk_one (k + 1) n data (Nat.succ_pos k)
    | succ c ih =>
      rw [List.range_succ, List.foldl_append, ih (by omega), List.foldl_cons, List.foldl_nil,
        f.encChunk_one (k + 1) n data (by omega), xorRows_succ]
      simp
  unfold GF.encParity
  have hchunks : ceilDiv (k + 1) 1 - 1 = k := by simp [ceilDiv]
  rw [hchunks, hsum k le_rfl, GF.fft_size_one]

namespace Machine

/-! Bytes of a sum of rows. -/

theorem map_xorRow {g : Nat → Byte} (hg : ∀ a b, g (a ^^^ b) = g a ^^^ g b) (x y : Row) :
    (xorRow x y).map g = List.zipWith (· ^^^ ·) (x.map g) (y.map g) := by
  simp [xorRow, List.map_zipWith, List.zipWith_map, hg]

theorem lowByte_xor (a b : Nat) : BitVec.ofNat 8 (a ^^^ b) = BitVec.ofNat 8 a ^^^ BitVec.ofNat 8 b :=
  BitVec.ofNat_xor ..

theorem highByte_xor (a b : Nat) :
    BitVec.ofNat 8 ((a ^^^ b) >>> 8) = BitVec.ofNat 8 (a >>> 8) ^^^ BitVec.ofNat 8 (b >>> 8) := by
  rw [Nat.shiftRight_xor_distrib, lowByte_xor]

theorem le16Bytes_xorRow {x y : Row} (h : x.length = y.length) :
    le16Bytes (xorRow x y) = List.zipWith (· ^^^ ·) (le16Bytes x) (le16Bytes y) := by
  induction x generalizing y with
  | nil => rfl
  | cons a x ih =>
    obtain ⟨b, y, rfl⟩ := List.exists_cons_of_length_eq_add_one h.symm
    have ih := ih (Nat.succ.inj h)
    simp only [le16Bytes, xorRow, List.zipWith_cons_cons, List.flatMap_cons, List.cons_append, List.nil_append] at ih ⊢
    rw [ih, lowByte_xor, highByte_xor]

theorem split64Bytes_xorRow (c : Nat) {x y : Row} (h : x.length = y.length) :
    split64Bytes c (xorRow x y) = List.zipWith (· ^^^ ·) (split64Bytes c x) (split64Bytes c y) := by
  induction c generalizing x y with
  | zero => rfl
  | succ c ih =>
    have htake : (xorRow x y).take 32 = xorRow (x.take 32) (y.take 32) := List.take_zipWith
    have hdrop : (xorRow x y).drop 32 = xorRow (x.drop 32) (y.drop 32) := List.drop_zipWith
    simp only [split64Bytes]
    rw [htake, hdrop, ih (by simp [h]), map_xorRow lowByte_xor, map_xorRow highByte_xor,
      List.zipWith_append (by simp [h]), List.zipWith_append (by simp [h])]

/-- The bytes of a sum of rows are the XOR of their bytes, in every layout. -/
theorem bytesOfElems_xorRow (f : GF) (layout : Elem16Layout) {x y : Row} (h : x.length = y.length) :
    bytesOfElems f layout (xorRow x y)
      = List.zipWith (· ^^^ ·) (bytesOfElems f layout x) (bytesOfElems f layout y) := by
  cases f with
  | gf8 => exact map_xorRow lowByte_xor x y
  | gf16 =>
    cases layout with
    | split64 =>
      simp only [bytesOfElems, length_xorRow, h, Nat.min_self]
      exact split64Bytes_xorRow _ h
    | le16 => exact le16Bytes_xorRow h

theorem length_xorRows {data : Nat → Row} {n k : Nat} (h : ∀ d ≤ k, (data d).length = n) :
    (xorRows data k).length = n := by
  induction k with
  | zero => exact h 0 le_rfl
  | succ k ih =>
    rw [xorRows_succ, length_xorRow, ih fun d hd => h d (by omega), h (k + 1) le_rfl, Nat.min_self]

/-- A byte of the XOR of rows is the XOR of that byte of each. -/
theorem getD_bytesOfElems_xorRows (f : GF) (layout : Elem16Layout) {data : Nat → Row} {S k j : Nat}
    (halign : lenAligned f layout S = true) (h : ∀ d ≤ k, (data d).length = elemCount f S) (hj : j < S) :
    (bytesOfElems f layout (xorRows data k)).getD j 0
      = ((List.range (k + 1)).map fun d => (bytesOfElems f layout (data d)).getD j 0).foldl (· ^^^ ·) 0 := by
  induction k with
  | zero => simp [xorRows]
  | succ k ih =>
    have hsum := length_xorRows fun d (hd : d ≤ k) => h d (by omega)
    have hx := length_bytesOfElems f layout _ S halign hsum
    have hy := length_bytesOfElems f layout _ S halign (h (k + 1) le_rfl)
    have hbyte : ∀ x y : List Byte, x.length = S → y.length = S →
        (List.zipWith (· ^^^ ·) x y).getD j 0 = x.getD j 0 ^^^ y.getD j 0 := fun x y hx hy => by
      simp [List.getD_eq_getElem?_getD, hx, hy, hj]
    rw [xorRows_succ, bytesOfElems_xorRow f layout (hsum.trans (h (k + 1) le_rfl).symm), hbyte _ _ hx hy,
      ih fun d hd => h d (by omega), List.range_succ (n := k + 1), List.map_append,
      List.foldl_append]
    rfl

/-- With one parity shard, ENC_PARITY over the slots is the XOR of their rows. -/
theorem State.slotParity_one {s : State} {S : Nat} (hc : s.ConfigInv) (hconf : s.status.configured = true)
    (hm : s.m = 1) : s.slotParity S = #[xorRows (s.slotRow S) (s.k - 1)] := by
  have hM : s.mpow = 1 := by rw [hc.power hconf, hm]; rfl
  obtain ⟨k, hk⟩ := Nat.exists_eq_add_one_of_ne_zero (hc.positive hconf).1.ne'
  unfold State.slotParity
  rw [hm, hM, hk]
  exact s.field.encParity_one k _ _

/-- Byte j of a slot. -/
theorem State.bufByte_slot (s : State) (i : Nat) {S j : Nat} (hj : j < S) :
    s.bufByte (.slot i) j = (s.slotBytes i S).getD j 0 :=
  (Memory.getD_readBytes s.slots (s.slotAddr i) S j hj 0).symm

end Machine

open Machine

/-- Settles O38: the transforms of size one do nothing, and bytes of a sum of rows are sums of bytes. -/
theorem singleParityIsXor : Obligations.SingleParityIsXor := by
  intro s hs hc h hm
  have hok := State.encodable_of_verdict h
  obtain ⟨t, ht, hw⟩ := State.encode_writesShards hs hc h
  refine ⟨t, ht, fun j hj => ?_⟩
  have hk : s.k - 1 + 1 = s.k := Nat.sub_add_cancel (hc.positive hok.configured).1
  have halign := lenAligned_of_mod s.field s.params.layout _ hok.aligned
  have hparity : t.slotBytes s.k (s.slenAt 0) = bytesOfElems s.field s.params.layout
      (xorRows (s.slotRow (s.slenAt 0)) (s.k - 1)) := by
    rw [hw.written (s.k, _) ((s.mem_parityShards _ _).2 ⟨0, by omega, rfl⟩), State.slotParity_one hc hok.configured hm]
    rfl
  rw [t.bufByte_slot s.k hj, hparity,
    getD_bytesOfElems_xorRows _ _ halign (fun d _ => (s.slotRow_shape _ d hok.aligned).1) hj, hk]
  exact congrArg _ (List.map_congr_left fun d _ => by rw [s.bytesOfElems_slotRow d hok.aligned, s.bufByte_slot d hj])

end Sys2Proof
end

section
/-! SUPPORT. The port protocol (45_stream.md R290, R291), and what the port commands do when they are issued: the error
of an entry check, the end of a command without work, or the wait on the first port operation. -/

namespace Sys2Proof.Machine

/-! ReadFull, case by case. -/

theorem InPort.readFull_enough {p : InPort} {want : Nat} (h : want ≤ p.data.length - p.pos) :
    p.readFull want = (.ok ((p.data.drop p.pos).take want), { p with pos := p.pos + want }) :=
  if_pos h

theorem InPort.readFull_short_eof {p : InPort} {want : Nat} (h : p.data.length - p.pos < want) (ht : p.term = .eof) :
    p.readFull want = (.ok (p.data.drop p.pos), { p with pos := p.data.length }) := by
  simp [InPort.readFull, InPort.avail, h.not_ge, ht]

theorem InPort.readFull_short_err {p : InPort} {want : Nat} {c : Word} (h : p.data.length - p.pos < want)
    (ht : p.term = .err c) : p.readFull want = (.error c, { p with pos := p.data.length }) := by
  simp [InPort.readFull, InPort.avail, h.not_ge, ht]

theorem InPort.readFull_conn (p : InPort) (want : Nat) : (p.readFull want).2.conn = p.conn := by
  unfold InPort.readFull
  split
  · rfl
  · split <;> rfl

/-! Verdicts. -/

theorem State.streamVerdict_eq_none {s : State} {own : Option Err} :
    s.streamVerdict own = none ↔ s.status.configured = true ∧ s.blockOk = true ∧ own = none := by
  have hblock : s.blockOk = true ↔ ¬ (s.blockSize = 0 ∨ s.blockSize % 64 ≠ 0 ∨ s.params.stgCap < s.blockSize) := by
    simp [State.blockOk, and_assoc]
  rw [State.streamVerdict, ite_eq_iff_of_ne (by simp), ite_eq_iff_of_ne (by simp), hblock, Bool.not_eq_false]

theorem State.ioInfo_streamVerdict {s : State} {own : Option Err} {e : Err} (h : own = some e → e.ioInfo = none) :
    s.streamVerdict own = some e → e.ioInfo = none := by
  unfold State.streamVerdict
  refine of_ite_eq ?_ (of_ite_eq ?_ h)
  all_goals rintro ⟨⟩; rfl

theorem State.ioInfo_joinVerdict {s : State} {e : Err} : s.joinVerdict = some e → e.ioInfo = none := by
  unfold State.joinVerdict
  repeat' refine of_ite_eq ?_ ?_
  all_goals rintro ⟨⟩ <;> rfl

theorem State.ioInfo_streamEncodeVerdict {s : State} {e : Err} : s.streamEncodeVerdict = some e → e.ioInfo = none := by
  refine State.ioInfo_streamVerdict ?_
  repeat' refine of_ite_eq ?_ ?_
  all_goals rintro ⟨⟩ <;> rfl

theorem State.ioInfo_streamVerifyVerdict {s : State} {e : Err} : s.streamVerifyVerdict = some e → e.ioInfo = none := by
  refine State.ioInfo_streamVerdict ?_
  repeat' refine of_ite_eq ?_ ?_
  all_goals rintro ⟨⟩ <;> rfl

theorem State.ioInfo_streamReconstructVerdict {s : State} {e : Err} :
    s.streamReconstructVerdict = some e → e.ioInfo = none := by
  refine State.ioInfo_streamVerdict ?_
  repeat' refine of_ite_eq ?_ ?_
  all_goals rintro ⟨⟩ <;> rfl

theorem State.ioInfo_streamDecodeVerdict {s : State} {e : Err} : s.streamDecodeVerdict = some e → e.ioInfo = none := by
  unfold State.streamDecodeVerdict
  repeat' refine of_ite_eq ?_ ?_
  all_goals rintro ⟨⟩ <;> rfl

theorem State.ioInfo_streamSplitVerdict {s : State} {e : Err} : s.streamSplitVerdict = some e → e.ioInfo = none := by
  refine State.ioInfo_streamVerdict ?_
  repeat' refine of_ite_eq ?_ ?_
  all_goals rintro ⟨⟩ <;> rfl

theorem State.ioInfo_streamJoinVerdict {s : State} {e : Err} : s.streamJoinVerdict = some e → e.ioInfo = none := by
  refine State.ioInfo_streamVerdict ?_
  repeat' refine of_ite_eq ?_ ?_
  all_goals rintro ⟨⟩ <;> rfl

/-- JOIN's checks pass on a configured core only. -/
theorem State.configured_of_joinVerdict {s : State} (h : s.joinVerdict = none) : s.status.configured = true := by
  rw [State.joinVerdict, ite_eq_iff_of_ne (by simp)] at h
  simpa using h.1

/-! Entries. -/

/-- What the entry of JOIN leaves (45_stream.md R301). -/
theorem exec_join_eq (s : State) : exec .join s
    = .next (Flow.ofChecks s.accept (answerOf s.joinVerdict (s.accept.joinNext 0 s.size64 s.size64))).settle := by
  change Host.Outcome.next (Flow.ofChecks s.accept s.accept.joinRule).settle = _
  rw [State.joinRule_eq]
  rfl

theorem Flow.ofChecks_passed (s : State) (f : Flow) : Flow.ofChecks s (answerOf none f) = f := rfl

/-- JOIN with its checks passed: its first write, or its end. -/
theorem exec_join_ok {s : State} (h : s.joinVerdict = none) :
    exec .join s = .next (s.accept.joinNext 0 s.size64 s.size64).settle := by
  rw [exec_join_eq, h, Flow.ofChecks_passed]

/-- A stream command whose entry checks fail. -/
theorem State.streamCommand_fails {s : State} {cleanup : State → State} {rule : State → Except Err Flow} {e : Err}
    (hc : ∀ t, (cleanup t).SameButScratch t) (h : rule s.accept = .error e) (he : e.ioInfo = none) :
    ∃ t, s.streamCommand cleanup rule = .next t ∧ t.SameButScratch (s.failed e) := by
  refine ⟨cleanup (s.failed e), ?_, hc _⟩
  unfold State.streamCommand
  rw [h, ← s.accept_complete_some e he]
  rfl

/-- A stream command that goes on by the flow `f`. -/
theorem State.streamCommand_ok {s : State} {cleanup : State → State} {rule : State → Except Err Flow} {f : Flow}
    (h : rule s.accept = .ok f) : s.streamCommand cleanup rule = .next (f.settleWith cleanup) := by
  unfold State.streamCommand
  rw [h]
  rfl

theorem State.endBlockCommand_scratch (need : Nat) (t : State) : (State.endBlockCommand need t).SameButScratch t := rfl

theorem State.spoilStg_scratch (t : State) : t.spoilStg.SameButScratch t := rfl

theorem exec_streamReconstruct_eq (s : State) (dataOnly : Bool) :
    exec (if dataOnly then .streamReconstructData else .streamReconstruct) s
      = s.streamCommand (State.endBlockCommand s.decodeNeed) (State.streamReconstructRule dataOnly) := by
  cases dataOnly <;> rfl

/-- The first read of a block with readers: in the order of their indices with PAR_IO = 0 (45_stream.md R296). -/
theorem State.startBlock_waits (s : State) (kind : BlockKind) (blocks : Nat) (hne : s.readers kind ≠ []) :
    ∃ todo d, s.startBlock kind blocks
        = .wait (({ s with draws := d } : State).waitOn (.readBlock kind blocks todo [] []))
      ∧ todo.Perm (s.readers kind) ∧ (s.parIoLatch = false → todo = s.readers kind) := by
  obtain ⟨todo, d, hord, hperm, hseq⟩ := s.ordered_eq (s.readers kind)
  have hemp : todo.isEmpty = false := by
    rw [List.isEmpty_eq_false_iff]
    rintro rfl
    exact hne (List.nil_perm.1 hperm)
  refine ⟨todo, d, ?_, hperm, fun hp => (hseq hp).1⟩
  unfold State.startBlock
  rw [hord]
  simp [hemp]

/-- A block command that passes its checks. -/
theorem State.streamCommand_starts {s : State} {cleanup : State → State} {rule : State → Except Err Flow}
    {kind : BlockKind} (h : rule s.accept = .ok (s.accept.startBlock kind 0)) (hne : s.readers kind ≠ []) :
    ∃ todo d, s.streamCommand cleanup rule = .next { s.waiting (.readBlock kind 0 todo [] []) with draws := d }
      ∧ todo.Perm (s.readers kind) ∧ (s.ctrl.parIo = false → todo = s.readers kind) := by
  have hr : s.accept.readers kind = s.readers kind := by cases kind <;> rfl
  obtain ⟨todo, d, hw, hperm, hseq⟩ := s.accept.startBlock_waits kind 0 (hr ▸ hne)
  rw [hr] at hperm hseq
  exact ⟨todo, d, by rw [State.streamCommand_ok h, hw]; rfl, hperm, hseq⟩

/-! The readers of a block command. -/

theorem State.readers_reconstruct (s : State) (dataOnly : Bool) :
    s.readers (.reconstruct dataOnly) = (List.range s.n).filter fun i => (s.inPort i).conn = true :=
  List.filter_congr fun i _ => by simp [State.inConn]

theorem State.readers_encode_ne_nil {s : State} (hc : s.ConfigInv) (hconf : s.status.configured = true) :
    s.readers .encode ≠ [] := by
  have hk := (hc.positive hconf).1
  exact mt List.range_eq_nil.1 hk.ne'

theorem State.readers_verify_ne_nil {s : State} (hc : s.ConfigInv) (hconf : s.status.configured = true) :
    s.readers .verify ≠ [] := by
  have hk := (hc.positive hconf).1
  have hn := (hc.total hconf).1
  exact mt List.range_eq_nil.1 (by omega)

/-- At most m < n shards are absent, so some reader is connected (45_stream.md R312). -/
theorem State.readers_reconstruct_ne_nil {s : State} (hc : s.ConfigInv) (hconf : s.status.configured = true)
    (habsent : s.absentStreams.length ≤ s.m) (dataOnly : Bool) : s.readers (.reconstruct dataOnly) ≠ [] := by
  have hk := (hc.positive hconf).1
  have hn := (hc.total hconf).1
  intro h
  rw [s.readers_reconstruct, List.filter_eq_nil_iff] at h
  have hall : s.absentStreams = List.range s.n :=
    List.filter_eq_self.2 fun i hi => by simpa using h i hi
  rw [hall, List.length_range] at habsent
  omega

/-- The reconstructions pass their last checks with at most m shards absent and enough work buffers. -/
theorem State.streamDecodeVerdict_eq_none {s : State} (h : s.streamDecodeVerdict = none) :
    s.absentStreams.length ≤ s.m ∧ ceilPow2 (s.mpow + s.k) ≤ s.params.workBufs := by
  rw [State.streamDecodeVerdict, ite_eq_iff_of_ne (by simp), ite_eq_iff_of_ne (by simp)] at h
  exact ⟨not_lt.1 h.1, not_lt.1 h.2.1⟩

/-- STREAM_JOIN with its checks passed: its first read, or its end (45_stream.md R315). -/
theorem exec_streamJoin_ok {s : State} (h : s.streamJoinVerdict = none) :
    exec .streamJoin s = .next ((s.accept.streamJoinNext 0 s.size64 0).settleWith State.spoilStg) :=
  State.streamCommand_ok (by rw [State.streamJoinRule_eq, show s.accept.streamJoinVerdict = none from h]; rfl)

theorem State.streamJoinNext_done (s : State) (j total : Nat) :
    s.streamJoinNext j 0 total = .done (s.setResult total) := if_pos rfl

theorem State.streamJoinNext_reads {s : State} {j rem : Nat} (total : Nat) (hrem : rem ≠ 0) (hj : j < s.k)
    (hconn : (s.inPort j).conn = true) :
    s.streamJoinNext j rem total = .wait (s.waitOn (.streamJoinRead j rem total)) := by
  rw [State.streamJoinNext, if_neg hrem, if_pos ⟨hj, hconn⟩]

theorem State.joinNext_done {s : State} {j rem : Nat} (outSize : Nat) (h : rem = 0 ∨ s.k ≤ j) :
    s.joinNext j rem outSize = .done (s.setResult outSize) := if_pos h

theorem State.joinNext_writes {s : State} {j rem : Nat} (outSize : Nat) (hrem : rem ≠ 0) (hj : j < s.k) :
    s.joinNext j rem outSize = .wait (s.waitOn (.joinWrite j rem outSize)) :=
  if_neg (by omega)

end Sys2Proof.Machine

namespace Sys2Proof

open Machine

/-- Settles O42: ReadFull case by case, and the two answers to a write. -/
theorem portProtocol : Obligations.PortProtocol := by
  refine ⟨fun s i want => ?_, fun s j n c bytes => ?_⟩
  · have hport : (s.portRead .served i want).2.inPort i = ((s.inPort i).readFull want).2 :=
      (s.inPort_setInPort i _ i).trans (if_pos rfl)
    dsimp only
    rw [hport, s.portRead_served]
    refine ⟨fun h => ?_, fun h ht => ?_, fun c h ht => ?_, (s.movesIn_setInPort i _).2, rfl⟩
    · rw [InPort.readFull_enough h]
      exact ⟨rfl, rfl⟩
    · rw [InPort.readFull_short_eof h ht]
      exact ⟨rfl, rfl⟩
    · rw [InPort.readFull_short_err h ht]
      exact ⟨rfl, rfl⟩
  · refine ⟨rfl, (s.portWrite_movesOut .served j bytes).2.1, rfl, (s.portWrite_movesOut (.failed c n) j bytes).2.1,
      fun r => ⟨?_, (s.portWrite_movesOut r j bytes).2.2⟩⟩
    cases r <;> rfl

/-- Settles O40: JOIN's verdict, then its loop at slot 0, where some slot is left because k > 0. -/
theorem joinStarts : Obligations.JoinStarts := by
  intro s hc
  refine ⟨fun e h => ?_, fun h h0 => ?_, fun h h0 => ?_⟩
  · rw [exec_join_eq, h, ← s.accept_complete_some e (State.ioInfo_joinVerdict h)]
    rfl
  · rw [exec_join_ok h, State.joinNext_done _ (.inl h0), h0]
    rfl
  · have hk := (hc.positive (State.configured_of_joinVerdict h)).1
    rw [exec_join_ok h, State.joinNext_writes (s := s.accept) _ h0 hk]
    rfl

/-- Settles O46: each command's verdict, then its first read. -/
theorem splitAndJoinStreamsStart : Obligations.SplitAndJoinStreamsStart := by
  intro s hc
  refine ⟨fun e h => ?_, fun h => ?_, fun e h => ?_, fun h => ?_⟩
  · exact State.streamCommand_fails State.spoilStg_scratch
      (by rw [State.streamSplitRule_eq, show s.accept.streamSplitVerdict = some e from h]; rfl)
      (State.ioInfo_streamSplitVerdict h)
  · exact State.streamCommand_ok (rule := State.streamSplitRule) (cleanup := State.spoilStg)
      (by rw [State.streamSplitRule_eq, show s.accept.streamSplitVerdict = none from h]; rfl)
  · exact State.streamCommand_fails State.spoilStg_scratch
      (by rw [State.streamJoinRule_eq, show s.accept.streamJoinVerdict = some e from h]; rfl)
      (State.ioInfo_streamJoinVerdict h)
  · have hk := (hc.positive (State.streamVerdict_eq_none.1 h).1).1
    rw [exec_streamJoin_ok h]
    refine ⟨fun h0 => ⟨(s.succeeded 0).spoilStg, ?_, rfl⟩, fun h0 hconn => ?_,
      fun h0 hconn => ⟨(s.failed .shortData).spoilStg, ?_, rfl⟩⟩
    · rw [h0, State.streamJoinNext_done]
      rfl
    · rw [State.streamJoinNext_reads (s := s.accept) _ h0 hk hconn]
      rfl
    · rw [State.streamJoinNext, if_neg h0, if_neg (by simp [State.inConn, hconn])]
      rfl

/-- Settles O45: each command's verdict, then the first read of its first block, which has a reader because k > 0 and
at most m shards are absent. -/
theorem blockCommandsStart : Obligations.BlockCommandsStart := by
  intro s hc
  refine ⟨fun h => ?_, fun e h => ?_, fun h => ?_, fun e h => ?_, fun dataOnly => ?_⟩
  · exact State.streamCommand_starts (rule := State.streamEncodeRule)
      (by rw [State.streamEncodeRule_eq, show s.accept.streamEncodeVerdict = none from h]; rfl)
      (State.readers_encode_ne_nil hc (State.streamVerdict_eq_none.1 h).1)
  · exact State.streamCommand_fails (State.endBlockCommand_scratch _)
      (by rw [State.streamEncodeRule_eq, show s.accept.streamEncodeVerdict = some e from h]; rfl)
      (State.ioInfo_streamEncodeVerdict h)
  · exact State.streamCommand_starts (rule := State.streamVerifyRule)
      (by rw [State.streamVerifyRule_eq, show s.accept.streamVerifyVerdict = none from h]; rfl)
      (State.readers_verify_ne_nil hc (State.streamVerdict_eq_none.1 h).1)
  · exact State.streamCommand_fails (State.endBlockCommand_scratch _)
      (by rw [State.streamVerifyRule_eq, show s.accept.streamVerifyVerdict = some e from h]; rfl)
      (State.ioInfo_streamVerifyVerdict h)
  · classical
    have hrule := s.accept.streamReconstructRule_eq dataOnly
    dsimp only
    rw [exec_streamReconstruct_eq]
    refine ⟨fun e h => ?_, fun h hno => ?_, fun h hwork => ⟨fun hdec => ?_, fun e hdec => ?_⟩⟩
    all_goals rw [show s.accept.streamReconstructVerdict = _ from h] at hrule
    · exact State.streamCommand_fails (State.endBlockCommand_scratch _) hrule (State.ioInfo_streamReconstructVerdict h)
    · rw [if_pos (show s.accept.NothingToRecover dataOnly from hno)] at hrule
      exact ⟨_, State.streamCommand_ok hrule, State.endBlockCommand_scratch _ _⟩
    · rw [if_neg (show ¬ s.accept.NothingToRecover dataOnly from hwork),
        show s.accept.streamDecodeVerdict = none from hdec] at hrule
      rw [← s.readers_reconstruct dataOnly]
      exact State.streamCommand_starts hrule (State.readers_reconstruct_ne_nil hc (State.streamVerdict_eq_none.1 h).1
        (State.streamDecodeVerdict_eq_none hdec).1 dataOnly)
    · rw [if_neg (show ¬ s.accept.NothingToRecover dataOnly from hwork),
        show s.accept.streamDecodeVerdict = some e from hdec] at hrule
      exact State.streamCommand_fails (State.endBlockCommand_scratch _) hrule (State.ioInfo_streamDecodeVerdict hdec)

end Sys2Proof
end

section
/-! SUPPORT. SPLIT and JOIN on the slots (45_stream.md R300, R301), and what a command leaves that has waited on ports
and ends without an error. -/

namespace Sys2Proof.Machine

/-! SPLIT. -/

/-- The data shards that SPLIT writes (45_stream.md R300). -/
def State.splitShards (s : State) (size per : Nat) : List (Nat × List Byte) :=
  (List.range s.k).map fun j => (j, shardOf (fun b => (s.dbuf.readBytes 0 size).getD b 0) size per j)

theorem State.keys_splitShards (s : State) (size per : Nat) : (s.splitShards size per).map (·.1) = List.range s.k := by
  simp [State.splitShards, Function.comp_def]

theorem length_shardOf (byte : Nat → Byte) (size per j : Nat) : (shardOf byte size per j).length = per := by
  simp [shardOf]

theorem State.length_of_mem_splitShards {s : State} {size per : Nat} {e : Nat × List Byte}
    (h : e ∈ s.splitShards size per) : e.2.length = per := by
  obtain ⟨j, -, rfl⟩ := List.mem_map.1 h
  exact length_shardOf (fun b => (s.dbuf.readBytes 0 size).getD b 0) size per j

theorem getD_shardOf (byte : Nat → Byte) (size : Nat) {per b : Nat} (j : Nat) (h : b < per) :
    (shardOf byte size per j).getD b 0 = if j * per + b < size then byte (j * per + b) else 0 := by
  simp [shardOf, List.getD_eq_getElem?_getD, h]

/-- The lengths of the shards `l` set to 0. -/
def State.clearSlens (s : State) (l : List Nat) : State :=
  l.foldl (fun t i => t.setSlen i 0) s

theorem State.clearSlens_rest (s : State) (l : List Nat) :
    s.clearSlens l = { s with slen := (s.clearSlens l).slen } := by
  induction l generalizing s with
  | nil => rfl
  | cons i l ih =>
    have h : s.clearSlens (i :: l) = (s.setSlen i 0).clearSlens l := rfl
    rw [h, ih]
    rfl

theorem State.slenWord_clearSlens (s : State) (l : List Nat) (j : Nat) :
    (s.clearSlens l).slenWord j = if j ∈ l then 0 else s.slenWord j := by
  induction l generalizing s with
  | nil => rfl
  | cons i l ih =>
    have h : s.clearSlens (i :: l) = (s.setSlen i 0).clearSlens l := rfl
    rw [h, ih, State.slenWord_setSlen]
    by_cases hl : j ∈ l <;> by_cases hi : j = i <;> simp [hl, hi]

theorem State.putSplit_eq (s : State) (size per : Nat) : s.putSplit size per
    = (s.putAll per (s.splitShards size per)).clearSlens ((List.range s.m).map (s.k + ·)) := by
  unfold State.putSplit State.putAll State.clearSlens State.splitShards
  rw [List.foldl_map, List.foldl_map]

/-- SPLIT's writes touch slots and lengths only. -/
theorem State.putSplit_rest (s : State) (size per : Nat) :
    s.putSplit size per = { s with slots := (s.putSplit size per).slots, slen := (s.putSplit size per).slen } := by
  rw [State.putSplit_eq, State.clearSlens_rest, State.putAll_rest]

theorem State.slots_putSplit (s : State) (size per : Nat) :
    (s.putSplit size per).slots = (s.putAll per (s.splitShards size per)).slots := by
  rw [State.putSplit_eq, State.clearSlens_rest]

theorem State.slenWord_putSplit (s : State) (size per i : Nat) : (s.putSplit size per).slenWord i
    = if s.k ≤ i ∧ i < s.k + s.m then 0 else if i < s.k then BitVec.ofNat 32 per else s.slenWord i := by
  have hmem : i ∈ (List.range s.m).map (s.k + ·) ↔ s.k ≤ i ∧ i < s.k + s.m := by
    rw [List.mem_map]
    exact ⟨fun ⟨p, hp, hi⟩ => by rw [List.mem_range] at hp; omega,
      fun ⟨hk, hm⟩ => ⟨i - s.k, List.mem_range.2 (by omega), by omega⟩⟩
  rw [State.putSplit_eq, State.slenWord_clearSlens, State.slenWord_putAll, State.keys_splitShards]
  simp only [hmem, List.mem_range]

/-- Byte b of data shard j after SPLIT. -/
theorem State.bufByte_putSplit {s : State} {size per j b : Nat} (hcap : per ≤ s.params.slotCap) (hj : j < s.k)
    (hb : b < per) : (s.putSplit size per).bufByte (.slot j) b
      = if j * per + b < size then s.dbuf.read (j * per + b) else 0 := by
  have hshard := s.slotBytes_putAll per (s.splitShards size per) (fun _ => State.length_of_mem_splitShards) hcap
    (by rw [State.keys_splitShards]; exact List.nodup_range) _ (List.mem_map_of_mem (List.mem_range.2 hj))
  have hbyte : (s.putSplit size per).bufByte (.slot j) b
      = ((s.putAll per (s.splitShards size per)).slotBytes j per).getD b 0 := by
    rw [← State.bufByte_slot _ _ hb, State.putSplit_eq, State.clearSlens_rest]
    rfl
  rw [hbyte, hshard, getD_shardOf _ _ _ hb]
  split
  · rename_i hlt
    rw [Memory.getD_readBytes _ _ _ _ hlt, Nat.zero_add]
  · rfl

/-- SPLIT leaves every byte outside the data shards. -/
theorem State.read_putSplit (s : State) (size per : Nat) {a : Nat}
    (ha : ∀ j < s.k, ¬ s.InBuf (.slot j) per false a) : (s.putSplit size per).slots.read a = s.slots.read a := by
  rw [State.slots_putSplit]
  refine s.read_putAll per _ (fun _ => State.length_of_mem_splitShards) a fun e he => ?_
  obtain ⟨j, hj, rfl⟩ := List.mem_map.1 he
  exact ha j (List.mem_range.1 hj)

/-- All that SPLIT's rule can answer (45_stream.md R300). -/
theorem State.splitRule_eq (s : State) : s.splitRule = answerOf s.splitVerdict
    (((s.setSeq .writeResults).putSplit s.dlen.toNat (perShard s.dlen.toNat s.k)).setResult
      (perShard s.dlen.toNat s.k)) := by
  unfold State.splitRule State.splitVerdict
  simp only [check_bind]
  rw [← check_answerOf s.status.configured _ _ (by simp)]
  rw [← check_answerOf (decide (s.dlen.toNat ≠ 0)) _ _ (by simp [← BitVec.toNat_inj])]
  rw [← check_answerOf (decide (perShard s.dlen.toNat s.k ≤ s.params.slotCap)) _ _ (by simp)]
  rfl

theorem State.ioInfo_splitVerdict {s : State} {e : Err} : s.splitVerdict = some e → e.ioInfo = none := by
  unfold State.splitVerdict
  repeat' refine of_ite_eq ?_ ?_
  all_goals rintro ⟨⟩ <;> rfl

/-- SPLIT passes its checks on a configured core, with room for a shard in each slot (45_stream.md R300). -/
theorem State.splitVerdict_eq_none {s : State} (h : s.splitVerdict = none) :
    s.status.configured = true ∧ perShard s.dlen.toNat s.k ≤ s.params.slotCap := by
  rw [State.splitVerdict, ite_eq_iff_of_ne (by simp), ite_eq_iff_of_ne (by simp), ite_eq_iff_of_ne (by simp)] at h
  obtain ⟨hconf, -, hcap, -⟩ := h
  exact ⟨by simpa using hconf, not_lt.1 hcap⟩

/-! The end of a command that has waited on ports. -/

theorem State.endsAs_iff {u v : State} : u.EndsAs v ↔ u = { v with
    inPorts := u.inPorts, outPorts := u.outPorts, work := u.work, stg := u.stg, draws := u.draws } :=
  ⟨fun h => congrArg (fun x : State => { x with work := u.work, stg := u.stg, draws := u.draws }) h,
    fun h => (congrArg (fun x : State => { x with work := v.work, stg := v.stg, draws := v.draws }) h :)⟩

theorem State.EndsAs.trans {u v w : State} (h₁ : u.EndsAs v) (h₂ : v.EndsAs w) : u.EndsAs w := by
  rw [State.endsAs_iff] at *
  rw [h₁, h₂]

theorem State.EndsAs.succeeds {u v : State} {r : Word} (h : u.EndsAs v) (hv : v.Succeeds r) : u.Succeeds r := by
  rw [State.endsAs_iff] at h
  rw [h]
  exact hv

theorem State.EndsAs.keepsShards {s u v : State} (h : u.EndsAs v) (hv : s.KeepsShards v) : s.KeepsShards u := by
  rw [State.endsAs_iff] at h
  rw [h]
  exact hv

theorem State.succeeds_succeeded (s : State) (r : Word) : (s.succeeded r).Succeeds r :=
  ⟨rfl, rfl, rfl, rfl, rfl, rfl, rfl, rfl⟩

theorem State.keepsShards_succeeded (s : State) (r : Word) : s.KeepsShards (s.succeeded r) :=
  ⟨rfl, rfl, rfl, rfl, rfl, rfl, rfl, rfl, rfl, rfl, rfl, rfl, rfl, rfl⟩

/-! JOIN. -/

/-- Bytes written to a port one after the other. -/
theorem State.Wrote.trans {s t u : State} {j : Nat} {b₁ b₂ : List Byte} (h₁ : s.Wrote t j b₁) (h₂ : t.Wrote u j b₂) :
    s.Wrote u j (b₁ ++ b₂) := by
  unfold State.Wrote at *
  rw [h₂, h₁, List.append_assoc]

theorem State.MovesOut.trans {s t u : State} {j : Nat} {b₁ b₂ : List Byte} (h₁ : s.MovesOut t j b₁)
    (h₂ : t.MovesOut u j b₂) : s.MovesOut u j (b₁ ++ b₂) := by
  obtain ⟨hin₁, hw₁, ho₁⟩ := h₁
  obtain ⟨hin₂, hw₂, ho₂⟩ := h₂
  exact ⟨hin₂.trans hin₁, hw₁.trans hw₂, fun j' hj => (ho₂ j' hj).trans (ho₁ j' hj)⟩

/-- Slot j is written from its start: all of it, or its first `rem` bytes. -/
theorem State.joinBytes_eq (s : State) (j rem : Nat) : s.joinBytes j rem = (s.slotBytes j (s.slenAt j)).take rem := by
  unfold State.joinBytes State.slotBytes
  rw [Memory.readBytes_eq, Memory.readBytes_eq, ← List.map_take, List.take_range, Nat.min_comm]

/-- JOIN's loop from slot j on, with every write served: it ends with the first `rem` bytes of the slots j to k − 1
written to OUT[0], and nothing else changed (45_stream.md R301). -/
theorem State.served_join (c : Nat) (s : State) (j rem outSize : Nat) (hc : s.k - j = c) :
    ∃ n u, State.served n (s.joinNext j rem outSize).settle = .next u
      ∧ u = { (s.setResult outSize).complete none with outPorts := u.outPorts }
      ∧ s.MovesOut u 0 (((List.range' j c).flatMap fun i => s.slotBytes i (s.slenAt i)).take rem) := by
  induction c generalizing s j rem with
  | zero =>
    rw [State.joinNext_done _ (.inr (by omega))]
    exact ⟨0, _, rfl, rfl, rfl, by simp [State.Wrote]; rfl, fun _ _ => rfl⟩
  | succ c ih =>
    by_cases hrem : rem = 0
    · rw [State.joinNext_done _ (.inl hrem), hrem]
      exact ⟨0, _, rfl, rfl, rfl, by simp [State.Wrote]; rfl, fun _ _ => rfl⟩
    · rw [State.joinNext_writes _ hrem (by omega)]
      let v := s.waitOn (.joinWrite j rem outSize)
      let t := (v.portWrite .served 0 (v.joinBytes j rem)).2
      obtain ⟨n, u, hserved, hu, hmoves⟩ := ih t (j + 1) (rem - min (s.slenAt j) rem) (show s.k - (j + 1) = c by omega)
      refine ⟨1 + n, u, ?_, hu, ?_⟩
      · exact (State.served_add 1 n v _ (State.served_one v _ rfl)).trans hserved
      · have hwrite : s.MovesOut t 0 (s.joinBytes j rem) := v.portWrite_movesOut .served 0 (v.joinBytes j rem)
        have htrans := hwrite.trans hmoves
        rw [s.joinBytes_eq] at htrans
        rw [List.range'_succ, List.flatMap_cons, List.take_append]
        have hlen : (s.slotBytes j (s.slenAt j)).length = s.slenAt j := Memory.length_readBytes _ _ _
        rw [hlen, show rem - s.slenAt j = rem - min (s.slenAt j) rem by omega]
        exact htrans

end Sys2Proof.Machine

namespace Sys2Proof

open Machine

/-- Settles O39: SPLIT writes its data shards, then clears the parity lengths, which are no data lengths. -/
theorem splitCutsPayload : Obligations.SplitCutsPayload := by
  intro s _ hc
  dsimp only
  refine ⟨fun h => ?_, fun e h => ?_⟩
  · obtain ⟨hconf, hcap⟩ := State.splitVerdict_eq_none h
    have hn := (hc.total hconf).1
    change perShard s.dlen.toNat s.k ≤ (s.accept.setSeq .writeResults).params.slotCap at hcap
    have hslen : ∀ i, ((s.accept.setSeq .writeResults).putSplit s.dlen.toNat (perShard s.dlen.toNat s.k)).slenWord i
        = if s.k ≤ i ∧ i < s.k + s.m then 0
          else if i < s.k then BitVec.ofNat 32 (perShard s.dlen.toNat s.k) else s.slenWord i :=
      State.slenWord_putSplit _ _ _
    refine ⟨_, congrArg Host.Outcome.next (s.command_ok State.splitRule _
      (by rw [State.splitRule_eq, show s.accept.splitVerdict = none from h]; rfl)), ?_,
      fun j hj => ⟨?_, fun b hb => ?_⟩, fun p hp => ?_, fun i hi => ?_, fun a ha => ?_⟩
    · rw [State.putSplit_rest]
      rfl
    · exact (hslen j).trans (by rw [if_neg (by omega), if_pos hj]; rfl)
    · exact State.bufByte_putSplit hcap hj hb
    · exact congrArg BitVec.toNat ((hslen (s.k + p)).trans (if_pos (by omega)))
    · exact congrArg BitVec.toNat ((hslen i).trans (by rw [if_neg (by omega), if_neg (by omega)]))
    · exact State.read_putSplit (s.accept.setSeq .writeResults) _ _ ha
  · exact congrArg Host.Outcome.next (s.command_error State.splitRule e
      (by rw [State.splitRule_eq, show s.accept.splitVerdict = some e from h]; rfl) (State.ioInfo_splitVerdict h))

/-- Settles O41: the writes that JOIN's loop makes from slot 0 on. -/
theorem joinEmitsOutSizeBytes : Obligations.JoinEmitsOutSizeBytes := by
  intro s _ h
  obtain ⟨n, u, hserved, hu, hin, hwrote, hother⟩ := s.accept.served_join s.k 0 s.size64 s.size64 rfl
  rw [← List.range_eq_range'] at hwrote
  have hends : u.EndsAs (s.succeeded (BitVec.ofNat 32 s.size64)) := by
    rw [hu]
    rfl
  refine ⟨_, exec_join_ok h, n, u, hserved, hends.succeeds (s.succeeds_succeeded _),
    hends.keepsShards (s.keepsShards_succeeded _), hin, ?_, ?_, hwrote, hother⟩
  all_goals
    rw [hu]
    rfl

end Sys2Proof
end

section
/-! SUPPORT. PAD_BLOCK (45_stream.md R318): the rows that it pads and every other byte of staging. -/

namespace Sys2Proof.Machine

/-- A byte of staging after one row is padded, up to s_padded. -/
theorem State.read_padRow_iff (size : Nat) (s : State) (row : Nat × Nat) (a : Nat) :
    (State.padRow size s row).stg.read a
      = if s.stgAddr row.1 + min row.2 (if row.1 < s.k then size else roundUp size 64) ≤ a
          ∧ a < s.stgAddr row.1 + roundUp size 64 then 0
        else s.stg.read a := by
  rw [State.read_padRow]
  exact if_congr (and_congr_right fun h => by dsimp only [Config.align] at h ⊢; omega) rfl rfl

/-- Padding leaves every byte outside the first s_padded bytes of the rows. -/
theorem State.read_padBlock_others (s : State) (size : Nat) (lens : List (Nat × Nat)) {a : Nat}
    (ha : ∀ e ∈ lens, a < s.stgAddr e.1 ∨ s.stgAddr e.1 + roundUp size 64 ≤ a) :
    (s.padBlock size lens).stg.read a = s.stg.read a := by
  induction lens generalizing s with
  | nil => rfl
  | cons e lens ih =>
    have h : s.padBlock size (e :: lens) = (State.padRow size s e).padBlock size lens := rfl
    have he := ha e (by simp)
    rw [h, ih (State.padRow size s e) fun e' he' => ha e' (by simp [he']), State.read_padRow_iff]
    exact if_neg (by omega)

/-- A padded row: its bytes up to min(len, s) of a data row, up to min(len, s_padded) of a parity row, then zeros. -/
theorem State.read_padBlock_row (s : State) {size : Nat} {lens : List (Nat × Nat)} (hn : (lens.map (·.1)).Nodup)
    (hcap : roundUp size 64 ≤ s.params.stgCap) {e : Nat × Nat} (he : e ∈ lens) {b : Nat} (hb : b < roundUp size 64) :
    (s.padBlock size lens).stg.read (s.stgAddr e.1 + b)
      = if b < min e.2 (if e.1 < s.k then size else roundUp size 64) then s.stg.read (s.stgAddr e.1 + b) else 0 := by
  induction lens generalizing s with
  | nil => cases he
  | cons x lens ih =>
    have h : s.padBlock size (x :: lens) = (State.padRow size s x).padBlock size lens := rfl
    have hnx := List.nodup_cons.1 hn
    rw [h]
    rcases List.mem_cons.1 he with rfl | he
    · rw [State.read_padBlock_others, State.read_padRow_iff]
      · by_cases hk : b < min e.2 (if e.1 < s.k then size else roundUp size 64)
        · rw [if_pos hk]
          exact if_neg (by omega)
        · rw [if_neg hk]
          exact if_pos (by omega)
      · intro e' he'
        have hne : e.1 ≠ e'.1 := fun h => hnx.1 (List.mem_map.2 ⟨e', he', h.symm⟩)
        have := s.stgAddr_apart _ _ hne
        simp only [State.padRow_stgAddr]
        omega
    · have hne : e.1 ≠ x.1 := fun h => hnx.1 (List.mem_map.2 ⟨e, he, h⟩)
      have hapart := s.stgAddr_apart _ _ hne
      have hread : (State.padRow size s x).stg.read (s.stgAddr e.1 + b) = s.stg.read (s.stgAddr e.1 + b) := by
        rw [State.read_padRow_iff]
        exact if_neg (by omega)
      rw [← hread]
      exact ih (State.padRow size s x) hnx.2 hcap he

theorem State.length_padded (s : State) (size i : Nat) (bytes : List Byte) :
    (s.padded size i bytes).length = roundUp size 64 := by
  have hle := le_roundUp size 64 (by decide)
  have hkept : (bytes.take (if i < s.k then size else roundUp size 64)).length ≤ roundUp size 64 := by
    rw [List.length_take]
    split <;> omega
  simp only [State.padded, List.length_append, List.length_replicate]
  omega

/-- A staging row after PAD_BLOCK, by the bytes that were read into it. -/
theorem State.stgBytes_padBlock {s : State} {size : Nat} {lens : List (Nat × Nat)} (hn : (lens.map (·.1)).Nodup)
    (hcap : roundUp size 64 ≤ s.params.stgCap) {e : Nat × Nat} (he : e ∈ lens) {bytes : List Byte}
    (hlen : e.2 = bytes.length) (hrow : s.stgBytes e.1 e.2 = bytes) :
    (s.padBlock size lens).stgBytes e.1 (roundUp size 64) = s.padded size e.1 bytes := by
  have haddr : (s.padBlock size lens).stgAddr e.1 = s.stgAddr e.1 := by
    rw [State.padBlock_rest]
    rfl
  have hl : ((s.padBlock size lens).stgBytes e.1 (roundUp size 64)).length = roundUp size 64 :=
    Memory.length_readBytes _ _ _
  refine List.ext_getElem (by rw [hl, State.length_padded]) fun b hb _ => ?_
  rw [hl] at hb
  have hbyte : ((s.padBlock size lens).stgBytes e.1 (roundUp size 64))[b]'(by rwa [hl])
      = (s.padBlock size lens).stg.read (s.stgAddr e.1 + b) := by
    simp [State.stgBytes, Memory.readBytes_eq, haddr]
  have hbytes : ∀ hb : b < bytes.length, bytes[b] = s.stg.read (s.stgAddr e.1 + b) := by
    subst hrow
    intro hb
    simp [State.stgBytes, Memory.readBytes_eq]
  rw [hbyte, s.read_padBlock_row hn hcap he hb]
  generalize hK : (if e.1 < s.k then size else roundUp size 64) = K
  simp only [State.padded, hK, List.getElem_append, List.length_take, List.getElem_take, List.getElem_replicate]
  by_cases hk : b < min e.2 K
  · rw [if_pos hk, dif_pos (by omega), hbytes]
  · rw [if_neg hk, dif_neg (by omega)]

end Sys2Proof.Machine

namespace Sys2Proof

open Machine

/-- Settles O44: distinct rows that fit their staging buffers are padded one by one. -/
theorem padBlockPads : Obligations.PadBlockPads := fun s size lens hn hcap =>
  ⟨fun _ he _ hb => s.read_padBlock_row hn hcap he hb, fun _ ha => s.read_padBlock_others size lens ha,
    by rw [State.padBlock_rest]⟩

end Sys2Proof
end

section
/-! SUPPORT. One block of a block command (45_stream.md R293 to R296, R310 to R313): what is left when its size is
settled, namely the wait on its first write or on the next block's first read, or the command's end. -/

namespace Sys2Proof.Machine

/-! What the work between two port operations leaves alone. -/

/-- `u` has the ports of `t`, and its work buffers from WORK[need] on. -/
structure State.Stays (t u : State) (need : Nat) : Prop where
  inPorts : u.inPorts = t.inPorts
  outPorts : u.outPorts = t.outPorts
  work : t.KeepsWorkFrom u need

/-- `v` is `t` but for staging and the draws. -/
def State.SameButStg (t v : State) : Prop :=
  ∃ stg draws, v = { t with stg := stg, draws := draws }

section Reply

variable {t v : State}

theorem State.SameButStg.sameButPorts (h : t.SameButStg v) : t.SameButPorts v := by
  obtain ⟨stg, draws, rfl⟩ := h
  rfl

theorem State.SameButStg.readers (h : t.SameButStg v) (kind : BlockKind) : v.readers kind = t.readers kind := by
  obtain ⟨stg, draws, rfl⟩ := h
  cases kind <;> rfl

/-- A command that ends leaves the ports and the work buffers from `need` on. -/
theorem State.SameButPorts.end_stays (h : t.SameButPorts v) (hin : v.inPorts = t.inPorts)
    (hout : v.outPorts = t.outPorts) (need : Nat) (e : Option Err) :
    t.Stays (State.endBlockCommand need (v.complete e)) need where
  inPorts := (v.endBlockCommand_keeps need e).1.trans hin
  outPorts := (v.endBlockCommand_keeps need e).2.1.trans hout
  work := h.keepsWork need e

/-- The next block's first read. -/
theorem State.SameButStg.startBlock (h : t.SameButStg v) (kind : BlockKind) (blocks need : Nat)
    (hne : t.readers kind ≠ []) :
    t.Stays (t.blockReply kind (v.startBlock kind blocks)) need
      ∧ t.StartsBlock (t.blockReply kind (v.startBlock kind blocks)) kind blocks := by
  obtain ⟨u, hu, hstarts, hin, hout, hwork⟩ :=
    State.startBlock_starts h.sameButPorts kind blocks hne (h.readers kind)
  obtain ⟨stg, draws, rfl⟩ := h
  rw [hu]
  exact ⟨⟨hin, hout, fun a _ => congrArg (·.read a) hwork⟩, hstarts⟩

/-- A block's first write. -/
theorem State.SameButStg.startWrites (h : t.SameButStg v) (kind : BlockKind) (blocks need : Nat)
    {writes : List (Nat × List Byte)} (hne : writes ≠ []) :
    t.Stays (t.blockReply kind (v.startWrites kind blocks writes)) need
      ∧ t.StartsWrites (t.blockReply kind (v.startWrites kind blocks writes)) (.writeBlock kind blocks) writes := by
  obtain ⟨u, hu, hstarts, hin, hout, hwork⟩ := State.startWrites_starts h.sameButPorts kind blocks writes hne
  obtain ⟨stg, draws, rfl⟩ := h
  rw [hu]
  exact ⟨⟨hin, hout, fun a _ => congrArg (·.read a) hwork⟩, hstarts⟩

/-- A block without writes is followed by the next one. -/
theorem State.startWrites_nil (s : State) (kind : BlockKind) (blocks : Nat) :
    ∃ d, s.startWrites kind blocks [] = ({ s with draws := d } : State).startBlock kind (blocks + 1) := by
  obtain ⟨todo, d, hord, hperm, -⟩ := s.ordered_eq ([] : List (Nat × List Byte))
  obtain rfl := List.perm_nil.1 hperm
  refine ⟨d, ?_⟩
  unfold State.startWrites
  rw [hord]
  rfl

/-- A block of size 0 (45_stream.md R295, R310 to R312). -/
theorem State.SameButStg.endOfStream (h : t.SameButStg v) (kind : BlockKind) (blocks : Nat) :
    t.Stays (t.blockReply kind (v.endOfStream kind blocks)) (t.blockNeed kind)
      ∧ (t.blockReply kind (v.endOfStream kind blocks)).EndsAs (t.streamEnded kind blocks) := by
  have hp := h.sameButPorts
  obtain ⟨stg, draws, rfl⟩ := h
  unfold State.endOfStream State.streamEnded
  by_cases h0 : blocks = 0
  · rw [if_pos h0, if_pos h0]
    exact ⟨hp.end_stays rfl rfl _ _, (State.endsAs_aborted hp _ _ rfl).1⟩
  · rw [if_neg h0, if_neg h0]
    cases kind <;> exact ⟨⟨rfl, rfl, (hp.end_stays rfl rfl _ none).work⟩, rfl⟩

/-! The block itself. -/

variable {kind : BlockKind} {size : Nat} {data : Nat → List Byte}

/-- The row that DECODE and ENC_PARITY read of reader i, which gave `data i` (45_stream.md R318). -/
def State.paddedRow (t : State) (size : Nat) (data : Nat → List Byte) (i : Nat) : Row :=
  elemsOfBytes t.field t.params.layout (t.padded size i (data i))

/-- The parity of a block (45_stream.md R310). -/
def State.paddedParity (t : State) (size : Nat) (data : Nat → List Byte) : Rows :=
  t.field.encParity t.k t.m t.mpow (elemCount t.field (roundUp size 64)) (t.paddedRow size data)

/-- What DECODE makes of a block (45_stream.md R312). -/
def State.paddedDecode (t : State) (size : Nat) (data : Nat → List Byte) : Array Nat × Rows :=
  t.field.decode t.k t.m t.mpow (elemCount t.field (roundUp size 64)) (fun i => (t.inPort i).conn = false)
    (t.paddedRow size data)

/-- The writes of STREAM_ENCODE's parity rows (45_stream.md R310). -/
def State.parityWrites (t : State) (rows : Rows) : List (Nat × List Byte) :=
  (List.range t.m).map fun p => (t.k + p, t.parityBytes rows p)

/-- The writes of a reconstruction's recovered rows (45_stream.md R312, R313). -/
def State.recoveredWrites (t : State) (dataOnly : Bool) (size : Nat) (dec : Array Nat × Rows) :
    List (Nat × List Byte) :=
  ((List.range (if dataOnly then t.k else t.n)).filter fun j =>
      (t.inPort j).conn = false ∧ (t.outPort j).conn = true).map fun j =>
    (j, (bytesOfElems t.field t.params.layout (t.field.recovered t.k t.mpow dec j)).take
      (if j < t.k then size else roundUp size 64))

theorem State.blockRun_encode (t u : State) (blocks size : Nat) (data : Nat → List Byte) :
    t.BlockRun u .encode blocks size data
      = t.StartsWrites u (.writeBlock .encode blocks) (t.parityWrites (t.paddedParity size data)) := rfl

theorem State.blockRun_verify (t u : State) (blocks size : Nat) (data : Nat → List Byte) :
    t.BlockRun u .verify blocks size data
      = if ∀ p < t.m, t.parityBytes (t.paddedParity size data) p = t.padded size (t.k + p) (data (t.k + p)) then
          t.StartsBlock u .verify (blocks + 1)
        else u.EndsAs (({ t with status := { t.status with verifyOk := false } } : State).ended 0) := rfl

theorem State.blockRun_reconstruct (t u : State) (dataOnly : Bool) (blocks size : Nat) (data : Nat → List Byte) :
    t.BlockRun u (.reconstruct dataOnly) blocks size data
      = if t.recoveredWrites dataOnly size (t.paddedDecode size data) = [] then
          t.StartsBlock u (.reconstruct dataOnly) (blocks + 1)
        else t.StartsWrites u (.writeBlock (.reconstruct dataOnly) blocks)
          (t.recoveredWrites dataOnly size (t.paddedDecode size data)) := rfl

theorem State.SameButStg.stgParity (h : t.SameButStg v)
    (hrow : ∀ d < t.k, v.stgBytes d (roundUp size 64) = t.padded size d (data d)) :
    v.stgParity (roundUp size 64) = t.paddedParity size data := by
  obtain ⟨stg, draws, rfl⟩ := h
  exact GF.encParity_congr _ _ _ _ _ _ _ fun d hd => congrArg (elemsOfBytes t.field t.params.layout) (hrow d hd)

theorem State.SameButStg.stgParityEqual (h : t.SameButStg v)
    (hdata : ∀ d < t.k, v.stgBytes d (roundUp size 64) = t.padded size d (data d))
    (hparity : ∀ p < t.m, v.stgBytes (t.k + p) (roundUp size 64) = t.padded size (t.k + p) (data (t.k + p))) :
    v.stgParityEqual (roundUp size 64) = true ↔ ∀ p < t.m,
      t.parityBytes (t.paddedParity size data) p = t.padded size (t.k + p) (data (t.k + p)) := by
  have hpar := h.stgParity hdata
  obtain ⟨stg, draws, rfl⟩ := h
  unfold State.stgParityEqual
  rw [allShards_iff, hpar]
  refine forall₂_congr fun p hp => ?_
  rw [← hparity p hp]
  simp [State.parityBytes]
  rfl

theorem State.SameButStg.reconstructWrites (h : t.SameButStg v) (hn : t.n = t.k + t.m) (dataOnly : Bool)
    (hrow : ∀ i ∈ t.readers (.reconstruct dataOnly), v.stgBytes i (roundUp size 64) = t.padded size i (data i)) :
    v.reconstructWrites dataOnly size = t.recoveredWrites dataOnly size (t.paddedDecode size data) := by
  obtain ⟨stg, draws, rfl⟩ := h
  have hdec : t.field.decode t.k t.m t.mpow (elemCount t.field (roundUp size 64)) (fun i => !t.inConn i)
      (({ t with stg := stg, draws := draws } : State).stgRow (roundUp size 64)) = t.paddedDecode size data := by
    refine GF.decode_congr _ _ _ _ _ _ _ _ _ (fun i _ => by simp [State.inConn]) fun i hi hconn => ?_
    refine congrArg (elemsOfBytes t.field t.params.layout) (hrow i (List.mem_filter.2 ⟨?_, by simpa using hconn⟩))
    exact List.mem_range.2 (by omega)
  have hfilter : (List.range (if dataOnly then t.k else t.n)).filter
        (fun j => (t.inPort j).conn = false ∧ (t.outPort j).conn = true)
      = (List.range (if dataOnly then t.k else t.n)).filter fun j => !t.inConn j && t.outConn j :=
    List.filter_congr fun j _ => by simp [State.inConn, State.outConn]
  unfold State.recoveredWrites
  rw [← hdec, hfilter]
  rfl

/-- One block after PAD_BLOCK, of the padded rows that its readers gave (45_stream.md R310 to R313). -/
theorem State.SameButStg.runBlock (h : t.SameButStg v) (hc : t.ConfigInv) (hconf : t.status.configured = true)
    (hne : t.readers kind ≠ []) (blocks : Nat)
    (hrow : ∀ i ∈ t.readers kind, v.stgBytes i (roundUp size 64) = t.padded size i (data i)) :
    t.Stays (t.blockReply kind (v.runBlock kind blocks size)) (t.blockNeed kind)
      ∧ t.BlockRun (t.blockReply kind (v.runBlock kind blocks size)) kind blocks size data := by
  have hm := (hc.positive hconf).2
  have hn := (hc.total hconf).1
  cases kind with
  | encode =>
    have hwrites : v.encodeWrites (roundUp size 64) = t.parityWrites (t.paddedParity size data) := by
      rw [← h.stgParity fun d hd => hrow d (List.mem_range.2 hd)]
      obtain ⟨stg, draws, rfl⟩ := h
      rfl
    have hrun : v.runBlock .encode blocks size
        = v.startWrites .encode blocks (t.parityWrites (t.paddedParity size data)) := by
      rw [← hwrites]
      rfl
    rw [hrun, State.blockRun_encode]
    exact h.startWrites .encode blocks _ (by simp [State.parityWrites, hm.ne'])
  | verify =>
    have heq := h.stgParityEqual (fun d hd => hrow d (List.mem_range.2 (by omega)))
      fun p hp => hrow (t.k + p) (List.mem_range.2 (by omega))
    rw [State.blockRun_verify]
    unfold State.runBlock
    dsimp only
    by_cases hall : v.stgParityEqual (roundUp size 64) = true
    · rw [if_pos hall, if_pos (heq.1 hall)]
      exact h.startBlock .verify (blocks + 1) _ hne
    · rw [if_neg hall, if_neg (mt heq.2 hall)]
      have hp := h.sameButPorts
      obtain ⟨stg, draws, rfl⟩ := h
      exact ⟨⟨rfl, rfl, (hp.end_stays rfl rfl _ none).work⟩, rfl⟩
  | reconstruct dataOnly =>
    have hrun : v.runBlock (.reconstruct dataOnly) blocks size = v.startWrites (.reconstruct dataOnly) blocks
        (t.recoveredWrites dataOnly size (t.paddedDecode size data)) := by
      rw [← h.reconstructWrites hn dataOnly hrow]
      rfl
    rw [hrun, State.blockRun_reconstruct]
    by_cases hnil : t.recoveredWrites dataOnly size (t.paddedDecode size data) = []
    · rw [if_pos hnil, hnil]
      obtain ⟨d, hd⟩ := v.startWrites_nil (.reconstruct dataOnly) blocks
      rw [hd]
      obtain ⟨stg, draws, rfl⟩ := h
      exact State.SameButStg.startBlock ⟨stg, d, rfl⟩ (.reconstruct dataOnly) (blocks + 1) _ hne
    · rw [if_neg hnil]
      exact h.startWrites (.reconstruct dataOnly) blocks _ hnil

end Reply

end Sys2Proof.Machine
end

section
/-! SUPPORT. The port operations of a block command one by one (45_stream.md R293 to R297): a read, the last read, a
write, the last write. -/

namespace Sys2Proof.Machine

/-! Ports that are the same. -/

theorem State.inPort_congr {s t : State} (h : t.inPorts = s.inPorts) (i : Nat) : t.inPort i = s.inPort i :=
  congrArg (tableGet InPort.empty i) h

theorem State.outPort_congr {s t : State} (h : t.outPorts = s.outPorts) (j : Nat) : t.outPort j = s.outPort j :=
  congrArg (tableGet OutPort.empty j) h

theorem State.left_congr {s t : State} (h : t.inPorts = s.inPorts) (i : Nat) : t.left i = s.left i := by
  rw [State.left, State.inPort_congr h, State.left]

/-! Later states of one command. -/

/-- `t` is a later state of the command that runs in `s`: `s` but for where it stands, the ports, staging and the
draws. -/
def State.Later (s t : State) : Prop :=
  ∃ seq job inPorts outPorts stg draws, t = { s with
    seq := seq, job := job, inPorts := inPorts, outPorts := outPorts, stg := stg, draws := draws }

theorem State.SameButPorts.later {s t : State} (h : s.SameButPorts t) : s.Later t :=
  ⟨s.seq, s.job, _, _, _, _, h⟩

theorem State.Later.ended {s t : State} (h : s.Later t) (r : Word) : (t.ended r).EndsAs (s.ended r) := by
  obtain ⟨seq, job, inPorts, outPorts, stg, draws, rfl⟩ := h
  rfl

theorem State.Later.streamEnded {s t : State} (h : s.Later t) (kind : BlockKind) (blocks : Nat) :
    (t.streamEnded kind blocks).EndsAs (s.streamEnded kind blocks) := by
  obtain ⟨seq, job, inPorts, outPorts, stg, draws, rfl⟩ := h
  unfold State.streamEnded
  split
  · rfl
  · cases kind <;> rfl

/-- What a block leaves depends on which ports are connected, not on what they hold. -/
theorem State.Later.blockRun {s t u : State} (h : s.Later t) (hin : ∀ i, (t.inPort i).conn = (s.inPort i).conn)
    (hout : ∀ j, (t.outPort j).conn = (s.outPort j).conn) {kind : BlockKind} {blocks size : Nat}
    {data : Nat → List Byte} (hrun : t.BlockRun u kind blocks size data) : s.BlockRun u kind blocks size data := by
  have hreaders : ∀ kind, t.readers kind = s.readers kind := fun kind => by
    obtain ⟨seq, job, inPorts, outPorts, stg, draws, rfl⟩ := h
    cases kind with
    | reconstruct d => rw [State.readers_reconstruct, State.readers_reconstruct]; simp only [hin]; rfl
    | _ => rfl
  have hblock : t.StartsBlock u kind (blocks + 1) → s.StartsBlock u kind (blocks + 1) := by
    unfold State.StartsBlock
    rw [hreaders]
    obtain ⟨seq, job, inPorts, outPorts, stg, draws, rfl⟩ := h
    exact id
  cases kind with
  | encode =>
    obtain ⟨seq, job, inPorts, outPorts, stg, draws, rfl⟩ := h
    exact hrun
  | verify =>
    rw [State.blockRun_verify] at *
    have hend : (({ t with status := { t.status with verifyOk := false } } : State).ended 0).EndsAs
        (({ s with status := { s.status with verifyOk := false } } : State).ended 0) := by
      obtain ⟨seq, job, inPorts, outPorts, stg, draws, rfl⟩ := h
      rfl
    have hcond : (∀ p < t.m, t.parityBytes (t.paddedParity size data) p = t.padded size (t.k + p) (data (t.k + p)))
        ↔ ∀ p < s.m, s.parityBytes (s.paddedParity size data) p = s.padded size (s.k + p) (data (s.k + p)) := by
      obtain ⟨seq, job, inPorts, outPorts, stg, draws, rfl⟩ := h
      rfl
    by_cases hall : ∀ p < s.m, s.parityBytes (s.paddedParity size data) p = s.padded size (s.k + p) (data (s.k + p))
    · rw [if_pos hall]
      rw [if_pos (hcond.2 hall)] at hrun
      exact hblock hrun
    · rw [if_neg hall]
      rw [if_neg (mt hcond.1 hall)] at hrun
      exact hrun.trans hend
  | reconstruct d =>
    rw [State.blockRun_reconstruct] at *
    have hwrites : t.recoveredWrites d size (t.paddedDecode size data)
        = s.recoveredWrites d size (s.paddedDecode size data) := by
      unfold State.recoveredWrites State.paddedDecode
      simp only [hin, hout]
      obtain ⟨seq, job, inPorts, outPorts, stg, draws, rfl⟩ := h
      rfl
    rw [hwrites] at hrun
    split at hrun
    · rename_i hnil
      rw [if_pos hnil]
      exact hblock hrun
    · rename_i hnil
      rw [if_neg hnil]
      obtain ⟨seq, job, inPorts, outPorts, stg, draws, rfl⟩ := h
      exact hrun

/-! The settled size. -/

theorem State.nodup_readers (s : State) (kind : BlockKind) : (s.readers kind).Nodup := by
  cases kind with
  | reconstruct d => exact List.nodup_range.filter _
  | _ => exact List.nodup_range

theorem State.blockSize_le_stgCap {s : State} (hok : s.blockOk = true) : s.blockSize ≤ s.params.stgCap := by
  simp only [State.blockOk, Bool.and_eq_true, decide_eq_true_eq] at hok
  exact hok.2

/-- The padding of a block that fits B fits a staging buffer (45_stream.md R294). -/
theorem State.roundUp_le_stgCap {s : State} (hok : s.blockOk = true) {size : Nat} (h : size ≤ s.blockSize) :
    roundUp size 64 ≤ s.params.stgCap := by
  simp only [State.blockOk, Config.align, Bool.and_eq_true, decide_eq_true_eq] at hok
  obtain ⟨⟨-, h64⟩, hcap⟩ := hok
  unfold roundUp ceilDiv
  omega

/-- What a block whose rows `data` stand in staging leaves, of the size that one of its reads gave. -/
theorem State.settleBlock_leaves {t : State} {kind : BlockKind} {lens : List (Nat × Nat)} {data : Nat → List Byte}
    (hc : t.ConfigInv) (hconf : t.status.configured = true) (hok : t.blockOk = true)
    (hperm : (lens.map (·.1)).Perm (t.readers kind)) (hne : t.readers kind ≠ [])
    (hrows : ∀ e ∈ lens, e.2 = (data e.1).length ∧ e.2 ≤ t.blockSize ∧ t.stgBytes e.1 e.2 = data e.1)
    (blocks : Nat) :
    ∃ e ∈ lens, (t.parIoLatch = false → ∀ e' ∈ lens, e.1 ≤ e'.1)
      ∧ t.Stays (t.blockReply kind (State.settleBlock kind blocks lens t)) (t.blockNeed kind)
      ∧ if e.2 = 0 then (t.blockReply kind (State.settleBlock kind blocks lens t)).EndsAs (t.streamEnded kind blocks)
        else t.BlockRun (t.blockReply kind (State.settleBlock kind blocks lens t)) kind blocks e.2 data := by
  have hlens : lens ≠ [] := by
    rintro rfl
    exact hne (List.nil_perm.1 hperm)
  obtain ⟨d, e, he, hsize, hlow⟩ := t.settleSize_eq lens hlens
  refine ⟨e, he, hlow, ?_⟩
  unfold State.settleBlock
  rw [hsize]
  dsimp only
  by_cases h0 : e.2 = 0
  · rw [if_pos h0, if_pos h0]
    exact State.SameButStg.endOfStream ⟨t.stg, d, rfl⟩ kind blocks
  · rw [if_neg h0, if_neg h0]
    let v : State := { t with draws := d }
    have hpad : t.SameButStg (v.padBlock e.2 lens) := ⟨_, d, v.padBlock_rest e.2 lens⟩
    refine hpad.runBlock hc hconf hne blocks fun i hi => ?_
    obtain ⟨e', he', rfl⟩ := List.mem_map.1 (hperm.mem_iff.2 hi)
    obtain ⟨hlen, -, hrow⟩ := hrows e' he'
    exact State.stgBytes_padBlock (s := v) (hperm.nodup_iff.2 (t.nodup_readers kind))
      (State.roundUp_le_stgCap hok (hrows e he).2.1) he' hlen hrow

/-! One read. -/

theorem State.portRead_conn (s : State) (i want j : Nat) :
    ((s.portRead .served i want).2.inPort j).conn = (s.inPort j).conn := by
  rw [s.portRead_served, State.inPort_setInPort]
  split
  · rename_i h
    rw [h, InPort.readFull_conn]
  · rfl

/-- A served read that gives bytes: what is left of its port, which stays connected (45_stream.md R290). -/
theorem State.portRead_leaves {s : State} {i want : Nat} {bytes : List Byte} (h : s.ReadGives i want bytes) :
    ∃ p, s.portRead .served i want = (.ok bytes, s.setInPort i p)
      ∧ (s.setInPort i p).left i = (s.left i).drop want
      ∧ ∀ j, ((s.setInPort i p).inPort j).conn = (s.inPort j).conn := by
  obtain ⟨p, hr, hleft⟩ := s.portRead_gives i want bytes h
  have hport : (s.setInPort i p).inPort i = p := (s.inPort_setInPort i p i).trans (if_pos rfl)
  refine ⟨p, hr, ?_, fun j => ?_⟩
  · rw [← hleft, State.left, hport]
  · rw [← s.portRead_conn i want j, hr]

/-- A read with another one after it stores its row, and the command waits on the next one. -/
theorem State.answer_read {s : State} {kind : BlockKind} {blocks i : Nat} {rest : List Nat} {lens : List (Nat × Nat)}
    {fails : List (Nat × Word)} {bytes : List Byte} {p : InPort}
    (hj : s.job = some (.readBlock kind blocks (i :: rest) lens fails)) (hrest : rest ≠ [])
    (hr : s.portRead .served i s.blockSize = (.ok bytes, s.setInPort i p)) :
    s.answer .served = .next (((s.setInPort i p).setStgBytes i bytes).waitOn
      (.readBlock kind blocks rest (lens ++ [(i, bytes.length)]) fails)) := by
  rw [State.answer_readBlock _ hj]
  simp only [State.readStep, hr, List.isEmpty_eq_false_iff.2 hrest]
  rfl

/-- The last read of a block none of whose reads failed settles it. -/
theorem State.answer_lastRead {s : State} {kind : BlockKind} {blocks i : Nat} {lens : List (Nat × Nat)}
    {bytes : List Byte} {p : InPort} (hj : s.job = some (.readBlock kind blocks [i] lens []))
    (hr : s.portRead .served i s.blockSize = (.ok bytes, s.setInPort i p)) :
    s.answer .served = .next (((s.setInPort i p).setStgBytes i bytes).blockReply kind
      (State.settleBlock kind blocks (lens ++ [(i, bytes.length)]) ((s.setInPort i p).setStgBytes i bytes))) := by
  rw [State.answer_readBlock _ hj, State.readStep_gives hr]
  rfl

/-- The row of a read stands in staging, and every other byte is as before. -/
theorem State.stg_setStgBytes (s : State) (i : Nat) (bytes : List Byte) :
    (s.setStgBytes i bytes).stgBytes i bytes.length = bytes
      ∧ ∀ a, (a < s.stgAddr i ∨ s.stgAddr i + bytes.length ≤ a) →
        (s.setStgBytes i bytes).stg.read a = s.stg.read a := by
  refine ⟨Memory.readBytes_writeBytes_same _ _ _, fun a ha => ?_⟩
  rw [State.setStgBytes_stg, Memory.read_writeBytes, if_neg (by omega)]

/-- The rows of other readers stay. -/
theorem State.stgBytes_setStgBytes_apart (s : State) {i j n : Nat} (hne : j ≠ i) {bytes : List Byte}
    (hlen : bytes.length ≤ s.params.stgCap) (hn : n ≤ s.params.stgCap) :
    (s.setStgBytes i bytes).stgBytes j n = s.stgBytes j n := by
  have hapart := s.stgAddr_apart j i hne
  change (s.stg.writeBytes (s.stgAddr i) bytes).readBytes (s.stgAddr j) n = s.stg.readBytes (s.stgAddr j) n
  exact Memory.readBytes_writeBytes_apart _ _ _ _ _ (by omega)

/-! One write. -/

/-- A write that is served: the next one, or what follows the last one. -/
theorem State.writeStep_served (s : State) (j : Nat) (bytes : List Byte) (rest : List (Nat × List Byte))
    (fails : List (Nat × Word)) (again : List (Nat × List Byte) → List (Nat × Word) → Job) (next : State → Flow) :
    s.writeStep .served ((j, bytes) :: rest) fails again next
      = if rest.isEmpty then (s.portWrite .served j bytes).2.afterBatch .streamWriteError fails next
        else .wait ((s.portWrite .served j bytes).2.waitOn (again rest fails)) := rfl

theorem readBlock_nextRead (s : State) (kind : BlockKind) (blocks i : Nat) (rest : List Nat) (lens : List (Nat × Nat))
    (fails : List (Nat × Word)) (bytes : List Byte) (hj : s.job = some (.readBlock kind blocks (i :: rest) lens fails))
    (hrest : rest ≠ []) (hgives : s.ReadGives i s.blockSize bytes) :
    ∃ t, s.answer .served = .next t ∧ s.MovesIn t i ∧ t.left i = (s.left i).drop s.blockSize
      ∧ s.WaitsOn t (.readBlock kind blocks rest (lens ++ [(i, bytes.length)]) fails)
      ∧ t.stgBytes i bytes.length = bytes
      ∧ ∀ a, (a < s.stgAddr i ∨ s.stgAddr i + bytes.length ≤ a) → t.stg.read a = s.stg.read a := by
  obtain ⟨p, hr, hleft, -⟩ := State.portRead_leaves hgives
  exact ⟨_, State.answer_read hj hrest hr, s.movesIn_setInPort i p, hleft, rfl,
    (s.setInPort i p).stg_setStgBytes i bytes⟩

theorem readBlock_lastRead (s : State) (kind : BlockKind) (blocks i : Nat) (lens : List (Nat × Nat))
    (data : Nat → List Byte) (hc : s.ConfigInv) (hconf : s.status.configured = true) (hok : s.blockOk = true)
    (hj : s.job = some (.readBlock kind blocks [i] lens []))
    (hperm : (lens.map (fun e => e.1) ++ [i]).Perm (s.readers kind))
    (hrows : ∀ e ∈ lens, e.2 = (data e.1).length ∧ e.2 ≤ s.blockSize ∧ s.stgBytes e.1 e.2 = data e.1)
    (hgives : s.ReadGives i s.blockSize (data i)) :
    let all := lens ++ [(i, (data i).length)]
    ∃ t, s.answer .served = .next t ∧ s.MovesIn t i ∧ t.left i = (s.left i).drop s.blockSize
      ∧ s.KeepsWorkFrom t (s.blockNeed kind)
      ∧ ∃ e ∈ all, (s.parIoLatch = false → ∀ e' ∈ all, e.1 ≤ e'.1)
        ∧ if e.2 = 0 then t.EndsAs (s.streamEnded kind blocks) else s.BlockRun t kind blocks e.2 data := by
  intro all
  obtain ⟨p, hr, hleft, hconn⟩ := State.portRead_leaves hgives
  let t := (s.setInPort i p).setStgBytes i (data i)
  have hlater : s.SameButPorts t := rfl
  have hreaders : t.readers kind = s.readers kind := by
    cases kind with
    | reconstruct d => exact List.filter_congr fun j _ => hconn j
    | _ => rfl
  have hkeys : (all.map (·.1)).Perm (t.readers kind) := by
    rw [hreaders]
    simpa [all] using hperm
  have hcap := State.blockSize_le_stgCap hok
  have hlen : (data i).length ≤ s.blockSize := by
    rw [hgives.1, List.length_take]
    exact Nat.min_le_left _ _
  have hi : i ∉ lens.map (·.1) := fun h =>
    List.disjoint_of_nodup_append (hperm.nodup_iff.2 (s.nodup_readers kind)) h (List.mem_singleton_self i)
  have hall : ∀ e ∈ all, e.2 = (data e.1).length ∧ e.2 ≤ t.blockSize ∧ t.stgBytes e.1 e.2 = data e.1 := by
    intro e he
    rcases List.mem_append.1 he with he | he
    · obtain ⟨hlen', hle, hrow⟩ := hrows e he
      have hne : e.1 ≠ i := fun h => hi (List.mem_map.2 ⟨e, he, h⟩)
      exact ⟨hlen', hle, (State.stgBytes_setStgBytes_apart (s.setInPort i p) hne (hlen.trans hcap)
        (hle.trans hcap)).trans hrow⟩
    · obtain rfl := List.mem_singleton.1 he
      exact ⟨rfl, hlen, (State.stg_setStgBytes _ _ _).1⟩
  have hne : t.readers kind ≠ [] := by
    intro h
    rw [h] at hkeys
    simp [all] at hkeys
  obtain ⟨e, he, hlow, hstays, hend⟩ := State.settleBlock_leaves (hc.congr (t := t) ⟨rfl, rfl, rfl⟩) hconf hok hkeys hne
    hall blocks
  refine ⟨_, State.answer_lastRead hj hr, ⟨hstays.outPorts, fun j hj => ?_⟩, ?_, hstays.work, e, he, hlow, ?_⟩
  · exact (State.inPort_congr hstays.inPorts j).trans ((s.movesIn_setInPort i p).2 j hj)
  · exact (State.left_congr hstays.inPorts i).trans hleft
  · by_cases h0 : e.2 = 0
    · rw [if_pos h0] at hend ⊢
      exact hend.trans (hlater.later.streamEnded kind blocks)
    · rw [if_neg h0] at hend ⊢
      exact hlater.later.blockRun hconn (fun _ => rfl) hend

theorem writes_nextWrite (s : State) (again : List (Nat × List Byte) → List (Nat × Word) → Job) (j : Nat)
    (bytes : List Byte) (rest : List (Nat × List Byte)) (fails : List (Nat × Word))
    (hagain : (∃ kind blocks, again = .writeBlock kind blocks) ∨ (∃ per, again = .splitWrite per))
    (hj : s.job = some (again ((j, bytes) :: rest) fails)) (hrest : rest ≠ []) :
    ∃ t, s.answer .served = .next t ∧ s.MovesOut t j bytes ∧ s.WaitsOn t (again rest fails) := by
  have hw : ∃ need, s.WriteJob again need := by
    rcases hagain with ⟨kind, blocks, rfl⟩ | ⟨per, rfl⟩
    · exact ⟨_, .inl ⟨kind, blocks, rfl, rfl⟩⟩
    · exact ⟨_, .inr ⟨per, rfl, rfl⟩⟩
  obtain ⟨need, hw⟩ := hw
  obtain ⟨cleanup, next, hans, -⟩ := hw.answer hj
  refine ⟨(s.portWrite .served j bytes).2.waitOn (again rest fails), ?_, s.portWrite_movesOut .served j bytes, rfl⟩
  rw [hans, State.writeStep_served, List.isEmpty_eq_false_iff.2 hrest]
  rfl

theorem writeBlock_lastWrite (s : State) (kind : BlockKind) (blocks j : Nat) (bytes : List Byte)
    (hj : s.job = some (.writeBlock kind blocks [(j, bytes)] [])) (hne : s.readers kind ≠ []) :
    ∃ t, s.answer .served = .next t ∧ s.MovesOut t j bytes ∧ s.StartsBlock t kind (blocks + 1) := by
  obtain ⟨hin, hwrote, hother⟩ := s.portWrite_movesOut .served j bytes
  obtain ⟨u, hu, hstarts, huin, huout, -⟩ := State.startBlock_starts (s.sameButPorts_portWrite .served j bytes) kind
    (blocks + 1) hne (by cases kind <;> rfl)
  refine ⟨u, ?_, ⟨huin.trans hin, (State.outPort_congr huout j).trans hwrote,
    fun j' hj' => (State.outPort_congr huout j').trans (hother j' hj')⟩, hstarts⟩
  have hans : s.answer .served
      = .next (s.blockReply kind ((s.portWrite .served j bytes).2.startBlock kind (blocks + 1))) := by
    rw [State.answer, hj]
    rfl
  rw [hans, hu]
  rfl

end Sys2Proof.Machine

namespace Sys2Proof

open Machine

/-- Settles O52, one conjunct for each of the four: a read, the last read, a write, the last write. -/
theorem blocksRunInSequence : Obligations.BlocksRunInSequence :=
  ⟨readBlock_nextRead, readBlock_lastRead, writes_nextWrite, writeBlock_lastWrite⟩

end Sys2Proof
end

section
/-! SUPPORT. Whole blocks of a block command whose port operations are all served (45_stream.md R293 to R297): the reads
of a block, its writes, and the empty block that ends the command. -/

namespace Sys2Proof.Machine

/-! Later states. -/

namespace State.Later

variable {s t u : State}

theorem trans (h₁ : s.Later t) (h₂ : t.Later u) : s.Later u := by
  obtain ⟨_, _, _, _, _, _, rfl⟩ := h₁
  obtain ⟨_, _, _, _, _, _, rfl⟩ := h₂
  exact ⟨_, _, _, _, _, _, rfl⟩

theorem work (h : s.Later t) : t.work = s.work := by
  obtain ⟨_, _, _, _, _, _, rfl⟩ := h
  rfl

theorem parIoLatch (h : s.Later t) : t.parIoLatch = s.parIoLatch := by
  obtain ⟨_, _, _, _, _, _, rfl⟩ := h
  rfl

theorem blockSize (h : s.Later t) : t.blockSize = s.blockSize := by
  obtain ⟨_, _, _, _, _, _, rfl⟩ := h
  rfl

theorem blockOk (h : s.Later t) : t.blockOk = s.blockOk := by
  obtain ⟨_, _, _, _, _, _, rfl⟩ := h
  rfl

theorem blockNeed (h : s.Later t) (kind : BlockKind) : t.blockNeed kind = s.blockNeed kind := by
  obtain ⟨_, _, _, _, _, _, rfl⟩ := h
  cases kind <;> rfl

theorem keepsConfig (h : s.Later t) : s.KeepsConfig t := by
  obtain ⟨_, _, _, _, _, _, rfl⟩ := h
  exact ⟨rfl, rfl, rfl⟩

theorem slotAddr (h : s.Later t) (i : Nat) : t.slotAddr i = s.slotAddr i := by
  obtain ⟨_, _, _, _, _, _, rfl⟩ := h
  rfl

/-- A command that is still running has left work memory alone. -/
theorem keepsWork (h : s.Later t) {need : Nat} (hw : t.KeepsWorkFrom u need) : s.KeepsWorkFrom u need :=
  fun a ha => (hw a ((h.slotAddr need).trans_le ha)).trans (congrArg (·.read a) h.work)

theorem readers (h : s.Later t) (hconn : ∀ i, (t.inPort i).conn = (s.inPort i).conn) (kind : BlockKind) :
    t.readers kind = s.readers kind := by
  obtain ⟨_, _, _, _, _, _, rfl⟩ := h
  cases kind with
  | reconstruct d =>
    exact List.filter_congr fun i _ => hconn i
  | _ => rfl

end State.Later

theorem State.WaitsOn.later {s t : State} {j : Job} (h : s.WaitsOn t j) : s.Later t := ⟨_, _, _, _, _, _, h⟩

/-! The reads of a block. -/

/-- A command waits on the first read of block `blocks`. -/
def State.AtBlock (s : State) (kind : BlockKind) (blocks : Nat) : Prop :=
  ∃ todo, s.job = some (.readBlock kind blocks todo [] []) ∧ s.seq = .streamIo ∧ todo.Perm (s.readers kind)

/-- The readers of a block have moved past the bytes that they gave, at most B, and no other reader has moved. -/
structure State.ReadsOut (s t : State) (kind : BlockKind) : Prop where
  left : ∀ i ∈ s.readers kind, t.left i = (s.left i).drop s.blockSize
  term : ∀ i ∈ s.readers kind, (t.inPort i).term = .eof
  conn : ∀ i, (t.inPort i).conn = (s.inPort i).conn
  others : ∀ i, i ∉ s.readers kind → t.inPort i = s.inPort i

theorem State.StartsBlock.atBlock {s t : State} {kind : BlockKind} {blocks : Nat} (h : s.StartsBlock t kind blocks)
    (hconn : ∀ i, (t.inPort i).conn = (s.inPort i).conn) : t.AtBlock kind blocks ∧ s.Later t := by
  obtain ⟨todo, hperm, -, hw⟩ := h
  have hl := hw.later
  refine ⟨⟨todo, ?_, ?_, by rwa [hl.readers hconn]⟩, hl⟩
  · rw [hw]
  · rw [hw]

theorem State.Reads.stgBytes {s t : State} {want : Nat} {todo : List Nat} (h : s.Reads t want todo) {i : Nat}
    (hi : i ∈ todo) : t.stgBytes i ((s.left i).take want).length = (s.left i).take want := by
  have haddr : t.stgAddr i = s.stgAddr i := by
    rw [h.same]
    rfl
  refine List.ext_getElem (Memory.length_readBytes _ _ _) fun b hb hb' => ?_
  have hrow := h.rows i hi b hb'
  rw [List.getD_eq_getElem _ _ hb'] at hrow
  simp only [State.stgBytes, Memory.readBytes_eq, List.getElem_map, List.getElem_range, haddr, hrow]

/-- All reads of a block, each of them served: what the block leaves, of the size that one of its readers gave. -/
theorem State.AtBlock.served {s : State} {kind : BlockKind} {blocks : Nat} (h : s.AtBlock kind blocks)
    (hc : s.ConfigInv) (hconf : s.status.configured = true) (hok : s.blockOk = true) (hne : s.readers kind ≠ [])
    (heof : ∀ i ∈ s.readers kind, (s.inPort i).term = .eof) :
    ∃ n t, State.served n s = .next t ∧ s.ReadsOut t kind ∧ t.outPorts = s.outPorts
      ∧ s.KeepsWorkFrom t (s.blockNeed kind)
      ∧ ∃ i0 ∈ s.readers kind, (s.parIoLatch = false → ∀ i ∈ s.readers kind, i0 ≤ i)
        ∧ if ((s.left i0).take s.blockSize).length = 0 then t.EndsAs (s.streamEnded kind blocks)
          else s.BlockRun t kind blocks ((s.left i0).take s.blockSize).length
            fun i => (s.left i).take s.blockSize := by
  obtain ⟨todo, hj, hq, hperm⟩ := h
  have hcap := State.blockSize_le_stgCap hok
  have htodo : todo ≠ [] := by
    rintro rfl
    exact hne (List.nil_perm.1 hperm)
  obtain ⟨v, hreads, hserved⟩ := State.served_reads kind blocks todo htodo
    (hperm.nodup_iff.2 (s.nodup_readers kind)) [] s hj hq hcap fun i hi => heof i (hperm.mem_iff.1 hi)
  have hport : ∀ i ∈ s.readers kind, v.inPort i = ((s.inPort i).readFull s.blockSize).2 := fun i hi => by
    rw [hreads.ports, if_pos (hperm.mem_iff.2 hi)]
  have hother : ∀ i, i ∉ s.readers kind → v.inPort i = s.inPort i := fun i hi => by
    rw [hreads.ports, if_neg (mt hperm.mem_iff.1 hi)]
  have hlater : s.Later v := ⟨_, _, _, _, _, _, hreads.same⟩
  have hconn : ∀ i, (v.inPort i).conn = (s.inPort i).conn := fun i => by
    by_cases hi : i ∈ s.readers kind
    · rw [hport i hi, InPort.readFull_conn]
    · rw [hother i hi]
  have hout : v.outPorts = s.outPorts := by
    rw [hreads.same]
  have hreaders := hlater.readers hconn kind
  obtain ⟨e, he, hlow, hstays, hend⟩ := State.settleBlock_leaves (hc.congr hlater.keepsConfig)
    (hlater.keepsConfig.2.1.trans hconf) (hlater.blockOk.trans hok)
    (lens := todo.map fun i => (i, ((s.left i).take s.blockSize).length))
    (data := fun i => (s.left i).take s.blockSize)
    (by rw [hreaders]; simpa [Function.comp_def] using hperm) (by rwa [hreaders])
    (fun e he => by
      obtain ⟨i, hi, rfl⟩ := List.mem_map.1 he
      refine ⟨rfl, ?_, hreads.stgBytes hi⟩
      rw [hlater.blockSize, List.length_take]
      exact Nat.min_le_left _ _) blocks
  rw [List.nil_append] at hserved
  obtain ⟨i0, hi0, rfl⟩ := List.mem_map.1 he
  refine ⟨_, _, hserved, ⟨fun i hi => ?_, fun i hi => ?_, fun i => ?_, fun i hi => ?_⟩, hstays.outPorts.trans hout,
    hlater.keepsWork ?_, i0, hperm.mem_iff.1 hi0, fun hp i hi => ?_, ?_⟩
  · rw [State.left_congr hstays.inPorts, State.left, hport i hi]
    exact (InPort.readFull_eof _ _ (heof i hi)).2.2.2.2
  · rw [State.inPort_congr hstays.inPorts, hport i hi]
    exact (InPort.readFull_eof _ _ (heof i hi)).2.2.1
  · rw [State.inPort_congr hstays.inPorts, hconn]
  · rw [State.inPort_congr hstays.inPorts, hother i hi]
  · rw [← hlater.blockNeed]
    exact hstays.work
  · exact hlow (hlater.parIoLatch.trans hp) _ (List.mem_map_of_mem (hperm.mem_iff.2 hi))
  · split at hend
    · rename_i h0
      rw [if_pos h0]
      exact hend.trans (hlater.streamEnded kind blocks)
    · rename_i h0
      rw [if_neg h0]
      exact hlater.blockRun hconn (fun j => by rw [State.outPort_congr hout]) hend

/-! The writes of a block. -/

/-- All writes of a block, each of them served: the command waits on the next block's first read. -/
theorem State.StartsWrites.served {s t : State} {kind : BlockKind} {blocks : Nat} {writes : List (Nat × List Byte)}
    (h : s.StartsWrites t (.writeBlock kind blocks) writes) (hne : writes ≠ []) (hn : (writes.map (·.1)).Nodup)
    (hr : t.readers kind ≠ []) :
    ∃ n u, State.served n t = .next u ∧ t.Later u ∧ u.AtBlock kind (blocks + 1) ∧ u.inPorts = t.inPorts
      ∧ (∀ e ∈ writes, t.Wrote u e.1 e.2) ∧ ∀ j, j ∉ writes.map (·.1) → u.outPort j = t.outPort j := by
  obtain ⟨todo, hperm, -, hw⟩ := h
  have htodo : todo ≠ [] := by
    rintro rfl
    exact hne (List.nil_perm.1 hperm)
  have hkeys := hperm.map (·.1)
  obtain ⟨v, hwrites, hserved⟩ := State.served_writes (.writeBlock kind blocks)
    (fun t => t.startBlock kind (blocks + 1)) (State.endBlockCommand (t.blockNeed kind)) todo htodo (hkeys.nodup_iff.2 hn) t
    (fun u l hu hj => by
      have hneed : u.blockNeed kind = t.blockNeed kind := by
        rw [hu]
        cases kind <;> rfl
      rw [State.answer, hj, ← hneed]
      rfl) (by rw [hw]) (by rw [hw])
  have hsame := hwrites.same
  have hin : v.inPorts = t.inPorts := by
    rw [hsame]
  have hlater : t.Later v := ⟨_, _, _, _, _, _, hsame⟩
  have hvr : v.readers kind = t.readers kind := hlater.readers (fun i => by rw [State.inPort_congr hin]) kind
  obtain ⟨u, hu, hstarts, huin, huout, -⟩ :=
    State.startBlock_starts (s := v) (t := v) rfl kind (blocks + 1) (by rwa [hvr]) rfl
  obtain ⟨hat, hl⟩ := hstarts.atBlock fun i => by rw [State.inPort_congr huin]
  rw [hu] at hserved
  refine ⟨_, u, hserved, hlater.trans hl, hat, huin.trans hin, fun e he => ?_, fun j hj => ?_⟩
  · exact (State.outPort_congr huout e.1).trans (hwrites.wrote e (hperm.mem_iff.2 he))
  · exact (State.outPort_congr huout j).trans (hwrites.others j (mt hkeys.mem_iff.1 hj))

/-! The end. -/

/-- A block whose readers are all at their ends ends the command. -/
theorem State.AtBlock.served_end {s : State} {kind : BlockKind} {blocks : Nat} (h : s.AtBlock kind blocks)
    (hc : s.ConfigInv) (hconf : s.status.configured = true) (hok : s.blockOk = true) (hne : s.readers kind ≠ [])
    (hend : ∀ i ∈ s.readers kind, (s.inPort i).term = .eof ∧ s.left i = []) :
    ∃ n t, State.served n s = .next t ∧ s.ReadsOut t kind ∧ t.outPorts = s.outPorts
      ∧ s.KeepsWorkFrom t (s.blockNeed kind) ∧ t.EndsAs (s.streamEnded kind blocks) := by
  obtain ⟨n, t, hserved, hreads, hout, hwork, i0, hi0, -, hleaves⟩ :=
    h.served hc hconf hok hne fun i hi => (hend i hi).1
  refine ⟨n, t, hserved, hreads, hout, hwork, ?_⟩
  rwa [(hend i0 hi0).2, List.take_nil, if_pos List.length_nil] at hleaves

end Sys2Proof.Machine
end

section
/-! SUPPORT. STREAM_ENCODE, STREAM_VERIFY and the stream reconstructions of one block whose port operations are all
served (45_stream.md R310 to R313): a full block, its writes, and the empty block that ends the command. -/

namespace Sys2Proof.Machine

/-! A full block. -/

theorem roundUp_roundUp (L : Nat) : roundUp (roundUp L 64) 64 = roundUp L 64 := by
  unfold roundUp ceilDiv
  omega

/-- A block size is a multiple of 64, so the padding of what fits it fits it too (45_stream.md R294). -/
theorem State.roundUp_le_blockSize {s : State} (hok : s.blockOk = true) {size : Nat} (h : size ≤ s.blockSize) :
    roundUp size 64 ≤ s.blockSize := by
  simp only [State.blockOk, Config.align, Bool.and_eq_true, decide_eq_true_eq] at hok
  obtain ⟨⟨-, h64⟩, -⟩ := hok
  unfold roundUp ceilDiv
  omega

/-- The bytes that reader i has left in a stream of one block, of L bytes a data shard. -/
def State.fullLen (s : State) (L i : Nat) : Nat :=
  if i < s.k then L else roundUp L 64

theorem State.roundUp_fullLen (s : State) (L i : Nat) : roundUp (s.fullLen L i) 64 = roundUp L 64 := by
  unfold State.fullLen
  split
  · rfl
  · exact roundUp_roundUp L

theorem State.le_fullLen (s : State) (L i : Nat) : L ≤ s.fullLen L i := by
  unfold State.fullLen
  split
  · exact le_rfl
  · exact le_roundUp L 64 (by decide)

theorem State.fullLen_le {s : State} (hok : s.blockOk = true) {L : Nat} (h : L ≤ s.blockSize) (i : Nat) :
    s.fullLen L i ≤ s.blockSize := by
  unfold State.fullLen
  split
  · exact h
  · exact State.roundUp_le_blockSize hok h

/-- A row that is not longer than the block is zero-extended (45_stream.md R318). -/
theorem State.padded_of_le {s : State} {L i i0 : Nat} {bytes : List Byte} (h : bytes.length = s.fullLen L i) :
    s.padded (s.fullLen L i0) i bytes = bytes ++ List.replicate (roundUp L 64 - bytes.length) 0 := by
  have hle : bytes.length ≤ if i < s.k then s.fullLen L i0 else roundUp L 64 := by
    rw [h]
    have hi0 := s.le_fullLen L i0
    unfold State.fullLen at *
    split <;> omega
  simp only [State.padded, State.roundUp_fullLen, List.take_of_length_le hle]

section Full

variable {s t : State} {kind : BlockKind} {L i0 : Nat}

/-- The rows of a full block are the readers' bytes, zero-extended. -/
theorem State.paddedRow_full (hok : s.blockOk = true) (hL : L ≤ s.blockSize) {i : Nat}
    (h : s.Reader i (s.fullLen L i)) :
    s.paddedRow (s.fullLen L i0) (fun i => (s.left i).take s.blockSize) i = s.readerRow (roundUp L 64) i := by
  have hlen : (s.left i).length = s.fullLen L i := h.2.2
  unfold State.paddedRow State.readerRow
  dsimp only
  rw [List.take_of_length_le (hlen.trans_le (State.fullLen_le hok hL i)), State.padded_of_le hlen]

theorem State.paddedParity_full (hok : s.blockOk = true) (hL : L ≤ s.blockSize)
    (h : ∀ d < s.k, s.Reader d (s.fullLen L d)) :
    s.paddedParity (s.fullLen L i0) (fun i => (s.left i).take s.blockSize)
      = s.field.encParity s.k s.m s.mpow (elemCount s.field (roundUp L 64)) (s.readerRow (roundUp L 64)) := by
  unfold State.paddedParity
  rw [State.roundUp_fullLen]
  exact GF.encParity_congr _ _ _ _ _ _ _ fun d hd => State.paddedRow_full hok hL (h d hd)

theorem State.paddedDecode_full (hok : s.blockOk = true) (hL : L ≤ s.blockSize)
    (h : ∀ i < s.k + s.m, (s.inPort i).conn = true → s.Reader i (s.fullLen L i)) :
    s.paddedDecode (s.fullLen L i0) (fun i => (s.left i).take s.blockSize)
      = s.field.decode s.k s.m s.mpow (elemCount s.field (roundUp L 64)) (fun i => (s.inPort i).conn = false)
          (s.readerRow (roundUp L 64)) := by
  unfold State.paddedDecode
  rw [State.roundUp_fullLen]
  exact GF.decode_congr _ _ _ _ _ _ _ _ _ (fun _ _ => rfl) fun i hi hconn =>
    State.paddedRow_full hok hL (h i hi (by simpa using hconn))

/-- STREAM_ENCODE's writes of a full block. -/
theorem State.encodeRun_full {u : State} {blocks : Nat} (hok : s.blockOk = true) (hL : L ≤ s.blockSize)
    (h : ∀ d < s.k, s.Reader d (s.fullLen L d))
    (hrun : s.accept.BlockRun u .encode blocks (s.fullLen L i0) fun i => (s.left i).take s.blockSize) :
    s.accept.StartsWrites u (.writeBlock .encode blocks) (s.accept.parityWrites
      (s.field.encParity s.k s.m s.mpow (elemCount s.field (roundUp L 64)) (s.readerRow (roundUp L 64)))) := by
  rw [← State.paddedParity_full hok hL h]
  exact hrun

/-- STREAM_VERIFY on a full block: the parity rows are the parity readers' bytes, or not. -/
theorem State.verifyRun_full {u : State} {blocks : Nat} (hok : s.blockOk = true) (hL : L ≤ s.blockSize)
    (h : ∀ i < s.k + s.m, s.Reader i (s.fullLen L i))
    (hrun : s.accept.BlockRun u .verify blocks (s.fullLen L i0) fun i => (s.left i).take s.blockSize) :
    if ∀ p < s.m, s.parityBytes (s.field.encParity s.k s.m s.mpow (elemCount s.field (roundUp L 64))
        (s.readerRow (roundUp L 64))) p = s.left (s.k + p) then s.accept.StartsBlock u .verify (blocks + 1)
    else u.EndsAs (s.verified false) := by
  have hcond : (∀ p < s.m, s.parityBytes (s.paddedParity (s.fullLen L i0) fun i => (s.left i).take s.blockSize) p
        = s.padded (s.fullLen L i0) (s.k + p) ((s.left (s.k + p)).take s.blockSize))
      ↔ ∀ p < s.m, s.parityBytes (s.field.encParity s.k s.m s.mpow (elemCount s.field (roundUp L 64))
        (s.readerRow (roundUp L 64))) p = s.left (s.k + p) := by
    rw [State.paddedParity_full hok hL fun d hd => h d (by omega)]
    refine forall₂_congr fun p hp => ?_
    have hlen := (h (s.k + p) (by omega)).2.2
    have h64 : (s.left (s.k + p)).length = roundUp L 64 := hlen.trans (if_neg (by omega))
    rw [List.take_of_length_le (hlen.trans_le (State.fullLen_le hok hL _)), State.padded_of_le hlen, h64, Nat.sub_self,
      List.replicate_zero, List.append_nil]
  rw [← if_congr hcond rfl rfl]
  exact hrun

/-- What a block command waits in that has been issued in `s` and passes its checks. -/
structure State.Issued (s t : State) (kind : BlockKind) : Prop where
  later : s.accept.Later t
  atBlock : t.AtBlock kind 0
  inPorts : t.inPorts = s.inPorts
  outPorts : t.outPorts = s.outPorts

theorem State.issued_waiting {todo : List Nat} (h : todo.Perm (s.readers kind)) (d : Nat) :
    s.Issued { s.waiting (.readBlock kind 0 todo [] []) with draws := d } kind where
  later := ⟨_, _, _, _, _, _, rfl⟩
  atBlock := ⟨todo, rfl, rfl, by cases kind <;> exact h⟩
  inPorts := rfl
  outPorts := rfl

theorem State.Issued.readers (h : s.Issued t kind) : t.readers kind = s.readers kind :=
  (h.later.readers (fun i => by rw [State.inPort_congr h.inPorts]; rfl) kind).trans (by cases kind <;> rfl)

/-- The reads of the first block when it is a full one, each of them served. -/
theorem State.Issued.served_full (h : s.Issued t kind) (hc : s.ConfigInv) (hconf : s.status.configured = true)
    (hok : s.blockOk = true) (hL0 : 0 < L) (hL : L ≤ s.blockSize) (hne : s.readers kind ≠ [])
    (hread : ∀ i ∈ s.readers kind, s.Reader i (s.fullLen L i)) :
    ∃ n u, State.served n t = .next u ∧ t.ReadsOut u kind ∧ u.outPorts = s.outPorts
      ∧ s.KeepsWorkFrom u (s.blockNeed kind)
      ∧ ∃ i0 ∈ s.readers kind, (s.ctrl.parIo = false → ∀ i ∈ s.readers kind, i0 ≤ i)
        ∧ s.accept.BlockRun u kind 0 (s.fullLen L i0) fun i => (s.left i).take s.blockSize := by
  have hport := State.inPort_congr h.inPorts
  have hleft := State.left_congr h.inPorts
  have hreaders := h.readers
  have hsize : t.blockSize = s.blockSize := h.later.blockSize
  obtain ⟨n, u, hserved, hreads, hout, hwork, i0, hi0, hlow, hrun⟩ :=
    h.atBlock.served (hc.congr h.later.keepsConfig) (h.later.keepsConfig.2.1.trans hconf) (h.later.blockOk.trans hok)
      (by rwa [hreaders]) fun i hi => by rw [hport]; exact (hread i (hreaders ▸ hi)).2.1
  rw [hreaders] at hi0 hlow
  have hlen : ((t.left i0).take t.blockSize).length = s.fullLen L i0 := by
    rw [hleft, hsize, List.length_take, (hread i0 hi0).2.2]
    exact Nat.min_eq_right (State.fullLen_le hok hL i0)
  rw [hlen, if_neg (hL0.trans_le (s.le_fullLen L i0)).ne'] at hrun
  simp only [hleft, hsize] at hrun
  refine ⟨n, u, hserved, hreads, hout.trans h.outPorts, h.later.keepsWork ?_, i0, hi0,
    fun hp => hlow (h.later.parIoLatch.trans hp),
    h.later.blockRun (fun i => by rw [hport]; rfl) (fun j => by rw [State.outPort_congr h.outPorts]; rfl) hrun⟩
  have hneed : t.blockNeed kind = s.blockNeed kind := (h.later.blockNeed kind).trans (by cases kind <;> rfl)
  rw [← hneed]
  exact hwork

/-- The reads of a full block leave its readers at their ends. -/
theorem State.Issued.drained {u : State} (h : s.Issued t kind) (hok : s.blockOk = true) (hL : L ≤ s.blockSize)
    (hread : ∀ i ∈ s.readers kind, s.Reader i (s.fullLen L i)) (hreads : t.ReadsOut u kind) :
    (∀ i ∈ s.readers kind, u.left i = []) ∧ ∀ i, i ∉ s.readers kind → u.inPort i = s.inPort i := by
  refine ⟨fun i hi => ?_, fun i hi => ?_⟩
  · rw [hreads.left i (h.readers ▸ hi), State.left_congr h.inPorts, h.later.blockSize, List.drop_eq_nil_iff,
      (hread i hi).2.2]
    exact State.fullLen_le hok hL i
  · rw [hreads.others i (h.readers ▸ hi), State.inPort_congr h.inPorts]

/-- The second block of a command whose first block was a full one: it is empty, and the command ends. -/
theorem State.Issued.served_end {u w : State} (h : s.Issued t kind) (hc : s.ConfigInv)
    (hconf : s.status.configured = true) (hok : s.blockOk = true) (hL : L ≤ s.blockSize) (hne : s.readers kind ≠ [])
    (hread : ∀ i ∈ s.readers kind, s.Reader i (s.fullLen L i)) (hreads : t.ReadsOut u kind)
    (hlater : s.accept.Later w) (hin : w.inPorts = u.inPorts) (hat : w.AtBlock kind 1) :
    ∃ n x, State.served n w = .next x ∧ x.outPorts = w.outPorts ∧ s.KeepsWorkFrom x (s.blockNeed kind)
      ∧ x.EndsAs (s.accept.streamEnded kind 1) ∧ (∀ i ∈ s.readers kind, x.left i = [])
      ∧ ∀ i, i ∉ s.readers kind → x.inPort i = s.inPort i := by
  obtain ⟨hempty, hothers⟩ := h.drained hok hL hread hreads
  have hwr : w.readers kind = s.readers kind :=
    (hlater.readers (fun i => by rw [State.inPort_congr hin, hreads.conn, State.inPort_congr h.inPorts]; rfl)
      kind).trans (by cases kind <;> rfl)
  obtain ⟨n, x, hserved, hends, hout, hwork, hend⟩ :=
    hat.served_end (hc.congr hlater.keepsConfig) (hlater.keepsConfig.2.1.trans hconf) (hlater.blockOk.trans hok)
      (by rwa [hwr]) fun i hi => by
        rw [hwr] at hi
        rw [State.inPort_congr hin, State.left_congr hin]
        exact ⟨hreads.term i (h.readers ▸ hi), hempty i hi⟩
  have hneed : w.blockNeed kind = s.blockNeed kind := (hlater.blockNeed kind).trans (by cases kind <;> rfl)
  refine ⟨n, x, hserved, hout, hlater.keepsWork (hneed ▸ hwork), hend.trans (hlater.streamEnded kind 1),
    fun i hi => ?_, fun i hi => ?_⟩
  · rw [hends.left i (hwr ▸ hi), State.left_congr hin, hempty i hi, List.drop_nil]
  · rw [hends.others i (hwr ▸ hi), State.inPort_congr hin, hothers i hi]

end Full

/-! The writes. -/

theorem State.StartsWrites.later {s t : State} {again : List (Nat × List Byte) → List (Nat × Word) → Job}
    {writes : List (Nat × List Byte)} (h : s.StartsWrites t again writes) : s.Later t := by
  obtain ⟨todo, -, -, hw⟩ := h
  exact hw.later

/-- A port has taken bytes, whatever steps before and after leave the output ports alone. -/
theorem State.Wrote.congr {s u w x : State} {j : Nat} {bytes : List Byte} (h : u.Wrote w j bytes)
    (hu : u.outPorts = s.outPorts) (hx : x.outPorts = w.outPorts) : s.Wrote x j bytes := by
  unfold State.Wrote at *
  rw [State.outPort_congr hx, h, State.outPort_congr hu]

theorem State.keys_parityWrites (s : State) (rows : Rows) :
    (s.parityWrites rows).map (·.1) = (List.range s.m).map (s.k + ·) := by
  simp [State.parityWrites, Function.comp_def]

theorem State.keys_recoveredWrites (s : State) (dataOnly : Bool) (size : Nat) (dec : Array Nat × Rows) :
    (s.recoveredWrites dataOnly size dec).map (·.1) = (List.range (if dataOnly then s.k else s.n)).filter fun j =>
      (s.inPort j).conn = false ∧ (s.outPort j).conn = true := by
  simp [State.recoveredWrites, Function.comp_def]

theorem State.mem_recoveredWrites {s : State} {dataOnly : Bool} {j : Nat} (hj : j < if dataOnly then s.k else s.n)
    (hin : (s.inPort j).conn = false) (hout : (s.outPort j).conn = true) (size : Nat) (dec : Array Nat × Rows) :
    (j, (bytesOfElems s.field s.params.layout (s.field.recovered s.k s.mpow dec j)).take
      (if j < s.k then size else roundUp size 64)) ∈ s.recoveredWrites dataOnly size dec :=
  List.mem_map.2 ⟨j, List.mem_filter.2 ⟨List.mem_range.2 hj, decide_eq_true ⟨hin, hout⟩⟩, rfl⟩

/-- A reconstruction's writes, each of them served, or none: the command waits on the next block's first read. -/
theorem State.served_recoveredWrites {s t : State} {dataOnly : Bool} {blocks size : Nat} {data : Nat → List Byte}
    (h : s.BlockRun t (.reconstruct dataOnly) blocks size data) (hconn : ∀ i, (t.inPort i).conn = (s.inPort i).conn)
    (hne : s.readers (.reconstruct dataOnly) ≠ []) :
    ∃ n u, State.served n t = .next u ∧ s.Later u ∧ u.AtBlock (.reconstruct dataOnly) (blocks + 1)
      ∧ u.inPorts = t.inPorts ∧ (∀ e ∈ s.recoveredWrites dataOnly size (s.paddedDecode size data), t.Wrote u e.1 e.2)
      ∧ ∀ j, j ∉ (s.recoveredWrites dataOnly size (s.paddedDecode size data)).map (·.1) →
          u.outPort j = t.outPort j := by
  rw [State.blockRun_reconstruct] at h
  by_cases hnil : s.recoveredWrites dataOnly size (s.paddedDecode size data) = []
  · rw [if_pos hnil] at h
    obtain ⟨hat, hl⟩ := h.atBlock hconn
    exact ⟨0, t, rfl, hl, hat, rfl, by simp [hnil], fun _ _ => rfl⟩
  · rw [if_neg hnil] at h
    have hl := h.later
    obtain ⟨n, u, hserved, hlu, hat, hin, hwrote, hother⟩ := h.served hnil
      (by rw [State.keys_recoveredWrites]; exact List.nodup_range.filter _) (by rwa [hl.readers hconn])
    exact ⟨n, u, hserved, hl.trans hlu, hat, hin, hwrote, hother⟩

theorem State.succeeds_verified (s : State) (ok : Bool) : (s.verified ok).Succeeds (if ok then 1 else 0) :=
  ⟨rfl, rfl, rfl, rfl, rfl, rfl, rfl, rfl⟩

theorem State.keepsShards_verified (s : State) (ok : Bool) : s.KeepsShards (s.verified ok) :=
  ⟨rfl, rfl, rfl, rfl, rfl, rfl, rfl, rfl, rfl, rfl, rfl, rfl, rfl, rfl⟩

/-- Answers in three parts. -/
theorem State.served_three {s t u w : State} {n₁ n₂ n₃ : Nat} (h₁ : State.served n₁ s = .next t)
    (h₂ : State.served n₂ t = .next u) (h₃ : State.served n₃ u = .next w) :
    State.served (n₁ + (n₂ + n₃)) s = .next w := by
  rw [State.served_add _ _ _ _ h₁, State.served_add _ _ _ _ h₂, h₃]

end Sys2Proof.Machine

namespace Sys2Proof

open Machine

/-- Settles O47: a full block, the parity rows' writes, and the empty block that ends the command. -/
theorem streamEncodeOneBlock : Obligations.StreamEncodeOneBlock := by
  intro s L _ hc h hL0 hL hreader
  dsimp only
  obtain ⟨hconf, hok, -⟩ := State.streamVerdict_eq_none.1 h
  have hm := (hc.positive hconf).2
  have hn := (hc.total hconf).1
  have hne := State.readers_encode_ne_nil hc hconf
  have hfull : ∀ i < s.k, s.Reader i (s.fullLen L i) := fun i hi => by
    unfold State.fullLen
    rw [if_pos hi]
    exact hreader i hi
  have hread : ∀ i ∈ s.readers .encode, s.Reader i (s.fullLen L i) := fun i hi => hfull i (List.mem_range.1 hi)
  obtain ⟨hstart, -⟩ := blockCommandsStart s hc
  obtain ⟨todo, d, hexec, hperm, -⟩ := hstart h
  have hissued : s.Issued _ .encode := State.issued_waiting (kind := .encode) hperm d
  obtain ⟨n₁, u, hserved₁, hreads, hout, -, i0, -, -, hrun⟩ := hissued.served_full hc hconf hok hL0 hL hne hread
  have hrun := State.encodeRun_full hok hL hfull hrun
  obtain ⟨n₂, w, hserved₂, hlater, hat, hin, hwrote, hother⟩ := hrun.served
    (by simp [State.parityWrites, hm.ne'])
    (by rw [State.keys_parityWrites]; exact List.nodup_range.map fun p q h => Nat.add_left_cancel h)
    (by rw [hrun.later.readers (fun i => hreads.conn i)]; exact hne)
  obtain ⟨n₃, x, hserved₃, hxout, hwork, hend, hleft, hothers⟩ :=
    hissued.served_end hc hconf hok hL hne hread hreads (hrun.later.trans hlater) hin hat
  have hend : x.EndsAs (s.succeeded 1) := hend
  refine ⟨_, hexec, _, x, State.served_three hserved₁ hserved₂ hserved₃, hend.succeeds (s.succeeds_succeeded 1),
    hend.keepsShards (s.keepsShards_succeeded 1), hwork, fun p hp => ?_, fun j hj => ?_,
    fun i hi => hleft i (List.mem_range.2 hi), fun i hi => hothers i (mt List.mem_range.1 (by omega))⟩
  · exact (hwrote _ (List.mem_map_of_mem (List.mem_range.2 hp))).congr hout hxout
  · rw [State.outPort_congr hxout, hother j, State.outPort_congr hout]
    rw [State.keys_parityWrites, List.mem_map]
    rintro ⟨p, hp, rfl⟩
    have := List.mem_range.1 hp
    simp only [State.accept_k, State.accept_m] at *
    omega

/-- Settles O48: a full block, whose parity rows are the parity readers' bytes or not, and in the first case the empty
block that ends the command. -/
theorem streamVerifyOneBlock : Obligations.StreamVerifyOneBlock := by
  intro s L _ hc h hL0 hL hdata hparity
  dsimp only
  obtain ⟨hconf, hok, -⟩ := State.streamVerdict_eq_none.1 h
  have hn := (hc.total hconf).1
  have hne := State.readers_verify_ne_nil hc hconf
  have hfull : ∀ i < s.n, s.Reader i (s.fullLen L i) := fun i hi => by
    unfold State.fullLen
    by_cases hk : i < s.k
    · rw [if_pos hk]
      exact hdata i hk
    · obtain ⟨p, rfl⟩ := Nat.exists_eq_add_of_le (not_lt.1 hk)
      rw [if_neg hk]
      exact hparity p (by omega)
  have hread : ∀ i ∈ s.readers .verify, s.Reader i (s.fullLen L i) := fun i hi => hfull i (List.mem_range.1 hi)
  obtain ⟨-, -, hstart, -⟩ := blockCommandsStart s hc
  obtain ⟨todo, d, hexec, hperm, -⟩ := hstart h
  have hissued : s.Issued _ .verify := State.issued_waiting (kind := .verify) hperm d
  obtain ⟨n₁, u, hserved₁, hreads, hout, hwork, i0, -, -, hrun⟩ := hissued.served_full hc hconf hok hL0 hL hne hread
  have hrun := State.verifyRun_full hok hL (fun i hi => hfull i (by omega)) hrun
  have hothers : ∀ i, s.n ≤ i → i ∉ s.readers .verify := fun i hi => mt List.mem_range.1 (not_lt.2 hi)
  by_cases hall : ∀ p < s.m, s.parityBytes (s.field.encParity s.k s.m s.mpow (elemCount s.field (roundUp L 64))
      (s.readerRow (roundUp L 64))) p = s.left (s.k + p)
  · rw [if_pos hall] at hrun
    rw [decide_eq_true hall]
    obtain ⟨hat, hlater⟩ := hrun.atBlock hreads.conn
    obtain ⟨n₂, x, hserved₂, hxout, hwork, hend, hleft, hother⟩ :=
      hissued.served_end hc hconf hok hL hne hread hreads hlater rfl hat
    have hend : x.EndsAs (s.verified true) := hend
    exact ⟨_, hexec, n₁ + n₂, x, (State.served_add _ _ _ _ hserved₁).trans hserved₂,
      hend.succeeds (s.succeeds_verified true), congrArg (·.status.verifyOk) hend,
      hend.keepsShards (s.keepsShards_verified true), hwork, hxout.trans hout,
      fun i hi => hleft i (List.mem_range.2 hi), fun i hi => hother i (hothers i hi)⟩
  · rw [if_neg hall] at hrun
    rw [decide_eq_false hall]
    obtain ⟨hleft, hother⟩ := hissued.drained hok hL hread hreads
    exact ⟨_, hexec, n₁, u, hserved₁, hrun.succeeds (s.succeeds_verified false), congrArg (·.status.verifyOk) hrun,
      hrun.keepsShards (s.keepsShards_verified false), hwork, hout, fun i hi => hleft i (List.mem_range.2 hi),
      fun i hi => hother i (hothers i hi)⟩

/-- Settles O49: a full block, the recovered rows' writes, and the empty block that ends the command. -/
theorem streamReconstructOneBlock : Obligations.StreamReconstructOneBlock := by
  intro s dataOnly L _ hc h hwork hdec hL0 hL hdata hparity
  dsimp only
  obtain ⟨hconf, hok, -⟩ := State.streamVerdict_eq_none.1 h
  have hn := (hc.total hconf).1
  have hne := State.readers_reconstruct_ne_nil hc hconf (State.streamDecodeVerdict_eq_none hdec).1 dataOnly
  have hfull : ∀ i < s.n, (s.inPort i).conn = true → s.Reader i (s.fullLen L i) := fun i hi hconn => by
    unfold State.fullLen
    by_cases hk : i < s.k
    · rw [if_pos hk]
      exact hdata i hk hconn
    · rw [if_neg hk]
      exact hparity i hi (not_lt.1 hk) hconn
  have hmem : ∀ i, i ∈ s.readers (.reconstruct dataOnly) ↔ i < s.n ∧ (s.inPort i).conn = true := fun i => by
    rw [State.readers_reconstruct, List.mem_filter, List.mem_range, decide_eq_true_iff]
  have hread : ∀ i ∈ s.readers (.reconstruct dataOnly), s.Reader i (s.fullLen L i) := fun i hi =>
    hfull i ((hmem i).1 hi).1 ((hmem i).1 hi).2
  obtain ⟨-, -, -, -, hstart⟩ := blockCommandsStart s hc
  obtain ⟨-, -, hstart⟩ := hstart dataOnly
  obtain ⟨hstart, -⟩ := hstart h hwork
  obtain ⟨todo, d, hexec, hperm, -⟩ := hstart hdec
  rw [← s.readers_reconstruct dataOnly] at hperm
  have hissued : s.Issued _ (.reconstruct dataOnly) := State.issued_waiting hperm d
  obtain ⟨n₁, u, hserved₁, hreads, hout, -, i0, hi0, hlow, hrun⟩ :=
    hissued.served_full hc hconf hok hL0 hL hne hread
  obtain ⟨hi0n, hi0conn⟩ := (hmem i0).1 hi0
  obtain ⟨n₂, w, hserved₂, hlater, hat, hin, hwrote, hother⟩ := State.served_recoveredWrites hrun hreads.conn hne
  obtain ⟨n₃, x, hserved₃, hxout, hkeeps, hend, hleft, hothers⟩ :=
    hissued.served_end hc hconf hok hL hne hread hreads hlater hin hat
  have hend : x.EndsAs (s.succeeded 1) := hend
  have hneed : s.blockNeed (.reconstruct dataOnly) = ceilPow2 (s.mpow + s.k) := if_pos hconf
  have hdecode := State.paddedDecode_full (i0 := i0) hok hL fun i hi => hfull i (by omega)
  refine ⟨_, hexec, _, x, State.served_three hserved₁ hserved₂ hserved₃, hend.succeeds (s.succeeds_succeeded 1),
    hend.keepsShards (s.keepsShards_succeeded 1), hneed ▸ hkeeps, ⟨i0, hi0n, hi0conn, fun hp i hi => ?_, ?_⟩,
    fun j hj => ?_, fun i hi hconn => hleft i ((hmem i).2 ⟨hi, hconn⟩),
    fun i hi => hothers i fun hr => ?_⟩
  · by_contra hconn
    exact absurd (hlow hp i ((hmem i).2 ⟨hi.trans hi0n, by simpa using hconn⟩)) (not_le.2 hi)
  · rintro j ⟨hjin, hjout, hj⟩
    have hw := (hwrote _ (State.mem_recoveredWrites (s := s.accept) hj hjin hjout _ _)).congr hout hxout
    rw [(hread i0 hi0).2.2, ← hdecode, ← s.roundUp_fullLen L i0]
    exact hw
  · rw [State.outPort_congr hxout, hother j, State.outPort_congr hout]
    rw [State.keys_recoveredWrites, List.mem_filter, List.mem_range, decide_eq_true_iff]
    exact fun ⟨hlt, hjin, hjout⟩ => hj ⟨hjin, hjout, hlt⟩
  · obtain ⟨hlt, hconn⟩ := (hmem i).1 hr
    rcases hi with hi | hi
    · omega
    · exact absurd (hconn.symm.trans hi) (by decide)

end Sys2Proof
end

section
/-! SUPPORT. STREAM_SPLIT (45_stream.md R314): the staging rows of its shards, and its writes when each is served. -/

namespace Sys2Proof.Machine

/-- Rows stored to staging. -/
def State.putRows (s : State) (row : Nat → List Byte) (l : List Nat) : State :=
  l.foldl (fun t j => t.setStgBytes j (row j)) s

section Rows

variable {s : State} {row : Nat → List Byte} {per : Nat}

theorem State.putRows_cons (i : Nat) (l : List Nat) :
    s.putRows row (i :: l) = (s.setStgBytes i (row i)).putRows row l := rfl

theorem State.putRows_rest (l : List Nat) : s.putRows row l = { s with stg := (s.putRows row l).stg } := by
  induction l generalizing s with
  | nil => rfl
  | cons i l ih =>
    rw [State.putRows_cons, ih]
    rfl

theorem State.stgBytes_putRows_other (hlen : ∀ i, (row i).length = per) (hcap : per ≤ s.params.stgCap) {l : List Nat}
    {j : Nat} (hj : j ∉ l) : (s.putRows row l).stgBytes j per = s.stgBytes j per := by
  induction l generalizing s with
  | nil => rfl
  | cons i l ih =>
    rw [List.mem_cons, not_or] at hj
    obtain ⟨hne, hj⟩ := hj
    have hih := ih (s := s.setStgBytes i (row i)) hcap hj
    rw [State.putRows_cons, hih, State.stgBytes_setStgBytes_apart s hne ((hlen i).trans_le hcap) hcap]

theorem State.stgBytes_putRows (hlen : ∀ i, (row i).length = per) (hcap : per ≤ s.params.stgCap) {l : List Nat}
    (hn : l.Nodup) {j : Nat} (hj : j ∈ l) : (s.putRows row l).stgBytes j per = row j := by
  induction l generalizing s with
  | nil => cases hj
  | cons i l ih =>
    rw [List.nodup_cons] at hn
    obtain ⟨hi, hn⟩ := hn
    rw [State.putRows_cons]
    rcases List.mem_cons.1 hj with rfl | hj
    · have hother := State.stgBytes_putRows_other (s := s.setStgBytes j (row j)) hlen hcap hi
      rw [hother, ← hlen j]
      exact (s.stg_setStgBytes j (row j)).1
    · exact ih hcap hn hj

end Rows

/-- The shards are cut from the first `size` bytes. -/
theorem shardOf_take (l : List Byte) (size per j : Nat) :
    shardOf (fun b => (l.take size).getD b 0) size per j = shardOf (fun b => l.getD b 0) size per j := by
  refine List.map_congr_left fun b _ => ?_
  dsimp only
  split
  · rename_i hlt
    rw [List.getD_eq_getElem?_getD, List.getElem?_take_of_lt hlt, List.getD_eq_getElem?_getD]
  · rfl

/-- STREAM_SPLIT's writes (45_stream.md R314). -/
def State.splitWrites (s : State) (size : Nat) (bytes : List Byte) : List (Nat × List Byte) :=
  (List.range s.k).map fun j => (j, shardOf (fun b => bytes.getD b 0) size (perShard size s.k) j)

theorem State.keys_splitWrites (s : State) (size : Nat) (bytes : List Byte) :
    (s.splitWrites size bytes).map (·.1) = List.range s.k := by
  simp [State.splitWrites, Function.comp_def]

/-- The shards of STREAM_SPLIT in staging (45_stream.md R314). -/
def State.putSplitRows (s : State) (size : Nat) (bytes : List Byte) : State :=
  s.putRows (shardOf (fun b => bytes.getD b 0) size (perShard size s.k)) (List.range s.k)

theorem State.putSplitRows_rest (s : State) (size : Nat) (bytes : List Byte) :
    s.putSplitRows size bytes = { s with stg := (s.putSplitRows size bytes).stg } := s.putRows_rest (List.range s.k)

theorem State.splitRows_eq (s : State) (size : Nat) (bytes : List Byte) : s.splitRows size bytes =
    let u := s.putSplitRows size bytes
    let q := u.ordered ((List.range u.k).map fun j => (j, u.stgBytes j (perShard size s.k)))
    if q.1.isEmpty then q.2.splitEnd (perShard size s.k)
    else .wait (q.2.waitOn (.splitWrite (perShard size s.k) q.1 [])) := rfl

/-- STREAM_SPLIT waits on its first write. -/
theorem State.splitRows_waits {s : State} {size : Nat} (hk : 0 < s.k) (hcap : perShard size s.k ≤ s.params.stgCap)
    (bytes : List Byte) :
    ∃ todo v, todo.Perm (s.splitWrites size bytes) ∧ s.splitRows size bytes = .wait v ∧ s.Later v
      ∧ v.inPorts = s.inPorts ∧ v.outPorts = s.outPorts
      ∧ v.job = some (.splitWrite (perShard size s.k) todo []) ∧ v.seq = .streamIo := by
  have hrest := s.putSplitRows_rest size bytes
  have hwrites : ((List.range (s.putSplitRows size bytes).k).map fun j =>
      (j, (s.putSplitRows size bytes).stgBytes j (perShard size s.k))) = s.splitWrites size bytes := by
    rw [show (s.putSplitRows size bytes).k = s.k by rw [hrest]; rfl]
    refine List.map_congr_left fun j hj => congrArg (j, ·) ?_
    exact State.stgBytes_putRows (length_shardOf _ _ _) hcap List.nodup_range hj
  obtain ⟨todo, d, hord, hperm, -⟩ := (s.putSplitRows size bytes).ordered_eq (s.splitWrites size bytes)
  have htodo : ¬ todo.isEmpty = true := by
    rw [List.isEmpty_iff]
    rintro rfl
    simpa [State.splitWrites, hk.ne'] using hperm.nil_eq
  refine ⟨todo, ({ s.putSplitRows size bytes with draws := d } : State).waitOn
    (.splitWrite (perShard size s.k) todo []), hperm, ?_, ?_, ?_, ?_, rfl, rfl⟩
  · rw [State.splitRows_eq]
    dsimp only
    rw [hwrites, hord, if_neg htodo]
  all_goals rw [hrest]
  · exact ⟨_, _, _, _, _, _, rfl⟩
  · rfl
  · rfl

/-- STREAM_SPLIT's writes, each of them served: the command ends. -/
theorem State.served_splitRows {s : State} {size : Nat} (hk : 0 < s.k) (hcap : perShard size s.k ≤ s.params.stgCap)
    (bytes : List Byte) :
    ∃ n u, State.served n ((s.splitRows size bytes).settleWith State.spoilStg) = .next u
      ∧ u.EndsAs (s.ended (BitVec.ofNat 32 (perShard size s.k))) ∧ u.work = s.work ∧ u.inPorts = s.inPorts
      ∧ (∀ e ∈ s.splitWrites size bytes, s.Wrote u e.1 e.2) ∧ ∀ j, s.k ≤ j → u.outPort j = s.outPort j := by
  obtain ⟨todo, v, hperm, hrows, hlater, hin, hout, hj, hq⟩ := State.splitRows_waits hk hcap bytes
  have hkeys := hperm.map (·.1)
  rw [State.keys_splitWrites] at hkeys
  have htodo : todo ≠ [] := by
    rintro rfl
    simpa [hk.ne'] using hkeys.nil_eq
  obtain ⟨t, hwrites, hserved⟩ := State.served_writes (.splitWrite (perShard size s.k))
    (State.splitEnd (perShard size s.k)) State.spoilStg todo htodo (hkeys.nodup_iff.2 List.nodup_range) v
    (fun u l _ hj => by rw [State.answer, hj]) hj hq
  have hsame := hwrites.same
  have hvt : v.Later t := ⟨_, _, _, _, _, _, hsame⟩
  have htin : t.inPorts = v.inPorts := by
    rw [hsame]
  rw [hrows]
  refine ⟨_, _, hserved, ?_, (hlater.trans hvt).work, htin.trans hin, fun e he => ?_, fun j hj => ?_⟩
  · exact State.EndsAs.trans rfl ((hlater.trans hvt).ended _)
  · exact (hwrites.wrote e (hperm.mem_iff.2 he)).congr hout rfl
  · rw [← State.outPort_congr hout]
    refine hwrites.others j fun hmem => ?_
    have := List.mem_range.1 (hkeys.mem_iff.1 hmem)
    omega

/-- STREAM_SPLIT's read, served with the whole payload. -/
theorem State.answer_splitRead {s : State} {size : Nat} {bytes : List Byte} {p : InPort}
    (hj : s.job = some (.splitRead size)) (hr : s.portRead .served 0 size = (.ok bytes, s.setInPort 0 p))
    (hlen : size ≤ bytes.length) :
    s.answer .served = .next (((s.setInPort 0 p).splitRows size bytes).settleWith State.spoilStg) := by
  rw [State.answer, hj]
  simp only [State.splitReadReply, hr, if_neg (not_lt.2 hlen)]

/-- What STREAM_SPLIT's checks say of its sizes. -/
theorem State.streamSplitVerdict_eq_none {s : State} (h : s.streamSplitVerdict = none) :
    s.status.configured = true ∧ perShard s.size64 s.k ≤ s.params.stgCap := by
  obtain ⟨hconf, -, hown⟩ := State.streamVerdict_eq_none.1 h
  simp only [ite_eq_iff_of_ne, ne_eq, reduceCtorEq, not_false_eq_true] at hown
  exact ⟨hconf, by omega⟩

end Sys2Proof.Machine

namespace Sys2Proof

open Machine

/-- Settles O50: the one read, the shards in staging, and their writes. -/
theorem streamSplitEmitsShards : Obligations.StreamSplitEmitsShards := by
  intro s _ hc h hlen
  dsimp only
  obtain ⟨hconf, hcap⟩ := State.streamSplitVerdict_eq_none h
  obtain ⟨-, hstart, -⟩ := splitAndJoinStreamsStart s hc
  obtain ⟨p, hread, hleft, -⟩ := State.portRead_leaves (s := s.waiting (.splitRead s.size64)) (i := 0)
    (want := s.size64) (bytes := (s.left 0).take s.size64) ⟨rfl, fun hlt => absurd hlen (not_le.2 hlt)⟩
  let t := (s.waiting (.splitRead s.size64)).setInPort 0 p
  obtain ⟨n, u, hserved, hend, hwork, hin, hwrote, hother⟩ := State.served_splitRows (s := t)
    (hc.positive hconf).1 hcap ((s.left 0).take s.size64)
  have hend : u.EndsAs (s.succeeded (BitVec.ofNat 32 (perShard s.size64 s.k))) := hend
  have hanswer : (s.waiting (.splitRead s.size64)).answer .served
      = .next ((t.splitRows s.size64 ((s.left 0).take s.size64)).settleWith State.spoilStg) :=
    State.answer_splitRead rfl hread (by rw [List.length_take]; omega)
  refine ⟨_, hstart h, 1 + n, u, (State.served_add _ _ _ _ (State.served_one _ _ hanswer)).trans hserved,
    hend.succeeds (s.succeeds_succeeded _), hend.keepsShards (s.keepsShards_succeeded _), hwork,
    (State.left_congr hin 0).trans hleft, fun i hi => ?_, fun j hj => ?_, hother⟩
  · rw [State.inPort_congr hin]
    exact (State.inPort_setInPort _ _ _ _).trans (if_neg hi)
  · have hw := hwrote _ (List.mem_map_of_mem (List.mem_range.2 hj))
    dsimp only at hw
    rw [shardOf_take] at hw
    exact hw

end Sys2Proof
end

section
/-! SUPPORT. STREAM_JOIN (45_stream.md R315): one read and its write, and the loop over the readers when each is
served. -/

namespace Sys2Proof.Machine

theorem State.Wrote.nil {s t : State} {j : Nat} (h : t.outPort j = s.outPort j) : s.Wrote t j [] := by
  unfold State.Wrote
  rw [h, List.append_nil]

/-- STREAM_JOIN has moved `want` bytes of reader j, or what it has, to OUT[0]. -/
structure State.JoinRound (s t : State) (j want : Nat) : Prop where
  later : s.Later t
  left : t.left j = (s.left j).drop want
  term : (t.inPort j).term = .eof
  conn : (t.inPort j).conn = true
  inOthers : ∀ i, i ≠ j → t.inPort i = s.inPort i
  wrote : s.Wrote t 0 ((s.left j).take want)
  outOthers : ∀ i, i ≠ 0 → t.outPort i = s.outPort i

/-- A round is a read of `want` bytes and the write of what it gave. -/
theorem State.joinRound_of_ports {s u : State} {j want : Nat} (hr : s.Reader j (s.left j).length) (hlater : s.Later u)
    (hin : u.inPorts = (s.setInPort j ((s.inPort j).readFull want).2).inPorts)
    (hwrote : s.Wrote u 0 ((s.left j).take want)) (hout : ∀ i, i ≠ 0 → u.outPort i = s.outPort i) :
    s.JoinRound u j want := by
  obtain ⟨hconn, hterm, -⟩ := hr
  obtain ⟨-, -, hterm', hconn', hleft⟩ := InPort.readFull_eof (s.inPort j) want hterm
  have hport : ∀ i, u.inPort i = if i = j then ((s.inPort j).readFull want).2 else s.inPort i := fun i =>
    (State.inPort_congr hin i).trans (State.inPort_setInPort _ _ _ _)
  have hj := (hport j).trans (if_pos rfl)
  exact
    { later := hlater
      left := by rw [State.left, hj]; exact hleft
      term := by rw [hj]; exact hterm'
      conn := by rw [hj]; exact hconn'.trans hconn
      inOthers := fun i hi => (hport i).trans (if_neg hi)
      wrote := hwrote
      outOthers := hout }

/-- STREAM_JOIN's read, served: the write of its bytes, or what follows when it gave none. -/
theorem State.answer_streamJoinRead {s t : State} {j rem total : Nat} {bytes : List Byte}
    (hj : s.job = some (.streamJoinRead j rem total))
    (hr : s.portRead .served j (min s.blockSize rem) = (.ok bytes, t)) :
    s.answer .served = .next ((if bytes.isEmpty then t.streamJoinAdvance j rem total 0
      else .wait (t.waitOn (.streamJoinWrite j rem total bytes))).settleWith State.spoilStg) := by
  rw [State.answer, hj]
  simp only [State.streamJoinReadReply, hr]

/-- One read of STREAM_JOIN and the write of its bytes, if it gave any. -/
theorem State.served_joinRound {s : State} {j rem : Nat} (total : Nat) (hrem : rem ≠ 0) (hj : j < s.k)
    (hr : s.Reader j (s.left j).length) :
    ∃ n t, State.served n ((s.streamJoinNext j rem total).settleWith State.spoilStg)
        = .next ((t.streamJoinAdvance j rem total ((s.left j).take (min s.blockSize rem)).length).settleWith
            State.spoilStg)
      ∧ s.JoinRound t j (min s.blockSize rem) := by
  have hround := fun u => State.joinRound_of_ports (u := u) (want := min s.blockSize rem) hr
  obtain ⟨hconn, hterm, -⟩ := hr
  rw [State.streamJoinNext_reads total hrem hj hconn]
  obtain ⟨hbytes, -⟩ := InPort.readFull_eof (s.inPort j) (min s.blockSize rem) hterm
  let bytes := (s.left j).take (min s.blockSize rem)
  let w := s.waitOn (.streamJoinRead j rem total)
  let t := w.setInPort j ((s.inPort j).readFull (min s.blockSize rem)).2
  have hanswer := State.answer_streamJoinRead (s := w) (t := t) (bytes := bytes) rfl
    ((w.portRead_served _ _).trans (Prod.ext hbytes rfl))
  by_cases hempty : bytes = []
  · refine ⟨1, t, State.served_one _ _ ?_, hround t ⟨_, _, _, _, _, _, rfl⟩ rfl ?_ fun _ _ => rfl⟩
    · rw [show (s.left j).take (min s.blockSize rem) = [] from hempty]
      rw [hempty] at hanswer
      exact hanswer
    · rw [show (s.left j).take (min s.blockSize rem) = [] from hempty]
      exact State.Wrote.nil rfl
  · rw [List.isEmpty_eq_false_iff.2 hempty] at hanswer
    let x := t.waitOn (.streamJoinWrite j rem total bytes)
    let u := (x.portWrite .served 0 bytes).2
    obtain ⟨hin, hwrote, hother⟩ : x.MovesOut u 0 bytes := x.portWrite_movesOut .served 0 bytes
    exact ⟨1 + 1, u, (State.served_add 1 1 _ x (State.served_one _ _ hanswer)).trans (State.served_one _ _ rfl),
      hround u ⟨_, _, _, _, _, _, rfl⟩ hin hwrote hother⟩

/-- The bytes of the readers j to k − 1, one after the other. -/
def State.joinLeft (s : State) (j : Nat) : List Byte :=
  (List.range' j (s.k - j)).flatMap s.left

theorem State.joinLeft_of_lt {s : State} {j : Nat} (hj : j < s.k) :
    s.joinLeft j = s.left j ++ s.joinLeft (j + 1) := by
  unfold State.joinLeft
  rw [show s.k - j = s.k - (j + 1) + 1 by omega, List.range'_succ, List.flatMap_cons]

namespace State.JoinRound

variable {s t : State} {j want : Nat}

theorem k (h : s.JoinRound t j want) : t.k = s.k := by
  obtain ⟨_, _, _, _, _, _, rfl⟩ := h.later
  rfl

theorem joinLeft_succ (h : s.JoinRound t j want) : t.joinLeft (j + 1) = s.joinLeft (j + 1) := by
  unfold State.joinLeft
  rw [h.k]
  refine List.flatMap_congr fun i hi => ?_
  rw [State.left, h.inOthers i (by have := List.mem_range'_1.1 hi; omega), State.left]

/-- What the readers have left before a round is what it moves, and what they have left after it. -/
theorem joinLeft (h : s.JoinRound t j want) (hj : j < s.k) :
    s.joinLeft j = (s.left j).take want
      ++ t.joinLeft (if ((s.left j).take want).length < want then j + 1 else j) := by
  rw [State.joinLeft_of_lt hj]
  split
  · rename_i hlt
    rw [h.joinLeft_succ, List.take_of_length_le (by rw [List.length_take] at hlt; omega)]
  · rw [State.joinLeft_of_lt (s := t) (h.k ▸ hj), h.left, h.joinLeft_succ, ← List.append_assoc, List.take_append_drop]

theorem reader (h : s.JoinRound t j want) {i : Nat} (hr : s.Reader i (s.left i).length) :
    t.Reader i (t.left i).length := by
  by_cases hi : i = j
  · rw [hi]
    exact ⟨h.conn, h.term, rfl⟩
  · obtain ⟨hconn, hterm, -⟩ := hr
    exact ⟨by rwa [h.inOthers i hi], by rwa [h.inOthers i hi], rfl⟩

end State.JoinRound

theorem State.blockSize_pos {s : State} (hok : s.blockOk = true) : 0 < s.blockSize := by
  simp only [State.blockOk, Bool.and_eq_true, decide_eq_true_eq] at hok
  obtain ⟨⟨h0, -⟩, -⟩ := hok
  exact Nat.pos_of_ne_zero h0

/-- STREAM_JOIN's loop from reader j on, with every port operation served (45_stream.md R315). A round reaches the next
reader or leaves fewer bytes to go. -/
theorem State.served_streamJoin (s : State) (j rem total : Nat) (hB : 0 < s.blockSize)
    (hr : ∀ i < s.k, s.Reader i (s.left i).length) (hrem : rem ≤ (s.joinLeft j).length) :
    ∃ n u, State.served n ((s.streamJoinNext j rem total).settleWith State.spoilStg) = .next u
      ∧ u.EndsAs (s.ended (BitVec.ofNat 32 (total + rem))) ∧ u.work = s.work
      ∧ s.Wrote u 0 ((s.joinLeft j).take rem) ∧ (∀ i, s.k ≤ i → u.inPort i = s.inPort i)
      ∧ ∀ i, i ≠ 0 → u.outPort i = s.outPort i := by
  by_cases h0 : rem = 0
  · rw [h0, State.streamJoinNext_done]
    exact ⟨0, _, rfl, rfl, rfl, State.Wrote.nil rfl, fun _ _ => rfl, fun _ _ => rfl⟩
  have hj : j < s.k := by
    by_contra hj
    rw [State.joinLeft, Nat.sub_eq_zero_of_le (not_lt.1 hj)] at hrem
    exact h0 (Nat.le_zero.1 hrem)
  obtain ⟨n₁, t, hserved₁, hround⟩ := State.served_joinRound total h0 hj (hr j hj)
  have hsize : t.blockSize = s.blockSize := hround.later.blockSize
  have hgot : ((s.left j).take (min s.blockSize rem)).length ≤ rem :=
    (List.length_take_le _ _).trans (Nat.min_le_right _ _)
  have hjoin := hround.joinLeft hj
  unfold State.streamJoinAdvance at hserved₁
  rw [hsize] at hserved₁
  obtain ⟨n₂, u, hserved₂, hend, hwork, hwrote, hin, hout⟩ :=
    State.served_streamJoin t
      (if ((s.left j).take (min s.blockSize rem)).length < min s.blockSize rem then j + 1 else j)
      (rem - ((s.left j).take (min s.blockSize rem)).length)
      (total + ((s.left j).take (min s.blockSize rem)).length) (hsize ▸ hB)
      (fun i hi => hround.reader (hr i (hround.k ▸ hi)))
      (by rw [hjoin, List.length_append] at hrem; omega)
  refine ⟨n₁ + n₂, u, (State.served_add _ _ _ _ hserved₁).trans hserved₂, ?_, hwork.trans hround.later.work, ?_,
    fun i hi => (hin i (hround.k.trans_le hi)).trans (hround.inOthers i (by omega)),
    fun i hi => (hout i hi).trans (hround.outOthers i hi)⟩
  · rw [show total + rem = total + ((s.left j).take (min s.blockSize rem)).length
      + (rem - ((s.left j).take (min s.blockSize rem)).length) by omega]
    exact hend.trans (hround.later.ended _)
  · rw [hjoin, List.take_append, List.take_of_length_le hgot]
    exact hround.wrote.trans hwrote
termination_by (s.k - j) + rem
decreasing_by
  rw [hround.k]
  split <;> omega

end Sys2Proof.Machine

namespace Sys2Proof

open Machine

/-- Settles O51: STREAM_JOIN's loop from reader 0 on. -/
theorem streamJoinEmitsOutSizeBytes : Obligations.StreamJoinEmitsOutSizeBytes := by
  intro s _ h hreader hlen
  obtain ⟨-, hok, -⟩ := State.streamVerdict_eq_none.1 h
  have hjoin : s.accept.joinLeft 0 = (List.range s.k).flatMap s.left := by
    rw [State.joinLeft, Nat.sub_zero, ← List.range_eq_range']
    rfl
  obtain ⟨n, u, hserved, hend, hwork, hwrote, hin, hout⟩ := s.accept.served_streamJoin 0 s.size64 0
    (State.blockSize_pos (s := s.accept) hok) hreader (by rwa [hjoin])
  rw [Nat.zero_add] at hend
  rw [hjoin] at hwrote
  have hend : u.EndsAs (s.succeeded (BitVec.ofNat 32 s.size64)) := hend
  exact ⟨_, exec_streamJoin_ok h, n, u, hserved, hend.succeeds (s.succeeds_succeeded _),
    hend.keepsShards (s.keepsShards_succeeded _), hwrote, hwork, hin, hout⟩

end Sys2Proof
end

section
/-! SUPPORT. What reset leaves (70_reset_and_hazards.md R380), by the reset input and in `State.resetWith`. -/

namespace Sys2Proof.Machine

/-- A step on the reset input. -/
theorem step_reset {s : State} {rest : List Input} (h : s.inputs = .reset :: rest) :
    step s = .next (State.assertReset { s with inputs := rest }) :=
  step_cons s _ rest h

/-! The registers. A word that is put together from fields is the one of `State.reset`, which is evaluated. -/

theorem State.ctrlWord_assertReset (s : State) : s.assertReset.ctrl.toWord = 0 :=
  calc s.assertReset.ctrl.toWord = State.reset.ctrl.toWord := rfl
    _ = 0 := by decide

theorem State.statusWord_assertReset (s : State) : s.assertReset.statusWord = 0 :=
  calc s.assertReset.statusWord = State.reset.statusWord := rfl
    _ = 0 := by decide

theorem State.readReg_arg_assertReset (s : State) (i : Nat) (h : i < 8) :
    s.assertReset.readReg (0x048 + 4 * i) = 0 :=
  calc s.assertReset.readReg (0x048 + 4 * i) = (Vector.replicate 8 (0 : Word))[i] :=
        s.assertReset.readReg_arg ⟨i, h⟩
    _ = 0 := Vector.getElem_replicate h

/-! The invariants. -/

theorem State.StorageInv.resetWith (p : Params) : (State.resetWith p).StorageInv where
  slots := Memory.wf_drawn _
  dbuf := Memory.wf_drawn _
  work := Memory.wf_drawn _
  stg := Memory.wf_drawn _
  slen := rfl
  inPorts := rfl
  outPorts := rfl
  slenBound := fun _ => Nat.zero_le _
  dlenBound := Nat.zero_le _

/-- The control fields are those that asserting reset leaves. -/
theorem State.ControlInv.resetWith (p : Params) : (State.resetWith p).ControlInv :=
  { State.ControlInv.assertReset (State.resetWith p) with }

/-- GEO, CONFIGURED and FIELD16 are those that a failed CONFIG leaves. -/
theorem State.ConfigInv.resetWith (p : Params) : (State.resetWith p).ConfigInv :=
  (State.ConfigInv.clearConfig (State.resetWith p)).congr ⟨rfl, rfl, rfl⟩

end Sys2Proof.Machine

namespace Sys2Proof

open Machine

/-- Settles O6: `State.assertReset` stores each reset value, and CTRL, STATUS and the ARGs read theirs. -/
theorem resetState : Obligations.ResetState := by
  intro s rest hi
  exact ⟨_, step_reset hi, rfl, rfl, rfl, State.ctrlWord_assertReset _, State.statusWord_assertReset _,
    rfl, rfl, rfl, rfl, rfl, rfl, rfl, rfl, rfl, rfl, rfl, rfl, rfl,
    State.readReg_arg_assertReset _, rfl, rfl, rfl, fun _ => rfl, rfl, rfl, rfl⟩

/-- Settles O7: `State.reset` is `State.resetWith` of one choice of the parameters. -/
theorem invariantsHoldAtReset : Obligations.InvariantsHoldAtReset :=
  have hold (p : Params) : (State.resetWith p).StorageInv ∧ (State.resetWith p).ControlInv
      ∧ (State.resetWith p).ConfigInv :=
    ⟨.resetWith p, .resetWith p, .resetWith p⟩
  have ⟨hstorage, hcontrol, hconfig⟩ := hold Config.defaultParams
  ⟨hstorage, hcontrol, hconfig, hold⟩

end Sys2Proof
end
